-- ==== Sys2Proof/Word.lean ====
section
/-! DEFINITION. The one word type of the model: a byte as it crosses a port (11_frame_and_record_formats.md). Quantities
inside the node are `Nat` and `Int`: R57 forms every intermediate value at whatever width it needs. -/

namespace Sys2Proof

/-- A byte of a frame or record (R196). -/
abbrev Byte := BitVec 8

end Sys2Proof
end

