-- ==== Sys2Proof/Syntax.lean ====
section
/-! DEFINITION. The commands of the node: one constructor for each row of spec/opcode_table.json. Operands are what the
rule of the row says the event carries (log entries 4 and 6). Logger requests carry the sequence byte of their frame and
the payload bytes as received (R175, R200); frames and records carry their bytes (R198, R199). -/

namespace Sys2Proof

/-- A level change on the TRIG line (R39). -/
inductive Edge where
  | rising
  | falling
  deriving DecidableEq, Repr

/-- The commands of the node, in the order of the table. -/
inductive Instr where
  /-- POWER_ON (R15): power is applied. -/
  | powerOn
  /-- TIME_RECORD (R1): whether the record passed its check, its Second, and whether its fix is VALID. -/
  | timeRecord (passed : Bool) (second : Nat) (fixValid : Bool)
  /-- ARMED_RECORD_EXPIRY (R1). -/
  | armedRecordExpiry
  /-- PPS_PULSE (R2): a rising edge; `widthNs` is the pulse's width in ns (R195). -/
  | ppsPulse (widthNs : Nat)
  /-- HOLDOVER_EXPIRY (R7). -/
  | holdoverExpiry
  /-- LOSS_EXPIRY (R8). -/
  | lossExpiry
  /-- RANGE_END (R9). -/
  | rangeEnd
  /-- SLOT_BOUNDARY (R12). -/
  | slotBoundary
  /-- SAMPLE_FRAME (R16): bytes at the sensor port, up to and including the last byte of the frame. -/
  | sampleFrame (bytes : List Byte)
  /-- SENSOR_BYTE_TIMEOUT (R195). -/
  | sensorByteTimeout
  /-- SILENCE_EXPIRY (R28). -/
  | silenceExpiry
  /-- TRIG_EDGE (R39): the level change, and how long the line has held its new level in ms (R195). -/
  | trigEdge (edge : Edge) (heldMs : Nat)
  /-- SETTLE_EXPIRY (R42). -/
  | settleExpiry
  /-- STEP_WAIT_EXPIRY (R47). -/
  | stepWaitExpiry
  /-- END_PULSE_EXPIRY (R54). -/
  | endPulseExpiry
  /-- HOLD_EXPIRY (R130) of the pending entry of `occupation`. -/
  | holdExpiry (occupation : Nat)
  /-- BURST_START (R79). -/
  | burstStart
  /-- RECORD_SENT (R82). -/
  | recordSent
  /-- BURST_END (R82). -/
  | burstEnd
  /-- RECEIVER_LISTEN (R89). -/
  | receiverListen
  /-- HEAD_RECEIVED (R90): bytes at the peer port. -/
  | headReceived (bytes : List Byte)
  /-- PEER_RECORD_RECEIVED (R91): bytes at the peer port. -/
  | peerRecordReceived (bytes : List Byte)
  /-- BAD_LOGGER_FRAME (R174): bytes at the logger port's input line. -/
  | badLoggerFrame (bytes : List Byte)
  /-- LOGGER_BYTE_TIMEOUT (R174). -/
  | loggerByteTimeout
  /-- UNKNOWN_REQUEST (R175): a frame whose kind is no request kind. -/
  | unknownRequest (kind seq : Byte) (payload : List Byte)
  /-- OUTPUT_FRAME_SENT (R177). -/
  | outputFrameSent
  /-- STATUS (R179). -/
  | status (seq : Byte) (payload : List Byte)
  /-- SETUP (R188). -/
  | setup (seq : Byte) (payload : List Byte)
  /-- RUN (R192). -/
  | run (seq : Byte) (payload : List Byte)
  /-- RESTART (R193). -/
  | restart (seq : Byte) (payload : List Byte)
  /-- STAGE (R35). -/
  | stage (seq : Byte) (payload : List Byte)
  /-- COMMIT (R36). -/
  | commit (seq : Byte) (payload : List Byte)
  /-- AMEND (R37). -/
  | amend (seq : Byte) (payload : List Byte)
  /-- START (R40). -/
  | start (seq : Byte) (payload : List Byte)
  /-- STEP (R46). -/
  | step (seq : Byte) (payload : List Byte)
  /-- STOP (R50). -/
  | stop (seq : Byte) (payload : List Byte)
  /-- QUIET (R87). -/
  | quiet (seq : Byte) (payload : List Byte)
  /-- RXMASK (R88). -/
  | rxmask (seq : Byte) (payload : List Byte)
  /-- DROP (R102). -/
  | drop (seq : Byte) (payload : List Byte)
  /-- RESTORE (R103). -/
  | restore (seq : Byte) (payload : List Byte)
  /-- REREF (R122). -/
  | reref (seq : Byte) (payload : List Byte)
  /-- FINISH (R170). -/
  | finish (seq : Byte) (payload : List Byte)
  /-- READ_OCC (R172). -/
  | readOcc (seq : Byte) (payload : List Byte)
  /-- READ_PEER (R116). -/
  | readPeer (seq : Byte) (payload : List Byte)
  /-- READ_SERIES (R116, R123). -/
  | readSeries (seq : Byte) (payload : List Byte)
  /-- READ_LOOP (R153). -/
  | readLoop (seq : Byte) (payload : List Byte)
  deriving DecidableEq, Repr

end Sys2Proof
end

