-- ==== Sys2Proof/Decode.lean ====
section
/-! DEFINITION. The table gives no row any bits ("fields": [] and no fixed bits in every row of spec/opcode_table.json;
its commands come as frames, records, edges and expiries, not as instruction words), so no word spells a command. -/

namespace Sys2Proof

/-- The command that a word spells by the table's bits: none, for the table gives no row any bits. -/
def decodeTableWord (_nbits _w : Nat) : Option Instr := none

end Sys2Proof
end

