-- ==== Sys2Proof/Machine/State.lean ====
section
/-! DEFINITION. Everything the spec gives the node, as plain data, block by block in the names of the manual, and the
values after power-on. Each field's docstring names the rule that gives it. -/

namespace Sys2Proof.Machine

/-! ### Names of states, modes and outcomes (R197) -/

/-- Node state (R186). -/
inductive NodeState where
  | startup
  | running
  deriving DecidableEq, Repr, Inhabited

/-- Role of the node (00_scope.md, R197). -/
inductive Role where
  | rover
  | base
  deriving DecidableEq, Repr, Inhabited

/-- Trigger source (R39, R197). -/
inductive TriggerSource where
  | command
  | lineRise
  | lineFall
  deriving DecidableEq, Repr, Inhabited

/-- Time-base state (chapter 1, "States and their expiries"). -/
inductive TbState where
  | unset
  | locked
  | holdover
  | lost
  deriving DecidableEq, Repr, Inhabited

/-- Occupation state (R38). -/
inductive OccState where
  | idle
  | settling
  | recording
  | waiting
  deriving DecidableEq, Repr, Inhabited

/-- Sensor state (R28). -/
inductive SensorState where
  | present
  | absent
  deriving DecidableEq, Repr, Inhabited

/-- Tide mode of the image, and effective source of a base term (R124, R197). -/
inductive TideMode where
  | model
  | base
  deriving DecidableEq, Repr, Inhabited

/-- Tide request of a header (R197). -/
inductive TideRequest where
  | model
  | auto
  deriving DecidableEq, Repr, Inhabited

/-- Mode of an occupation (R197). -/
inductive Mode where
  | spot
  | stepped
  deriving DecidableEq, Repr, Inhabited

/-- Continuation mode of the intake (R19). -/
inductive ContMode where
  | continuous
  | singleKept
  deriving DecidableEq, Repr, Inhabited

/-- State of a log record (R156, R157). -/
inductive RecState where
  | aborted
  | reduced
  | sealed
  deriving DecidableEq, Repr, Inhabited

/-- Reason of an aborted ending (R156). -/
inductive AbortReason where
  | noisy
  | stopped
  | sensorLost
  deriving DecidableEq, Repr, Inhabited

/-- Outcome of a base term (chapter 7, "the effective source"). -/
inductive BaseOutcome where
  | model
  | bracketed
  | stepNear
  | held
  | awaited
  | modelFallback
  deriving DecidableEq, Repr, Inhabited

/-- State of a peer entry (R97). -/
inductive PeerState where
  | unheard
  | live
  | silent
  | dropped
  deriving DecidableEq, Repr, Inhabited

/-- State of a loop (R138); `opened` is the manual's OPEN. -/
inductive LoopState where
  | opened
  | closing
  | frozen
  | abandoned
  deriving DecidableEq, Repr, Inhabited

/-! ### Flag sets (R197) -/

/-- Record flags (R156). -/
structure RecordFlags where
  settleClamped : Bool := false
  headerAmended : Bool := false
  timeSuspect : Bool := false
  stopped : Bool := false
  stepTimeout : Bool := false
  noisy : Bool := false
  thermal : Bool := false
  clamped : Bool := false
  holdExpired : Bool := false
  forced : Bool := false
  finished : Bool := false
  baseInvalidated : Bool := false
  amendedAfterSeal : Bool := false
  loopAbandoned : Bool := false
  tieUnmatched : Bool := false
  deriving DecidableEq, Repr, Inhabited

/-- Loop flags (R138). -/
structure LoopFlags where
  shortLoop : Bool := false
  driftClamp : Bool := false
  rateProvisional : Bool := false
  tieUnmatched : Bool := false
  deriving DecidableEq, Repr, Inhabited

/-- Latched flags of the logger port (R181). -/
structure LatchedFlags where
  triggerIgnored : Bool := false
  txDropped : Bool := false
  rxOverflow : Bool := false
  idClash : Bool := false
  peerTableFull : Bool := false
  seriesMalformed : Bool := false
  seriesReset : Bool := false
  noticesLost : Bool := false
  deriving DecidableEq, Repr, Inhabited

/-! ### Configuration image (R187, R189) -/

/-- Part 1, Identity. -/
structure Identity where
  nodeId : Nat
  role : Role
  trigger : TriggerSource
  deriving DecidableEq, Repr, Inhabited

/-- Part 2, Schedule: survey epoch (s), slots per cycle S, slot length L (ms), transmit and initial receive masks. -/
structure Schedule where
  epoch : Nat
  slots : Nat
  slotLength : Nat
  txMask : BitVec 32
  rxMask : BitVec 32
  deriving DecidableEq, Repr, Inhabited

/-- Part 3, Sampling: sample period (ms), B, M, Rmax, default block count, default settle time (s), step wait limit (s). -/
structure Sampling where
  period : Nat
  blockLength : Nat
  minAccepted : Nat
  retakeLimit : Nat
  blockCount : Nat
  settle : Nat
  stepWait : Nat
  deriving DecidableEq, Repr, Inhabited

/-- Part 4, Instrument: Ks, G0, ox, oy, Gt, shock limit, Tref, kT, WT. -/
structure Instrument where
  scale : Nat
  offset : Int
  ox : Int
  oy : Int
  tiltGate : Nat
  shockLimit : Nat
  tempRef : Int
  tempCoeff : Int
  tempWindow : Nat
  deriving DecidableEq, Repr, Inhabited

/-- Part 5, Tide: tide mode, T0, constituent count. -/
structure TideConfig where
  mode : TideMode
  offset : Int
  count : Nat
  deriving DecidableEq, Repr, Inhabited

/-- Part 6, Base term: maximum base distance (cm), Gmax (s), H (s), silence limit (cycles). -/
structure BaseConfig where
  maxDistance : Nat
  maxGap : Nat
  holdLimit : Nat
  silenceLimit : Nat
  deriving DecidableEq, Repr, Inhabited

/-- Part 7, Drift: drift correction, drift rate limit (pGal/s), minimum loop time (s). -/
structure DriftConfig where
  on : Bool
  rateLimit : Nat
  minLoopTime : Nat
  deriving DecidableEq, Repr, Inhabited

/-- Part 8, Home: step limit (nGal), home point id, home coordinates (cm). -/
structure HomeConfig where
  stepLimit : Nat
  pointId : Nat
  easting : Int
  northing : Int
  height : Int
  deriving DecidableEq, Repr, Inhabited

/-- Parts 9 to 20, one constituent each: speed, phase, amplitude. -/
structure Constituent where
  speed : Nat
  phase : Nat
  amplitude : Int
  deriving DecidableEq, Repr, Inhabited

/-- The configuration image: each part held whole or not at all (R187). `constituents` has the twelve places of parts
9 to 20, in order. -/
structure Image where
  identity : Option Identity := none
  schedule : Option Schedule := none
  sampling : Option Sampling := none
  instrument : Option Instrument := none
  tide : Option TideConfig := none
  baseTerm : Option BaseConfig := none
  drift : Option DriftConfig := none
  home : Option HomeConfig := none
  constituents : List (Option Constituent) := List.replicate 12 none
  deriving DecidableEq, Repr

/-! ### Time base (chapter 1) -/

/-- The armed time record: its Second, its GNSS value in ms, and the oscillator time of its expiry (R1). -/
structure ArmedRecord where
  second : Nat
  gnss : Int
  expiresAt : Nat
  deriving DecidableEq, Repr

/-- The last accepted pulse: the Second its record named and the node time it marks (R2, R3). -/
structure Pulse where
  second : Nat
  time : Nat
  deriving DecidableEq, Repr

/-- A slew in progress: node time at the pulse, the difference d, and the ms of oscillator time elapsed, 0..1,000 (R4). -/
structure Slew where
  start : Nat
  diff : Int
  elapsed : Nat
  deriving DecidableEq, Repr

/-- State of the time base (R15). -/
structure TimeBase where
  state : TbState := .unset
  nodeTime : Nat := 0
  lastPulse : Option Pulse := none
  armed : Option ArmedRecord := none
  slew : Option Slew := none
  held : Bool := false
  nextBoundary : Option Nat := none
  deriving DecidableEq, Repr

/-! ### Sensor intake (chapter 2) -/

/-- Sums over accepted samples: count, counts, tilt x, tilt y, temperature, arrival stamps (R24, R43). -/
structure Sums where
  n : Nat := 0
  counts : Int := 0
  x : Int := 0
  y : Int := 0
  temp : Int := 0
  time : Int := 0
  deriving DecidableEq, Repr, Inhabited

/-- Rejected arrivals by first failing reason (R21, R24). -/
structure Rejects where
  missing : Nat := 0
  status : Nat := 0
  tilt : Nat := 0
  shock : Nat := 0
  deriving DecidableEq, Repr, Inhabited

/-- The fields of a valid sample frame (chapter 2, "Sample frames as received"). `status` keeps the three defined bits. -/
structure Frame where
  seq : Nat
  counts : Int
  x : Int
  y : Int
  temp : Int
  status : BitVec 3
  deriving DecidableEq, Repr

/-- State of the sensor intake (R33). `rx` holds the bytes of a frame being collected (R198) and `rxLast` the oscillator
time of the last of them (R195). -/
structure Intake where
  isOpen : Bool := false
  mode : ContMode := .continuous
  opening : Nat := 0
  counter : Nat := 0
  sums : Sums := {}
  rejects : Rejects := {}
  shockRef : Option Int := none
  expect : Option Nat := none
  sensor : SensorState := .absent
  silenceAt : Option Nat := none
  rx : List Byte := []
  rxLast : Nat := 0
  deriving DecidableEq, Repr

/-- A block report (R25). -/
structure BlockReport where
  opening : Nat
  kept : Bool
  sums : Sums
  rejects : Rejects
  endTime : Nat
  deriving DecidableEq, Repr

/-! ### Occupation controller (chapter 3) -/

/-- A header (chapter 3, "Headers"). -/
structure Header where
  pointId : Nat
  tie : Bool
  easting : Int
  northing : Int
  height : Int
  tideRequest : TideRequest
  mode : Mode
  preferred : Option Nat
  blockCount : Option Nat
  settle : Option Nat
  settleClamp : Bool
  deriving DecidableEq, Repr, Inhabited

/-- State of the occupation controller (R38, R55). -/
structure Controller where
  state : OccState := .idle
  staged : Option Header := none
  nextHeader : Option Header := none
  pendingMark : Bool := false
  active : Option Header := none
  /-- Occupation number counter; the occupation in progress carries its value (R40). -/
  occNumber : Nat := 0
  startTime : Nat := 0
  /-- K; none while IDLE and in an unbounded base cycle (R45, R53). -/
  k : Option Nat := none
  kept : Nat := 0
  retakes : Nat := 0
  sums : Sums := {}
  rejects : Rejects := {}
  flags : RecordFlags := {}
  settleAt : Option Nat := none
  stepWaitAt : Option Nat := none
  inForce : Option Nat := none
  endLine : Bool := false
  endUntil : Option Nat := none
  deriving DecidableEq, Repr

/-! ### Base samples and base terms (chapters 6 and 7) -/

/-- A sample of a ring or of the home series (R106). -/
structure Sample where
  seq : Nat
  mid : Nat
  residual : Int
  epoch : Nat
  jump : Bool
  clamped : Bool
  amended : Bool
  deriving DecidableEq, Repr, Inhabited

/-- One sample as a bracket stores it: sequence, time, residual (R71). -/
structure Stored where
  seq : Nat
  time : Nat
  residual : Int
  deriving DecidableEq, Repr, Inhabited

/-- A bracket (R71, chapter 7): peer id, series, one or two stored samples, epoch. A HELD or STEP_NEAR bracket has no
second sample. -/
structure Bracket where
  peer : Nat
  series : Nat
  a : Stored
  b : Option Stored
  epoch : Nat
  deriving DecidableEq, Repr, Inhabited

/-- A rover occupation's base term (chapter 7, "the effective source"). -/
structure BaseTerm where
  source : TideMode
  outcome : BaseOutcome
  final : Bool
  bracket : Option Bracket
  r : Int
  expiry : Nat
  deriving DecidableEq, Repr, Inhabited

/-! ### Occupation log, pending list and loops (chapters 8 and 9) -/

/-- The values of a reduced rover record (R156): mid-time, means, fixed terms, base term, drift, V and g_red. -/
structure Values where
  mid : Nat
  g : Int
  xMean : Int
  yMean : Int
  tMean : Int
  cTilt : Int
  cTemp : Int
  tModel : Int
  term : BaseTerm
  loopNo : Option Nat
  d : Int
  driftFrozen : Bool
  v : Int
  gRed : Int
  deriving DecidableEq, Repr, Inhabited

/-- A log record (R156). `values` is absent in aborted and base records. -/
structure Record where
  number : Nat
  header : Header
  state : RecState
  reason : Option AbortReason
  startTime : Nat
  endTime : Nat
  n : Nat
  kept : Nat
  retakes : Nat
  rejects : Rejects
  values : Option Values
  firstObs : Option Nat
  lastObs : Option Nat
  revisions : Nat
  flags : RecordFlags
  deriving DecidableEq, Repr, Inhabited

/-- A pending-list entry (R162). -/
structure PendingEntry where
  occ : Nat
  mid : Nat
  expiry : Nat
  deriving DecidableEq, Repr, Inhabited

/-- A tie as a loop holds it (R138): occupation number, point id, mid-time, value before drift, finality. -/
structure Tie where
  occ : Nat
  pointId : Nat
  mid : Nat
  v : Int
  final : Bool
  deriving DecidableEq, Repr, Inhabited

/-- A loop record (R138). -/
structure Loop where
  number : Nat
  state : LoopState
  joined : Bool
  opening : Tie
  dO : Int
  closingTie : Option Tie
  members : List Nat
  rate : Int
  flags : LoopFlags
  deriving DecidableEq, Repr, Inhabited

/-- The carry line (R137): anchor time, anchor offset, rate, and the abandoned loop's number. -/
structure CarryLine where
  time : Nat
  dO : Int
  rate : Int
  loopNo : Nat
  deriving DecidableEq, Repr, Inhabited

/-- The loop table (R137): OPEN slot, CLOSING slots (older first), last frozen loop, carry line, loop number counter. -/
structure LoopTable where
  openLoop : Option Loop := none
  closing : List Loop := []
  lastFrozen : Option Loop := none
  carry : Option CarryLine := none
  counter : Nat := 0
  deriving DecidableEq, Repr

/-- The home series of a base (R120). -/
structure HomeSeries where
  series : Option Nat := none
  samples : List Sample := []
  deriving DecidableEq, Repr

/-- State of the reduction engine (R69, R118, R136, R154, R173). `waiting` is the pending list (R162). -/
structure Engine where
  log : List Record := []
  waiting : List PendingEntry := []
  loops : LoopTable := {}
  gRef : Option Int := none
  epoch : Nat := 0
  obsCounter : Nat := 0
  latestObs : Nat := 0
  home : HomeSeries := {}
  firstObs : Option Nat := none
  lastObs : Option Nat := none
  deriving DecidableEq, Repr

/-! ### Peer link (chapter 5) -/

/-- The fields of a HEAD (R81, R199). The time-base and node states are as R90 admits them. -/
structure Head where
  sender : Nat
  role : Role
  tbState : TbState
  occState : OccState
  cycle : Nat
  epoch : Nat
  count : Nat
  homeId : Nat
  easting : Int
  northing : Int
  height : Int
  latestObs : Nat
  deriving DecidableEq, Repr, Inhabited

/-- An OBS record (R199); `flags` is the flags byte as carried. -/
structure Obs where
  series : Nat
  seq : Nat
  mid : Nat
  residual : Int
  epoch : Nat
  flags : Byte
  deriving DecidableEq, Repr, Inhabited

/-- A REV record (R199). -/
structure Rev where
  series : Nat
  epoch : Nat
  fromSeq : Nat
  step : Int
  deriving DecidableEq, Repr, Inhabited

/-- A record that may follow a HEAD. -/
inductive PeerRecord where
  | obs (o : Obs)
  | rev (r : Rev)
  deriving DecidableEq, Repr

/-- A record of the transmit queue with its in-flight mark (R80). -/
structure TxItem where
  record : PeerRecord
  inFlight : Bool
  deriving DecidableEq, Repr

/-- The receiver (R89 to R91); `inBurst` holds the sender id, the verdict (take or ignore) and the records to come. -/
inductive Receiver where
  | off
  | listening
  | inBurst (sender : Nat) (take : Bool) (toCome : Nat)
  | discarding
  deriving DecidableEq, Repr, Inhabited

/-- A burst in progress (R80, R82): its bytes as formed, the oscillator time of its start, its record count k and how
many of its records have been sent. -/
structure Burst where
  bytes : List Byte
  startedAt : Nat
  records : Nat
  sent : Nat
  deriving DecidableEq, Repr

/-- A reception that a cycle start closed: the oscillator time of the cycle start, the receiver as it stood and the bytes it
held. It is met by what arrives together with the cycle start and is taken after it (R93, R100; log entry 29). -/
structure ClosedReception where
  closedAt : Nat
  rx : Receiver
  buf : List Byte
  deriving DecidableEq, Repr

/-- State of the peer link (R96). Slots are pairs (cycle number, slot index). `rxBuf` holds the bytes of the HEAD or
record being received. `closed` is the model's own (log entry 29): the reception that the last cycle start closed. -/
structure PeerLink where
  inForce : Option (Nat × Nat) := none
  burst : Option Burst := none
  key : Bool := false
  burstAt : Option Nat := none
  lastBurst : Option (Nat × Nat) := none
  quiet : Nat := 0
  txq : List TxItem := []
  rxMask : Option (BitVec 32) := none
  waitingMask : Option (BitVec 32) := none
  rx : Receiver := .off
  listenAt : Option Nat := none
  rxBuf : List Byte := []
  closed : Option ClosedReception := none
  inq : List (Nat × PeerRecord) := []
  deriving DecidableEq, Repr

/-! ### Peer table and series store (chapter 6) -/

/-- The number of a ring, 0 to 3 (R105). -/
inductive RingNo where
  | r0
  | r1
  | r2
  | r3
  deriving DecidableEq, Repr, Inhabited

/-- A revision mark (R97): from-sequence, epoch, step. -/
structure RevMark where
  fromSeq : Nat
  epoch : Nat
  step : Int
  deriving DecidableEq, Repr, Inhabited

/-- Discard counts of an entry, each 0..65,535, saturating (R97). -/
structure Discards where
  duplicate : Nat := 0
  tooOld : Nat := 0
  malformed : Nat := 0
  stale : Nat := 0
  unused : Nat := 0
  deriving DecidableEq, Repr, Inhabited

/-- A peer entry (R97). -/
structure PeerEntry where
  id : Nat
  role : Option Role := none
  state : PeerState := .unheard
  slotsHeard : BitVec 32 := 0#32
  lastHeard : Nat × Nat := (0, 0)
  heard : Bool := false
  missed : Nat := 0
  repTb : TbState := .unset
  repOcc : OccState := .idle
  repCycle : Nat := 0
  repEpoch : Nat := 0
  repLatest : Nat := 0
  homeId : Nat := 0
  easting : Int := 0
  northing : Int := 0
  height : Int := 0
  ring : Option RingNo := none
  noRing : Bool := false
  series : Option Nat := none
  epoch : Option Nat := none
  mark : Option RevMark := none
  discards : Discards := {}
  deriving DecidableEq, Repr

/-- A ring: the node id it is assigned to, or free, and its samples in increasing sequence (R105, R106). -/
structure Ring where
  owner : Option Nat := none
  samples : List Sample := []
  deriving DecidableEq, Repr

/-- The four rings (R105). -/
structure Rings where
  r0 : Ring := {}
  r1 : Ring := {}
  r2 : Ring := {}
  r3 : Ring := {}
  deriving DecidableEq, Repr

/-- State of the peer table and series store (R117). -/
structure PeerTable where
  entries : List PeerEntry := []
  rings : Rings := {}
  deriving DecidableEq, Repr

/-! ### Logger port (chapter 10) -/

/-- The items of an OCC_END notice (R52). -/
structure OccEnd where
  occ : Nat
  pointId : Nat
  reason : Option AbortReason
  startTime : Nat
  endTime : Nat
  kept : Nat
  retakes : Nat
  flags : RecordFlags
  deriving DecidableEq, Repr

/-- The items of a RESULT notice (R168). -/
structure ResultBody where
  occ : Nat
  pointId : Nat
  tie : Bool
  state : RecState
  revisions : Nat
  gRed : Int
  v : Int
  r : Int
  outcome : BaseOutcome
  final : Bool
  peer : Option Nat
  d : Int
  loopNo : Option Nat
  driftFrozen : Bool
  flags : RecordFlags
  deriving DecidableEq, Repr

/-- The items of a LOOP notice (R150). -/
structure LoopBody where
  number : Nat
  state : LoopState
  rate : Int
  dO : Int
  openingOcc : Nat
  closingOcc : Option Nat
  members : Nat
  flags : LoopFlags
  deriving DecidableEq, Repr

/-- The contents of a notice, by kind (chapter 10, "Notice queue"). -/
inductive NoticeBody where
  /-- TIME_STATE (R11): states before and after, node time, step size in ms. -/
  | timeState (before after : TbState) (time : Nat) (step : Int)
  /-- OCC_END (R52). -/
  | occEnd (b : OccEnd)
  /-- RESULT (R168). -/
  | result (b : ResultBody)
  /-- PEER_STATE (R101, R105): node id, state before (none for a creation) and after, node time, ring, NO_RING mark. -/
  | peerState (id : Nat) (before : Option PeerState) (after : PeerState) (time : Nat) (ring : Option RingNo)
      (noRing : Bool)
  /-- LOOP (R150). -/
  | loop (b : LoopBody)
  deriving DecidableEq, Repr

/-- A notice in the queue with its notice number (R182). -/
structure Notice where
  number : Nat
  body : NoticeBody
  deriving DecidableEq, Repr

/-- An answer frame that waits for the line, with the place of the frame it answers in the order of arrival (R177). -/
structure Answer where
  arrival : Nat
  bytes : List Byte
  deriving DecidableEq, Repr

/-- Which of the three claimants (R177) the frame on the output line came from. -/
inductive Claim where
  | reply
  | busy
  | notice
  deriving DecidableEq, Repr

/-- The frame on the output line, and the oscillator time at which it began (R177). -/
structure LineFrame where
  claim : Claim
  bytes : List Byte
  startedAt : Nat
  deriving DecidableEq, Repr

/-- State of the logger port (R194), but for the node state and the image. `rx` holds the bytes of the frame being
received, empty in HUNTING (R174). -/
structure Port where
  reply : Option Answer := none
  busy : Option Answer := none
  line : Option LineFrame := none
  notices : List Notice := []
  counter : Nat := 0
  latched : LatchedFlags := {}
  changed : BitVec 32 := 0#32
  rx : List Byte := []
  rxLast : Nat := 0
  arrivals : Nat := 0
  deriving DecidableEq, Repr

/-! ### The whole node -/

/-- The node and the queue of commands that wait for it. `osc` is oscillator time in ms since power-on, `free` counts the
free choices drawn (log entries 1 and 3), `period` is the sample period in force for the byte timeout (R195). -/
structure State where
  osc : Nat := 0
  free : Nat := 0
  node : NodeState := .startup
  image : Image := {}
  period : Option Nat := none
  tb : TimeBase := {}
  intake : Intake := {}
  ctl : Controller := {}
  eng : Engine := {}
  link : PeerLink := {}
  peers : PeerTable := {}
  port : Port := {}
  pending : List Instr := []
  deriving DecidableEq, Repr

/-- The node after power-on: every value as R15, R33, R55, R96, R117, R136, R154, R173 and R194 give it (the defaults
of the structures above), with no command waiting. -/
def State.reset : State := {}

/-- Reasons for which the node would stop: the spec has none (no rule stops the node; INVENTORY.md, Faults), so the type
has no constructor. Safe: nothing stops where the hardware goes on. -/
inductive Fault where
  deriving DecidableEq, Repr

/-- Reasons for which a command would be refused. Every row of the table has its meaning, so no command is. -/
inductive Refusal where
  /-- A command whose meaning is not written yet, by its mnemonic: raised by no arm. Safe: it would only stop. -/
  | notModelled (mnemonic : String)
  deriving DecidableEq, Repr

end Sys2Proof.Machine
end

