-- ==== Sys2Proof/Machine/Arith.lean ====
section
/-! DEFINITION. The correction arithmetic of chapter 4: rounding, means, tilt, temperature, the cosine table and the model
tide, base-term interpolation, drift lines and loop rates. -/

namespace Sys2Proof.Machine

/-! ### Rounding (R56) -/

/-- Division rounded to nearest, ties away from zero, on magnitudes (R56). -/
def roundNat (a b : Nat) : Nat := (2 * a + b) / (2 * b)

/-- Division of a signed dividend by a positive divisor, rounded to nearest with ties away from zero (R56). -/
def roundDiv (a : Int) (b : Nat) : Int :=
  if a < 0 then -(roundNat a.natAbs b : Int) else (roundNat a.natAbs b : Int)

/-- A value clamped to the range from `lo` to `hi` (R63, R70, R73). -/
def clampTo (lo hi x : Int) : Int := if x < lo then lo else if hi < x then hi else x

/-! ### The cosine table (R65)

DEDUCED (log entry 19): the entries are computed from R65's formula, the rounded value of cos(i × 0.1°) × 2³⁰. -/

/-- Entries e_0 to e_49 of the cosine table (R65). -/
def cosRow0 : List Nat :=
  [1073741824, 1073740189, 1073735282, 1073727105, 1073715658, 1073700939, 1073682950, 1073661690, 1073637160,
    1073609359, 1073578288, 1073543946, 1073506335, 1073465453, 1073421301, 1073373879, 1073323188, 1073269227,
    1073211997, 1073151498, 1073087729, 1073020692, 1072950387, 1072876812, 1072799970, 1072719860, 1072636482,
    1072549836, 1072459924, 1072366744, 1072270298, 1072170586, 1072067607, 1071961363, 1071851854, 1071739079,
    1071623040, 1071503736, 1071381169, 1071255337, 1071126243, 1070993886, 1070858266, 1070719384, 1070577241,
    1070431836, 1070283171, 1070131246, 1069976060, 1069817616]

/-- Entries e_50 to e_99 of the cosine table (R65). -/
def cosRow1 : List Nat :=
  [1069655912, 1069490950, 1069322731, 1069151254, 1068976520, 1068798530, 1068617284, 1068432783, 1068245027,
    1068054017, 1067859754, 1067662238, 1067461469, 1067257449, 1067050178, 1066839657, 1066625885, 1066408865,
    1066188596, 1065965079, 1065738315, 1065508305, 1065275049, 1065038548, 1064798803, 1064555814, 1064309582,
    1064060108, 1063807393, 1063551438, 1063292242, 1063029808, 1062764136, 1062495226, 1062223079, 1061947697,
    1061669080, 1061387229, 1061102145, 1060813828, 1060522280, 1060227502, 1059929494, 1059628257, 1059323792,
    1059016101, 1058705183, 1058391041, 1058073674, 1057753085]

/-- Entries e_100 to e_149 of the cosine table (R65). -/
def cosRow2 : List Nat :=
  [1057429273, 1057102240, 1056771987, 1056438515, 1056101825, 1055761918, 1055418795, 1055072456, 1054722904,
    1054370139, 1054014162, 1053654975, 1053292578, 1052926972, 1052558159, 1052186140, 1051810915, 1051432487,
    1051050855, 1050666022, 1050277989, 1049886756, 1049492325, 1049094697, 1048693874, 1048289855, 1047882644,
    1047472241, 1047058646, 1046641863, 1046221891, 1045798732, 1045372387, 1044942858, 1044510146, 1044074252,
    1043635178, 1043192924, 1042747493, 1042298886, 1041847103, 1041392147, 1040934018, 1040472719, 1040008250,
    1039540613, 1039069810, 1038595841, 1038118709, 1037638414]

/-- Entries e_150 to e_199 of the cosine table (R65). -/
def cosRow3 : List Nat :=
  [1037154959, 1036668344, 1036178571, 1035685642, 1035189558, 1034690320, 1034187931, 1033682392, 1033173703,
    1032661868, 1032146887, 1031628761, 1031107494, 1030583085, 1030055537, 1029524851, 1028991029, 1028454073,
    1027913983, 1027370763, 1026824413, 1026274935, 1025722331, 1025166602, 1024607751, 1024045778, 1023480686,
    1022912477, 1022341151, 1021766711, 1021189159, 1020608495, 1020024723, 1019437844, 1018847859, 1018254771,
    1017658581, 1017059291, 1016456903, 1015851419, 1015242840, 1014631169, 1014016406, 1013398555, 1012777617,
    1012153594, 1011526488, 1010896300, 1010263033, 1009626689]

/-- Entries e_200 to e_249 of the cosine table (R65). -/
def cosRow4 : List Nat :=
  [1008987269, 1008344775, 1007699210, 1007050575, 1006398873, 1005744105, 1005086273, 1004425380, 1003761427,
    1003094416, 1002424350, 1001751230, 1001075059, 1000395838, 999713570, 999028257, 998339900, 997648502, 996954065,
    996256592, 995556083, 994852542, 994145971, 993436371, 992723745, 992008094, 991289422, 990567731, 989843022,
    989115298, 988384560, 987650812, 986914056, 986174293, 985431526, 984685757, 983936989, 983185223, 982430463,
    981672709, 980911966, 980148234, 979381517, 978611817, 977839135, 977063475, 976284838, 975503228, 974718646,
    973931094]

/-- Entries e_250 to e_299 of the cosine table (R65). -/
def cosRow5 : List Nat :=
  [973140576, 972347094, 971550650, 970751246, 969948885, 969143570, 968335302, 967524084, 966709920, 965892810,
    965072759, 964249767, 963423838, 962594975, 961763179, 960928454, 960090801, 959250224, 958406725, 957560306,
    956710970, 955858721, 955003559, 954145488, 953284511, 952420630, 951553848, 950684167, 949811590, 948936120,
    948057759, 947176510, 946292376, 945405360, 944515463, 943622690, 942727041, 941828522, 940927133, 940022878,
    939115760, 938205781, 937292943, 936377251, 935458707, 934537312, 933613072, 932685987, 931756061, 930823296]

/-- Entries e_300 to e_349 of the cosine table (R65). -/
def cosRow6 : List Nat :=
  [929887697, 928949264, 928008002, 927063913, 926117000, 925167266, 924214714, 923259346, 922301166, 921340177,
    920376381, 919409781, 918440381, 917468183, 916493190, 915515405, 914534832, 913551473, 912565330, 911576408,
    910584710, 909590237, 908592994, 907592983, 906590207, 905584669, 904576373, 903565322, 902551518, 901534965,
    900515665, 899493623, 898468840, 897441321, 896411067, 895378084, 894342372, 893303937, 892262780, 891218905,
    890172315, 889123014, 888071004, 887016290, 885958873, 884898757, 883835946, 882770442, 881702250, 880631371]

/-- Entries e_350 to e_399 of the cosine table (R65). -/
def cosRow7 : List Nat :=
  [879557810, 878481570, 877402654, 876321065, 875236806, 874149882, 873060294, 871968047, 870873144, 869775589,
    868675383, 867572532, 866467037, 865358904, 864248134, 863134732, 862018700, 860900043, 859778763, 858654864,
    857528349, 856399223, 855267487, 854133146, 852996204, 851856663, 850714527, 849569799, 848422484, 847272585,
    846120104, 844965046, 843807414, 842647212, 841484442, 840319110, 839151218, 837980769, 836807768, 835632218,
    834454122, 833273485, 832090309, 830904598, 829716357, 828525588, 827332295, 826136482, 824938152, 823737309]

/-- Entries e_400 to e_449 of the cosine table (R65). -/
def cosRow8 : List Nat :=
  [822533958, 821328100, 820119741, 818908883, 817695531, 816479688, 815261358, 814040545, 812817252, 811591483,
    810363241, 809132531, 807899357, 806663721, 805425628, 804185082, 802942086, 801696644, 800448760, 799198437,
    797945680, 796690493, 795432878, 794172841, 792910384, 791645512, 790378229, 789108538, 787836443, 786561948,
    785285058, 784005775, 782724104, 781440048, 780153612, 778864800, 777573615, 776280062, 774984144, 773685865,
    772385229, 771082241, 769776904, 768469221, 767159198, 765846838, 764532145, 763215124, 761895777, 760574109]

/-- Entries e_450 to e_499 of the cosine table (R65). -/
def cosRow9 : List Nat :=
  [759250125, 757923828, 756595222, 755264311, 753931100, 752595592, 751257791, 749917702, 748575329, 747230676,
    745883746, 744534544, 743183074, 741829340, 740473347, 739115098, 737754597, 736391849, 735026858, 733659628,
    732290163, 730918467, 729544545, 728168401, 726790038, 725409462, 724026676, 722641684, 721254491, 719865101,
    718473518, 717079746, 715683790, 714285654, 712885343, 711482859, 710078209, 708671395, 707262422, 705851295,
    704438018, 703022596, 701605031, 700185330, 698763495, 697339532, 695913445, 694485238, 693054915, 691622481]

/-- Entries e_500 to e_549 of the cosine table (R65). -/
def cosRow10 : List Nat :=
  [690187940, 688751297, 687312556, 685871721, 684428797, 682983788, 681536699, 680087533, 678636296, 677182992,
    675727625, 674270199, 672810719, 671349190, 669885616, 668420001, 666952351, 665482668, 664010958, 662537226,
    661061475, 659583711, 658103938, 656622160, 655138381, 653652607, 652164842, 650675090, 649183356, 647689645,
    646193961, 644696308, 643196691, 641695115, 640191585, 638686104, 637178678, 635669310, 634158007, 632644771,
    631129609, 629612524, 628093521, 626572605, 625049780, 623525051, 621998423, 620469900, 618939487, 617407188]

/-- Entries e_550 to e_599 of the cosine table (R65). -/
def cosRow11 : List Nat :=
  [615873009, 614336954, 612799027, 611259234, 609717579, 608174066, 606628701, 605081488, 603532431, 601981537,
    600428808, 598874251, 597317869, 595759668, 594199651, 592637825, 591074194, 589508762, 587941534, 586372516,
    584801711, 583229125, 581654762, 580078627, 578500725, 576921062, 575339640, 573756466, 572171545, 570584880,
    568996477, 567406341, 565814477, 564220889, 562625582, 561028562, 559429832, 557829399, 556227266, 554623439,
    553017922, 551410721, 549801840, 548191284, 546579058, 544965168, 543349617, 541732411, 540113555, 538493054]

/-- Entries e_600 to e_649 of the cosine table (R65). -/
def cosRow12 : List Nat :=
  [536870912, 535247135, 533621727, 531994694, 530366041, 528735772, 527103892, 525470406, 523835320, 522198638,
    520560366, 518920508, 517279069, 515636054, 513991469, 512345318, 510697606, 509048338, 507397520, 505745156,
    504091252, 502435812, 500778842, 499120346, 497460330, 495798798, 494135756, 492471209, 490805162, 489137620,
    487468587, 485798070, 484126073, 482452601, 480777660, 479101254, 477423388, 475744069, 474063300, 472381087,
    470697435, 469012349, 467325835, 465637896, 463948540, 462257770, 460565593, 458872012, 457177033, 455480662]

/-- Entries e_650 to e_699 of the cosine table (R65). -/
def cosRow13 : List Nat :=
  [453782903, 452083762, 450383244, 448681354, 446978097, 445273479, 443567504, 441860178, 440151506, 438441493,
    436730145, 435017466, 433303463, 431588139, 429871500, 428153553, 426434300, 424713749, 422991905, 421268771,
    419544355, 417818660, 416091693, 414363458, 412633961, 410903207, 409171201, 407437949, 405703456, 403967727,
    402230767, 400492582, 398753177, 397012558, 395270729, 393527696, 391783464, 390038039, 388291425, 386543629,
    384794656, 383044510, 381293198, 379540723, 377787093, 376032312, 374276386, 372519319, 370761118, 369001787]

/-- Entries e_700 to e_749 of the cosine table (R65). -/
def cosRow14 : List Nat :=
  [367241333, 365479759, 363717072, 361953278, 360188380, 358422386, 356655300, 354887127, 353117873, 351347544,
    349576144, 347803679, 346030155, 344255577, 342479951, 340703281, 338925573, 337146832, 335367065, 333586276,
    331804471, 330021655, 328237834, 326453013, 324667198, 322880394, 321092606, 319303840, 317514101, 315723395,
    313931728, 312139104, 310345529, 308551009, 306755549, 304959154, 303161831, 301363584, 299564419, 297764342,
    295963357, 294161471, 292358689, 290555016, 288750459, 286945021, 285138710, 283331530, 281523487, 279714586]

/-- Entries e_750 to e_799 of the cosine table (R65). -/
def cosRow15 : List Nat :=
  [277904834, 276094234, 274282794, 272470518, 270657412, 268843482, 267028733, 265213170, 263396800, 261579627,
    259761657, 257942897, 256123350, 254303023, 252481921, 250660051, 248837417, 247014024, 245189880, 243364988,
    241539355, 239712987, 237885888, 236058064, 234229522, 232400266, 230570302, 228739636, 226908272, 225076218,
    223243478, 221410058, 219575964, 217741200, 215905774, 214069690, 212232953, 210395570, 208557547, 206718887,
    204879599, 203039686, 201199155, 199358010, 197516259, 195673906, 193830956, 191987417, 190143292, 188298588]

/-- Entries e_800 to e_849 of the cosine table (R65). -/
def cosRow16 : List Nat :=
  [186453311, 184607466, 182761058, 180914094, 179066578, 177218517, 175369917, 173520782, 171671118, 169820932,
    167970228, 166119012, 164267291, 162415069, 160562352, 158709147, 156855458, 155001291, 153146651, 151291546,
    149435979, 147579958, 145723486, 143866571, 142009218, 140151432, 138293219, 136434585, 134575535, 132716075,
    130856211, 128995948, 127135293, 125274250, 123412826, 121551025, 119688855, 117826319, 115963425, 114100178,
    112236583, 110372646, 108508373, 106643769, 104778841, 102913593, 101048032, 99182163, 97315992, 95449524]

/-- Entries e_850 to e_899 of the cosine table (R65). -/
def cosRow17 : List Nat :=
  [93582766, 91715723, 89848400, 87980804, 86112939, 84244813, 82376429, 80507795, 78638915, 76769796, 74900443,
    73030862, 71161059, 69291038, 67420807, 65550370, 63679734, 61808903, 59937885, 58066683, 56195305, 54323756,
    52452041, 50580166, 48708138, 46835961, 44963641, 43091184, 41218596, 39345883, 37473049, 35600102, 33727046,
    31853887, 29980631, 28107284, 26233852, 24360339, 22486752, 20613097, 18739379, 16865604, 14991777, 13117905,
    11243993, 9370046, 7496071, 5622073, 3748058, 1874032]

/-- The cosine table, 901 entries e_0 to e_900 (R65). -/
def cosTable : List (List Nat) :=
  [cosRow0, cosRow1, cosRow2, cosRow3, cosRow4, cosRow5, cosRow6, cosRow7, cosRow8] ++
  [cosRow9, cosRow10, cosRow11, cosRow12, cosRow13, cosRow14, cosRow15, cosRow16, cosRow17] ++ [[0]]

/-- Entry e_i (R65). -/
def cosEntry (i : Nat) : Int := (((cosTable[i / 50]?.getD [])[i % 50]?.getD 0 : Nat) : Int)

/-- The fold of an angle in µ°, 0..359,999,999, into the first quadrant: θq and whether the sign is minus (R66). -/
def foldAngle (θ : Nat) : Nat × Bool :=
  if θ ≤ 90000000 then (θ, false)
  else if θ ≤ 180000000 then (180000000 - θ, true)
  else if θ ≤ 269999999 then (θ - 180000000, true)
  else (360000000 - θ, false)

/-- The first-quadrant cosine in units of 2⁻³⁰ (R67). -/
def quadrantCos (θq : Nat) : Int :=
  cosEntry (θq / 100000)
    + roundDiv ((cosEntry (θq / 100000 + 1) - cosEntry (θq / 100000)) * ((θq % 100000 : Nat) : Int)) 100000

/-- The signed cosine c of an angle (R66, R67). -/
def nodeCos (θ : Nat) : Int :=
  if (foldAngle θ).2 then -quadrantCos (foldAngle θ).1 else quadrantCos (foldAngle θ).1

/-- The reduced angle θ_k of a constituent at node time `t` (R64). -/
def tideAngle (c : Constituent) (t : Nat) : Nat := (roundNat (c.speed * t) 3600000 + c.phase) % 360000000

/-- A constituent's term in nGal (R68). -/
def tideTerm (c : Constituent) (t : Nat) : Int := roundDiv (c.amplitude * nodeCos (tideAngle c t)) (2 ^ 30)

/-- The constituents in use: the parts 9 to 8 + c that are held (R187). -/
def Image.inUse (img : Image) : List Constituent :=
  (img.constituents.take (img.tide.getD default).count).filterMap id

/-- The model tide T_model at node time `t` (R64, R68). -/
def modelTide (img : Image) (t : Nat) : Int :=
  (img.tide.getD default).offset + (img.inUse.map (fun c => tideTerm c t)).sum

/-! ### Means and corrections -/

/-- The scaled mean reading G (R60). -/
def meanGravity (ins : Instrument) (s : Sums) : Int :=
  roundDiv (s.counts * (ins.scale : Int)) (s.n * 65536) + ins.offset

/-- The mid-time, the rounded mean of the stamps (R61). -/
def midTime (s : Sums) : Nat := (roundDiv s.time s.n).toNat

/-- The tilt correction from the tilt means (R62). -/
def tiltCorrection (ins : Instrument) (x y : Int) : Int :=
  roundDiv (((x - ins.ox) * (x - ins.ox) + (y - ins.oy) * (y - ins.oy)) * 49) 10000

/-- The temperature difference clamped to the window (R63). -/
def tempDifference (ins : Instrument) (t : Int) : Int :=
  clampTo (-(ins.tempWindow : Int)) ins.tempWindow (t - ins.tempRef)

/-- Whether the temperature clamp acts (R63). -/
def tempClampActs (ins : Instrument) (t : Int) : Bool := tempDifference ins t ≠ t - ins.tempRef

/-- The temperature correction (R63). -/
def tempCorrection (ins : Instrument) (t : Int) : Int := roundDiv (ins.tempCoeff * tempDifference ins t) 100

/-- The fixed terms of an occupation or of a base block: mid-time, means, corrections, model tide, and whether the
temperature clamp acted (R58, R59). -/
structure Fixed where
  mid : Nat
  g : Int
  xMean : Int
  yMean : Int
  tMean : Int
  cTilt : Int
  cTemp : Int
  tModel : Int
  thermal : Bool
  deriving DecidableEq, Repr

/-- The fixed terms formed from sums (R58 to R64). -/
def fixedTerms (img : Image) (s : Sums) : Fixed :=
  let ins := img.instrument.getD default
  let x := roundDiv s.x s.n
  let y := roundDiv s.y s.n
  let t := roundDiv s.temp s.n
  { mid := midTime s
    g := meanGravity ins s
    xMean := x
    yMean := y
    tMean := t
    cTilt := tiltCorrection ins x y
    cTemp := tempCorrection ins t
    tModel := modelTide img (midTime s)
    thermal := tempClampActs ins t }

/-- A base block's value V_b (R69). -/
def Fixed.blockValue (f : Fixed) : Int := f.g + f.cTilt + f.cTemp - f.tModel

/-- A residual clamped to ±2,000,000,000 nGal (R70). -/
def clampResidual (r : Int) : Int := clampTo (-2000000000) 2000000000 r

/-! ### Base term (R71) -/

/-- The base term that a bracket gives at mid-time `t`: interpolated between two samples, or the one sample's residual
(R71). -/
def Bracket.value (b : Bracket) (t : Nat) : Int :=
  match b.b with
  | none => b.a.residual
  | some c =>
    b.a.residual
      + roundDiv ((c.residual - b.a.residual) * ((t : Int) - (b.a.time : Int))) (c.time - b.a.time)

/-! ### Drift (R72 to R74) -/

/-- The value at node time `t` of the drift line with anchor time, anchor offset and rate (R72). -/
def driftLine (tO : Nat) (dO rate : Int) (t : Nat) : Int :=
  dO + roundDiv (rate * ((t : Int) - (tO : Int))) 1000000

/-- Whether a loop's span is below the minimum loop time (R73). -/
def shortSpan (cfg : DriftConfig) (tO tC : Nat) : Bool :=
  (tC : Int) - (tO : Int) < (cfg.minLoopTime : Int) * 1000

/-- The rate of a span that is not short, before the clamp (R73). -/
def rawRate (vO vC : Int) (tO tC : Nat) : Int :=
  roundDiv ((vC - vO) * 1000000) (tC - tO)

/-- A rate clamped to the drift rate limit (R73). -/
def clampRate (cfg : DriftConfig) (r : Int) : Int := clampTo (-(cfg.rateLimit : Int)) cfg.rateLimit r

/-! ### Reduced value (R75) -/

/-- V, the value before drift: G + C_tilt + C_temp − T_model − R (R75). -/
def Values.beforeDrift (x : Values) : Int := x.g + x.cTilt + x.cTemp - x.tModel - x.term.r

/-- V and g_red formed anew from the fixed terms and the current R and D (R75). -/
def Values.reform (x : Values) : Values :=
  { x with v := x.beforeDrift, gRed := x.beforeDrift - x.d }

end Sys2Proof.Machine
end

