-- ==== Sys2Proof/Config.lean ====
section
/-! DEFINITION. The choices the manual leaves open, as constants with no body: nothing in Lean can evaluate them, so
whatever is proved holds for every value they could have. -/

namespace Sys2Proof.Config

/-- DESIGN CHOICE (log entry 3), safe: where several events fall together and no rule orders them ("either may be taken
first", R7, R8, R20 and others), the order is a free value. `tieOrder n j` places the `j`-th event of the `n`-th such
meeting. -/
opaque tieOrder : Nat → Nat → Nat

/-- DESIGN CHOICE (log entry 21), safe: REREF at base epoch 255 is refused with RANGE (R121), whose answer names the
position of the first bad field (R178), and no field carried is bad. The position sent is a free value. -/
opaque epochFieldPosition : Byte

end Sys2Proof.Config
end

