-- ==== Sys2Proof/Machine/Flags.lean ====
section
/-! DEFINITION. The codes of the enumerated fields and the bit layouts of the flag sets (R197). -/

namespace Sys2Proof.Machine

/-! ### Enumerations (R197) -/

/-- Code of a mark or switch: clear 0, set 1 (R197). -/
def markCode (b : Bool) : Nat := if b then 1 else 0

/-- A mark or switch from its code (R197). -/
def markOf : Nat → Option Bool
  | 0 => some false
  | 1 => some true
  | _ => none

def NodeState.code : NodeState → Nat
  | .startup => 0
  | .running => 1

def Role.code : Role → Nat
  | .rover => 0
  | .base => 1

def Role.ofCode : Nat → Option Role
  | 0 => some .rover
  | 1 => some .base
  | _ => none

def TriggerSource.code : TriggerSource → Nat
  | .command => 0
  | .lineRise => 1
  | .lineFall => 2

def TriggerSource.ofCode : Nat → Option TriggerSource
  | 0 => some .command
  | 1 => some .lineRise
  | 2 => some .lineFall
  | _ => none

def TbState.code : TbState → Nat
  | .unset => 0
  | .locked => 1
  | .holdover => 2
  | .lost => 3

def OccState.code : OccState → Nat
  | .idle => 0
  | .settling => 1
  | .recording => 2
  | .waiting => 3

def OccState.ofCode : Nat → Option OccState
  | 0 => some .idle
  | 1 => some .settling
  | 2 => some .recording
  | 3 => some .waiting
  | _ => none

def SensorState.code : SensorState → Nat
  | .present => 0
  | .absent => 1

def TideMode.code : TideMode → Nat
  | .model => 0
  | .base => 1

def TideMode.ofCode : Nat → Option TideMode
  | 0 => some .model
  | 1 => some .base
  | _ => none

def TideRequest.code : TideRequest → Nat
  | .model => 0
  | .auto => 1

def TideRequest.ofCode : Nat → Option TideRequest
  | 0 => some .model
  | 1 => some .auto
  | _ => none

def Mode.code : Mode → Nat
  | .spot => 0
  | .stepped => 1

def Mode.ofCode : Nat → Option Mode
  | 0 => some .spot
  | 1 => some .stepped
  | _ => none

def RecState.code : RecState → Nat
  | .aborted => 1
  | .reduced => 2
  | .sealed => 3

/-- Abort reason: none 0, NOISY 1, STOPPED 2, SENSOR_LOST 3 (R197). -/
def reasonCode : Option AbortReason → Nat
  | none => 0
  | some .noisy => 1
  | some .stopped => 2
  | some .sensorLost => 3

def BaseOutcome.code : BaseOutcome → Nat
  | .model => 1
  | .bracketed => 2
  | .stepNear => 3
  | .held => 4
  | .awaited => 5
  | .modelFallback => 6

def PeerState.code : PeerState → Nat
  | .unheard => 0
  | .live => 1
  | .silent => 2
  | .dropped => 3

def LoopState.code : LoopState → Nat
  | .opened => 0
  | .closing => 1
  | .frozen => 2
  | .abandoned => 3

def RingNo.code : RingNo → Nat
  | .r0 => 0
  | .r1 => 1
  | .r2 => 2
  | .r3 => 3

/-! ### Flag sets (R197) -/

/-- The number whose bits, least significant first, are the given flags. -/
def bitsOf : List Bool → Nat
  | [] => 0
  | b :: bs => markCode b + 2 * bitsOf bs

/-- Record flags, u32, bits 0 to 14 (R197). -/
def RecordFlags.bits (f : RecordFlags) : Nat :=
  bitsOf [f.settleClamped, f.headerAmended, f.timeSuspect, f.stopped, f.stepTimeout, f.noisy, f.thermal, f.clamped,
    f.holdExpired, f.forced, f.finished, f.baseInvalidated, f.amendedAfterSeal, f.loopAbandoned, f.tieUnmatched]

/-- Loop flags, u8 (R197). -/
def LoopFlags.bits (f : LoopFlags) : Nat := bitsOf [f.shortLoop, f.driftClamp, f.rateProvisional, f.tieUnmatched]

/-- Latched flags, u8 (R197). -/
def LatchedFlags.bits (f : LatchedFlags) : Nat :=
  bitsOf [f.triggerIgnored, f.txDropped, f.rxOverflow, f.idClash, f.peerTableFull, f.seriesMalformed, f.seriesReset,
    f.noticesLost]

/-- OBS flags, u8: JUMP 0, CLAMPED 1 (R197). -/
def obsFlagBits (jump clamped : Bool) : Nat := bitsOf [jump, clamped]

/-- Whether slot `n` is named by a slot mask: bit n of the u32 (R197). -/
def inMask (mask : BitVec 32) (n : Nat) : Bool := mask.getLsbD n

/-- Whether a mask names no slot at or above `S` (R88, R191). -/
def maskBelow (mask : BitVec 32) (S : Nat) : Bool := mask.toNat < 2 ^ S

/-- A set of numbers 0..31 with `n` added (slots heard, state-changed flags; R197). -/
def addToSet (m : BitVec 32) (n : Nat) : BitVec 32 := m ||| BitVec.ofNat 32 (if n < 32 then 2 ^ n else 0)

end Sys2Proof.Machine
end

