-- ==== Sys2Proof/Machine/Wire.lean ====
section
/-! DEFINITION. Byte order, the CRC-16, and the layouts of the sensor frame, the peer records and the logger frames
(chapter 11), both ways. -/

namespace Sys2Proof.Machine

/-! ### Byte order (R196) -/

/-- The `k` bytes of a number, least significant first; higher bits are not sent (R196). -/
def leBytes : Nat → Nat → List Byte
  | 0, _ => []
  | k + 1, v => BitVec.ofNat 8 v :: leBytes k (v / 256)

/-- The unsigned number in a little-endian field (R196). -/
def leNat : List Byte → Nat
  | [] => 0
  | b :: bs => b.toNat + 256 * leNat bs

/-- The `k` bytes of a signed number in two's complement (R196). -/
def intBytes (k : Nat) (v : Int) : List Byte := leBytes k (v % (256 ^ k : Nat)).toNat

/-- The signed number in a little-endian two's complement field (R196). -/
def leInt (bs : List Byte) : Int :=
  if 2 * leNat bs < 256 ^ bs.length then (leNat bs : Int) else (leNat bs : Int) - (256 ^ bs.length : Nat)

/-- The bytes of the field at an offset. -/
def field (bs : List Byte) (off size : Nat) : List Byte := (bs.drop off).take size

/-- The unsigned field at an offset. -/
def uAt (bs : List Byte) (off size : Nat) : Nat := leNat (field bs off size)

/-- The signed field at an offset. -/
def sAt (bs : List Byte) (off size : Nat) : Int := leInt (field bs off size)

/-! ### CRC-16 (R196) -/

/-- One bit of the check: shift left, and subtract the polynomial x¹⁶ + x¹² + x⁵ + 1 when a bit leaves at the top. -/
def crcBit (c : BitVec 16) : BitVec 16 := if c.msb then (c <<< 1) ^^^ 0x1021#16 else c <<< 1

/-- One byte of the check, most significant bit first. -/
def crcByte (c : BitVec 16) (b : Byte) : BitVec 16 :=
  crcBit (crcBit (crcBit (crcBit (crcBit (crcBit (crcBit (crcBit (c ^^^ (b.setWidth 16 <<< 8)))))))))

/-- The CRC-16 of R196: initial value all ones, no reflection, no final inversion. -/
def crc16 (bs : List Byte) : BitVec 16 := bs.foldl crcByte 0xFFFF#16

/-- The check as sent: u16, low byte first (R196). -/
def crcBytes (bs : List Byte) : List Byte := leBytes 2 (crc16 bs).toNat

/-- Bytes with their check behind them. -/
def withCrc (bs : List Byte) : List Byte := bs ++ crcBytes bs

/-- Whether the last two bytes are the check over the others. -/
def crcGood (bs : List Byte) : Bool := bs.drop (bs.length - 2) = crcBytes (bs.take (bs.length - 2))

/-! ### Sensor frame (R198) -/

/-- The fields of a sample frame of 18 bytes, or none when its check fails (R16, R198). -/
def parseFrame (bs : List Byte) : Option Frame :=
  if crcGood (bs.drop 1) then
    some { seq := uAt bs 2 1, counts := sAt bs 3 4, x := sAt bs 7 2, y := sAt bs 9 2, temp := sAt bs 11 4
           status := BitVec.ofNat 3 (uAt bs 15 1) }
  else none

/-- A sample frame as the sensor head sends it (R198). -/
def encodeFrame (f : Frame) : List Byte :=
  0xA7#8 :: withCrc (leBytes 1 14 ++ leBytes 1 f.seq ++ intBytes 4 f.counts ++ intBytes 2 f.x ++ intBytes 2 f.y
    ++ intBytes 4 f.temp ++ leBytes 1 f.status.toNat)

/-- The frame receiver of the sensor port over a run of bytes: hunt for 0xA7, take the next byte as the length, go back
to hunting after a length other than 14, collect 18 bytes (R198). Answers the valid frames and the bytes of a frame not
yet complete. The first argument bounds the number of turns; one more than the bytes' count is enough. -/
def sensorFeed : Nat → List Byte → List Frame × List Byte
  | 0, bs => ([], bs)
  | _ + 1, [] => ([], [])
  | n + 1, m :: rest =>
    if m ≠ 0xA7#8 then sensorFeed n rest
    else match rest with
      | [] => ([], [m])
      | l :: rest' =>
        if l ≠ 14#8 then sensorFeed n rest'
        else if rest'.length < 16 then ([], m :: l :: rest')
        else
          let more := sensorFeed n (rest'.drop 16)
          match parseFrame (m :: l :: rest'.take 16) with
          | some f => (f :: more.1, more.2)
          | none => more

/-! ### Peer records (R199) -/

/-- A HEAD as sent: the node state is RUNNING (R81, R199). -/
def encodeHead (h : Head) : List Byte :=
  withCrc (leBytes 1 0xB1 ++ leBytes 1 h.sender ++ leBytes 1 h.role.code
    ++ leBytes 1 (h.tbState.code + 16 * NodeState.running.code) ++ leBytes 1 h.occState.code ++ leBytes 2 h.cycle
    ++ leBytes 1 h.epoch ++ leBytes 1 h.count ++ leBytes 3 h.homeId ++ intBytes 4 h.easting ++ intBytes 4 h.northing
    ++ intBytes 4 h.height ++ leBytes 4 h.latestObs)

/-- The time-base state a HEAD may carry: LOCKED or HOLDOVER (R81, R90). -/
def headTbState : Nat → Option TbState
  | 1 => some .locked
  | 2 => some .holdover
  | _ => none

/-- The HEAD in 30 bytes, or none when it is bad (R90). -/
def parseHead (bs : List Byte) : Option Head :=
  match Role.ofCode (uAt bs 2 1), headTbState (uAt bs 3 1 % 16), OccState.ofCode (uAt bs 4 1) with
  | some role, some tb, some occ =>
    if crcGood bs && uAt bs 0 1 = 0xB1 && 1 ≤ uAt bs 1 1 && uAt bs 1 1 ≤ 31
        && uAt bs 3 1 / 16 = NodeState.running.code && uAt bs 8 1 ≤ 5 then
      some { sender := uAt bs 1 1, role := role, tbState := tb, occState := occ, cycle := uAt bs 5 2
             epoch := uAt bs 7 1, count := uAt bs 8 1, homeId := uAt bs 9 3, easting := sAt bs 12 4
             northing := sAt bs 16 4, height := sAt bs 20 4, latestObs := uAt bs 24 4 }
    else none
  | _, _, _ => none

/-- An OBS or REV as sent (R199). -/
def encodeRecord : PeerRecord → List Byte
  | .obs o =>
    withCrc (leBytes 1 0xB2 ++ leBytes 2 o.series ++ leBytes 4 o.seq ++ leBytes 5 o.mid ++ intBytes 4 o.residual
      ++ leBytes 1 o.epoch ++ [o.flags])
  | .rev r =>
    withCrc (leBytes 1 0xB3 ++ leBytes 2 r.series ++ leBytes 1 r.epoch ++ leBytes 4 r.fromSeq ++ intBytes 4 r.step
      ++ leBytes 6 0)

/-- The OBS or REV in 20 bytes, or none when the record is bad (R91, R199). -/
def parseRecord (bs : List Byte) : Option PeerRecord :=
  if !crcGood bs then none
  else if uAt bs 0 1 = 0xB2 then
    some (.obs { series := uAt bs 1 2, seq := uAt bs 3 4, mid := uAt bs 7 5, residual := sAt bs 12 4
                 epoch := uAt bs 16 1, flags := BitVec.ofNat 8 (uAt bs 17 1) })
  else if uAt bs 0 1 = 0xB3 then
    some (.rev { series := uAt bs 1 2, epoch := uAt bs 3 1, fromSeq := uAt bs 4 4, step := sAt bs 8 4 })
  else none

/-! ### Logger frames (R174, R200) -/

/-- A logger frame: marker, then length, kind, sequence and payload with their check (R200). -/
def loggerFrame (kind seq : Byte) (payload : List Byte) : List Byte :=
  0x5C#8 :: withCrc (leBytes 2 payload.length ++ [kind, seq] ++ payload)

/-- What the frame receiver makes of a run of bytes (R174). -/
inductive LoggerItem where
  /-- A frame ended by a length above 512. -/
  | overlong (kind seq : Byte)
  /-- A complete frame, and whether its check passed. -/
  | frame (kind seq : Byte) (payload : List Byte) (passed : Bool)
  deriving DecidableEq, Repr

/-- The frame receiver of the logger port over a run of bytes (R174): hunt for 0x5C, collect the header, end the frame
there when its length is above 512, else collect the payload and the check. Answers the frames ended and the bytes of a
frame not yet complete. The first argument bounds the number of turns. -/
def loggerFeed : Nat → List Byte → List LoggerItem × List Byte
  | 0, bs => ([], bs)
  | _ + 1, [] => ([], [])
  | n + 1, m :: rest =>
    if m ≠ 0x5C#8 then loggerFeed n rest
    else match rest with
      | l0 :: l1 :: kind :: seq :: body =>
        let len := leNat [l0, l1]
        if 512 < len then
          let more := loggerFeed n body
          (.overlong kind seq :: more.1, more.2)
        else if body.length < len + 2 then ([], m :: rest)
        else
          let more := loggerFeed n (body.drop (len + 2))
          (.frame kind seq (body.take len) (crcGood (rest.take (len + 6))) :: more.1, more.2)
      | _ => ([], m :: rest)

end Sys2Proof.Machine
end

