-- ==== Sys2Proof/Machine/Operands.lean ====
section
/-! DEFINITION. The operand forms of the logger requests: payload lengths, the fields of a SETUP part and of a STAGE header
with their ranges (R35, R188, R189, R200), and the other requests' fields. -/

namespace Sys2Proof.Machine

/-! ### Checks in field order (R35, R188) -/

/-- The position, counted from `k`, of the first check that fails. -/
def firstBad : Nat → List Bool → Option Nat
  | _, [] => none
  | k, ok :: rest => if ok then firstBad (k + 1) rest else some k

/-- A value read from a payload, or the position of the first field out of range. -/
inductive Checked (α : Type) where
  | ok (a : α)
  | bad (at_ : Nat)
  deriving DecidableEq, Repr

/-- A part whose codes are known (`codes`) and whose values are in range (`ranges`), field by field, or the position of
the first field that fails (R188). -/
def checkFields {α : Type} (codes ranges : List Bool) (a : α) : Checked α :=
  match firstBad 1 (List.zipWith (· && ·) codes ranges) with
  | none => .ok a
  | some k => .bad k

/-- Whether an integer lies in a range (ranges are inclusive, 00_scope.md). -/
def inRange (lo hi x : Int) : Bool := lo ≤ x && x ≤ hi

/-! ### The ranges of the image's fields (R189), one entry a field in the order of the part table -/

def Identity.ranges (x : Identity) : List Bool := [inRange 1 31 x.nodeId, true, true]

def Schedule.ranges (x : Schedule) : List Bool :=
  [inRange 0 4294967295 x.epoch, inRange 4 32 x.slots, inRange 150 2000 x.slotLength && x.slotLength % 50 = 0, true, true]

def Sampling.ranges (x : Sampling) : List Bool :=
  [x.period = 100 || x.period = 200 || x.period = 500 || x.period = 1000, inRange 10 600 x.blockLength,
    inRange 1 600 x.minAccepted, inRange 0 15 x.retakeLimit, inRange 0 255 x.blockCount, inRange 0 600 x.settle,
    inRange 10 3600 x.stepWait]

def Instrument.ranges (x : Instrument) : List Bool :=
  [inRange 1 4294967295 x.scale, inRange (-2147483648) 2147483647 x.offset, inRange (-32768) 32767 x.ox,
    inRange (-32768) 32767 x.oy, inRange 1 5000 x.tiltGate, inRange 1 1000000 x.shockLimit,
    inRange (-2147483648) 2147483647 x.tempRef, inRange (-1000000) 1000000 x.tempCoeff, inRange 1 1000000 x.tempWindow]

def TideConfig.ranges (x : TideConfig) : List Bool := [true, inRange (-1000000) 1000000 x.offset, inRange 0 12 x.count]

def BaseConfig.ranges (x : BaseConfig) : List Bool :=
  [inRange 1 10000000 x.maxDistance, inRange 10 3600 x.maxGap, inRange 60 7200 x.holdLimit, inRange 1 255 x.silenceLimit]

def DriftConfig.ranges (x : DriftConfig) : List Bool :=
  [true, inRange 1 500000 x.rateLimit, inRange 60 86400 x.minLoopTime]

def HomeConfig.ranges (x : HomeConfig) : List Bool :=
  [inRange 1 10000000 x.stepLimit, inRange 1 999999 x.pointId, inRange (-10000000) 10000000 x.easting,
    inRange (-10000000) 10000000 x.northing, inRange (-10000000) 10000000 x.height]

def Constituent.ranges (x : Constituent) : List Bool :=
  [inRange 0 100000000 x.speed, inRange 0 359999999 x.phase, inRange (-500000) 500000 x.amplitude]

/-- Every field of every part held lies in its range, and the image has its twelve constituent places (R187, R189). -/
def Image.valid (img : Image) : Bool :=
  (img.identity.all fun x => x.ranges.all id) && (img.schedule.all fun x => x.ranges.all id)
    && (img.sampling.all fun x => x.ranges.all id) && (img.instrument.all fun x => x.ranges.all id)
    && (img.tide.all fun x => x.ranges.all id) && (img.baseTerm.all fun x => x.ranges.all id)
    && (img.drift.all fun x => x.ranges.all id) && (img.home.all fun x => x.ranges.all id)
    && img.constituents.length = 12
    && img.constituents.all (fun c => c.all fun x => x.ranges.all id)

/-! ### The parts as SETUP carries them (R200); `p` is the payload behind the part number -/

def parseIdentity (p : List Byte) : Checked Identity :=
  let x : Identity := { nodeId := uAt p 0 1, role := (Role.ofCode (uAt p 1 1)).getD default
                        trigger := (TriggerSource.ofCode (uAt p 2 1)).getD default }
  checkFields [true, (Role.ofCode (uAt p 1 1)).isSome, (TriggerSource.ofCode (uAt p 2 1)).isSome] x.ranges x

def parseSchedule (p : List Byte) : Checked Schedule :=
  let x : Schedule := { epoch := uAt p 0 4, slots := uAt p 4 1, slotLength := uAt p 5 2
                        txMask := BitVec.ofNat 32 (uAt p 7 4), rxMask := BitVec.ofNat 32 (uAt p 11 4) }
  checkFields (List.replicate 5 true) x.ranges x

def parseSampling (p : List Byte) : Checked Sampling :=
  let x : Sampling := { period := uAt p 0 2, blockLength := uAt p 2 2, minAccepted := uAt p 4 2
                        retakeLimit := uAt p 6 1, blockCount := uAt p 7 1, settle := uAt p 8 2, stepWait := uAt p 10 2 }
  checkFields (List.replicate 7 true) x.ranges x

def parseInstrument (p : List Byte) : Checked Instrument :=
  let x : Instrument := { scale := uAt p 0 4, offset := sAt p 4 4, ox := sAt p 8 2, oy := sAt p 10 2
                          tiltGate := uAt p 12 2, shockLimit := uAt p 14 4, tempRef := sAt p 18 4
                          tempCoeff := sAt p 22 4, tempWindow := uAt p 26 4 }
  checkFields (List.replicate 9 true) x.ranges x

def parseTide (p : List Byte) : Checked TideConfig :=
  let x : TideConfig := { mode := (TideMode.ofCode (uAt p 0 1)).getD default, offset := sAt p 1 4, count := uAt p 5 1 }
  checkFields [(TideMode.ofCode (uAt p 0 1)).isSome, true, true] x.ranges x

def parseBaseTerm (p : List Byte) : Checked BaseConfig :=
  let x : BaseConfig := { maxDistance := uAt p 0 4, maxGap := uAt p 4 2, holdLimit := uAt p 6 2
                          silenceLimit := uAt p 8 1 }
  checkFields (List.replicate 4 true) x.ranges x

def parseDrift (p : List Byte) : Checked DriftConfig :=
  let x : DriftConfig := { on := (markOf (uAt p 0 1)).getD false, rateLimit := uAt p 1 4, minLoopTime := uAt p 5 4 }
  checkFields [(markOf (uAt p 0 1)).isSome, true, true] x.ranges x

def parseHome (p : List Byte) : Checked HomeConfig :=
  let x : HomeConfig := { stepLimit := uAt p 0 4, pointId := uAt p 4 4, easting := sAt p 8 4, northing := sAt p 12 4
                          height := sAt p 16 4 }
  checkFields (List.replicate 5 true) x.ranges x

def parseConstituent (p : List Byte) : Checked Constituent :=
  let x : Constituent := { speed := uAt p 0 4, phase := uAt p 4 4, amplitude := sAt p 8 4 }
  checkFields (List.replicate 3 true) x.ranges x

/-- The bytes of each part's fields (R200). -/
def partBytes : Nat → Nat
  | 1 => 3
  | 2 => 15
  | 3 => 12
  | 4 => 30
  | 5 => 6
  | 6 => 9
  | 7 => 9
  | 8 => 20
  | _ => 12

/-- What a checked part does to the image: it is stored whole (R187), or the field's position is answered (R188). -/
def Checked.store {α : Type} (c : Checked α) (put : α → Image) : Checked Image :=
  match c with
  | .ok a => .ok (put a)
  | .bad k => .bad k

/-- The image after a part in 1..20 has been checked and stored whole, or the position of its first field out of range
(R187, R188). -/
def storePart (img : Image) (part : Nat) (p : List Byte) : Checked Image :=
  match part with
  | 1 => (parseIdentity p).store fun x => { img with identity := some x }
  | 2 => (parseSchedule p).store fun x => { img with schedule := some x }
  | 3 => (parseSampling p).store fun x => { img with sampling := some x }
  | 4 => (parseInstrument p).store fun x => { img with instrument := some x }
  | 5 => (parseTide p).store fun x => { img with tide := some x }
  | 6 => (parseBaseTerm p).store fun x => { img with baseTerm := some x }
  | 7 => (parseDrift p).store fun x => { img with drift := some x }
  | 8 => (parseHome p).store fun x => { img with home := some x }
  | n => (parseConstituent p).store fun x => { img with constituents := img.constituents.set (n - 9) (some x) }

/-- Whether part `n` in 1..20 is held (R187). -/
def Image.holds (img : Image) : Nat → Bool
  | 1 => img.identity.isSome
  | 2 => img.schedule.isSome
  | 3 => img.sampling.isSome
  | 4 => img.instrument.isSome
  | 5 => img.tide.isSome
  | 6 => img.baseTerm.isSome
  | 7 => img.drift.isSome
  | 8 => img.home.isSome
  | n => (img.constituents[n - 9]?.getD none).isSome

/-- The set of parts held, bit n for part n (R201). -/
def Image.heldSet (img : Image) : Nat := bitsOf (false :: (List.range 20).map fun i => img.holds (i + 1))

/-- The lowest part from `lo`, among the next `count`, that is not held. -/
def Image.firstMissing (img : Image) (lo count : Nat) : Option Nat :=
  ((List.range count).map (· + lo)).find? fun n => !img.holds n

/-! ### Payload lengths (R175 check 2, R200) -/

/-- Whether a payload has the length its request kind carries (R200). -/
def payloadLengthOk (kind : Nat) (p : List Byte) : Bool :=
  match kind with
  | 0x02 => match p with
    | [] => false
    | n :: rest => if 1 ≤ n.toNat && n.toNat ≤ 20 then rest.length = partBytes n.toNat else true
  | 0x05 => p.length = 25
  | 0x0B => p.length = 2
  | 0x0C => p.length = 4
  | 0x0D => p.length = 1
  | 0x0E => p.length = 1
  | 0x0F => p.length = 8
  | 0x11 => p.length = 5
  | 0x12 => p.length = 1
  | 0x13 => p.length = 5
  | 0x14 => p.length = 5
  | _ => p.length = 0

/-! ### STAGE (R35, R200) -/

/-- A settle time as held: at most 600 s (R35). -/
def heldSettle (s : Nat) : Nat := if 600 < s then 600 else s

/-- The header in STAGE's 25 payload bytes, or the position of its first field out of range (R35, R200). -/
def parseHeader (p : List Byte) : Checked Header :=
  let h : Header :=
    { pointId := uAt p 0 4
      tie := (markOf (uAt p 4 1)).getD false
      easting := sAt p 5 4
      northing := sAt p 9 4
      height := sAt p 13 4
      tideRequest := (TideRequest.ofCode (uAt p 17 1)).getD default
      mode := (Mode.ofCode (uAt p 18 1)).getD default
      preferred := if uAt p 19 1 = 0 then none else some (uAt p 19 1)
      blockCount := if uAt p 20 1 = 0 then none else some (uAt p 21 1)
      settle := if uAt p 22 1 = 0 then none else some (heldSettle (uAt p 23 2))
      settleClamp := uAt p 22 1 = 1 && 600 < uAt p 23 2 }
  match firstBad 1
    [inRange 1 999999 h.pointId, (markOf (uAt p 4 1)).isSome, inRange (-10000000) 10000000 h.easting,
      inRange (-10000000) 10000000 h.northing, inRange (-10000000) 10000000 h.height,
      (TideRequest.ofCode (uAt p 17 1)).isSome, (Mode.ofCode (uAt p 18 1)).isSome, uAt p 19 1 ≤ 31,
      uAt p 20 1 ≤ 1, uAt p 22 1 ≤ 1] with
  | none => .ok h
  | some k => .bad k

/-- An optional value as presence u8 and value of `k` bytes, zeros when absent (R200, R201). -/
def optBytes (k : Nat) : Option Nat → List Byte
  | none => leBytes (k + 1) 0
  | some v => leBytes 1 1 ++ leBytes k v

/-- STAGE's payload for a header whose settle time in s, as sent, is `settle` (R200). -/
def stagePayload (h : Header) (settle : Option Nat) : List Byte :=
  leBytes 4 h.pointId ++ leBytes 1 (markCode h.tie) ++ intBytes 4 h.easting ++ intBytes 4 h.northing
    ++ intBytes 4 h.height ++ leBytes 1 h.tideRequest.code ++ leBytes 1 h.mode.code
    ++ leBytes 1 (h.preferred.getD 0) ++ optBytes 1 h.blockCount ++ optBytes 2 settle

/-! ### SETUP payloads, for the logger's side (R200) -/

def Identity.payload (x : Identity) : List Byte :=
  leBytes 1 1 ++ leBytes 1 x.nodeId ++ leBytes 1 x.role.code ++ leBytes 1 x.trigger.code

def Schedule.payload (x : Schedule) : List Byte :=
  leBytes 1 2 ++ leBytes 4 x.epoch ++ leBytes 1 x.slots ++ leBytes 2 x.slotLength ++ leBytes 4 x.txMask.toNat
    ++ leBytes 4 x.rxMask.toNat

def Sampling.payload (x : Sampling) : List Byte :=
  leBytes 1 3 ++ leBytes 2 x.period ++ leBytes 2 x.blockLength ++ leBytes 2 x.minAccepted ++ leBytes 1 x.retakeLimit
    ++ leBytes 1 x.blockCount ++ leBytes 2 x.settle ++ leBytes 2 x.stepWait

def Instrument.payload (x : Instrument) : List Byte :=
  leBytes 1 4 ++ leBytes 4 x.scale ++ intBytes 4 x.offset ++ intBytes 2 x.ox ++ intBytes 2 x.oy ++ leBytes 2 x.tiltGate
    ++ leBytes 4 x.shockLimit ++ intBytes 4 x.tempRef ++ intBytes 4 x.tempCoeff ++ leBytes 4 x.tempWindow

def TideConfig.payload (x : TideConfig) : List Byte :=
  leBytes 1 5 ++ leBytes 1 x.mode.code ++ intBytes 4 x.offset ++ leBytes 1 x.count

def BaseConfig.payload (x : BaseConfig) : List Byte :=
  leBytes 1 6 ++ leBytes 4 x.maxDistance ++ leBytes 2 x.maxGap ++ leBytes 2 x.holdLimit ++ leBytes 1 x.silenceLimit

def DriftConfig.payload (x : DriftConfig) : List Byte :=
  leBytes 1 7 ++ leBytes 1 (markCode x.on) ++ leBytes 4 x.rateLimit ++ leBytes 4 x.minLoopTime

def HomeConfig.payload (x : HomeConfig) : List Byte :=
  leBytes 1 8 ++ leBytes 4 x.stepLimit ++ leBytes 4 x.pointId ++ intBytes 4 x.easting ++ intBytes 4 x.northing
    ++ intBytes 4 x.height

/-- `k` is the constituent's number, 1 to 12. -/
def Constituent.payload (k : Nat) (x : Constituent) : List Byte :=
  leBytes 1 (8 + k) ++ leBytes 4 x.speed ++ leBytes 4 x.phase ++ intBytes 4 x.amplitude

end Sys2Proof.Machine
end

