-- ==== Sys2Proof/Machine/Answers.lean ====
section
/-! DEFINITION. What the node sends on the logger port: reply codes (R178, R200), the items of answers and notices in
the widths of R200 to R202. Layout choices that no rule settles are marked and listed in log entry 17. -/

namespace Sys2Proof.Machine

/-! ### Answers (R178, R200) -/

/-- The reply codes of R178 with the items that follow them. -/
inductive Reply where
  | ok (items : List Byte)
  | busy
  | format
  | unknown
  | state
  | role
  /-- RANGE: the part number for SETUP, 0 otherwise, and the field's position. -/
  | range (part at_ : Nat)
  | noHeader
  | noTime (tb : TbState)
  /-- CONFIG: mark 0 and a missing part, or mark 1 and a cross-field rule. -/
  | config (mark number : Nat)
  | notFound
  deriving DecidableEq, Repr

/-- The reply code (R200). -/
def Reply.code : Reply → Nat
  | .ok _ => 0
  | .busy => 1
  | .format => 2
  | .unknown => 3
  | .state => 4
  | .role => 5
  | .range _ _ => 6
  | .noHeader => 7
  | .noTime _ => 8
  | .config _ _ => 9
  | .notFound => 10

/-- The items behind the code and the kind (R178, R200). -/
def Reply.items : Reply → List Byte
  | .ok items => items
  | .range part at_ => leBytes 1 part ++ leBytes 1 at_
  | .noTime tb => leBytes 1 tb.code
  | .config mark number => leBytes 1 mark ++ leBytes 1 number
  | _ => []

/-- An answer frame: kind REPLY (0x80), the sequence of the frame answered, code and request kind first (R178, R200). -/
def answerFrame (kind seq : Byte) (r : Reply) : List Byte :=
  loggerFrame 0x80#8 seq (leBytes 1 r.code ++ [kind] ++ r.items)

/-! ### Items that may be none (R201) -/

/-- A number whose range excludes 0, sent as 0 for none (R201). -/
def orZero (k : Nat) (v : Option Nat) : List Byte := leBytes k (v.getD 0)

/-- A role, ring, series or epoch that may be none: presence u8, then the value (R201). -/
def optRole (r : Option Role) : List Byte := optBytes 1 (r.map Role.code)

def optRing (r : Option RingNo) : List Byte := optBytes 1 (r.map RingNo.code)

/-- A revision mark that may be none: from-sequence u32, epoch u8, step s64 (R97, R201). DESIGN CHOICE (log entry 30): the
step takes R201's width, not that of the REV's field. -/
def optMark : Option RevMark → List Byte
  | none => leBytes 14 0
  | some m => leBytes 1 1 ++ leBytes 4 m.fromSeq ++ leBytes 1 m.epoch ++ intBytes 8 m.step

/-- A list: u8 count, then the items (R201). -/
def listBytes {α : Type} (f : α → List Byte) (l : List α) : List Byte :=
  leBytes 1 l.length ++ l.flatMap f

/-! ### Notices (R11, R52, R101, R150, R168, R201) -/

/-- The kind of a notice's frame (R200). -/
def NoticeBody.kind : NoticeBody → Byte
  | .timeState .. => 0x81#8
  | .occEnd _ => 0x82#8
  | .result _ => 0x83#8
  | .peerState .. => 0x84#8
  | .loop _ => 0x85#8

def OccEnd.bytes (b : OccEnd) : List Byte :=
  leBytes 4 b.occ ++ leBytes 4 b.pointId
    ++ leBytes 1 (if b.reason.isSome then RecState.aborted.code else RecState.reduced.code)
    ++ leBytes 1 (reasonCode b.reason) ++ leBytes 5 b.startTime ++ leBytes 5 b.endTime ++ leBytes 4 b.kept
    ++ leBytes 4 b.retakes ++ leBytes 4 b.flags.bits

def ResultBody.bytes (b : ResultBody) : List Byte :=
  leBytes 4 b.occ ++ leBytes 4 b.pointId ++ leBytes 1 (markCode b.tie) ++ leBytes 1 b.state.code
    ++ leBytes 1 b.revisions ++ intBytes 8 b.gRed ++ intBytes 8 b.v ++ intBytes 8 b.r ++ leBytes 1 b.outcome.code
    ++ leBytes 1 (markCode b.final) ++ orZero 1 b.peer ++ intBytes 8 b.d ++ orZero 4 b.loopNo
    ++ leBytes 1 (markCode b.driftFrozen) ++ leBytes 4 b.flags.bits

def LoopBody.bytes (b : LoopBody) : List Byte :=
  leBytes 4 b.number ++ leBytes 1 b.state.code ++ intBytes 4 b.rate ++ intBytes 8 b.dO ++ leBytes 4 b.openingOcc
    ++ orZero 4 b.closingOcc ++ leBytes 1 b.members ++ leBytes 1 b.flags.bits

/-- The payload of a notice's frame. DESIGN CHOICE (log entry 32): PEER_STATE sends the NO_RING mark that R105 has visible in
it behind R101's items. -/
def NoticeBody.bytes : NoticeBody → List Byte
  | .timeState before after time step =>
    leBytes 1 before.code ++ leBytes 1 after.code ++ leBytes 5 time ++ intBytes 8 step
  | .occEnd b => b.bytes
  | .result b => b.bytes
  | .peerState id before after time ring noRing =>
    leBytes 1 id ++ optBytes 1 (before.map PeerState.code) ++ leBytes 1 after.code ++ leBytes 5 time ++ optRing ring
      ++ leBytes 1 (markCode noRing)
  | .loop b => b.bytes

/-- The frame of a notice, its number in the sequence field (R182, R185). -/
def Notice.frame (n : Notice) : List Byte := loggerFrame n.body.kind (BitVec.ofNat 8 n.number) n.body.bytes

/-! ### READ_OCC (R202) -/

/-- The items of a record from offset 71 to offset 185 of R202; all 0 in aborted and base records. -/
def Values.bytes (x : Values) : List Byte :=
  let t := x.term
  let b := t.bracket
  let c := b.bind Bracket.b
  intBytes 8 x.g ++ intBytes 2 x.xMean ++ intBytes 2 x.yMean ++ intBytes 4 x.tMean ++ intBytes 4 x.cTilt
    ++ intBytes 8 x.cTemp ++ intBytes 4 x.tModel
    ++ leBytes 1 t.source.code ++ leBytes 1 t.outcome.code ++ leBytes 1 (markCode t.final)
    ++ orZero 1 (b.map Bracket.peer) ++ orZero 2 (b.map Bracket.series)
    ++ orZero 4 (b.map (·.a.seq)) ++ orZero 4 (c.map Stored.seq)
    ++ orZero 5 (b.map (·.a.time)) ++ orZero 5 (c.map Stored.time)
    ++ intBytes 8 ((b.map (·.a.residual)).getD 0) ++ intBytes 8 ((c.map Stored.residual).getD 0)
    ++ orZero 1 (b.map Bracket.epoch)
    ++ intBytes 8 t.r ++ leBytes 5 t.expiry ++ orZero 4 x.loopNo ++ intBytes 8 x.d
    ++ leBytes 1 (markCode x.driftFrozen) ++ intBytes 8 x.v ++ intBytes 8 x.gRed

/-- The 197 item bytes of a READ_OCC answer, behind code and kind (R202). -/
def Record.bytes (r : Record) : List Byte :=
  leBytes 4 r.number ++ leBytes 4 r.header.pointId
    ++ leBytes 1 (markCode r.header.tie) ++ leBytes 1 r.header.mode.code ++ leBytes 1 r.header.tideRequest.code
    ++ orZero 1 r.header.preferred
    ++ intBytes 4 r.header.easting ++ intBytes 4 r.header.northing ++ intBytes 4 r.header.height
    ++ leBytes 1 r.state.code ++ leBytes 1 (reasonCode r.reason)
    ++ leBytes 5 r.startTime ++ leBytes 5 r.endTime ++ leBytes 5 ((r.values.map Values.mid).getD 0)
    ++ leBytes 4 r.n ++ leBytes 4 r.kept ++ leBytes 4 r.retakes
    ++ leBytes 4 r.rejects.missing ++ leBytes 4 r.rejects.status ++ leBytes 4 r.rejects.tilt
    ++ leBytes 4 r.rejects.shock
    ++ (match r.values with
        | some x => x.bytes
        | none => leBytes 115 0)
    ++ orZero 4 r.firstObs ++ orZero 4 r.lastObs ++ leBytes 1 r.revisions ++ leBytes 4 r.flags.bits

/-! ### READ_PEER and READ_SERIES (R97, R106, R116, R123) -/

/-- An entry in the whole-table answer: node id, role, state and ring (R116). -/
def PeerEntry.rowBytes (e : PeerEntry) : List Byte :=
  leBytes 1 e.id ++ optRole e.role ++ leBytes 1 e.state.code ++ optRing e.ring

/-- Every field of an entry in the order of R97. DESIGN CHOICE (log entry 17): last heard and the reported fields are
never none on the wire; they are sent as 0 when no HEAD has set them. DESIGN CHOICE (log entry 30): the home point id takes
R201's width, not that of the HEAD's field. -/
def PeerEntry.bytes (e : PeerEntry) : List Byte :=
  leBytes 1 e.id ++ optRole e.role ++ leBytes 1 e.state.code ++ leBytes 4 e.slotsHeard.toNat
    ++ leBytes 4 e.lastHeard.1 ++ leBytes 1 e.lastHeard.2 ++ leBytes 1 (markCode e.heard) ++ leBytes 1 e.missed
    ++ leBytes 1 e.repTb.code ++ leBytes 1 e.repOcc.code ++ leBytes 2 e.repCycle ++ leBytes 1 e.repEpoch
    ++ leBytes 4 e.repLatest ++ leBytes 4 e.homeId ++ intBytes 4 e.easting ++ intBytes 4 e.northing
    ++ intBytes 4 e.height ++ optRing e.ring ++ leBytes 1 (markCode e.noRing) ++ optBytes 2 e.series
    ++ optBytes 1 e.epoch ++ optMark e.mark
    ++ leBytes 2 e.discards.duplicate ++ leBytes 2 e.discards.tooOld ++ leBytes 2 e.discards.malformed
    ++ leBytes 2 e.discards.stale ++ leBytes 2 e.discards.unused

/-- The sequence and mid-time of an oldest or latest sample, or none. DESIGN CHOICE (log entry 17): the mid-time is
preceded by a presence u8, since it may be none. -/
def endSample (x : Option Sample) : List Byte :=
  orZero 4 (x.map Sample.seq) ++ optBytes 5 (x.map Sample.mid)

/-- The answer to READ_PEER with a node id (R116): the entry, then its sample count and its oldest and latest samples. -/
def peerAnswer (e : PeerEntry) (samples : List Sample) : List Byte :=
  e.bytes ++ leBytes 1 samples.length ++ endSample samples.head? ++ endSample samples.getLast?

/-- A sample with all the fields of R106. -/
def Sample.bytes (x : Sample) : List Byte :=
  leBytes 4 x.seq ++ leBytes 5 x.mid ++ intBytes 8 x.residual ++ leBytes 1 x.epoch
    ++ leBytes 1 (obsFlagBits x.jump x.clamped) ++ leBytes 1 (markCode x.amended)

/-- Up to 8 samples with sequences at or above `fromSeq`, in increasing sequence (R116, R123). -/
def readSamples (samples : List Sample) (fromSeq : Nat) : List Sample :=
  (samples.filter fun x => fromSeq ≤ x.seq).take 8

/-- The answer to READ_SERIES of a peer (R116): series, epoch, revision mark, samples, then whether the entry has a ring
and whether it carries NO_RING. DESIGN CHOICE (log entry 17): the two marks come last, a u8 each. -/
def seriesAnswer (e : PeerEntry) (samples : List Sample) (fromSeq : Nat) : List Byte :=
  optBytes 2 e.series ++ optBytes 1 e.epoch ++ optMark e.mark ++ listBytes Sample.bytes (readSamples samples fromSeq)
    ++ leBytes 1 (markCode e.ring.isSome) ++ leBytes 1 (markCode e.noRing)

/-- The answer to READ_SERIES of the node's own home series (R123): series, base epoch, samples. DESIGN CHOICE (log
entry 17): the base epoch is never none, so it has no presence byte, and no revision mark is sent. -/
def homeAnswer (h : HomeSeries) (epoch fromSeq : Nat) : List Byte :=
  optBytes 2 h.series ++ leBytes 1 epoch ++ listBytes Sample.bytes (readSamples h.samples fromSeq)

/-! ### READ_LOOP (R138, R153) -/

def CarryLine.bytes (c : CarryLine) : List Byte :=
  leBytes 5 c.time ++ intBytes 8 c.dO ++ intBytes 4 c.rate ++ leBytes 4 c.loopNo

/-- The loops in the OPEN and CLOSING slots, in loop order. -/
def LoopTable.slots (t : LoopTable) : List Loop := t.closing ++ t.openLoop.toList

/-- The answer to READ_LOOP of the table (R153). DESIGN CHOICE (log entry 17): the OPEN slot's loop is listed first, then
the CLOSING slots, older first. -/
def LoopTable.answer (t : LoopTable) : List Byte :=
  leBytes 4 t.counter
    ++ listBytes (fun l : Loop => leBytes 4 l.number ++ leBytes 1 l.state.code) (t.openLoop.toList ++ t.closing)
    ++ orZero 4 (t.lastFrozen.map Loop.number)
    ++ (match t.carry with
        | none => leBytes 22 0
        | some c => leBytes 1 1 ++ c.bytes)

/-- A closing tie: DESIGN CHOICE (log entry 17), one item with a presence u8, absent while OPEN. -/
def closingTieBytes : Option Tie → List Byte
  | none => leBytes 19 0
  | some c => leBytes 1 1 ++ leBytes 4 c.occ ++ leBytes 5 c.mid ++ intBytes 8 c.v ++ leBytes 1 (markCode c.final)

/-- Every field of R138 for a held loop (R153). -/
def Loop.bytes (l : Loop) : List Byte :=
  leBytes 4 l.number ++ leBytes 1 l.state.code ++ leBytes 1 (markCode l.joined)
    ++ leBytes 4 l.opening.occ ++ leBytes 4 l.opening.pointId ++ leBytes 5 l.opening.mid ++ intBytes 8 l.opening.v
    ++ leBytes 1 (markCode l.opening.final) ++ intBytes 8 l.dO ++ closingTieBytes l.closingTie
    ++ listBytes (leBytes 4) l.members ++ intBytes 4 l.rate ++ leBytes 1 l.flags.bits

/-- The carry line's abandoned loop: number, state ABANDONED, anchor time, anchor offset and rate (R153). -/
def CarryLine.loopBytes (c : CarryLine) : List Byte :=
  leBytes 4 c.loopNo ++ leBytes 1 LoopState.abandoned.code ++ leBytes 5 c.time ++ intBytes 8 c.dO ++ intBytes 4 c.rate

end Sys2Proof.Machine
end

