-- ==== Sys2Proof/Machine/Ops.lean ====
section
/-! DEFINITION. The named operations every block uses: replacing one block's state, reading the image, the cycle and slot
of a node time, latching a flag, offering a notice, answering a frame, serving the output line, and ordering events that
fall together. -/

namespace Sys2Proof.Machine

/-! ### One block's state replaced -/

def State.setTb (s : State) (x : TimeBase) : State := { s with tb := x }

def State.setIntake (s : State) (x : Intake) : State := { s with intake := x }

def State.setCtl (s : State) (x : Controller) : State := { s with ctl := x }

def State.setEng (s : State) (x : Engine) : State := { s with eng := x }

def State.setLink (s : State) (x : PeerLink) : State := { s with link := x }

def State.setPeers (s : State) (x : PeerTable) : State := { s with peers := x }

def State.setPort (s : State) (x : Port) : State := { s with port := x }

/-! ### The image as the blocks read it

While the node is RUNNING every part a block reads is held (R187, R191). A part that is not held reads as zeros: DESIGN
CHOICE (log entry 9), met in no run. -/

def State.identity (s : State) : Identity := s.image.identity.getD default

def State.schedule (s : State) : Schedule := s.image.schedule.getD default

def State.sampling (s : State) : Sampling := s.image.sampling.getD default

def State.instrument (s : State) : Instrument := s.image.instrument.getD default

def State.tide (s : State) : TideConfig := s.image.tide.getD default

def State.baseTerm (s : State) : BaseConfig := s.image.baseTerm.getD default

def State.driftCfg (s : State) : DriftConfig := s.image.drift.getD default

def State.homeCfg (s : State) : HomeConfig := s.image.home.getD default

/-- Whether the node's role is BASE. -/
def State.isBase (s : State) : Bool := s.identity.role = .base

/-! ### Cycles and slots (R12) -/

/-- Cycle number and slot index of node time `t` (R12). -/
def Schedule.slotOf (c : Schedule) (t : Nat) : Nat × Nat :=
  (t / (c.slots * c.slotLength), t % (c.slots * c.slotLength) / c.slotLength)

/-- The node time at which the slot of node time `t` began (R12). -/
def Schedule.slotStart (c : Schedule) (t : Nat) : Nat := t - t % c.slotLength

/-- The first slot boundary strictly after node time `t` (R12, R13). -/
def Schedule.nextBoundary (c : Schedule) (t : Nat) : Nat := (t / c.slotLength + 1) * c.slotLength

/-- The range end, 86,400,000,000 ms (chapter 1, "Node time"; R9). -/
def rangeEnd : Nat := 86400000000

/-! ### Latched flags (R181) -/

/-- A latched flag is set at the logger port (R181). -/
def Port.latch (p : Port) (f : LatchedFlags → LatchedFlags) : Port := { p with latched := f p.latched }

def State.latch (s : State) (f : LatchedFlags → LatchedFlags) : State := s.setPort (s.port.latch f)

def latchTriggerIgnored (f : LatchedFlags) : LatchedFlags := { f with triggerIgnored := true }

def latchTxDropped (f : LatchedFlags) : LatchedFlags := { f with txDropped := true }

def latchRxOverflow (f : LatchedFlags) : LatchedFlags := { f with rxOverflow := true }

def latchIdClash (f : LatchedFlags) : LatchedFlags := { f with idClash := true }

def latchPeerTableFull (f : LatchedFlags) : LatchedFlags := { f with peerTableFull := true }

def latchSeriesMalformed (f : LatchedFlags) : LatchedFlags := { f with seriesMalformed := true }

def latchSeriesReset (f : LatchedFlags) : LatchedFlags := { f with seriesReset := true }

def latchNoticesLost (f : LatchedFlags) : LatchedFlags := { f with noticesLost := true }

/-! ### Notice queue (R182 to R184) -/

/-- Whether a queued notice is the RESULT of occupation `occ` (R183). -/
def Notice.isResultOf (occ : Nat) (n : Notice) : Bool :=
  match n.body with
  | .result r => r.occ = occ
  | _ => false

/-- A notice is appended under the next number; at 32 held the head is discarded and NOTICES_LOST latched (R182, R184). -/
def Port.append (p : Port) (b : NoticeBody) : Port :=
  let n : Notice := { number := (p.counter + 1) % 256, body := b }
  if p.notices.length < 32 then
    { p with counter := n.number, notices := p.notices ++ [n] }
  else
    { p with counter := n.number, notices := p.notices.tail ++ [n], latched := latchNoticesLost p.latched }

/-- A notice is offered (R182): a RESULT whose occupation has one in the queue replaces it in place (R183). -/
def Port.offer (p : Port) (b : NoticeBody) : Port :=
  match b with
  | .result r =>
    if p.notices.any (Notice.isResultOf r.occ) then
      { p with notices := p.notices.map fun n => if n.isResultOf r.occ then { n with body := b } else n }
    else p.append b
  | _ => p.append b

def State.offer (s : State) (b : NoticeBody) : State := s.setPort (s.port.offer b)

/-- The notices of one event, in the order in which the block offers them (R182). -/
def State.offerAll (s : State) (bs : List NoticeBody) : State := bs.foldl State.offer s

/-! ### Answers and the output line (R176, R177) -/

/-- Whether a reply is owed: formed and waiting, or on the line with bytes still to send (R176). -/
def Port.owed (p : Port) : Bool := p.reply.isSome || p.line.any fun l => l.claim = .reply

/-- A frame is answered: its answer becomes the reply owed (R176). -/
def Port.answer (p : Port) (kind seq : Byte) (r : Reply) : Port :=
  { p with reply := some { arrival := p.arrivals, bytes := answerFrame kind seq r }, arrivals := p.arrivals + 1 }

/-- A frame is discarded under a reply owed: BUSY takes the one BUSY place (R176). -/
def Port.answerBusy (p : Port) (kind seq : Byte) : Port :=
  { p with busy := some { arrival := p.arrivals, bytes := answerFrame kind seq .busy }, arrivals := p.arrivals + 1 }

def State.answer (s : State) (kind seq : Byte) (r : Reply) : State := s.setPort (s.port.answer kind seq r)

/-- A frame that is answered without being acted on: FORMAT or UNKNOWN, or BUSY under a reply owed (R176). -/
def State.answerOrBusy (s : State) (kind seq : Byte) (r : Reply) : State :=
  if s.port.owed then s.setPort (s.port.answerBusy kind seq) else s.answer kind seq r

/-- The output line begins a frame when it is idle and something waits: answers first, in the order of arrival of the
frames they answer, then the head notice, which leaves the queue (R177, R185). -/
def Port.serve (p : Port) (osc : Nat) : Port :=
  match p.line with
  | some _ => p
  | none =>
    match p.reply, p.busy with
    | some r, some b =>
      if r.arrival ≤ b.arrival then
        { p with reply := none, line := some { claim := .reply, bytes := r.bytes, startedAt := osc } }
      else { p with busy := none, line := some { claim := .busy, bytes := b.bytes, startedAt := osc } }
    | some r, none => { p with reply := none, line := some { claim := .reply, bytes := r.bytes, startedAt := osc } }
    | none, some b => { p with busy := none, line := some { claim := .busy, bytes := b.bytes, startedAt := osc } }
    | none, none =>
      match p.notices with
      | [] => p
      | n :: rest => { p with notices := rest, line := some { claim := .notice, bytes := n.frame, startedAt := osc } }

/-- The output line is served at the end of an event, when all its notices are queued (R177, R182). -/
def State.serve (s : State) : State := s.setPort (s.port.serve s.osc)

/-! ### Requests (R175) -/

/-- A request frame whose check passed: BUSY under a reply owed (R176), then R175's checks of payload length and node
state, then the owning block's handler, whose reply is formed when its effect is complete. `kind` is the request kind.
The frame's end leaves the receiver HUNTING (R174). -/
def State.request (s : State) (kind : Nat) (allowed : NodeState → Bool) (handler : State → State × Reply)
    (seq : Byte) (payload : List Byte) : State :=
  let k := BitVec.ofNat 8 kind
  let s := s.setPort { s.port with rx := [] }
  if s.port.owed then s.setPort (s.port.answerBusy k seq)
  else if !payloadLengthOk kind payload then s.answer k seq .format
  else if !allowed s.node then s.answer k seq .state
  else (handler s).1.answer k seq (handler s).2

/-- Requests taken in STARTUP and in RUNNING (R175). -/
def anyState (_ : NodeState) : Bool := true

/-- Requests taken in STARTUP alone (R175). -/
def startupOnly (n : NodeState) : Bool := n = .startup

/-- Requests taken in RUNNING alone (R175). -/
def runningOnly (n : NodeState) : Bool := n = .running

/-! ### Events that fall together (log entry 3) -/

/-- `x` put at place `k` of a list. -/
def insertPlace {α : Type} (k : Nat) (x : α) (l : List α) : List α := l.take k ++ x :: l.drop k

/-- A list in the order a choice function gives; a list of one stays as it is. -/
def arrange {α : Type} (choice : Nat → Nat) : List α → List α
  | [] => []
  | [x] => [x]
  | x :: y :: rest => insertPlace (choice rest.length % (rest.length + 2)) x (arrange choice (y :: rest))

/-- The order in which events that fall together are taken: a free choice (log entry 3), a fresh one each time. -/
def State.inFreeOrder {α : Type} (s : State) (l : List α) : List α := arrange (Config.tieOrder s.free) l

/-- One free choice more has been drawn. -/
def State.drawn (s : State) : State := { s with free := s.free + 1 }

/-! ### Sorting by a key, for candidate orders and notices -/

/-- `x` put in front of the first element that does not come before it. -/
def insertBy {α : Type} (before : α → α → Bool) (x : α) : List α → List α
  | [] => [x]
  | y :: ys => if before y x then y :: insertBy before x ys else x :: y :: ys

/-- A list in the order of `before`. -/
def sortBy {α : Type} (before : α → α → Bool) : List α → List α
  | [] => []
  | x :: xs => insertBy before x (sortBy before xs)

end Sys2Proof.Machine
end

