-- ==== Sys2Proof/Machine/Term.lean ====
section
/-! DEFINITION. The base term of a rover occupation (chapter 7): candidates, brackets, outcomes, the pending list, and what
REVs and coherence losses do to the terms held. These work on `Work`, the parts of the reduction engine that one event
changes. -/

namespace Sys2Proof.Machine

/-- What one event of the reduction engine works on: log, pending list, loop table, and the loops that left their slots in
the event (for their LOOP notices, R150). -/
structure Work where
  log : List Record
  waiting : List PendingEntry
  loops : LoopTable
  gone : List Loop
  deriving DecidableEq, Repr

/-! ### Rings and candidates (R125) -/

def Rings.get (x : Rings) : RingNo → Ring
  | .r0 => x.r0
  | .r1 => x.r1
  | .r2 => x.r2
  | .r3 => x.r3

def Rings.put (x : Rings) (n : RingNo) (r : Ring) : Rings :=
  match n with
  | .r0 => { x with r0 := r }
  | .r1 => { x with r1 := r }
  | .r2 => { x with r2 := r }
  | .r3 => { x with r3 := r }

/-- The samples of an entry's ring; none without a ring. -/
def PeerTable.samplesOf (t : PeerTable) (e : PeerEntry) : List Sample :=
  match e.ring with
  | some n => (t.rings.get n).samples
  | none => []

/-- Squared horizontal distance in cm² from a header's position to an entry's home position (R125). -/
def distance2 (h : Header) (e : PeerEntry) : Int :=
  (h.easting - e.easting) * (h.easting - e.easting) + (h.northing - e.northing) * (h.northing - e.northing)

/-- The three conditions of a candidate (R125). -/
def isCandidate (cfg : BaseConfig) (h : Header) (e : PeerEntry) : Bool :=
  (e.state = .live || e.state = .silent) && e.ring.isSome
    && distance2 h e ≤ ((cfg.maxDistance * cfg.maxDistance : Nat) : Int)

/-- The order in which candidates are tried: the preferred base, then increasing squared distance, then node id (R125). -/
def triedBefore (h : Header) (a b : PeerEntry) : Bool :=
  if h.preferred = some a.id then true
  else if h.preferred = some b.id then false
  else if distance2 h a = distance2 h b then a.id < b.id
  else distance2 h a < distance2 h b

/-- The candidates of an occupation, in the order in which they are tried (R125). -/
def candidates (s : State) (h : Header) : List PeerEntry :=
  sortBy (triedBefore h) (s.peers.entries.filter (isCandidate s.baseTerm h))

/-! ### Selection (R126, R127) -/

/-- What a selection gives: outcome, finality, bracket and R. -/
structure Selection where
  outcome : BaseOutcome
  final : Bool
  bracket : Option Bracket
  r : Int
  deriving DecidableEq, Repr

def Sample.stored (x : Sample) : Stored := { seq := x.seq, time := x.mid, residual := x.residual }

/-- Two adjacent samples around `t`, at most `gap` ms apart (R126). -/
def findBracket (t gap : Nat) : List Sample → Option (Sample × Sample)
  | a :: b :: rest =>
    if a.mid ≤ t && t < b.mid && b.mid - a.mid ≤ gap then some (a, b) else findBracket t gap (b :: rest)
  | _ => none

/-- A bracket on a peer's samples; its epoch is the entry's at the selection (R71), its series the entry's. -/
def bracketOn (e : PeerEntry) (a : Stored) (b : Option Stored) : Bracket :=
  { peer := e.id, series := e.series.getD 0, a := a, b := b, epoch := e.epoch.getD 0 }

/-- The outcome of a bracket found: BRACKETED, or STEP_NEAR when the later sample is flagged JUMP (R126). -/
def bracketOutcome (e : PeerEntry) (t : Nat) (a b : Sample) : Selection :=
  if !b.jump then
    let br := bracketOn e a.stored (some b.stored)
    { outcome := .bracketed, final := true, bracket := some br, r := br.value t }
  else
    let near := if t - a.mid ≤ b.mid - t then a else b
    { outcome := .stepNear, final := true, bracket := some (bracketOn e near.stored none), r := near.residual }

/-- The bracket that a candidate gives, if any (R126). -/
def tryBracket (s : State) (t : Nat) (e : PeerEntry) : Option Selection :=
  (findBracket t (s.baseTerm.maxGap * 1000) (s.peers.samplesOf e)).map fun ab => bracketOutcome e t ab.1 ab.2

/-- The hold that a candidate gives, if any (R127). -/
def tryHold (s : State) (t : Nat) (e : PeerEntry) : Option Selection :=
  match (s.peers.samplesOf e).getLast? with
  | none => none
  | some a =>
    if a.mid ≤ t && t - a.mid ≤ s.baseTerm.maxGap * 1000 then
      some { outcome := .held, final := false, bracket := some (bracketOn e a.stored none), r := a.residual }
    else none

/-- The selection of an occupation with this header and mid-time, against the entries and rings as they stand
(R125 to R127). -/
def select (s : State) (h : Header) (t : Nat) : Selection :=
  let cs := candidates s h
  match cs.findSome? (tryBracket s t) with
  | some x => x
  | none =>
    match cs.findSome? (tryHold s t) with
    | some x => x
    | none =>
      if cs.any (fun e => e.state = .live) then
        { outcome := .awaited, final := false, bracket := none, r := 0 }
      else { outcome := .modelFallback, final := true, bracket := none, r := 0 }

/-- A term with a selection's outcome in place of its own; source and expiry stay (R124, R128). -/
def BaseTerm.take (t : BaseTerm) (x : Selection) : BaseTerm :=
  { t with outcome := x.outcome, final := x.final, bracket := x.bracket, r := x.r }

/-- The effective source of an occupation (R124). -/
def effectiveSource (s : State) (h : Header) (flags : RecordFlags) : TideMode :=
  if s.tide.mode = .model then .model
  else if h.tideRequest = .model then .model
  else if flags.timeSuspect then .model
  else .base

/-- The base term at the first reduction (R124). -/
def firstTerm (s : State) (h : Header) (flags : RecordFlags) (mid endTime : Nat) : BaseTerm :=
  let t : BaseTerm := { source := effectiveSource s h flags, outcome := .model, final := true, bracket := none, r := 0
                        expiry := endTime + s.baseTerm.holdLimit * 1000 }
  match t.source with
  | .model => t
  | .base => t.take (select s h mid)

/-! ### Records and entries of one event -/

/-- The record of an occupation number. -/
def findRecord (n : Nat) (log : List Record) : Option Record := log.find? fun r => r.number = n

/-- The record of number `n` changed by `f`. -/
def Work.modify (w : Work) (n : Nat) (f : Record → Record) : Work :=
  { w with log := w.log.map fun r => if r.number = n then f r else r }

/-- A record's base term changed. -/
def Record.mapTerm (r : Record) (f : BaseTerm → BaseTerm) : Record :=
  { r with values := r.values.map fun x => { x with term := f x.term } }

/-- An occupation's entry leaves the pending list (R162). -/
def Work.leave (w : Work) (n : Nat) : Work := { w with waiting := w.waiting.filter fun e => e.occ ≠ n }

/-- The order of the pending list: mid-time, then occupation number (R162). -/
def PendingEntry.older (a b : PendingEntry) : Bool := if a.mid = b.mid then a.occ < b.occ else a.mid < b.mid

/-- A provisional term made final: HELD stays with its sample, AWAITED becomes MODEL_FALLBACK with R = 0 (R130, R164). -/
def BaseTerm.makeFinal (t : BaseTerm) : BaseTerm :=
  if t.outcome = .awaited then { t with outcome := .modelFallback, final := true, r := 0 } else { t with final := true }

/-- The term of occupation `n` is made final and flagged by its cause, and its entry leaves the list (R164). -/
def Work.makeFinal (w : Work) (flag : RecordFlags → RecordFlags) (n : Nat) : Work :=
  (w.modify n fun r => { r.mapTerm BaseTerm.makeFinal with flags := flag r.flags }).leave n

def flagHoldExpired (f : RecordFlags) : RecordFlags := { f with holdExpired := true }

def flagForced (f : RecordFlags) : RecordFlags := { f with forced := true }

def flagFinished (f : RecordFlags) : RecordFlags := { f with finished := true }

/-- An occupation enters the pending list; with 32 held, the oldest mid-time among them and it is forced (R162, R163). -/
def Work.enter (w : Work) (e : PendingEntry) : Work :=
  if w.waiting.length < 32 then { w with waiting := insertBy PendingEntry.older e w.waiting }
  else
    match w.waiting with
    | [] => w
    | oldest :: _ =>
      if PendingEntry.older e oldest then w.makeFinal flagForced e.occ
      else
        let w := w.makeFinal flagForced oldest.occ
        { w with waiting := insertBy PendingEntry.older e w.waiting }

/-- A pending occupation's selection run anew against the rings as they stand (R129); when final it leaves the list
(R128). -/
def reevaluate (s : State) (w : Work) (n : Nat) : Work :=
  match findRecord n w.log with
  | none => w
  | some r =>
    match r.values with
    | none => w
    | some x =>
      let sel := select s r.header x.mid
      let w := w.modify n fun r => r.mapTerm fun t => t.take sel
      if sel.final then w.leave n else w

/-- Every pending occupation is re-evaluated (R129). -/
def reevaluateAll (s : State) (w : Work) : Work := (w.waiting.map PendingEntry.occ).foldl (reevaluate s) w

/-- A hold expiry: re-evaluated, and made final as HOLD_EXPIRED when still provisional (R130). -/
def expireOne (s : State) (w : Work) (n : Nat) : Work :=
  if w.waiting.any (fun e => e.occ = n) then
    let w := reevaluate s w n
    if w.waiting.any (fun e => e.occ = n) then w.makeFinal flagHoldExpired n else w
  else w

/-! ### Revisions from the bases (R132 to R134) -/

/-- One stored sample under a REV: at or above its from-sequence the step is subtracted (R132). -/
def Stored.revise (x : Stored) (fromSeq : Nat) (step : Int) : Stored :=
  if fromSeq ≤ x.seq then { x with residual := x.residual - step } else x

/-- Whether a bracket reaches a REV's from-sequence (R133). -/
def Bracket.reaches (b : Bracket) (fromSeq : Nat) : Bool :=
  fromSeq ≤ b.a.seq || b.b.any fun c => fromSeq ≤ c.seq

/-- Whether a bracket names this peer and this series. -/
def Bracket.on (b : Bracket) (peer series : Nat) : Bool := b.peer = peer && b.series = series

/-- A base term that a REV reaches: stored residuals, epoch, and R formed anew from them (R132). -/
def BaseTerm.revise (t : BaseTerm) (mid fromSeq : Nat) (step : Int) (epoch : Nat) : BaseTerm :=
  match t.bracket with
  | none => t
  | some b =>
    let b := { b with a := b.a.revise fromSeq step, b := b.b.map fun c => c.revise fromSeq step, epoch := epoch }
    { t with bracket := some b, r := b.value mid }

/-- A REV at one record: values on a record that is not sealed, the flag AMENDED_AFTER_SEAL on one that is (R132, R133).
`fresh` lists the occupations re-selected in this same report, whose brackets already carry it (log entry 15). -/
def Record.revise (r : Record) (peer series fromSeq : Nat) (step : Int) (epoch : Nat) (fresh : List Nat) : Record :=
  match r.values with
  | none => r
  | some x =>
    match x.term.bracket with
    | none => r
    | some b =>
      if !b.on peer series then r
      else if r.state = .sealed then
        if b.reaches fromSeq then { r with flags := { r.flags with amendedAfterSeal := true } } else r
      else if fresh.contains r.number then r
      else { r with values := some { x with term := x.term.revise x.mid fromSeq step epoch } }

/-- Whether a record's bracket names this peer and series (R134). -/
def Record.bracketOn (r : Record) (peer series : Nat) : Bool :=
  match r.values with
  | none => false
  | some x => x.term.bracket.any fun b => b.on peer series

/-- A term after a coherence loss: MODEL_FALLBACK when its expiry has passed, else re-selected (R134). -/
def lossTerm (s : State) (h : Header) (mid : Nat) (t : BaseTerm) : BaseTerm :=
  if t.expiry ≤ s.tb.nodeTime then { t with outcome := .modelFallback, final := true, bracket := none, r := 0 }
  else t.take (select s h mid)

/-- One record at a coherence loss of a peer and series (R134): a sealed one is flagged, another re-selected. -/
def Record.lose (s : State) (r : Record) (peer series : Nat) : Record :=
  if !r.bracketOn peer series then r
  else if r.state = .sealed then { r with flags := { r.flags with amendedAfterSeal := true } }
  else
    match r.values with
    | none => r
    | some x =>
      { r with
        values := some { x with term := lossTerm s r.header x.mid x.term }
        flags := { r.flags with
          baseInvalidated := r.flags.baseInvalidated || x.term.expiry ≤ s.tb.nodeTime } }

/-- After a coherence loss, an occupation re-selected leaves the pending list when final, and enters it when provisional
and not there (R134). -/
def settleEntry (w : Work) (n : Nat) : Work :=
  match findRecord n w.log with
  | none => w
  | some r =>
    match r.values with
    | none => w
    | some x =>
      if x.term.final then w.leave n
      else if w.waiting.any (fun e => e.occ = n) then w
      else w.enter { occ := n, mid := x.mid, expiry := x.term.expiry }

/-- After a coherence loss, an occupation whose term is now final leaves the pending list (R134). -/
def leaveWhenFinal (w : Work) (n : Nat) : Work :=
  match findRecord n w.log with
  | none => w
  | some r => if r.values.any fun x => x.term.final then w.leave n else w

/-- The occupations not sealed whose bracket names this peer and series, in increasing number (R134). -/
def reachedByLoss (w : Work) (peer series : Nat) : List Nat :=
  (w.log.filter fun r => r.state ≠ .sealed && r.bracketOn peer series).map Record.number

/-- A coherence loss at the log (R134): every record reached; then the pending list, which the terms now final leave and
the re-opened ones enter in increasing occupation number (R163). -/
def coherenceLoss (s : State) (w : Work) (peer series : Nat) : Work :=
  let reached := reachedByLoss w peer series
  let w := { w with log := w.log.map fun r => r.lose s peer series }
  reached.foldl settleEntry (reached.foldl leaveWhenFinal w)

/-- One change that a fold report lists (R114). -/
inductive FoldChange where
  /-- An entry's state changed by the silence counting. -/
  | entryState (peer : Nat)
  /-- A series restart: a removal of all samples. -/
  | restart (peer : Nat)
  /-- A REV applied to the ring of this series. -/
  | rev (peer series fromSeq : Nat) (step : Int) (epoch : Nat)
  /-- A coherence loss, with the series the entry held at it. -/
  | loss (peer series epoch : Nat)
  /-- A sample added. -/
  | added (peer : Nat)
  /-- A sample evicted. -/
  | evicted (peer : Nat)
  deriving DecidableEq, Repr

/-- One listed change at the log (R132, R134); `wf.2` lists the occupations re-selected so far in this report. -/
def applyChange (s : State) (wf : Work × List Nat) (c : FoldChange) : Work × List Nat :=
  match c with
  | .rev peer series fromSeq step epoch =>
    ({ wf.1 with log := wf.1.log.map fun r => r.revise peer series fromSeq step epoch wf.2 }, wf.2)
  | .loss peer series _ => (coherenceLoss s wf.1 peer series, wf.2 ++ reachedByLoss wf.1 peer series)
  | _ => wf

/-- The base-term work of a fold report: its REVs and coherence losses in the order listed, then the re-evaluation, which
is made when the report lists at least one peer (R129, R132). DEDUCED (log entry 35): the changes of several peers are listed, and
so applied, in the order in which the fold made them. -/
def takeReport (s : State) (report : List FoldChange) (w : Work) : Work :=
  let w := (report.foldl (applyChange s) (w, [])).1
  if report.isEmpty then w else reevaluateAll s w

end Sys2Proof.Machine
end

