-- ==== Sys2Proof/Machine/Drift.lean ====
section
/-! DEFINITION. Drift loops (chapter 8): the loop table's openings, closures, abandonments and freezings, the recomputation
of rates when tie values move, and the drift terms of the records that hang on the loops. -/

namespace Sys2Proof.Machine

/-! ### Lines and rates -/

/-- The rate before loop `k`: of the newest older loop that is CLOSING or the last frozen one, or 0 (R139). -/
def LoopTable.rateBefore (t : LoopTable) (k : Nat) : Int :=
  match (t.closing.filter fun l => l.number < k).getLast? with
  | some l => l.rate
  | none =>
    match t.lastFrozen with
    | some l => if l.number < k then l.rate else 0
    | none => 0

/-- A loop's line at node time `t` (R72). -/
def Loop.line (l : Loop) (t : Nat) : Int := driftLine l.opening.mid l.dO l.rate t

/-- The carry line at node time `t` (R72). -/
def CarryLine.line (c : CarryLine) (t : Nat) : Int := driftLine c.time c.dO c.rate t

/-- A closed loop's rate and flags from its ties: the rate before when its span is short, else the computed rate clamped
(R73, R143 step 3). -/
def Loop.withRate (cfg : DriftConfig) (before : Int) (l : Loop) (c : Tie) : Loop :=
  if shortSpan cfg l.opening.mid c.mid then
    { l with rate := before, flags := { l.flags with shortLoop := true } }
  else
    let raw := rawRate l.opening.v c.v l.opening.mid c.mid
    { l with rate := clampRate cfg raw
             flags := { l.flags with driftClamp := clampRate cfg raw ≠ raw } }

/-! ### The drift terms of records (R139, R149) -/

/-- The loop of this number in the OPEN or CLOSING slots. -/
def LoopTable.find (t : LoopTable) (k : Nat) : Option Loop := t.slots.find? fun l => l.number = k

/-- A record's D formed anew when its drift-frozen mark is clear: a tie's is the D_o of the loop it opened, a member's
lies on its loop's line (R139, R147). -/
def LoopTable.reformD (t : LoopTable) (r : Record) : Record :=
  match r.values with
  | none => r
  | some x =>
    if x.driftFrozen then r
    else
      match x.loopNo.bind t.find with
      | none => r
      | some l => { r with values := some { x with d := if r.header.tie then l.dO else l.line x.mid } }

/-- Every record's D formed anew from the loop table as it stands (R147). -/
def Work.reformAll (w : Work) : Work := { w with log := w.log.map w.loops.reformD }

/-- The drift-frozen mark is set (R149). -/
def Record.freezeDrift (r : Record) : Record :=
  { r with values := r.values.map fun x => { x with driftFrozen := true } }

/-- The drift-frozen mark is set on the records of these occupations (R149). -/
def Work.freezeDrift (w : Work) (ns : List Nat) : Work :=
  { w with log := w.log.map fun r => if ns.contains r.number then r.freezeDrift else r }

/-- A record's place among the loops, its D and its drift-frozen mark (R139). -/
def Record.place (r : Record) (loopNo : Option Nat) (d : Int) (frozen : Bool) : Record :=
  { r with values := r.values.map fun x => { x with loopNo := loopNo, d := d, driftFrozen := frozen } }

/-! ### Abandonment and freezing -/

/-- The OPEN loop `l` is abandoned: members flagged and frozen, the opening tie frozen, the carry line set (R141). -/
def Work.abandon (w : Work) (l : Loop) : Work :=
  { w with
    log := w.log.map fun r =>
      if l.members.contains r.number then
        { r.freezeDrift with flags := { r.flags with loopAbandoned := true } }
      else if r.number = l.opening.occ then r.freezeDrift
      else r
    loops := { w.loops with
      openLoop := none
      carry := some { time := l.opening.mid, dO := l.dO, rate := l.rate, loopNo := l.number } }
    gone := w.gone ++ [{ l with state := .abandoned }] }

/-- The oldest CLOSING loop is made FROZEN; its members and closing tie take the drift-frozen mark, and the OPEN loop's
extrapolation rate is retaken (R144, R148). -/
def Work.freezeOldest (w : Work) (forced : Bool) : Work :=
  match w.loops.closing with
  | [] => w
  | l :: rest =>
    let l : Loop := { l with state := .frozen
                             flags := { l.flags with rateProvisional := l.flags.rateProvisional || forced } }
    let t : LoopTable := { w.loops with closing := rest, lastFrozen := some l }
    let t : LoopTable := { t with openLoop := t.openLoop.map fun o => { o with rate := t.rateBefore o.number } }
    { w.freezeDrift (l.members ++ (l.closingTie.map Tie.occ).toList) with loops := t, gone := w.gone ++ [l] }

/-- Whether both of a loop's ties have final base terms (R148). -/
def Loop.tiesFinal (l : Loop) : Bool := l.opening.final && l.closingTie.any Tie.final

/-- The freezing test, oldest CLOSING loop first, stopping at the first that does not qualify (R148). The first argument
bounds the number of loops. -/
def freezeReady : Nat → Work → Work
  | 0, w => w
  | n + 1, w =>
    match w.loops.closing with
    | [] => w
    | l :: _ => if l.tiesFinal then freezeReady n (w.freezeOldest false) else w

/-! ### When tie values move (R146, R147) -/

/-- A loop's copy of a tie brought up to its record's value before drift and finality (R146). -/
def Tie.follow (log : List Record) (t : Tie) : Tie :=
  match (findRecord t.occ log).bind Record.values with
  | none => t
  | some x => { t with v := x.beforeDrift, final := x.term.final }

def Loop.follow (log : List Record) (l : Loop) : Loop :=
  { l with opening := l.opening.follow log, closingTie := l.closingTie.map fun c => c.follow log }

/-- The tie copies of the loops in the OPEN and CLOSING slots follow their records (R146). -/
def LoopTable.follow (log : List Record) (t : LoopTable) : LoopTable :=
  { t with openLoop := t.openLoop.map fun l => l.follow log, closing := t.closing.map fun l => l.follow log }

/-- A loop's tie values, to see whether one moved. -/
def Loop.tieValues (l : Loop) : Int × Option Int := (l.opening.v, l.closingTie.map Tie.v)

/-- A loop's anchor offset: on the line of the older CLOSING loop whose closing tie opened it, or as held (R74, R147). -/
def Loop.anchorOn (older : Option Loop) (l : Loop) : Int :=
  match older with
  | some p => if l.joined && p.closingTie.any (fun c => c.occ = l.opening.occ) then p.line l.opening.mid else l.dO
  | none => l.dO

/-- The CLOSING loops recomputed from the oldest: anchor offset from the line before, rate from the ties, or the rate
before on a SHORT_LOOP (R146, R147). `before` is the rate before the first of them. -/
def recompute (cfg : DriftConfig) : Option Loop → Int → List Loop → List Loop
  | _, _, [] => []
  | older, before, l :: rest =>
    let l := { l with dO := l.anchorOn older }
    let l := match l.closingTie with
      | some c => l.withRate cfg before c
      | none => l
    l :: recompute cfg (some l) l.rate rest

/-- The loop table after a tie value has moved: CLOSING loops in increasing number, then the OPEN loop's anchor offset and
extrapolation rate (R146, R147). DEDUCED (log entry 23): recomputing every loop of the slots gives what carrying each
change forward gives. -/
def LoopTable.cascade (cfg : DriftConfig) (t : LoopTable) : LoopTable :=
  let before := match t.lastFrozen with
    | some l => l.rate
    | none => 0
  let t := { t with closing := recompute cfg none before t.closing }
  { t with openLoop := t.openLoop.map fun o =>
      { o with dO := o.anchorOn t.closing.getLast?, rate := t.rateBefore o.number } }

/-- Changes of base terms passed to the loop table (R135): tie copies follow; when a tie's value moved the rates, offsets
and drift terms are formed anew (R146, R147). A change of finality alone recomputes nothing. -/
def Work.passTies (cfg : DriftConfig) (w : Work) : Work :=
  let t := w.loops.follow w.log
  if t.slots.map Loop.tieValues = w.loops.slots.map Loop.tieValues then { w with loops := t }
  else { w with loops := t.cascade cfg }.reformAll

/-- Changes of base terms passed to the loop table, then the freezing test (R135, R146 to R148). DEDUCED (log entry 34): where one
event changes several ties, all their changes are passed and carried forward first, and the freezing test is made once, after
the last of them. -/
def Work.settleLoops (cfg : DriftConfig) (w : Work) : Work :=
  let w := w.passTies cfg
  freezeReady w.loops.closing.length w

/-! ### Placing an occupation (R140 to R145, R152) -/

/-- A loop opened at a tie (R142, R143 step 5). -/
def LoopTable.openAt (t : LoopTable) (tie : Tie) (dO : Int) (joined unmatched : Bool) : LoopTable :=
  { t with
    counter := t.counter + 1
    openLoop := some
      { number := t.counter + 1, state := .opened, joined := joined, opening := tie, dO := dO, closingTie := none
        members := [], rate := t.rateBefore (t.counter + 1), flags := { tieUnmatched := unmatched } } }

/-- The carry line's value at `t`, or 0 without one (R140, R142). -/
def LoopTable.carryAt (t : LoopTable) (time : Nat) : Int :=
  match t.carry with
  | some c => c.line time
  | none => 0

/-- An occupation outside any loop: D from the carry line or 0, frozen at once (R140). -/
def Work.placeNoLoop (w : Work) (n mid : Nat) : Work :=
  w.modify n fun r => r.place none (w.loops.carryAt mid) true

/-- A non-tie occupation (R140): outside any loop, a member of the OPEN loop, or outside again when it is the 65th. -/
def Work.placeNonTie (w : Work) (n mid : Nat) : Work :=
  match w.loops.openLoop with
  | none => w.placeNoLoop n mid
  | some l =>
    if l.members.length < 64 then
      let w := { w with loops := { w.loops with openLoop := some { l with members := l.members ++ [n] } } }
      w.modify n fun r => r.place (some l.number) (l.line mid) false
    else (w.abandon l).placeNoLoop n mid

/-- A tie that opens a loop with no loop open, or as unmatched: its D is the anchor offset, frozen at once (R142, R145). -/
def Work.openFresh (w : Work) (tie : Tie) (unmatched : Bool) : Work :=
  let dO := w.loops.carryAt tie.mid
  let t := w.loops.openAt tie dO false unmatched
  let w := { w with loops := t }
  w.modify tie.occ fun r =>
    let r := r.place (some t.counter) dO true
    { r with flags := { r.flags with tieUnmatched := r.flags.tieUnmatched || unmatched } }

/-- The OPEN loop `l` closes at a tie at its own point; a joined loop opens there (R143). -/
def Work.close (cfg : DriftConfig) (w : Work) (l : Loop) (tie : Tie) : Work :=
  let w := if 2 ≤ w.loops.closing.length then w.freezeOldest true else w
  let l := Loop.withRate cfg (w.loops.rateBefore l.number) { l with state := .closing, closingTie := some tie } tie
  let t := { w.loops with openLoop := none, closing := w.loops.closing ++ [l] }
  let t := t.openAt tie (l.line tie.mid) true false
  let w := { w with loops := t }
  let w := w.modify tie.occ fun r => r.place (some t.counter) (l.line tie.mid) false
  let w := w.reformAll
  freezeReady w.loops.closing.length w

/-- A tie's first reduction at the loop table (R142, R143, R145). -/
def Work.placeTie (cfg : DriftConfig) (w : Work) (tie : Tie) : Work :=
  match w.loops.openLoop with
  | none => w.openFresh tie false
  | some l => if l.opening.pointId = tie.pointId then w.close cfg l tie else (w.abandon l).openFresh tie true

/-- The drift place of a rover occupation at its first reduction (R140, R142 to R145, R152). -/
def Work.placeDrift (cfg : DriftConfig) (w : Work) (n : Nat) : Work :=
  match findRecord n w.log with
  | none => w
  | some r =>
    match r.values with
    | none => w
    | some x =>
      if !cfg.on then w.modify n fun r => r.place none 0 true
      else if r.header.tie then
        w.placeTie cfg { occ := n, pointId := r.header.pointId, mid := x.mid, v := x.beforeDrift, final := x.term.final }
      else w.placeNonTie n x.mid

end Sys2Proof.Machine
end

