-- ==== Sys2Proof/Machine/Log.lean ====
section
/-! DEFINITION. The occupation log (chapter 9): records written at a hand-off, the changes of one event of the reduction
engine taken together, sealing, revision counts, RESULT and LOOP notices, FINISH. -/

namespace Sys2Proof.Machine

/-- What the occupation controller hands to the reduction engine (R52); `reason` is none for a reduced ending. -/
structure HandOff where
  occ : Nat
  header : Header
  reason : Option AbortReason
  startTime : Nat
  endTime : Nat
  kept : Nat
  retakes : Nat
  sums : Sums
  rejects : Rejects
  flags : RecordFlags
  deriving DecidableEq, Repr

/-! ### One event's changes (R166) -/

/-- The parts of the engine that an event works on, at its start. -/
def Engine.work (e : Engine) : Work := { log := e.log, waiting := e.waiting, loops := e.loops, gone := [] }

/-- Whether a record meets the sealing conditions (R165). -/
def Values.sealable (x : Values) : Bool := x.term.final && x.driftFrozen

/-- The state of a REDUCED record after the sealing test (R165). -/
def Values.stateAfter (x : Values) : RecState := if x.sealable then .sealed else .reduced

/-- Whether R, D or the state differ from the record before the event (R167). -/
def Record.revised (old : Record) (x : Values) (state : RecState) : Bool :=
  match old.values with
  | none => false
  | some y => y.term.r ≠ x.term.r || y.d ≠ x.d || old.state ≠ state

/-- A record at the end of an event (R166): V and g_red formed anew, the sealing test, the revision count. `old` is the
record before the event, none for the record the event wrote. Only REDUCED records take values (R157, R165). -/
def Record.close (old : Option Record) (r : Record) : Record :=
  match r.values with
  | none => r
  | some x =>
    if r.state = .reduced then
      { r with
        values := some x.reform
        state := x.stateAfter
        revisions :=
          if old.any (fun o => o.revised x x.stateAfter) then min 255 (r.revisions + 1) else r.revisions }
    else r

/-- The items of a RESULT notice (R168). -/
def Record.resultBody (r : Record) (x : Values) : ResultBody :=
  { occ := r.number, pointId := r.header.pointId, tie := r.header.tie, state := r.state, revisions := r.revisions
    gRed := x.gRed, v := x.v, r := x.term.r, outcome := x.term.outcome, final := x.term.final
    peer := x.term.bracket.map Bracket.peer, d := x.d, loopNo := x.loopNo, driftFrozen := x.driftFrozen
    flags := r.flags }

/-- What R168 lists of a record: a RESULT is queued when any of it changed. -/
def Record.resultKey (r : Record) (x : Values) :
    (Int × Int × Int) × (BaseOutcome × Bool) × (Option Nat × Bool) × RecState × RecordFlags :=
  ((x.gRed, x.term.r, x.d), (x.term.outcome, x.term.final), (x.loopNo, x.driftFrozen), r.state, r.flags)

/-- The RESULT notice of a record at the end of an event, when one is due: at its writing, or when what R168 lists
changed. -/
def Record.resultNotice (old : Option Record) (r : Record) : Option NoticeBody :=
  match r.values with
  | none => none
  | some x =>
    match old.bind fun o => o.values.map fun y => o.resultKey y with
    | none => some (.result (r.resultBody x))
    | some key => if key = r.resultKey x then none else some (.result (r.resultBody x))

/-- The items of a LOOP notice (R150). -/
def Loop.noticeBody (l : Loop) : LoopBody :=
  { number := l.number, state := l.state, rate := l.rate, dO := l.dO, openingOcc := l.opening.occ
    closingOcc := l.closingTie.map Tie.occ, members := l.members.length, flags := l.flags }

/-- The LOOP notices of an event, in increasing loop number: one for each loop whose state, rate or anchor offset changed
(R150). -/
def loopNotices (before after : Work) : List NoticeBody :=
  let now := sortBy (fun a b : Loop => a.number < b.number) (after.gone ++ after.loops.slots)
  (now.filter fun l =>
      match before.loops.find l.number with
      | some o => o.state ≠ l.state || o.rate ≠ l.rate || o.dO ≠ l.dO
      | none => true).map fun l => .loop l.noticeBody

/-- The log at the end of an event (R166). -/
def closeLog (before : List Record) (log : List Record) : List Record :=
  log.map fun r => r.close (findRecord r.number before)

/-- The RESULT notices of an event, in increasing occupation number (R166, R168). -/
def resultNotices (before : List Record) (log : List Record) : List NoticeBody :=
  log.filterMap fun r => r.resultNotice (findRecord r.number before)

/-- One event of the reduction engine (R166): its work is done, the log takes the changes, and the LOOP notices and then
the RESULT notices are queued. -/
def State.engineEvent (s : State) (f : Work → Work) : State :=
  let before := s.eng.work
  let after := f before
  let log := closeLog before.log after.log
  (s.setEng { s.eng with log := log, waiting := after.waiting, loops := after.loops }).offerAll
    (loopNotices before after ++ resultNotices before.log log)

/-! ### Writing a record (R157 to R161) -/

/-- Eviction at a full log: the oldest record that is SEALED or ABORTED is removed (R161). -/
def evict (log : List Record) : List Record :=
  if log.length < 512 then log else log.eraseP fun r => r.state ≠ .reduced

/-- A record without values: aborted (R158) or a base cycle's (R159). -/
def HandOff.bareRecord (h : HandOff) (state : RecState) (firstObs lastObs : Option Nat) : Record :=
  { number := h.occ, header := h.header, state := state, reason := h.reason, startTime := h.startTime
    endTime := h.endTime, n := h.sums.n, kept := h.kept, retakes := h.retakes, rejects := h.rejects, values := none
    firstObs := firstObs, lastObs := lastObs, revisions := 0, flags := h.flags }

/-- A rover's record as the first reduction fills it, before the drift place is taken (R58, R160). -/
def HandOff.reducedRecord (s : State) (h : HandOff) : Record :=
  let f := fixedTerms s.image h.sums
  let flags := { h.flags with thermal := h.flags.thermal || f.thermal }
  { number := h.occ, header := h.header, state := .reduced, reason := none, startTime := h.startTime
    endTime := h.endTime, n := h.sums.n, kept := h.kept, retakes := h.retakes, rejects := h.rejects
    values := some
      { mid := f.mid, g := f.g, xMean := f.xMean, yMean := f.yMean, tMean := f.tMean, cTilt := f.cTilt
        cTemp := f.cTemp, tModel := f.tModel, term := firstTerm s h.header flags f.mid h.endTime
        loopNo := none, d := 0, driftFrozen := false, v := 0, gRed := 0 }
    firstObs := none, lastObs := none, revisions := 0, flags := flags }

/-- The first reduction of a rover occupation (R58, R160): the record, its pending entry when the outcome is provisional
(R128), what a forced entry passes to the loop table (log entry 14), and the drift place. -/
def firstReduction (s : State) (h : HandOff) (w : Work) : Work :=
  let r := h.reducedRecord s
  let w := { w with log := evict w.log ++ [r] }
  let w := settleEntry w h.occ
  let w := w.settleLoops s.driftCfg
  w.placeDrift s.driftCfg h.occ

/-- A hand-off taken by the reduction engine (R155, R157). -/
def State.handOff (s : State) (h : HandOff) : State :=
  match h.reason with
  | some _ =>
    s.setEng { s.eng with log := evict s.eng.log ++ [h.bareRecord .aborted none none] }
  | none =>
    if s.isBase then
      s.setEng { s.eng with log := evict s.eng.log ++ [h.bareRecord .sealed s.eng.firstObs s.eng.lastObs] }
    else s.engineEvent (firstReduction s h)

/-! ### The other events -/

/-- A fold report is taken (R129, R132 to R135). -/
def State.foldEvent (s : State) (report : List FoldChange) : State :=
  s.engineEvent fun w => (takeReport s report w).settleLoops s.driftCfg

/-- A DROP or a RESTORE is taken: every pending occupation is re-evaluated (R129). -/
def State.reselectEvent (s : State) : State :=
  s.engineEvent fun w => (reevaluateAll s w).settleLoops s.driftCfg

/-- Hold expiries taken together (R130, R164). -/
def State.expireEvent (s : State) (occs : List Nat) : State :=
  s.engineEvent fun w => (occs.foldl (expireOne s) w).settleLoops s.driftCfg

/-- FINISH at the loop table: the OPEN loop is abandoned and the CLOSING loops are frozen (R151). -/
def Work.finishLoops (w : Work) : Work :=
  let w := match w.loops.openLoop with
    | some l => w.abandon l
    | none => w
  freezeReady w.loops.closing.length w

/-- FINISH as one event (R170): every entry made final and flagged FINISHED, then the loop table (R151). -/
def State.finishEvent (s : State) : State :=
  s.engineEvent fun w =>
    let w := (w.waiting.map PendingEntry.occ).foldl (fun w n => w.makeFinal flagFinished n) w
    (w.passTies s.driftCfg).finishLoops

/-! ### Counts and reads (R169, R172) -/

/-- The number of REDUCED records (R169). -/
def Engine.unsealed (e : Engine) : Nat := (e.log.filter fun r => r.state = .reduced).length

end Sys2Proof.Machine
end

