-- ==== Sys2Proof/Machine/Base.lean ====
section
/-! DEFINITION. The base side (chapters 4, 5 and 7): the transmit queue, residuals and G_ref, OBS production, the home
series, and REREF. -/

namespace Sys2Proof.Machine

/-! ### Transmit queue (R84 to R86) -/

def PeerRecord.isObs : PeerRecord → Bool
  | .obs _ => true
  | .rev _ => false

/-- The oldest OBS that is not in flight is removed (R84, R85). -/
def dropOldestObs (q : List TxItem) : List TxItem := q.eraseP fun i => i.record.isObs && !i.inFlight

/-- An OBS is appended; from a full queue the oldest OBS not in flight is discarded first (R84). -/
def appendObs (q : List TxItem) (o : Obs) : List TxItem :=
  (if q.length < 16 then q else dropOldestObs q) ++ [{ record := .obs o, inFlight := false }]

/-- A REV is placed behind the records in flight and ahead of the rest; from a full queue the oldest OBS not in flight is
discarded first (R85). -/
def placeRev (q : List TxItem) (r : Rev) : List TxItem :=
  let q := if q.length < 16 then q else dropOldestObs q
  q.takeWhile TxItem.inFlight ++ { record := .rev r, inFlight := false } :: q.dropWhile TxItem.inFlight

/-- A queued OBS at or above the from-sequence takes the step and the new epoch (R86). -/
def TxItem.revise (fromSeq : Nat) (step : Int) (epoch : Nat) (i : TxItem) : TxItem :=
  match i.record with
  | .obs o =>
    if fromSeq ≤ o.seq then { i with record := .obs { o with residual := o.residual - step, epoch := epoch } } else i
  | .rev _ => i

/-- An OBS of the base joins the transmit queue, latching TX_DROPPED from a full one (R84). -/
def State.queueObs (s : State) (o : Obs) : State :=
  let full := 16 ≤ s.link.txq.length
  let s := s.setLink { s.link with txq := appendObs s.link.txq o }
  if full then s.latch latchTxDropped else s

/-- A REV of the base joins the transmit queue (R85). -/
def State.queueRev (s : State) (r : Rev) : State :=
  let full := 16 ≤ s.link.txq.length
  let s := s.setLink { s.link with txq := placeRev s.link.txq r }
  if full then s.latch latchTxDropped else s

/-! ### OBS production (R69, R70, R118 to R120) -/

/-- A start trigger of a base cycle: G_ref none, OBS sequence from 1, no OBS of the cycle yet (R69, R118). -/
def Engine.startCycle (e : Engine) : Engine :=
  { e with gRef := none, obsCounter := 0, latestObs := 0, firstObs := none, lastObs := none }

/-- The ending of a base cycle leaves G_ref none (R69). -/
def Engine.endCycle (e : Engine) : Engine := { e with gRef := none }

/-- JUMP: a previous residual of the same series is held and the new one differs from it by more than the step limit
(R119). -/
def HomeSeries.jumps (h : HomeSeries) (series : Nat) (r : Int) (stepLimit : Nat) : Bool :=
  h.series = some series && h.samples.getLast?.any fun x => stepLimit < (r - x.residual).natAbs

/-- The home series with a new OBS's sample, or none when it refuses it (R120). -/
def HomeSeries.place (h : HomeSeries) (series : Nat) (x : Sample) : Option HomeSeries :=
  if h.series = some series then
    if h.samples.getLast?.all fun y => y.mid < x.mid then
      some { h with samples := (if h.samples.length < 128 then h.samples else h.samples.tail) ++ [x] }
    else none
  else some { series := some series, samples := [x] }

/-- The kept block's residual before the clamp, and the G_ref it leaves: the first block of the cycle sets G_ref (R69). -/
def rawResidual (gRef : Option Int) (v : Int) : Int × Int :=
  match gRef with
  | none => (0, v)
  | some g => (v - g, g)

/-- A kept base block's own sums go to OBS production (R53, R59, R118): the residual is formed and clamped, the cycle's
flags gathered, and the OBS placed in the home series and the transmit queue, unless the home series refuses it. -/
def State.produceObs (s : State) (sums : Sums) : State :=
  let f := fixedTerms s.image sums
  let raw := rawResidual s.eng.gRef f.blockValue
  let r := clampResidual raw.1
  let clamped : Bool := r ≠ raw.1
  let s := s.setCtl { s.ctl with flags := { s.ctl.flags with
    thermal := s.ctl.flags.thermal || f.thermal
    clamped := s.ctl.flags.clamped || clamped } }
  let s := s.setEng { s.eng with gRef := some raw.2 }
  let series := s.ctl.occNumber % 65536
  let seq := s.eng.obsCounter + 1
  let jump := s.eng.home.jumps series r s.homeCfg.stepLimit
  let x : Sample := { seq := seq, mid := f.mid, residual := r, epoch := s.eng.epoch, jump := jump, clamped := clamped
                      amended := false }
  match s.eng.home.place series x with
  | none => s.latch latchSeriesMalformed
  | some h =>
    let s := s.setEng { s.eng with
      home := h, obsCounter := seq, latestObs := seq
      firstObs := s.eng.firstObs.or (some seq), lastObs := some seq }
    s.queueObs { series := series, seq := seq, mid := f.mid, residual := r, epoch := s.eng.epoch
                 flags := BitVec.ofNat 8 (obsFlagBits jump clamped) }

/-! ### REREF (R121, R122) -/

/-- The refusal that REREF meets, in the order of R121; none when it is accepted. The node state was checked at dispatch. -/
def State.rerefRefusal (s : State) (fromSeq : Nat) (step : Int) : Option Reply :=
  if !s.isBase then some .role
  else if s.link.txq.any (fun i => !i.record.isObs) then some .state
  else if s.link.txq.any (fun i => match i.record with
      | .obs o => s.eng.home.series ≠ some o.series
      | .rev _ => false) then some .state
  else if s.eng.epoch = 255 then some (.range 0 Config.epochFieldPosition.toNat)
  else if step = 0 || 2000000000 < step.natAbs then some (.range 0 2)
  else if !s.eng.home.samples.any (fun x => x.seq = fromSeq) then some (.range 0 1)
  else none

/-- A home sample at or above the from-sequence takes the step, the new epoch and state AMENDED (R122). -/
def Sample.revise (fromSeq : Nat) (step : Int) (epoch : Nat) (x : Sample) : Sample :=
  if fromSeq ≤ x.seq then { x with residual := x.residual - step, epoch := epoch, amended := true } else x

/-- An accepted REREF (R122): the epoch rises, home series and queued OBS are revised, the REV is placed, G_ref rises. -/
def State.reref (s : State) (fromSeq : Nat) (step : Int) : State :=
  let epoch := s.eng.epoch + 1
  let s := s.setEng { s.eng with
    epoch := epoch
    home := { s.eng.home with samples := s.eng.home.samples.map (Sample.revise fromSeq step epoch) }
    gRef := s.eng.gRef.map (· + step) }
  let s := s.setLink { s.link with txq := s.link.txq.map (TxItem.revise fromSeq step epoch) }
  s.queueRev { series := s.eng.home.series.getD 0, epoch := epoch, fromSeq := fromSeq, step := step }

end Sys2Proof.Machine
end

