-- ==== Sys2Proof/Machine/Intake.lean ====
section
/-! DEFINITION. The sensor intake's own work (chapter 2): opening and closing, sequence tracking, gates, block sums and
block ends. The arrivals of one frame are one event (R20, R27): the intake takes them all, and the controller then takes
the block reports in order (log entry 10). -/

namespace Sys2Proof.Machine

/-! ### Open and closed (R19, R20) -/

/-- OPEN (R19): the next opening number, counter B, sums and counts cleared, the shock reference cleared at a first
opening; while ABSENT it arms the silence expiry (R30). -/
def Intake.openFor (i : Intake) (b : Nat) (mode : ContMode) (first : Bool) (osc : Nat) : Intake :=
  { i with
    opening := (i.opening + 1) % 65536
    counter := b
    sums := {}
    rejects := {}
    shockRef := if first then none else i.shockRef
    isOpen := true
    mode := mode
    silenceAt := if i.sensor = .absent then some (osc + 5000) else i.silenceAt }

/-- CLOSE (R20) and the closing of R29: the partial block is discarded without a report; a closed intake is left as it is.
DEDUCED (log entry 27): the four rejection counts are cleared with the arrival counter and the sums, which alone R20 names. -/
def Intake.shut (i : Intake) : Intake :=
  if i.isOpen then { i with isOpen := false, counter := 0, sums := {}, rejects := {} } else i

/-! ### Gates (R21 to R23) -/

/-- One counted arrival: missing, or a frame's own (R17). -/
inductive Arrival where
  | missing
  | own (f : Frame)
  deriving DecidableEq, Repr

/-- Rejection reasons in the order of the gates (R21). -/
inductive Reason where
  | missing
  | sensorStatus
  | tilt
  | shock
  deriving DecidableEq, Repr

/-- The tilt gate (R22). -/
def tiltFails (ins : Instrument) (f : Frame) : Bool :=
  ins.tiltGate < (f.x - ins.ox).natAbs || ins.tiltGate < (f.y - ins.oy).natAbs

/-- The shock gate (R23). -/
def shockFails (ins : Instrument) (ref : Option Int) (f : Frame) : Bool :=
  ref.any fun c => ins.shockLimit < (f.counts - c).natAbs

/-- The first gate an arrival fails, or none when it is accepted (R21). -/
def gate (ins : Instrument) (ref : Option Int) : Arrival → Option Reason
  | .missing => some .missing
  | .own f =>
    if f.status ≠ 0#3 then some .sensorStatus
    else if tiltFails ins f then some .tilt
    else if shockFails ins ref f then some .shock
    else none

/-! ### Block sums and block end (R24 to R26) -/

/-- Sums with one accepted sample more (R24). -/
def Sums.add (s : Sums) (f : Frame) (stamp : Nat) : Sums :=
  { n := s.n + 1, counts := s.counts + f.counts, x := s.x + f.x, y := s.y + f.y, temp := s.temp + f.temp
    time := s.time + stamp }

/-- Sums added (R43). -/
def Sums.plus (s t : Sums) : Sums :=
  { n := s.n + t.n, counts := s.counts + t.counts, x := s.x + t.x, y := s.y + t.y, temp := s.temp + t.temp
    time := s.time + t.time }

/-- Rejection counts with one more of a reason (R24). -/
def Rejects.add (r : Rejects) : Reason → Rejects
  | .missing => { r with missing := r.missing + 1 }
  | .sensorStatus => { r with status := r.status + 1 }
  | .tilt => { r with tilt := r.tilt + 1 }
  | .shock => { r with shock := r.shock + 1 }

/-- Rejection counts added (R43). -/
def Rejects.plus (r t : Rejects) : Rejects :=
  { missing := r.missing + t.missing, status := r.status + t.status, tilt := r.tilt + t.tilt, shock := r.shock + t.shock }

/-- All rejected arrivals of a block. -/
def Rejects.total (r : Rejects) : Nat := r.missing + r.status + r.tilt + r.shock

/-- One arrival gated and accumulated on an open intake (R23, R24). -/
def Intake.accumulate (ins : Instrument) (stamp : Nat) (i : Intake) (a : Arrival) : Intake :=
  match gate ins i.shockRef a, a with
  | none, .own f =>
    { i with counter := i.counter - 1, sums := i.sums.add f stamp, shockRef := some f.counts }
  | none, .missing => i
  | some r, _ => { i with counter := i.counter - 1, rejects := i.rejects.add r }

/-- The report of the block that ends (R25). -/
def Intake.report (smp : Sampling) (stamp : Nat) (i : Intake) : BlockReport :=
  { opening := i.opening, kept := smp.minAccepted ≤ i.sums.n, sums := i.sums, rejects := i.rejects, endTime := stamp }

/-- The intake after a block end: counter reloaded and sums cleared (R25); a kept block under SINGLE_KEPT closes it (R26). -/
def Intake.afterBlock (smp : Sampling) (i : Intake) : Intake :=
  let fresh := { i with counter := smp.blockLength, sums := {}, rejects := {} }
  if i.mode = .singleKept && smp.minAccepted ≤ i.sums.n then fresh.shut else fresh

/-- One arrival: not counted while closed (R18); gated, accumulated, and a block end when the counter reaches 0 (R25). -/
def arrive (smp : Sampling) (ins : Instrument) (stamp : Nat) (w : Intake × List BlockReport) (a : Arrival) :
    Intake × List BlockReport :=
  if !w.1.isOpen then w
  else
    let i := w.1.accumulate ins stamp a
    if i.counter = 0 then (i.afterBlock smp, w.2 ++ [i.report smp stamp]) else (i, w.2)

/-! ### Frames (R17, R28, R31) -/

/-- The gap of a valid frame (R17). -/
def frameGap (expect : Option Nat) (seq : Nat) : Nat :=
  match expect with
  | none => 0
  | some e => (seq + 256 - e) % 256

/-- The arrivals a valid frame stands for: the missing ones, then its own (R17). -/
def frameArrivals (expect : Option Nat) (f : Frame) : List Arrival :=
  List.replicate (frameGap expect f.seq) .missing ++ [.own f]

/-- A valid frame at the intake: expectation, sensor PRESENT, silence expiry rearmed, and its arrivals with the block
reports they bring (R17, R27, R28, R31). -/
def Intake.takeFrame (smp : Sampling) (ins : Instrument) (osc stamp : Nat) (i : Intake) (f : Frame) :
    Intake × List BlockReport :=
  let heard := { i with expect := some ((f.seq + 1) % 256), sensor := .present, silenceAt := some (osc + 5000) }
  (frameArrivals i.expect f).foldl (arrive smp ins stamp) (heard, [])

/-- The byte timeout of a sensor frame in ms: half the sample period in force, or 50 ms before the first RUN (R195). -/
def byteLimit (period : Option Nat) : Nat :=
  match period with
  | some p => p / 2
  | none => 50

end Sys2Proof.Machine
end

