-- ==== Sys2Proof/Machine/Occupation.lean ====
section
/-! DEFINITION. The occupation controller (chapter 3): starting, settling, counting blocks, step triggers, endings, and
the marks that time steps and LOST periods leave. -/

namespace Sys2Proof.Machine

/-! ### Headers, K and settle time (R41, R45, R53) -/

/-- K of a block count: 0 means 256 (R45). -/
def blocksOf (n : Nat) : Nat := if n = 0 then 256 else n

/-- K of a rover occupation (R45). -/
def roverK (smp : Sampling) (h : Header) : Nat := blocksOf (h.blockCount.getD smp.blockCount)

/-- K of a base cycle: 0 is unbounded (R53). -/
def baseK (smp : Sampling) : Option Nat := if smp.blockCount = 0 then none else some smp.blockCount

/-- The settle time in ms (R41). -/
def settleMs (smp : Sampling) (h : Header) : Nat := h.settle.getD smp.settle * 1000

/-- The header of a base cycle, from the home point fields of the image (R53). -/
def homeHeader (c : HomeConfig) : Header :=
  { pointId := c.pointId, tie := false, easting := c.easting, northing := c.northing, height := c.height
    tideRequest := .model, mode := .spot, preferred := none, blockCount := none, settle := none, settleClamp := false }

/-! ### The END line (R54) -/

/-- An END pulse begins, or begins anew: 100 ms of oscillator time from the ending (R54). -/
def Controller.pulse (c : Controller) (osc : Nat) : Controller :=
  { c with endLine := true, endUntil := some (osc + 100) }

/-! ### Endings (R52) -/

/-- The controller in IDLE: it holds no occupation, no expiry, no opening in force (R38, R52). DEDUCED (log entry 11): the
items of the occupation that ended are no longer held. -/
def Controller.toIdle (c : Controller) : Controller :=
  { c with
    state := .idle, active := none, startTime := 0, k := none, kept := 0, retakes := 0, sums := {}, rejects := {}
    flags := {}, settleAt := none, stepWaitAt := none, inForce := none }

/-- What is handed off at an ending (R52). -/
def Controller.handOff (c : Controller) (reason : Option AbortReason) (endTime : Nat) : HandOff :=
  { occ := c.occNumber, header := c.active.getD default, reason := reason, startTime := c.startTime
    endTime := endTime, kept := c.kept, retakes := c.retakes, sums := c.sums, rejects := c.rejects, flags := c.flags }

/-- The items of the OCC_END notice (R52). -/
def HandOff.notice (h : HandOff) : NoticeBody :=
  .occEnd { occ := h.occ, pointId := h.header.pointId, reason := h.reason, startTime := h.startTime
            endTime := h.endTime, kept := h.kept, retakes := h.retakes, flags := h.flags }

/-- An ending (R52): CLOSE, END pulse, OCC_END, hand-off, IDLE. `reason` is none for a reduced ending. -/
def State.endOccupation (s : State) (reason : Option AbortReason) (flag : RecordFlags → RecordFlags) (endTime : Nat) :
    State :=
  let s := s.setIntake s.intake.shut
  let s := s.setCtl ({ s.ctl with flags := flag s.ctl.flags }.pulse s.osc)
  let h := s.ctl.handOff reason endTime
  let s := s.offer h.notice
  let s := s.handOff h
  let s := s.setEng s.eng.endCycle
  s.setCtl s.ctl.toIdle

def flagStopped (f : RecordFlags) : RecordFlags := { f with stopped := true }

def flagStepTimeout (f : RecordFlags) : RecordFlags := { f with stepTimeout := true }

def flagNoisy (f : RecordFlags) : RecordFlags := { f with noisy := true }

/-- STOP's ending: aborted with no kept block, else reduced and flagged STOPPED (R50). -/
def State.endStopped (s : State) : State :=
  if s.ctl.kept = 0 then s.endOccupation (some .stopped) id s.tb.nodeTime
  else s.endOccupation none flagStopped s.tb.nodeTime

/-- The ending of a retake beyond the limit (R48). -/
def State.endNoisy (s : State) (endTime : Nat) : State :=
  if s.ctl.kept = 0 then s.endOccupation (some .noisy) id endTime else s.endOccupation none flagNoisy endTime

/-- SENSOR_LOST at the controller: it ends an occupation in progress (R51). -/
def State.sensorLost (s : State) : State :=
  if s.ctl.state = .idle then s
  else if s.ctl.kept = 0 then s.endOccupation (some .sensorLost) id s.tb.nodeTime
  else s.endOccupation none flagNoisy s.tb.nodeTime

/-- The step-wait expiry ends the occupation in WAITING (R47). -/
def State.stepTimeout (s : State) : State := s.endOccupation none flagStepTimeout s.tb.nodeTime

/-! ### Opening the intake (R42, R46) -/

/-- The controller sends OPEN; the opening it produces is in force (R19, R42). -/
def State.openIntake (s : State) (mode : ContMode) (first : Bool) : State :=
  let s := s.setIntake (s.intake.openFor s.sampling.blockLength mode first s.osc)
  s.setCtl { s.ctl with state := .recording, settleAt := none, stepWaitAt := none, inForce := some s.intake.opening }

/-- The continuation mode of an occupation (R42). -/
def contModeOf (h : Header) : ContMode :=
  match h.mode with
  | .spot => .continuous
  | .stepped => .singleKept

/-- The settle expiry falls: RECORDING, and the intake is opened (R42). -/
def State.settle (s : State) : State := s.openIntake (contModeOf (s.ctl.active.getD default)) true

/-- A step trigger in WAITING (R46). -/
def State.stepTrigger (s : State) : State := s.openIntake .singleKept false

/-- The settle expiry falls at once when it lies at or before node time (R37, R41, R49). -/
def State.settleIfDue (s : State) : State :=
  if s.ctl.state = .settling && s.ctl.settleAt.any (fun t => t ≤ s.tb.nodeTime) then s.settle else s

/-! ### Starting (R40, R41, R53) -/

/-- An occupation starts under a header with this K: SETTLING, its items at 0, the settle expiry armed, TIME_SUSPECT when
the time base is LOST (R40, R41, R49). A settle time of 0 passes to RECORDING at once (R41). -/
def State.beginOccupation (s : State) (h : Header) (k : Option Nat) : State :=
  (s.setCtl { s.ctl with
    state := .settling
    active := some h
    occNumber := s.ctl.occNumber + 1
    startTime := s.tb.nodeTime
    k := k
    kept := 0
    retakes := 0
    sums := {}
    rejects := {}
    flags := { settleClamped := h.settleClamp, timeSuspect := s.tb.state = .lost }
    settleAt := some (s.tb.nodeTime + settleMs s.sampling h)
    stepWaitAt := none
    inForce := none }).settleIfDue

/-- A start trigger in IDLE on a rover takes the pending next header, if there is one (R40). -/
def State.startRover (s : State) : Option State :=
  match s.ctl.pendingMark, s.ctl.nextHeader with
  | true, some h =>
    some ((s.setCtl { s.ctl with nextHeader := none, pendingMark := false }).beginOccupation h
      (some (roverK s.sampling h)))
  | _, _ => none

/-- A start trigger in IDLE on a base starts a recording cycle (R53). -/
def State.startBase (s : State) : State :=
  (s.setEng s.eng.startCycle).beginOccupation (homeHeader s.homeCfg) (baseK s.sampling)

/-- A start trigger in IDLE; none when a rover has no pending next header (R40, R53). -/
def State.startTrigger (s : State) : Option State := if s.isBase then some s.startBase else s.startRover

/-! ### Counting blocks (R43 to R48, R53) -/

/-- Whether K kept blocks are reached (R44, R45). -/
def Controller.complete (c : Controller) : Bool := c.k.any fun k => k ≤ c.kept

/-- What a KEPT report leads to once it is counted: the ending, WAITING in STEPPED mode, or more recording (R44, R46). -/
def State.afterKept (s : State) (endTime : Nat) : State :=
  if s.ctl.complete then s.endOccupation none id endTime
  else if (s.ctl.active.getD default).mode = .stepped then
    s.setCtl { s.ctl with
      state := .waiting, inForce := none, stepWaitAt := some (endTime + s.sampling.stepWait * 1000) }
  else s

/-- A KEPT report counted: on a rover its sums enter the occupation's, on a base N alone and the block's own sums go to
OBS production (R43, R53). -/
def State.countKept (s : State) (b : BlockReport) : State :=
  let c := { s.ctl with kept := s.ctl.kept + 1, rejects := s.ctl.rejects.plus b.rejects }
  if s.isBase then (s.setCtl { c with sums := { c.sums with n := c.sums.n + b.sums.n } }).produceObs b.sums
  else s.setCtl { c with sums := c.sums.plus b.sums }

/-- A DISCARDED report: the retake count rises; beyond Rmax a rover's occupation ends (R48), a base's goes on (R53). -/
def State.countDiscarded (s : State) (b : BlockReport) : State :=
  let s := s.setCtl { s.ctl with retakes := s.ctl.retakes + 1, rejects := s.ctl.rejects.plus b.rejects }
  if !s.isBase && s.sampling.retakeLimit < s.ctl.retakes then s.endNoisy b.endTime else s

/-- A block report at the controller: acted on only under the opening in force (R43). -/
def State.takeReport (s : State) (b : BlockReport) : State :=
  if s.ctl.inForce ≠ some b.opening then s
  else if b.kept then (s.countKept b).afterKept b.endTime
  else s.countDiscarded b

/-! ### Time steps and LOST periods (R49) -/

/-- The occupation in progress gains TIME_SUSPECT (R49). -/
def Controller.suspect (c : Controller) : Controller :=
  if c.state = .idle then c else { c with flags := { c.flags with timeSuspect := true } }

/-- A time step at the controller: TIME_SUSPECT, and an expiry that now lies at or before node time falls (R49). -/
def State.stepAtController (s : State) : State :=
  let s := s.setCtl s.ctl.suspect
  if s.ctl.state = .waiting && s.ctl.stepWaitAt.any (fun t => t ≤ s.tb.nodeTime) then s.stepTimeout
  else s.settleIfDue

/-! ### AMEND (R37) -/

/-- The active header that AMEND leaves: every field of the staged header but the mode (R37). -/
def amended (active staged : Header) : Header := { staged with mode := active.mode }

/-- AMEND in progress with a staged header (R37). -/
def State.amendWith (s : State) (staged : Header) : State :=
  let h := amended (s.ctl.active.getD default) staged
  let c := { s.ctl with
    active := some h
    k := some (roverK s.sampling h)
    flags := { s.ctl.flags with
      headerAmended := true
      settleClamped := s.ctl.flags.settleClamped || staged.settleClamp } }
  match s.ctl.state with
  | .settling => (s.setCtl { c with settleAt := some (c.startTime + settleMs s.sampling h) }).settleIfDue
  | _ => if c.complete then (s.setCtl c).endOccupation none id s.tb.nodeTime else s.setCtl c

end Sys2Proof.Machine
end

