-- ==== Sys2Proof/Machine/PeerTable.lean ====
section
/-! DEFINITION. The peer table and series store (chapter 6): the verdict on a HEAD, entries and ring allocation, the silence
counting and the fold of a cycle end, DROP and RESTORE. -/

namespace Sys2Proof.Machine

/-! ### Entries (R97) -/

/-- The entry of a node id. -/
def PeerTable.find (t : PeerTable) (id : Nat) : Option PeerEntry := t.entries.find? fun e => e.id = id

/-- The entry of `e`'s node id replaced by `e`, in its place. -/
def PeerTable.replace (t : PeerTable) (e : PeerEntry) : PeerTable :=
  { t with entries := t.entries.map fun x => if x.id = e.id then e else x }

/-- A new entry joins at the end (R97). -/
def PeerTable.add (t : PeerTable) (e : PeerEntry) : PeerTable := { t with entries := t.entries ++ [e] }

/-- A change of an entry's state: its state-changed flag is latched and a PEER_STATE notice queued, with the entry's ring and
NO_RING mark as the change leaves them (R101, R105). `e` is the entry after the change. -/
def State.peerChanged (s : State) (before : Option PeerState) (e : PeerEntry) : State :=
  (s.setPort { s.port with changed := addToSet s.port.changed e.id }).offer
    (.peerState e.id before e.state s.tb.nodeTime e.ring e.noRing)

/-! ### HEADs (R98, R99, R104, R105) -/

/-- Whether a HEAD matches an entry's identity: role, and on a BASE entry the home point id (R98). -/
def PeerEntry.isMatch (e : PeerEntry) (h : Head) : Bool :=
  e.role = some h.role && (h.role = .rover || e.homeId = h.homeId)

/-- The identity set from a HEAD (R99, R104): a ROVER's home point is held as zeros. -/
def PeerEntry.identify (e : PeerEntry) (h : Head) : PeerEntry :=
  let isBase : Bool := h.role = .base
  { e with
    role := some h.role
    homeId := if isBase then h.homeId else 0
    easting := if isBase then h.easting else 0
    northing := if isBase then h.northing else 0
    height := if isBase then h.height else 0
    epoch := some h.epoch
    series := none
    mark := none }

/-- What every taken HEAD does to its entry, but for the ring (R99). `slot` is the cycle and slot of its arrival. -/
def PeerEntry.hear (e : PeerEntry) (h : Head) (slot : Nat × Nat) : PeerEntry :=
  let isBase : Bool := e.role = some .base
  { e with
    state := .live
    slotsHeard := addToSet e.slotsHeard slot.2
    lastHeard := slot
    heard := true
    missed := 0
    repTb := h.tbState
    repOcc := h.occState
    repCycle := h.cycle
    repEpoch := h.epoch
    repLatest := h.latestObs
    easting := if isBase then h.easting else e.easting
    northing := if isBase then h.northing else e.northing
    height := if isBase then h.height else e.height }

/-- The lowest-numbered free ring (R105). -/
def Rings.firstFree (x : Rings) : Option RingNo :=
  [RingNo.r0, .r1, .r2, .r3].find? fun n => (x.get n).owner.isNone

/-- The ring allocation of a taken HEAD (R105): a BASE entry without a ring takes the lowest free one, emptied, its series
set to none; with none free it is marked NO_RING. -/
def allocate (x : Rings) (e : PeerEntry) : Rings × PeerEntry :=
  if e.role = some .base && e.ring.isNone then
    match x.firstFree with
    | some n =>
      (x.put n { owner := some e.id, samples := [] }, { e with ring := some n, noRing := false, series := none })
    | none => (x, { e with noRing := true })
  else (x, e)

/-- A taken HEAD at the table: `e` is the entry found, or the new one, with its identity set; `before` its state before,
none for a creation. A change of state is reported (R99, R101). -/
def State.takeHead (s : State) (e : PeerEntry) (before : Option PeerState) (h : Head) : State :=
  let a := allocate s.peers.rings (e.hear h (s.link.inForce.getD (0, 0)))
  let t : PeerTable := { s.peers with rings := a.1 }
  let s := s.setPeers (if before.isNone then t.add a.2 else t.replace a.2)
  if before = some .live then s else s.peerChanged before a.2

/-- A good HEAD handed to the peer table, and its verdict: true for take, false for ignore (R98). -/
def State.judgeHead (s : State) (h : Head) : State × Bool :=
  if h.sender = s.identity.nodeId then (s.latch latchIdClash, false)
  else
    match s.peers.find h.sender with
    | none =>
      if 8 ≤ s.peers.entries.length then (s.latch latchPeerTableFull, false)
      else
        let fresh : PeerEntry := { id := h.sender }
        (s.takeHead (fresh.identify h) none h, true)
    | some e =>
      match e.state with
      | .dropped => (s, false)
      | .unheard => (s.takeHead (e.identify h) (some .unheard) h, true)
      | .live => if e.isMatch h then (s.takeHead e (some .live) h, true) else (s.latch latchIdClash, false)
      | .silent => if e.isMatch h then (s.takeHead e (some .silent) h, true) else (s.latch latchIdClash, false)

/-! ### Silence counting (R100) -/

/-- An entry at a cycle-end event (R100). -/
def PeerEntry.countSilence (limit : Nat) (e : PeerEntry) : PeerEntry :=
  if e.state = .live || e.state = .silent then
    if e.heard then { e with missed := 0, heard := false }
    else
      let e := { e with missed := min 255 (e.missed + 1) }
      if e.state = .live && limit ≤ e.missed then { e with state := .silent } else e
  else e

/-- One entry's silence counted; a change of state is reported now and listed in the fold report (R100, R101). -/
def countOne (w : State × List FoldChange) (e : PeerEntry) : State × List FoldChange :=
  let x := e.countSilence w.1.baseTerm.silenceLimit
  let s := w.1.setPeers (w.1.peers.replace x)
  if x.state = e.state then (s, w.2)
  else (s.peerChanged (some e.state) x, w.2 ++ [.entryState e.id])

/-- The silence counting of a cycle-end event, entry by entry (R100). DESIGN CHOICE (log entry 28): in table order, which the
PEER_STATE notices then follow; R100 gives no order. -/
def State.countSilence (s : State) : State × List FoldChange := s.peers.entries.foldl countOne (s, [])

/-! ### The fold of one record (R108 to R113) -/

/-- A discard count raised, saturating at 65,535 (R97). -/
def bump (n : Nat) : Nat := min 65535 (n + 1)

def Discards.addDuplicate (d : Discards) : Discards := { d with duplicate := bump d.duplicate }

def Discards.addTooOld (d : Discards) : Discards := { d with tooOld := bump d.tooOld }

def Discards.addMalformed (d : Discards) : Discards := { d with malformed := bump d.malformed }

def Discards.addStale (d : Discards) : Discards := { d with stale := bump d.stale }

def Discards.addUnused (d : Discards) : Discards := { d with unused := bump d.unused }

/-- An entry and its ring while a record is folded, with the changes to report and the flags to latch. -/
structure Folding where
  entry : PeerEntry
  samples : List Sample
  changes : List FoldChange := []
  malformed : Bool := false
  reset : Bool := false
  deriving DecidableEq, Repr

/-- A discard under one of the counts of R97. -/
def Folding.discard (f : Folding) (count : Discards → Discards) : Folding :=
  { f with entry := { f.entry with discards := count f.entry.discards } }

/-- A discard as MALFORMED, which latches SERIES_MALFORMED (R109, R111). -/
def Folding.discardMalformed (f : Folding) : Folding := { f.discard Discards.addMalformed with malformed := true }

/-- An OBS outside its ranges (R109, R199). -/
def Obs.outOfRange (o : Obs) : Bool :=
  o.seq = 0 || 86399999999 < o.mid || 2000000000 < o.residual.natAbs || 4 ≤ o.flags.toNat

/-- A REV outside its ranges (R109, R199). -/
def Rev.outOfRange (r : Rev) : Bool := r.epoch = 0 || r.fromSeq = 0

/-- The series check (R109). The mark says whether the record goes on. -/
def Folding.seriesCheck (f : Folding) (series epoch : Nat) : Folding × Bool :=
  match f.entry.series with
  | none => ({ f with entry := { f.entry with series := some series } }, true)
  | some held =>
    if held = series then (f, true)
    else if epoch < f.entry.epoch.getD 0 then (f.discard Discards.addStale, false)
    else
      ({ f with
          entry := { f.entry with series := some series, mark := none }
          samples := []
          changes := f.changes ++ [.restart f.entry.id]
          reset := true }, true)

/-- A coherence loss (R113): the ring is emptied, the entry takes the epoch and the mark. -/
def Folding.loss (f : Folding) (epoch : Nat) (mark : Option RevMark) : Folding :=
  { f with
    entry := { f.entry with epoch := some epoch, mark := mark }
    samples := []
    changes := f.changes ++ [.loss f.entry.id (f.entry.series.getD 0) epoch]
    reset := true }

/-- A sample put into its place by sequence (R111). -/
def placeSample (x : Sample) (l : List Sample) : List Sample :=
  l.filter (fun y => y.seq < x.seq) ++ x :: l.filter fun y => x.seq < y.seq

/-- The mid-time check against the neighbours held (R111). -/
def midFits (x : Sample) (l : List Sample) : Bool :=
  ((l.filter fun y => y.seq < x.seq).getLast?.all fun y => y.mid < x.mid)
    && ((l.filter fun y => x.seq < y.seq).head?.all fun y => x.mid < y.mid)

/-- An OBS that its epoch class admits is placed in the ring (R111). -/
def Folding.place (f : Folding) (x : Sample) : Folding :=
  if f.samples.any (fun y => y.seq = x.seq) then f.discard Discards.addDuplicate
  else if 128 ≤ f.samples.length && f.samples.head?.any (fun y => x.seq < y.seq) then f.discard Discards.addTooOld
  else if !midFits x f.samples then f.discardMalformed
  else if f.samples.length < 128 then
    { f with samples := placeSample x f.samples, changes := f.changes ++ [.added f.entry.id] }
  else
    { f with samples := (placeSample x f.samples).tail
             changes := f.changes ++ [.added f.entry.id, .evicted f.entry.id] }

/-- The ring sample of an OBS, as received (R106, R110). -/
def Obs.sample (o : Obs) (epoch : Nat) : Sample :=
  { seq := o.seq, mid := o.mid, residual := o.residual, epoch := epoch
    jump := o.flags.getLsbD 0, clamped := o.flags.getLsbD 1, amended := false }

/-- An OBS that passes the series check, classed by its epoch (R110). -/
def Folding.takeObs (f : Folding) (o : Obs) : Folding :=
  let p := f.entry.epoch.getD 0
  if o.epoch = p then f.place (o.sample p)
  else if p < o.epoch then (f.loss o.epoch none).place (o.sample o.epoch)
  else if o.epoch + 1 = p then
    match f.entry.mark with
    | some m =>
      if m.epoch ≠ p then f.discard Discards.addStale
      else if m.fromSeq ≤ o.seq then
        f.place { o.sample p with residual := o.residual - m.step, amended := true }
      else f.place (o.sample p)
    | none => f.discard Discards.addStale
  else f.discard Discards.addStale

/-- A REV that passes the series check (R112, R113). -/
def Folding.takeRev (f : Folding) (r : Rev) : Folding :=
  let p := f.entry.epoch.getD 0
  let mark : RevMark := { fromSeq := r.fromSeq, epoch := r.epoch, step := r.step }
  if r.epoch ≤ p then f
  else if r.epoch = p + 1 then
    { f with
      entry := { f.entry with epoch := some r.epoch, mark := some mark }
      samples := f.samples.map fun x =>
        if r.fromSeq ≤ x.seq then { x with residual := x.residual - r.step, epoch := r.epoch, amended := true } else x
      changes := f.changes ++ [.rev f.entry.id r.series r.fromSeq r.step r.epoch] }
  else f.loss r.epoch (some mark)

/-- A record judged against an entry that has a ring (R109 to R113). -/
def Folding.take (f : Folding) : PeerRecord → Folding
  | .obs o =>
    if o.outOfRange then f.discardMalformed
    else
      let c := f.seriesCheck o.series o.epoch
      if c.2 then c.1.takeObs o else c.1
  | .rev r =>
    if r.outOfRange then f.discardMalformed
    else
      let c := f.seriesCheck r.series r.epoch
      if c.2 then c.1.takeRev r else c.1

/-- What a folded record leaves: entry, ring and latched flags. -/
def State.putFolding (s : State) (n : RingNo) (f : Folding) : State :=
  let s := s.setPeers
    { s.peers.replace f.entry with rings := s.peers.rings.put n { s.peers.rings.get n with samples := f.samples } }
  let s := if f.malformed then s.latch latchSeriesMalformed else s
  if f.reset then s.latch latchSeriesReset else s

/-- One record of the inbound queue at the fold (R107, R108). -/
def foldRecord (w : State × List FoldChange) (x : Nat × PeerRecord) : State × List FoldChange :=
  match w.1.peers.find x.1 with
  | none => w
  | some e =>
    let unused := w.1.setPeers (w.1.peers.replace { e with discards := e.discards.addUnused })
    if e.state = .dropped || e.state = .unheard then (unused, w.2)
    else
      match e.ring with
      | none => (unused, w.2)
      | some n =>
        let f : Folding := { entry := e, samples := (w.1.peers.rings.get n).samples }
        (w.1.putFolding n (f.take x.2), w.2 ++ (f.take x.2).changes)

/-- The store's work at a cycle-end event: silence counting, then the fold of the records handed over; with it the fold
report (R100, R107, R114). -/
def State.foldAll (s : State) (records : List (Nat × PeerRecord)) : State × List FoldChange :=
  records.foldl foldRecord s.countSilence

/-! ### DROP and RESTORE (R102, R103) -/

/-- A ring freed: its samples are discarded (R102, R105). -/
def Rings.free (x : Rings) : Option RingNo → Rings
  | none => x
  | some n => x.put n {}

/-- An entry DROPPED: it keeps all but its ring and its NO_RING mark (R102). -/
def PeerEntry.dropIt (e : PeerEntry) : PeerEntry := { e with state := .dropped, ring := none, noRing := false }

/-- An accepted DROP of entry `e` (R102). -/
def State.dropEntry (s : State) (e : PeerEntry) : State :=
  ((s.setPeers { s.peers.replace e.dropIt with rings := s.peers.rings.free e.ring }).peerChanged (some e.state)
    e.dropIt).reselectEvent

/-- An accepted RESTORE of entry `e`: a new entry for its id takes its place (R103); its cleared fields are those of a new
entry (log entry 18). -/
def State.restoreEntry (s : State) (e : PeerEntry) : State :=
  ((s.setPeers (s.peers.replace { id := e.id })).peerChanged (some .dropped) { id := e.id }).reselectEvent

end Sys2Proof.Machine
end

