-- ==== Sys2Proof/Machine/PeerLink.lean ====
section
/-! DEFINITION. The peer link (chapter 5): slots and cycle starts, composing and sending a burst, receiving, and what a time
step and a time-base state change do to the link. -/

namespace Sys2Proof.Machine

/-! ### Cycle starts (R77, R93) -/

/-- A waiting receive mask comes into force (R77). -/
def PeerLink.adoptMask (l : PeerLink) : PeerLink :=
  match l.waitingMask with
  | some m => { l with rxMask := some m, waitingMask := none }
  | none => l

/-- The cycle-end event (R93): the inbound queue is emptied into the store's work of the cycle end, and the fold report
goes to the reduction engine (R107, R114). -/
def State.cycleEnd (s : State) : State :=
  let w := (s.setLink { s.link with inq := [] }).foldAll s.link.inq
  w.1.foldEvent w.2

/-- Whether a receiver takes the bytes that arrive (R89 to R91). -/
def Receiver.hears : Receiver → Bool
  | .off => false
  | .listening => true
  | .inBurst _ _ _ => true
  | .discarding => false

/-- At a cycle start a receiver that takes bytes is set aside for what arrives at the same instant and is taken after the
cycle start (R93, R100; log entry 29). -/
def PeerLink.setAside (l : PeerLink) (osc : Nat) : PeerLink :=
  if l.rx.hears then { l with closed := some { closedAt := osc, rx := l.rx, buf := l.rxBuf } } else l

/-- A cycle start (R77). -/
def State.cycleStart (s : State) : State :=
  let s := s.cycleEnd
  s.setLink (s.link.setAside s.osc).adoptMask

/-! ### Slots (R76, R78, R89, R94) -/

/-- Whether a slot is owned: in the transmit mask (R76). -/
def Schedule.owns (c : Schedule) (slot : Nat) : Bool := inMask c.txMask slot

/-- Whether a slot is listened to: in the receive mask in force and not in the transmit mask (R89). -/
def PeerLink.listensTo (l : PeerLink) (c : Schedule) (slot : Nat) : Bool :=
  l.rxMask.any (fun m => inMask m slot) && !c.owns slot

/-- A burst being received is closed, and the receiver is OFF (R89). -/
def PeerLink.closeReception (l : PeerLink) : PeerLink := { l with rx := .off, rxBuf := [], listenAt := none }

/-- The slot that begins at boundary `x` is taken: slot in force, armed burst start, receiver (R76, R89). -/
def PeerLink.enterSlot (l : PeerLink) (c : Schedule) (x : Nat) : PeerLink :=
  let slot := (c.slotOf x).2
  { l.closeReception with
    inForce := some (c.slotOf x)
    burstAt := if c.owns slot then some (x + 10) else none
    listenAt := if l.listensTo c slot then some (x + 5) else none }

/-- A slot boundary at node time `x` taken by the link (R76, R77). -/
def State.takeBoundary (s : State) (x : Nat) : State :=
  let s := if (s.schedule.slotOf x).2 = 0 then s.cycleStart else s
  s.setLink (s.link.enterSlot s.schedule x)

/-- The slot that node time `t` lies in is taken, at RUN or at a time step (R78, R94): a burst start is armed when less
than 10 ms of the slot have gone, and a listened slot is LISTENING from its start plus 5 ms, or at once. -/
def PeerLink.joinSlot (l : PeerLink) (c : Schedule) (t : Nat) : PeerLink :=
  let slot := (c.slotOf t).2
  let start := c.slotStart t
  let listens := l.listensTo c slot
  { l.closeReception with
    inForce := some (c.slotOf t)
    burstAt := if c.owns slot && t - start < 10 then some (start + 10) else none
    rx := if listens && start + 5 ≤ t then .listening else .off
    listenAt := if listens && t < start + 5 then some (start + 5) else none }

/-- The link at an accepted RUN (R78). -/
def State.runLink (s : State) : State :=
  s.setLink ({ s.link with rxMask := some s.schedule.rxMask, waitingMask := none }.joinSlot s.schedule s.tb.nodeTime)

/-! ### Transmitting (R79 to R82) -/

/-- Whether a burst of `k` records fits its slot (R80). -/
def burstFits (slotLength k : Nat) : Bool := (30 + 20 * k) * 25 ≤ (slotLength - 20) * 24

/-- The record count of a burst: the largest of 0..5 that the queue and the slot allow (R80). -/
def burstCount (slotLength queued : Nat) : Nat :=
  ((List.range 6).filter fun k => k ≤ queued && burstFits slotLength k).getLast?.getD 0

/-- The HEAD of a burst (R81). -/
def State.headOf (s : State) (k : Nat) : Head :=
  let home : HomeConfig := if s.isBase then s.homeCfg else default
  { sender := s.identity.nodeId
    role := s.identity.role
    tbState := s.tb.state
    occState := s.ctl.state
    cycle := (s.link.inForce.getD (0, 0)).1 % 65536
    epoch := if s.isBase then s.eng.epoch else 0
    count := k
    homeId := home.pointId
    easting := home.easting
    northing := home.northing
    height := home.height
    latestObs := if s.isBase then s.eng.latestObs else 0 }

/-- The bytes of a burst, as formed at its start (R80). -/
def State.burstBytes (s : State) (k : Nat) : List Byte :=
  encodeHead (s.headOf k) ++ (s.link.txq.take k).flatMap fun i => encodeRecord i.record

/-- The first `k` records of the queue are marked in flight (R80). -/
def markInFlight (k : Nat) (q : List TxItem) : List TxItem :=
  (q.take k).map (fun i => { i with inFlight := true }) ++ q.drop k

/-- A burst is composed and started: KEY asserted, the slot recorded as that of the last burst (R80, R82). -/
def State.startBurst (s : State) : State :=
  let k := burstCount s.schedule.slotLength s.link.txq.length
  s.setLink { s.link with
    burst := some { bytes := s.burstBytes k, startedAt := s.osc, records := k, sent := 0 }
    key := true
    lastBurst := s.link.inForce
    txq := markInFlight k s.link.txq }

/-- Whether slot `a` is not later than slot `b`: cycle number first, slot index second (R79). -/
def notLater (a b : Nat × Nat) : Bool := a.1 < b.1 || a.1 = b.1 && a.2 ≤ b.2

/-- Whether the slot in force is not later than the slot of the last burst started (R79). -/
def PeerLink.repeatsSlot (l : PeerLink) : Bool :=
  match l.inForce, l.lastBurst with
  | some a, some b => notLater a b
  | _, _ => false

/-- The burst start instant of an owned slot: the first row of R79's table that applies. -/
def State.decideSlot (s : State) : State :=
  let s := s.setLink { s.link with burstAt := none }
  if s.tb.state = .lost then s
  else if s.link.repeatsSlot then s
  else if 0 < s.link.quiet then s.setLink { s.link with quiet := s.link.quiet - 1 }
  else s.startBurst

/-- Oscillator time in ms, from the start of a burst, by which `n` bytes have been sent, 25/24 ms a byte (R82). DEDUCED (log
entry 5): rounded to the nearest millisecond, as the worked sequence of chapter 5 gives the ends of records and bursts. -/
def burstMs (n : Nat) : Nat := roundNat (n * 25) 24

/-- The oscillator time at which the last byte of the next in-flight record has been sent, while one is to be sent (R82). -/
def Burst.nextRecordAt (b : Burst) : Option Nat :=
  if b.sent < b.records then some (b.startedAt + burstMs (30 + 20 * (b.sent + 1))) else none

/-- The oscillator time at which the last byte of the burst has been sent (R82). -/
def Burst.endAt (b : Burst) : Nat := b.startedAt + burstMs b.bytes.length

/-- The oldest in-flight record leaves the queue (R82). -/
def PeerLink.recordSent (l : PeerLink) (b : Burst) : PeerLink :=
  { l with burst := some { b with sent := b.sent + 1 }, txq := l.txq.eraseP TxItem.inFlight }

/-- The burst ends: KEY is de-asserted, and the records sent have left the queue (R82). -/
def PeerLink.burstEnd (l : PeerLink) : PeerLink :=
  { l with burst := none, key := false, txq := l.txq.filter fun i => !i.inFlight }

/-- A burst in progress is abandoned: KEY is de-asserted at once and the unsent records lose their mark (R94). -/
def PeerLink.abandonBurst (l : PeerLink) : PeerLink :=
  { l with burst := none, key := false, txq := l.txq.map fun i => { i with inFlight := false } }

/-! ### Receiving (R89 to R92) -/

/-- A record joins the inbound queue, or is discarded at 32 (R92). -/
def State.enqueueInbound (s : State) (sender : Nat) (r : PeerRecord) : State :=
  if s.link.inq.length < 32 then s.setLink { s.link with inq := s.link.inq ++ [(sender, r)] }
  else s.latch latchRxOverflow

/-- 30 bytes as a HEAD in LISTENING (R90). -/
def State.receiveHead (s : State) (bytes : List Byte) : State :=
  match parseHead bytes with
  | none => s.setLink { s.link with rx := .discarding }
  | some h =>
    let v := s.judgeHead h
    v.1.setLink { v.1.link with rx := if h.count = 0 then .listening else .inBurst h.sender v.2 h.count }

/-- 20 bytes as a record in IN_BURST (R91). -/
def State.receiveRecord (s : State) (sender : Nat) (take : Bool) (toCome : Nat) (bytes : List Byte) : State :=
  let s := s.setLink { s.link with rx := if toCome ≤ 1 then .listening else .inBurst sender take (toCome - 1) }
  match parseRecord bytes with
  | some r => if take then s.enqueueInbound sender r else s
  | none => s

/-- The receiver takes the whole HEADs and records that its bytes hold (R90, R91); OFF and DISCARDING discard every byte
(R89, R90). The first argument bounds the number of records. -/
def State.receive : Nat → State → State
  | 0, s => s
  | n + 1, s =>
    let buf := s.link.rxBuf
    match s.link.rx with
    | .off => s.setLink { s.link with rxBuf := [] }
    | .discarding => s.setLink { s.link with rxBuf := [] }
    | .listening =>
      if buf.length < 30 then s
      else State.receive n ((s.setLink { s.link with rxBuf := buf.drop 30 }).receiveHead (buf.take 30))
    | .inBurst sender take toCome =>
      if buf.length < 20 then s
      else State.receive n
        ((s.setLink { s.link with rxBuf := buf.drop 20 }).receiveRecord sender take toCome (buf.take 20))

/-- Bytes meet the receiver (R89 to R91). -/
def State.hear (s : State) (bytes : List Byte) : State :=
  let buf := s.link.rxBuf ++ bytes
  State.receive (buf.length + 1) (s.setLink { s.link with rxBuf := buf })

/-- Bytes meet the reception `c` that a cycle start of this instant closed; the receiver of the new slot is left as it is. -/
def State.hearClosed (s : State) (c : ClosedReception) (bytes : List Byte) : State :=
  let t := (s.setLink { s.link with rx := c.rx, rxBuf := c.buf }).hear bytes
  t.setLink { t.link with
    rx := s.link.rx, rxBuf := s.link.rxBuf, closed := some { c with rx := t.link.rx, buf := t.link.rxBuf } }

/-- Bytes arrive at the peer port (R89 to R91). DEDUCED (log entry 29): what arrives together with a cycle start and is taken
after it meets the reception that the cycle start closed, so that a HEAD is still taken (R100) and a record begins the next
cycle's queue (R93); at any other boundary a reception closed is over (R89). -/
def State.peerBytes (s : State) (bytes : List Byte) : State :=
  match s.link.closed with
  | none => s.hear bytes
  | some c => if c.closedAt = s.osc then s.hearClosed c bytes else s.hear bytes

/-! ### Time and the link (R94, R95) -/

/-- A time step at the link while RUNNING (R94). The reception is closed where the new slot is joined. -/
def State.stepAtLink (s : State) : State :=
  if s.node = .running then
    let s := s.setLink s.link.abandonBurst
    let now := s.schedule.slotOf s.tb.nodeTime
    let s := if s.link.inForce.map Prod.fst = some now.1 then s else s.cycleStart
    s.setLink (s.link.joinSlot s.schedule s.tb.nodeTime)
  else s

/-- The link after RESTART (R96): everything but the slot of the last burst started is cleared. -/
def PeerLink.restart (l : PeerLink) : PeerLink := { lastBurst := l.lastBurst }

end Sys2Proof.Machine
end

