-- ==== Sys2Proof/Machine/TimeBase.lean ====
section
/-! DEFINITION. The time base (chapter 1): armed records, pulses, slews and time steps, state changes and their deliveries,
the range end, the survey epoch, and node time at one millisecond of the oscillator. -/

namespace Sys2Proof.Machine

/-! ### Node time on the oscillator (R4, R9) -/

/-- Node time after `k` ms of a slew (R4). -/
def Slew.reading (w : Slew) (k : Nat) : Nat := ((w.start : Int) + k + roundDiv (k * w.diff) 1000).toNat

/-- The time base after one millisecond of oscillator time: node time stands still in UNSET and in the range-end hold,
follows a slew for its 1,000 ms, and else advances by 1; it never passes the range end (R4, R9). -/
def TimeBase.tick (t : TimeBase) : TimeBase :=
  if t.state = .unset || t.held then t
  else
    match t.slew with
    | none => { t with nodeTime := min rangeEnd (t.nodeTime + 1) }
    | some w =>
      let k := w.elapsed + 1
      { t with nodeTime := min rangeEnd (w.reading k)
               slew := if k < 1000 then some { w with elapsed := k } else none }

/-- The node time of the holdover expiry, armed in LOCKED (R7). -/
def TimeBase.holdoverAt (t : TimeBase) : Option Nat :=
  if t.state = .locked then t.lastPulse.map fun p => p.time + 2001 else none

/-- The node time of the loss expiry, armed in HOLDOVER (R8). -/
def TimeBase.lossAt (t : TimeBase) : Option Nat :=
  if t.state = .holdover then t.lastPulse.map fun p => p.time + 600001 else none

/-- Whether the range end is reached and not yet taken (R9). -/
def TimeBase.rangeEndDue (t : TimeBase) : Bool := t.state ≠ .unset && !t.held && rangeEnd ≤ t.nodeTime

/-- Whether a boundary that is to be delivered has been reached; none falls at the range end (R12, log entry 25). -/
def TimeBase.boundaryDue (t : TimeBase) : Bool :=
  !t.held && t.nextBoundary.any fun b => b ≤ t.nodeTime && b < rangeEnd

/-! ### Time records (R1) -/

/-- Whether a record's GNSS value is in range (R1). -/
def ArmedRecord.fits (a : ArmedRecord) : Bool := 0 ≤ a.gnss && a.gnss ≤ 86399999000

/-- A time record that passed its check (R1): NOT_VALID disarms; VALID arms once the epoch is held. -/
def State.takeTimeRecord (s : State) (second : Nat) (fixValid : Bool) : State :=
  if !fixValid then s.setTb { s.tb with armed := none }
  else
    match s.image.schedule with
    | none => s
    | some c =>
      s.setTb { s.tb with
        armed := some { second := second, gnss := ((second : Int) - c.epoch) * 1000, expiresAt := s.osc + 1200 } }

/-! ### State changes (R11) -/

/-- The peer link takes a state change: a return to UNSET clears the slot of the last burst started (R95). -/
def PeerLink.takeTbState (l : PeerLink) (after : TbState) : PeerLink :=
  if after = .unset then { l with lastBurst := none } else l

/-- The time base changes state: one TIME_STATE notice, and the deliveries to the peer link and, on an entry into LOST or
a departure from it, to the occupation controller (R11, R49, R95; log entry 13). DEDUCED (log entry 26): the node time that
the notice carries is the one after the change, where the change itself sets node time. -/
def State.changeTb (s : State) (after : TbState) (step : Int) : State :=
  let before := s.tb.state
  let s := s.setTb { s.tb with state := after }
  let s := s.offer (.timeState before after s.tb.nodeTime step)
  let s := s.setLink (s.link.takeTbState after)
  if decide (before = .lost) ≠ decide (after = .lost) then s.setCtl s.ctl.suspect else s

/-! ### Time steps (R10, R13) -/

/-- A time step at the reduction engine: the pending entries whose expiry now lies at or before node time expire, as one
event (R131, R164). -/
def State.stepAtEngine (s : State) : State :=
  match (s.eng.waiting.filter fun e => e.expiry ≤ s.tb.nodeTime).map PendingEntry.occ with
  | [] => s
  | occs => s.expireEvent occs

/-- The next boundary to deliver after a time step, while boundaries are delivered (R13). -/
def State.retimeBoundary (s : State) : State :=
  s.setTb { s.tb with nextBoundary := s.tb.nextBoundary.map fun _ => s.schedule.nextBoundary s.tb.nodeTime }

/-- The three deliveries of a time step, in no order the manual gives: a free choice (R10, log entry 3). -/
def State.deliverStep (s : State) : State :=
  (s.inFreeOrder [State.stepAtController, State.stepAtEngine, State.stepAtLink]).foldl (fun s f => f s) s.drawn

/-! ### Pulses (R2 to R6) -/

/-- The pulse's difference (R3, R6). -/
def State.pulseDiff (s : State) (a : ArmedRecord) : Int := a.gnss - s.tb.nodeTime

/-- The record's GNSS value becomes the last accepted pulse (R2, R3). -/
def ArmedRecord.pulse (a : ArmedRecord) : Pulse := { second := a.second, time := a.gnss.toNat }

/-- A pulse absorbed as a slew (R4). -/
def State.slewPulse (s : State) (a : ArmedRecord) : State :=
  s.setTb { s.tb with
    lastPulse := some a.pulse, slew := some { start := s.tb.nodeTime, diff := s.pulseDiff a, elapsed := 0 } }

/-- Node time set to a pulse's GNSS value at once (R5, R6); no slew goes on from it (log entry 36). -/
def State.setToPulse (s : State) (a : ArmedRecord) : State :=
  s.setTb { s.tb with lastPulse := some a.pulse, nodeTime := a.gnss.toNat, slew := none }

/-- The three conditions of a pulse in LOCKED (R3). -/
def State.lockedAccepts (s : State) (a : ArmedRecord) : Bool :=
  match s.tb.lastPulse with
  | none => false
  | some p => a.second = p.second + 1 && a.fits && p.time + 950 ≤ s.tb.nodeTime && s.tb.nodeTime ≤ p.time + 1050

/-- A re-lock (R6): a slew up to 50 ms, a time step beyond. -/
def State.relock (s : State) (a : ArmedRecord) : State :=
  let d := s.pulseDiff a
  if d.natAbs ≤ 50 then (s.slewPulse a).changeTb .locked 0
  else ((s.setToPulse a).retimeBoundary.changeTb .locked d).deliverStep

/-- A pulse of a usable width with record `a` armed, while node time is not held (R2, R3, R5, R6). -/
def State.pulseWith (s : State) (a : ArmedRecord) : State :=
  match s.tb.state with
  | .unset => if a.fits then (s.setToPulse a).changeTb .locked 0 else s
  | .locked => if s.lockedAccepts a then s.slewPulse a else s
  | .holdover => if a.fits then s.relock a else s.changeTb .lost 0
  | .lost => if a.fits then s.relock a else s

/-- A pulse (R2, R3): it disarms the armed record whatever becomes of it; with none armed, or in the range-end hold, it
does nothing else. -/
def State.takePulse (s : State) : State :=
  let t := s.setTb { s.tb with armed := none }
  match s.tb.armed with
  | none => t
  | some a => if s.tb.held then t else t.pulseWith a

/-! ### Range end and epoch (R9, R14) -/

/-- Node time is held at the range end, and the state becomes LOST (R9). DEDUCED (log entry 36): a slew still running is over,
for node time has stopped; R9 and R15 do not say what becomes of it. -/
def State.takeRangeEnd (s : State) : State :=
  let t := s.setTb { s.tb with held := true, nodeTime := rangeEnd, slew := none }
  if s.tb.state = .lost then t else t.changeTb .lost 0

/-- The time base returned to UNSET by a change of epoch (R14). -/
def State.unsetTb (s : State) : State :=
  (s.setTb { s.tb with nodeTime := 0, lastPulse := none, armed := none, slew := none, held := false }).changeTb .unset 0

/-- What loading epoch `new` does to the time base, with `old` held before, if any (R14, R190). An epoch changed in UNSET
leaves the time base as it is (log entry 12). -/
def State.epochLoaded (s : State) (old : Option Nat) (new : Nat) : State :=
  match old with
  | none => s
  | some e => if e = new || s.tb.state = .unset then s else s.unsetTb

end Sys2Proof.Machine
end

