-- ==== Sys2Proof/Machine/Requests.lean ====
section
/-! DEFINITION. The twenty requests of the logger (chapter 10): what each does at the block that owns it, and its answer. Each
`do<Request>` is a whole request frame taken: R175's checks, the owning block's rule, the answer, and the output line served
at the end of the event (R177, R182). -/

namespace Sys2Proof.Machine

/-- An OK with nothing to carry. -/
def Reply.done : Reply := .ok []

/-- RANGE for the `k`-th field of a request that is not SETUP (R178). -/
def Reply.badField (k : Nat) : Reply := .range 0 k

/-! ### STATUS (R179, R180) -/

/-- The items of STATUS in the order of R179. -/
def State.statusItems (s : State) : List Byte :=
  leBytes 1 s.node.code ++ optRole (s.image.identity.map Identity.role) ++ leBytes 4 s.image.heldSet
    ++ leBytes 1 s.tb.state.code ++ leBytes 5 s.tb.nodeTime ++ leBytes 1 s.intake.sensor.code
    ++ leBytes 1 s.ctl.state.code ++ leBytes 4 s.ctl.occNumber ++ leBytes 1 s.link.quiet
    ++ leBytes 1 s.link.txq.length ++ leBytes 1 s.link.inq.length
    ++ leBytes 1 s.eng.waiting.length ++ leBytes 1 s.eng.loops.slots.length ++ leBytes 1 s.eng.unsealed
    ++ leBytes 1 s.port.notices.length ++ leBytes 1 s.port.latched.bits ++ leBytes 4 s.port.changed.toNat

/-- STATUS returns the node's state and clears the flags it returns (R179, R180). -/
def State.takeStatus (s : State) : State × Reply :=
  (s.setPort { s.port with latched := {}, changed := 0#32 }, .ok s.statusItems)

/-! ### SETUP (R187, R188, R190) -/

/-- A part in 1..20 checked and stored, with the epoch's effect on the time base (R188, R190). -/
def State.loadPart (s : State) (part : Nat) (fields : List Byte) : State × Reply :=
  match storePart s.image part fields with
  | .bad k => (s, .range part k)
  | .ok img =>
    let old := s.image.schedule.map Schedule.epoch
    let t := { s with image := img }
    let t := if part = 2 then t.epochLoaded old t.schedule.epoch else t
    (t, .ok (leBytes 1 part ++ leBytes 4 img.heldSet))

/-- SETUP (R188). -/
def State.takeSetup (payload : List Byte) (s : State) : State × Reply :=
  let part := uAt payload 0 1
  if 1 ≤ part && part ≤ 20 then s.loadPart part (payload.drop 1) else (s, .badField 1)

/-! ### RUN (R191, R192) -/

/-- The refusal that RUN meets, in the order of R191; none when it is accepted. -/
def State.runRefusal (s : State) : Option Reply :=
  match s.image.firstMissing 1 8 with
  | some n => some (.config 0 n)
  | none =>
    match s.image.firstMissing 9 s.tide.count with
    | some n => some (.config 0 n)
    | none =>
      if s.schedule.txMask = 0#32 || !maskBelow s.schedule.txMask s.schedule.slots then some (.config 1 1)
      else if !maskBelow s.schedule.rxMask s.schedule.slots then some (.config 1 2)
      else if s.sampling.blockLength < s.sampling.minAccepted then some (.config 1 3)
      else if s.tb.state = .unset || s.tb.held then some (.noTime s.tb.state)
      else none

/-- An accepted RUN (R192): RUNNING, boundaries delivered from the next multiple of L (R12), the link started (R78). -/
def State.beginRun (s : State) : State :=
  { s with
    node := .running
    period := some s.sampling.period
    tb := { s.tb with nextBoundary := some (s.schedule.nextBoundary s.tb.nodeTime) } }.runLink

/-- What RUN's OK carries: node time, cycle number, slot index (R192). -/
def State.runItems (s : State) : List Byte :=
  let slot := s.link.inForce.getD (0, 0)
  leBytes 5 s.tb.nodeTime ++ leBytes 4 slot.1 ++ leBytes 1 slot.2

/-- RUN (R191, R192). -/
def State.takeRun (s : State) : State × Reply :=
  match s.runRefusal with
  | some r => (s, r)
  | none => (s.beginRun, .ok s.beginRun.runItems)

/-! ### RESTART (R193) -/

/-- The intake after RESTART (R33): closed and cleared; continuation mode, sensor state, silence expiry and the frame
receiver are kept. -/
def Intake.restart (i : Intake) : Intake :=
  { mode := i.mode, sensor := i.sensor, silenceAt := i.silenceAt, rx := i.rx, rxLast := i.rxLast }

/-- The logger port after RESTART (R194): frame receiver, answers and output line are kept. -/
def Port.restart (p : Port) : Port := { p with notices := [], counter := 0, latched := {}, changed := 0#32 }

/-- The node returned to STARTUP as one event (R193): image and time base kept, every block's operational state cleared
(R15, R33, R55, R69, R96, R117, R136, R154, R173, R194). -/
def State.restart (s : State) : State :=
  { s with
    node := .startup
    tb := { s.tb with nextBoundary := none }
    intake := s.intake.restart
    ctl := {}
    eng := {}
    link := s.link.restart
    peers := {}
    port := s.port.restart }

/-! ### The occupation controller's requests (R34 to R37, R40, R46, R50) -/

/-- STAGE (R35). -/
def State.takeStage (payload : List Byte) (s : State) : State × Reply :=
  if s.isBase then (s, .role)
  else
    match parseHeader payload with
    | .bad k => (s, .badField k)
    | .ok h => (s.setCtl { s.ctl with staged := some h }, .done)

/-- COMMIT (R36). -/
def State.takeCommit (s : State) : State × Reply :=
  if s.isBase then (s, .role)
  else
    match s.ctl.staged with
    | none => (s, .noHeader)
    | some h => (s.setCtl { s.ctl with nextHeader := some h, pendingMark := true }, .done)

/-- AMEND (R37). -/
def State.takeAmend (s : State) : State × Reply :=
  if s.isBase then (s, .role)
  else if s.ctl.state = .idle then (s, .state)
  else
    match s.ctl.staged with
    | none => (s, .noHeader)
    | some h => (s.amendWith h, .done)

/-- START (R39, R40, R53): its OK carries the number of the occupation it started. -/
def State.takeStart (s : State) : State × Reply :=
  if s.identity.trigger ≠ .command || s.ctl.state ≠ .idle then (s, .state)
  else
    match s.startTrigger with
    | none => (s, .noHeader)
    | some t => (t, .ok (leBytes 4 t.ctl.occNumber))

/-- STEP (R46). -/
def State.takeStep (s : State) : State × Reply :=
  if s.isBase then (s, .role)
  else if s.ctl.state = .waiting then (s.stepTrigger, .done)
  else (s, .state)

/-- STOP (R50). -/
def State.takeStop (s : State) : State × Reply :=
  if s.ctl.state = .idle then (s, .state) else (s.endStopped, .done)

/-! ### The peer link's requests (R87, R88) -/

/-- QUIET (R87): its OK carries the count taken. DESIGN CHOICE (log entry 30): a u8, R201's width of a QUIET count, not the
u16 of the request's field. -/
def State.takeQuiet (payload : List Byte) (s : State) : State × Reply :=
  let n := uAt payload 0 2
  if n = 0 then (s, .badField 1)
  else (s.setLink { s.link with quiet := min n 255 }, .ok (leBytes 1 (min n 255)))

/-- RXMASK (R88). -/
def State.takeRxmask (payload : List Byte) (s : State) : State × Reply :=
  let m := BitVec.ofNat 32 (uAt payload 0 4)
  if maskBelow m s.schedule.slots then (s.setLink { s.link with waitingMask := some m }, .done) else (s, .badField 1)

/-! ### The peer table's requests (R102, R103) -/

/-- Whether a node id lies in 1..31. -/
def isNodeId (id : Nat) : Bool := 1 ≤ id && id ≤ 31

/-- DROP (R102). -/
def State.takeDrop (payload : List Byte) (s : State) : State × Reply :=
  let id := uAt payload 0 1
  if !isNodeId id then (s, .badField 1)
  else
    match s.peers.find id with
    | none => (s, .notFound)
    | some e => if e.state = .dropped then (s, .state) else (s.dropEntry e, .done)

/-- RESTORE (R103). -/
def State.takeRestore (payload : List Byte) (s : State) : State × Reply :=
  let id := uAt payload 0 1
  if !isNodeId id then (s, .badField 1)
  else
    match s.peers.find id with
    | none => (s, .notFound)
    | some e => if e.state = .dropped then (s.restoreEntry e, .done) else (s, .state)

/-! ### The reduction engine's requests (R121, R122, R153, R170, R172) -/

/-- REREF (R121, R122): its OK carries the new epoch. -/
def State.takeReref (payload : List Byte) (s : State) : State × Reply :=
  let fromSeq := uAt payload 0 4
  let step := sAt payload 4 4
  match s.rerefRefusal fromSeq step with
  | some r => (s, r)
  | none => (s.reref fromSeq step, .ok (leBytes 1 (s.eng.epoch + 1)))

/-- FINISH (R170). -/
def State.takeFinish (s : State) : State × Reply :=
  if s.ctl.state = .idle then (s.finishEvent, .done) else (s, .state)

/-- A record found is answered whole (R172). -/
def recordAnswer : Option Record → Reply
  | some r => .ok r.bytes
  | none => .notFound

/-- READ_OCC (R172): LATEST is the record with the highest number, which stands last. -/
def State.readOcc (payload : List Byte) (s : State) : Reply :=
  let n := uAt payload 1 4
  match uAt payload 0 1 with
  | 0 => if n = 0 then .badField 2 else recordAnswer (findRecord n s.eng.log)
  | 1 => recordAnswer s.eng.log.getLast?
  | _ => .badField 1

/-- READ_PEER (R116). -/
def State.readPeer (payload : List Byte) (s : State) : Reply :=
  let id := uAt payload 0 1
  if id = 0 then .ok (listBytes PeerEntry.rowBytes s.peers.entries)
  else if !isNodeId id then .badField 1
  else
    match s.peers.find id with
    | none => .notFound
    | some e => .ok (peerAnswer e (s.peers.samplesOf e))

/-- READ_SERIES (R116, R123). -/
def State.readSeries (payload : List Byte) (s : State) : Reply :=
  let id := uAt payload 0 1
  let fromSeq := uAt payload 1 4
  if id = 0 then .ok (homeAnswer s.eng.home s.eng.epoch fromSeq)
  else if !isNodeId id then .badField 1
  else
    match s.peers.find id with
    | none => .notFound
    | some e => .ok (seriesAnswer e (s.peers.samplesOf e) fromSeq)

/-- A loop by its number: in the OPEN or CLOSING slots, or the last frozen one (R153). -/
def LoopTable.held (t : LoopTable) (n : Nat) : Option Loop :=
  (t.find n).or (t.lastFrozen.filter fun l => l.number = n)

/-- READ_LOOP of one number (R153). -/
def LoopTable.readOne (t : LoopTable) (n : Nat) : Reply :=
  if n = 0 then .badField 2
  else
    match t.held n with
    | some l => .ok l.bytes
    | none =>
      match t.carry.filter fun c => c.loopNo = n with
      | some c => .ok c.loopBytes
      | none => .notFound

/-- READ_LOOP (R153). DESIGN CHOICE (log entry 31): with selector 0 the loop number bytes are not examined. -/
def State.readLoop (payload : List Byte) (s : State) : Reply :=
  match uAt payload 0 1 with
  | 0 => .ok s.eng.loops.answer
  | 1 => s.eng.loops.readOne (uAt payload 1 4)
  | _ => .badField 1

/-! ### The requests as events (R175) -/

def State.doStatus (seq : Byte) (p : List Byte) (s : State) : State := (s.request 0x01 anyState State.takeStatus seq p).serve

def State.doSetup (seq : Byte) (p : List Byte) (s : State) : State :=
  (s.request 0x02 startupOnly (State.takeSetup p) seq p).serve

def State.doRun (seq : Byte) (p : List Byte) (s : State) : State := (s.request 0x03 startupOnly State.takeRun seq p).serve

def State.doRestart (seq : Byte) (p : List Byte) (s : State) : State :=
  (s.request 0x04 runningOnly (fun s => (s.restart, .done)) seq p).serve

def State.doStage (seq : Byte) (p : List Byte) (s : State) : State :=
  (s.request 0x05 runningOnly (State.takeStage p) seq p).serve

def State.doCommit (seq : Byte) (p : List Byte) (s : State) : State :=
  (s.request 0x06 runningOnly State.takeCommit seq p).serve

def State.doAmend (seq : Byte) (p : List Byte) (s : State) : State :=
  (s.request 0x07 runningOnly State.takeAmend seq p).serve

def State.doStart (seq : Byte) (p : List Byte) (s : State) : State :=
  (s.request 0x08 runningOnly State.takeStart seq p).serve

def State.doStep (seq : Byte) (p : List Byte) (s : State) : State := (s.request 0x09 runningOnly State.takeStep seq p).serve

def State.doStop (seq : Byte) (p : List Byte) (s : State) : State := (s.request 0x0A runningOnly State.takeStop seq p).serve

def State.doQuiet (seq : Byte) (p : List Byte) (s : State) : State :=
  (s.request 0x0B runningOnly (State.takeQuiet p) seq p).serve

def State.doRxmask (seq : Byte) (p : List Byte) (s : State) : State :=
  (s.request 0x0C runningOnly (State.takeRxmask p) seq p).serve

def State.doDrop (seq : Byte) (p : List Byte) (s : State) : State :=
  (s.request 0x0D runningOnly (State.takeDrop p) seq p).serve

def State.doRestore (seq : Byte) (p : List Byte) (s : State) : State :=
  (s.request 0x0E runningOnly (State.takeRestore p) seq p).serve

def State.doReref (seq : Byte) (p : List Byte) (s : State) : State :=
  (s.request 0x0F runningOnly (State.takeReref p) seq p).serve

def State.doFinish (seq : Byte) (p : List Byte) (s : State) : State :=
  (s.request 0x10 runningOnly State.takeFinish seq p).serve

def State.doReadOcc (seq : Byte) (p : List Byte) (s : State) : State :=
  (s.request 0x11 anyState (fun s => (s, s.readOcc p)) seq p).serve

def State.doReadPeer (seq : Byte) (p : List Byte) (s : State) : State :=
  (s.request 0x12 anyState (fun s => (s, s.readPeer p)) seq p).serve

def State.doReadSeries (seq : Byte) (p : List Byte) (s : State) : State :=
  (s.request 0x13 anyState (fun s => (s, s.readSeries p)) seq p).serve

def State.doReadLoop (seq : Byte) (p : List Byte) (s : State) : State :=
  (s.request 0x14 anyState (fun s => (s, s.readLoop p)) seq p).serve

/-- A frame of no request kind: answered UNKNOWN, or BUSY under a reply owed (R175, R176). -/
def State.doUnknown (kind seq : Byte) (s : State) : State :=
  ((s.setPort { s.port with rx := [] }).answerOrBusy kind seq .unknown).serve

/-- Dispatch of a frame whose check passed, by its kind (R175, R200). -/
def State.dispatch (kind seq : Byte) (p : List Byte) (s : State) : State :=
  match kind.toNat with
  | 0x01 => s.doStatus seq p
  | 0x02 => s.doSetup seq p
  | 0x03 => s.doRun seq p
  | 0x04 => s.doRestart seq p
  | 0x05 => s.doStage seq p
  | 0x06 => s.doCommit seq p
  | 0x07 => s.doAmend seq p
  | 0x08 => s.doStart seq p
  | 0x09 => s.doStep seq p
  | 0x0A => s.doStop seq p
  | 0x0B => s.doQuiet seq p
  | 0x0C => s.doRxmask seq p
  | 0x0D => s.doDrop seq p
  | 0x0E => s.doRestore seq p
  | 0x0F => s.doReref seq p
  | 0x10 => s.doFinish seq p
  | 0x11 => s.doReadOcc seq p
  | 0x12 => s.doReadPeer seq p
  | 0x13 => s.doReadSeries seq p
  | 0x14 => s.doReadLoop seq p
  | _ => s.doUnknown kind seq

/-! ### The frame receiver (R174) -/

/-- One frame ended by the receiver: FORMAT for a length or a check that fails, else dispatch (R174). -/
def State.takeItem (s : State) : LoggerItem → State
  | .overlong kind seq => (s.answerOrBusy kind seq .format).serve
  | .frame kind seq p passed => if passed then s.dispatch kind seq p else (s.answerOrBusy kind seq .format).serve

/-- Bytes arrive at the logger port's input line (R174). -/
def State.loggerBytes (s : State) (bytes : List Byte) : State :=
  let buf := s.port.rx ++ bytes
  let r := loggerFeed (buf.length + 1) buf
  let t := r.1.foldl State.takeItem s
  t.setPort { t.port with rx := r.2, rxLast := s.osc }

/-- A frame abandoned after more than 20 ms without a byte: answered FORMAT when its header was complete (R174). -/
def State.abandonFrame (s : State) : State :=
  let t := s.setPort { s.port with rx := [] }
  match s.port.rx with
  | _ :: _ :: _ :: kind :: seq :: _ => (t.answerOrBusy kind seq .format).serve
  | _ => t

end Sys2Proof.Machine
end

