-- ==== Sys2Proof/Machine/TimeCommands.lean ====
section
/-! DEFINITION. The commands of power and of the time port (chapter 1). An expiry acts when it is armed and has come due, and
does nothing otherwise (log entry 2). -/

namespace Sys2Proof.Machine

/-- What every meaning answers. -/
abbrev Result := Host.Outcome State Fault Refusal

/-- POWER_ON (R15 and the power-on columns of R33, R55, R96, R117, R136, R154, R173, R194): every block takes its power-on
values. The waiting commands and the free-choice counter are no state of the node and stay (log entry 24). -/
def execPowerOn (s : State) : Result := .next { State.reset with pending := s.pending, free := s.free }

/-- TIME_RECORD (R1): a record that fails its check is discarded as garbled. -/
def execTimeRecord (passed : Bool) (second : Nat) (fixValid : Bool) (s : State) : Result :=
  .next (if passed then s.takeTimeRecord second fixValid else s)

/-- Whether the armed record has expired (R1). -/
def State.armedRecordDue (s : State) : Bool := s.tb.armed.any fun a => a.expiresAt ≤ s.osc

/-- ARMED_RECORD_EXPIRY (R1): no record is armed. -/
def execArmedRecordExpiry (s : State) : Result :=
  .next (if s.armedRecordDue then s.setTb { s.tb with armed := none } else s)

/-- PPS_PULSE (R2, R3): a pulse narrower than 1 µs is ignored (R195). DEDUCED (log entry 33): such a pulse is no pulse to the
time base, so the armed record stays armed, although R2 has every pulse disarm it. -/
def execPpsPulse (widthNs : Nat) (s : State) : Result :=
  .next (if widthNs < 1000 then s else s.takePulse.serve)

/-- Whether the holdover expiry has come due (R7). -/
def State.holdoverDue (s : State) : Bool := s.tb.holdoverAt.any fun t => t ≤ s.tb.nodeTime

/-- HOLDOVER_EXPIRY (R7). -/
def execHoldoverExpiry (s : State) : Result := .next (if s.holdoverDue then (s.changeTb .holdover 0).serve else s)

/-- Whether the loss expiry has come due (R8). -/
def State.lossDue (s : State) : Bool := s.tb.lossAt.any fun t => t ≤ s.tb.nodeTime

/-- LOSS_EXPIRY (R8). -/
def execLossExpiry (s : State) : Result := .next (if s.lossDue then (s.changeTb .lost 0).serve else s)

/-- RANGE_END (R9). -/
def execRangeEnd (s : State) : Result := .next (if s.tb.rangeEndDue then s.takeRangeEnd.serve else s)

/-- Whether a slot boundary is to be delivered (R12). -/
def State.boundaryDue (s : State) : Bool := s.node = .running && s.tb.boundaryDue

/-- A slot boundary delivered: the next one is armed, and the link takes the slot (R12, R76). -/
def State.deliverBoundary (s : State) : State :=
  match s.tb.nextBoundary with
  | none => s
  | some x => (s.setTb { s.tb with nextBoundary := some (s.schedule.nextBoundary x) }).takeBoundary x

/-- SLOT_BOUNDARY (R12, R76). -/
def execSlotBoundary (s : State) : Result := .next (if s.boundaryDue then s.deliverBoundary.serve else s)

end Sys2Proof.Machine
end

