-- ==== Sys2Proof/Machine/SensorCommands.lean ====
section
/-! DEFINITION. The commands of the sensor port (chapter 2; the frame receiver of R198). -/

namespace Sys2Proof.Machine

/-- A valid frame: stamped with node time at the intake, and its block reports taken by the controller in order
(R16, R25, R27, R43). -/
def State.takeSensorFrame (s : State) (f : Frame) : State :=
  let r := s.intake.takeFrame s.sampling s.instrument s.osc s.tb.nodeTime f
  r.2.foldl State.takeReport (s.setIntake r.1)

/-- Bytes arrive at the sensor port (R16, R198). -/
def State.sensorBytes (s : State) (bytes : List Byte) : State :=
  let buf := s.intake.rx ++ bytes
  let r := sensorFeed (buf.length + 1) buf
  r.1.foldl State.takeSensorFrame (s.setIntake { s.intake with rx := r.2, rxLast := s.osc })

/-- SAMPLE_FRAME (R16): the bytes of a frame, ending with its last byte. -/
def execSampleFrame (bytes : List Byte) (s : State) : Result := .next (s.sensorBytes bytes).serve

/-- Whether the bytes of a sensor frame have stopped for more than the byte timeout (R195). -/
def State.sensorByteDue (s : State) : Bool :=
  s.intake.rx ≠ [] && s.intake.rxLast + byteLimit s.period < s.osc

/-- SENSOR_BYTE_TIMEOUT (R195): the frame is discarded as garbled (R16). -/
def execSensorByteTimeout (s : State) : Result :=
  .next (if s.sensorByteDue then s.setIntake { s.intake with rx := [] } else s)

/-- Whether the silence expiry has fallen (R28). -/
def State.silenceDue (s : State) : Bool := s.intake.silenceAt.any fun t => t ≤ s.osc

/-- The silence expiry falls: ABSENT and SENSOR_LOST from PRESENT (R29), SENSOR_LOST again for an intake opened while
ABSENT, nothing for a closed one (R30). -/
def State.takeSilence (s : State) : State :=
  let i := { s.intake with silenceAt := none }
  match s.intake.sensor with
  | .present => (s.setIntake { i with sensor := .absent, expect := none }.shut).sensorLost
  | .absent => if i.isOpen then (s.setIntake i.shut).sensorLost else s.setIntake i

/-- SILENCE_EXPIRY (R28 to R30). -/
def execSilenceExpiry (s : State) : Result := .next (if s.silenceDue then s.takeSilence.serve else s)

end Sys2Proof.Machine
end

