-- ==== Sys2Proof/Machine/ControlCommands.lean ====
section
/-! DEFINITION. The commands of the TRIG line, the controller's expiries, the END pulse and the pending list (chapters 3
and 7). -/

namespace Sys2Proof.Machine

/-- Whether an edge is the one the trigger source configures (R39). -/
def TriggerSource.takes : TriggerSource → Edge → Bool
  | .command, _ => false
  | .lineRise, e => e = .rising
  | .lineFall, e => e = .falling

/-- A configured edge while RUNNING: a start trigger in IDLE, ignored and latched with no pending header (R40, R53); a step
trigger in WAITING (R46); nothing in SETTLING and RECORDING (R39). -/
def State.takeEdge (s : State) : State :=
  match s.ctl.state with
  | .idle => s.startTrigger.getD (s.latch latchTriggerIgnored)
  | .waiting => s.stepTrigger
  | .settling => s
  | .recording => s

/-- TRIG_EDGE (R39): an edge is taken when the line has held its new level for 10 ms (R195), the node is RUNNING and the
trigger source names it. -/
def execTrigEdge (edge : Edge) (heldMs : Nat) (s : State) : Result :=
  .next (if s.node = .running && 10 ≤ heldMs && s.identity.trigger.takes edge then s.takeEdge else s)

/-- Whether the settle expiry has come due (R41, R42). -/
def State.settleDue (s : State) : Bool :=
  s.ctl.state = .settling && s.ctl.settleAt.any fun t => t ≤ s.tb.nodeTime

/-- SETTLE_EXPIRY (R42). -/
def execSettleExpiry (s : State) : Result := .next (if s.settleDue then s.settle else s)

/-- Whether the step-wait expiry has come due (R46, R47). -/
def State.stepWaitDue (s : State) : Bool :=
  s.ctl.state = .waiting && s.ctl.stepWaitAt.any fun t => t ≤ s.tb.nodeTime

/-- STEP_WAIT_EXPIRY (R47). -/
def execStepWaitExpiry (s : State) : Result := .next (if s.stepWaitDue then s.stepTimeout.serve else s)

/-- Whether the END pulse has lasted its 100 ms (R54). -/
def State.endPulseDue (s : State) : Bool := s.ctl.endUntil.any fun t => t ≤ s.osc

/-- END_PULSE_EXPIRY (R54). -/
def execEndPulseExpiry (s : State) : Result :=
  .next (if s.endPulseDue then s.setCtl { s.ctl with endLine := false, endUntil := none } else s)

/-- Whether the pending entry of an occupation has come due (R130). -/
def State.holdDue (s : State) (occ : Nat) : Bool :=
  s.eng.waiting.any fun e => e.occ = occ && e.expiry ≤ s.tb.nodeTime

/-- HOLD_EXPIRY (R130). -/
def execHoldExpiry (occupation : Nat) (s : State) : Result :=
  .next (if s.holdDue occupation then (s.expireEvent [occupation]).serve else s)

end Sys2Proof.Machine
end

