-- ==== Sys2Proof/Machine/LinkCommands.lean ====
section
/-! DEFINITION. The commands of the peer port (chapter 5). -/

namespace Sys2Proof.Machine

/-- Whether the burst start instant has come (R79). -/
def State.burstStartDue (s : State) : Bool := s.link.burstAt.any fun t => t ≤ s.tb.nodeTime

/-- BURST_START (R79 to R82). -/
def execBurstStart (s : State) : Result := .next (if s.burstStartDue then s.decideSlot else s)

/-- Whether the last byte of the next in-flight record has been sent (R82). -/
def State.recordSentDue (s : State) : Bool :=
  s.link.burst.any fun b => b.nextRecordAt.any fun t => t ≤ s.osc

/-- RECORD_SENT (R82). -/
def execRecordSent (s : State) : Result :=
  .next (match s.link.burst with
    | some b => if s.recordSentDue then s.setLink (s.link.recordSent b) else s
    | none => s)

/-- Whether the last byte of the burst has been sent (R82). -/
def State.burstEndDue (s : State) : Bool := s.link.burst.any fun b => b.endAt ≤ s.osc

/-- BURST_END (R82). -/
def execBurstEnd (s : State) : Result := .next (if s.burstEndDue then s.setLink s.link.burstEnd else s)

/-- Whether the receiver of a listened slot is to begin listening (R89). -/
def State.listenDue (s : State) : Bool := s.link.listenAt.any fun t => t ≤ s.tb.nodeTime

/-- RECEIVER_LISTEN (R89). -/
def execReceiverListen (s : State) : Result :=
  .next (if s.listenDue then s.setLink { s.link with rx := .listening, rxBuf := [], listenAt := none } else s)

/-- HEAD_RECEIVED (R90): bytes at the peer port, ending with the last byte of a HEAD. -/
def execHeadReceived (bytes : List Byte) (s : State) : Result := .next (s.peerBytes bytes).serve

/-- PEER_RECORD_RECEIVED (R91): bytes at the peer port, ending with the last byte of a record. -/
def execPeerRecordReceived (bytes : List Byte) (s : State) : Result := .next (s.peerBytes bytes).serve

end Sys2Proof.Machine
end

