-- ==== Sys2Proof/Machine/PortCommands.lean ====
section
/-! DEFINITION. The commands of the logger port (chapter 10): the frame receiver's failures, the output line, and the twenty
requests, each over its `do<Request>` of Requests.lean. -/

namespace Sys2Proof.Machine

/-- BAD_LOGGER_FRAME (R174): bytes at the input line, taken one by one by the frame receiver. -/
def execBadLoggerFrame (bytes : List Byte) (s : State) : Result := .next (s.loggerBytes bytes)

/-- Whether more than 20 ms have passed since the last byte of a frame in reception (R174). -/
def State.loggerByteDue (s : State) : Bool := s.port.rx ≠ [] && s.port.rxLast + 20 < s.osc

/-- LOGGER_BYTE_TIMEOUT (R174). -/
def execLoggerByteTimeout (s : State) : Result := .next (if s.loggerByteDue then s.abandonFrame else s)

/-- UNKNOWN_REQUEST (R175): a frame whose check passed, dispatched by its kind; every kind but the twenty is answered
UNKNOWN. -/
def execUnknownRequest (kind seq : Byte) (payload : List Byte) (s : State) : Result := .next (s.dispatch kind seq payload)

/-- OUTPUT_FRAME_SENT (R177): the last byte of the frame on the line has been sent, and the line begins the next. -/
def execOutputFrameSent (s : State) : Result :=
  .next (if s.port.line.isSome then (s.setPort { s.port with line := none }).serve else s)

/-- STATUS (R179, R180). -/
def execStatus (seq : Byte) (payload : List Byte) (s : State) : Result := .next (s.doStatus seq payload)

/-- SETUP (R188). -/
def execSetup (seq : Byte) (payload : List Byte) (s : State) : Result := .next (s.doSetup seq payload)

/-- RUN (R191, R192). -/
def execRun (seq : Byte) (payload : List Byte) (s : State) : Result := .next (s.doRun seq payload)

/-- RESTART (R193). -/
def execRestart (seq : Byte) (payload : List Byte) (s : State) : Result := .next (s.doRestart seq payload)

/-- STAGE (R35). -/
def execStage (seq : Byte) (payload : List Byte) (s : State) : Result := .next (s.doStage seq payload)

/-- COMMIT (R36). -/
def execCommit (seq : Byte) (payload : List Byte) (s : State) : Result := .next (s.doCommit seq payload)

/-- AMEND (R37). -/
def execAmend (seq : Byte) (payload : List Byte) (s : State) : Result := .next (s.doAmend seq payload)

/-- START (R40, R53). -/
def execStart (seq : Byte) (payload : List Byte) (s : State) : Result := .next (s.doStart seq payload)

/-- STEP (R46). -/
def execStep (seq : Byte) (payload : List Byte) (s : State) : Result := .next (s.doStep seq payload)

/-- STOP (R50). -/
def execStop (seq : Byte) (payload : List Byte) (s : State) : Result := .next (s.doStop seq payload)

/-- QUIET (R87). -/
def execQuiet (seq : Byte) (payload : List Byte) (s : State) : Result := .next (s.doQuiet seq payload)

/-- RXMASK (R88). -/
def execRxmask (seq : Byte) (payload : List Byte) (s : State) : Result := .next (s.doRxmask seq payload)

/-- DROP (R102). -/
def execDrop (seq : Byte) (payload : List Byte) (s : State) : Result := .next (s.doDrop seq payload)

/-- RESTORE (R103). -/
def execRestore (seq : Byte) (payload : List Byte) (s : State) : Result := .next (s.doRestore seq payload)

/-- REREF (R121, R122). -/
def execReref (seq : Byte) (payload : List Byte) (s : State) : Result := .next (s.doReref seq payload)

/-- FINISH (R170). -/
def execFinish (seq : Byte) (payload : List Byte) (s : State) : Result := .next (s.doFinish seq payload)

/-- READ_OCC (R172, R202). -/
def execReadOcc (seq : Byte) (payload : List Byte) (s : State) : Result := .next (s.doReadOcc seq payload)

/-- READ_PEER (R116). -/
def execReadPeer (seq : Byte) (payload : List Byte) (s : State) : Result := .next (s.doReadPeer seq payload)

/-- READ_SERIES (R116, R123). -/
def execReadSeries (seq : Byte) (payload : List Byte) (s : State) : Result := .next (s.doReadSeries seq payload)

/-- READ_LOOP (R153). -/
def execReadLoop (seq : Byte) (payload : List Byte) (s : State) : Result := .next (s.doReadLoop seq payload)

end Sys2Proof.Machine
end

