-- ==== Sys2Proof/Machine/Dispatch.lean ====
section
/-! DEFINITION. What each command does: one arm per constructor, each a call of that command's own meaning. -/

namespace Sys2Proof.Machine

/-- A command's effect on everything but the queue. -/
def exec (i : Instr) (s : State) : Host.Outcome State Fault Refusal :=
  match i with
  | .powerOn => Sys2Proof.Machine.execPowerOn s
  | .timeRecord passed second fixValid => Sys2Proof.Machine.execTimeRecord passed second fixValid s
  | .armedRecordExpiry => Sys2Proof.Machine.execArmedRecordExpiry s
  | .ppsPulse widthNs => Sys2Proof.Machine.execPpsPulse widthNs s
  | .holdoverExpiry => Sys2Proof.Machine.execHoldoverExpiry s
  | .lossExpiry => Sys2Proof.Machine.execLossExpiry s
  | .rangeEnd => Sys2Proof.Machine.execRangeEnd s
  | .slotBoundary => Sys2Proof.Machine.execSlotBoundary s
  | .sampleFrame bytes => Sys2Proof.Machine.execSampleFrame bytes s
  | .sensorByteTimeout => Sys2Proof.Machine.execSensorByteTimeout s
  | .silenceExpiry => Sys2Proof.Machine.execSilenceExpiry s
  | .trigEdge edge heldMs => Sys2Proof.Machine.execTrigEdge edge heldMs s
  | .settleExpiry => Sys2Proof.Machine.execSettleExpiry s
  | .stepWaitExpiry => Sys2Proof.Machine.execStepWaitExpiry s
  | .endPulseExpiry => Sys2Proof.Machine.execEndPulseExpiry s
  | .holdExpiry occupation => Sys2Proof.Machine.execHoldExpiry occupation s
  | .burstStart => Sys2Proof.Machine.execBurstStart s
  | .recordSent => Sys2Proof.Machine.execRecordSent s
  | .burstEnd => Sys2Proof.Machine.execBurstEnd s
  | .receiverListen => Sys2Proof.Machine.execReceiverListen s
  | .headReceived bytes => Sys2Proof.Machine.execHeadReceived bytes s
  | .peerRecordReceived bytes => Sys2Proof.Machine.execPeerRecordReceived bytes s
  | .badLoggerFrame bytes => Sys2Proof.Machine.execBadLoggerFrame bytes s
  | .loggerByteTimeout => Sys2Proof.Machine.execLoggerByteTimeout s
  | .unknownRequest kind seq payload => Sys2Proof.Machine.execUnknownRequest kind seq payload s
  | .outputFrameSent => Sys2Proof.Machine.execOutputFrameSent s
  | .status seq payload => Sys2Proof.Machine.execStatus seq payload s
  | .setup seq payload => Sys2Proof.Machine.execSetup seq payload s
  | .run seq payload => Sys2Proof.Machine.execRun seq payload s
  | .restart seq payload => Sys2Proof.Machine.execRestart seq payload s
  | .stage seq payload => Sys2Proof.Machine.execStage seq payload s
  | .commit seq payload => Sys2Proof.Machine.execCommit seq payload s
  | .amend seq payload => Sys2Proof.Machine.execAmend seq payload s
  | .start seq payload => Sys2Proof.Machine.execStart seq payload s
  | .step seq payload => Sys2Proof.Machine.execStep seq payload s
  | .stop seq payload => Sys2Proof.Machine.execStop seq payload s
  | .quiet seq payload => Sys2Proof.Machine.execQuiet seq payload s
  | .rxmask seq payload => Sys2Proof.Machine.execRxmask seq payload s
  | .drop seq payload => Sys2Proof.Machine.execDrop seq payload s
  | .restore seq payload => Sys2Proof.Machine.execRestore seq payload s
  | .reref seq payload => Sys2Proof.Machine.execReref seq payload s
  | .finish seq payload => Sys2Proof.Machine.execFinish seq payload s
  | .readOcc seq payload => Sys2Proof.Machine.execReadOcc seq payload s
  | .readPeer seq payload => Sys2Proof.Machine.execReadPeer seq payload s
  | .readSeries seq payload => Sys2Proof.Machine.execReadSeries seq payload s
  | .readLoop seq payload => Sys2Proof.Machine.execReadLoop seq payload s

end Sys2Proof.Machine
end

