-- ==== Sys2Proof/Machine/Tick.lean ====
section
/-! DEFINITION. One millisecond of the node's oscillator: the time base moves, and every expiry that has come due joins the
queue (log entries 1 and 3). -/

namespace Sys2Proof.Machine

/-- A command, when its expiry has come due. -/
def whenDue (due : Bool) (c : Instr) : List Instr := if due then [c] else []

/-- The time at which the frame on the output line has been sent to its last byte: 25/288 ms a byte at 115,200 bit/s and
ten bit times a byte, rounded to the nearest millisecond (R177, R195; DEDUCED, log entry 5). -/
def LineFrame.sentAt (l : LineFrame) : Nat := l.startedAt + roundNat (l.bytes.length * 25) 288

/-- Whether the frame on the output line has been sent (R177). -/
def State.outputDue (s : State) : Bool := s.port.line.any fun l => l.sentAt ≤ s.osc

/-- Every expiry that has come due, in the order of the table. -/
def State.dueCommands (s : State) : List Instr :=
  whenDue s.armedRecordDue .armedRecordExpiry ++ whenDue s.holdoverDue .holdoverExpiry ++ whenDue s.lossDue .lossExpiry
    ++ whenDue s.tb.rangeEndDue .rangeEnd ++ whenDue s.boundaryDue .slotBoundary
    ++ whenDue s.sensorByteDue .sensorByteTimeout ++ whenDue s.silenceDue .silenceExpiry
    ++ whenDue s.settleDue .settleExpiry ++ whenDue s.stepWaitDue .stepWaitExpiry ++ whenDue s.endPulseDue .endPulseExpiry
    ++ (s.eng.waiting.filter fun e => e.expiry ≤ s.tb.nodeTime).map (fun e => .holdExpiry e.occ)
    ++ whenDue s.burstStartDue .burstStart ++ whenDue s.recordSentDue .recordSent ++ whenDue s.burstEndDue .burstEnd
    ++ whenDue s.listenDue .receiverListen ++ whenDue s.loggerByteDue .loggerByteTimeout
    ++ whenDue s.outputDue .outputFrameSent

/-- The expiries that have come due join the queue; two or more of them in a free order (log entry 3). -/
def State.raiseDue (s : State) : State :=
  match s.dueCommands with
  | [] => s
  | [c] => { s with pending := s.pending ++ [c] }
  | cs => { s.drawn with pending := s.pending ++ s.inFreeOrder cs }

/-- One millisecond of the oscillator. -/
def State.tick (s : State) : State := { s with osc := s.osc + 1, tb := s.tb.tick }.raiseDue

end Sys2Proof.Machine
end

