-- ==== Sys2Proof/Safety.lean ====
section
/-! DEFINITION. What counts as a safe run: the conditions that the manual gives as standing facts about the node's state, each
of which every step keeps; and the terms that the statements share. -/

namespace Sys2Proof.Machine

/-! ### Standing facts -/

/-- KEY is asserted exactly while a burst is in progress (R82). -/
def KeyFollowsBurst (s : State) : Prop := s.link.key = s.link.burst.isSome

/-- The transmit queue (R84, R80): at most 16 records; those in flight stand at its head and are at most 5; at most one of
its records is a REV. -/
def TransmitQueueSound (s : State) : Prop :=
  s.link.txq.length ≤ 16
    ∧ (s.link.txq.takeWhile TxItem.inFlight).length ≤ 5
    ∧ (∀ i ∈ s.link.txq.dropWhile TxItem.inFlight, i.inFlight = false)
    ∧ (s.link.txq.filter fun i => !i.record.isObs).length ≤ 1

/-- The capacities of the node's lists: QUIET count (R87), inbound queue (R92), peer table (R97), rings (R106), home series
(R120), CLOSING slots (R137), members of the loops in the OPEN and CLOSING slots (R140), pending list (R162). The transmit queue
and the notice queue stand in `TransmitQueueSound` and `NoticesSound`, and the log in `CapacitiesKept`. -/
def Bounded (s : State) : Prop :=
  s.link.quiet ≤ 255 ∧ s.link.inq.length ≤ 32 ∧ s.peers.entries.length ≤ 8
    ∧ s.peers.rings.r0.samples.length ≤ 128 ∧ s.peers.rings.r1.samples.length ≤ 128
    ∧ s.peers.rings.r2.samples.length ≤ 128 ∧ s.peers.rings.r3.samples.length ≤ 128
    ∧ s.eng.home.samples.length ≤ 128 ∧ s.eng.loops.closing.length ≤ 2
    ∧ (∀ l ∈ s.eng.loops.slots, l.members.length ≤ 64) ∧ s.eng.waiting.length ≤ 32

/-- Every part of the configuration image that is held is a whole set of valid fields (R187, R189). -/
def ImageSound (s : State) : Prop := s.image.valid = true

/-- Node time lies in the survey range or is the range end; in the range-end hold it is the range end and the state is
LOST; in UNSET it is 0, with no pulse, no slew and no hold (R4, R9, R14, R15). -/
def NodeTimeSound (s : State) : Prop :=
  s.tb.nodeTime ≤ rangeEnd
    ∧ (s.tb.held = true → s.tb.state = .lost ∧ s.tb.nodeTime = rangeEnd)
    ∧ (s.tb.state = .unset →
        s.tb.nodeTime = 0 ∧ s.tb.lastPulse = none ∧ s.tb.slew = none ∧ s.tb.held = false)

/-- The last `n` notice numbers given out when the counter stands at `c`, oldest first (R182). -/
def lastNumbers (c n : Nat) : List Nat := (List.range n).map fun i => (c + 257 + i - n) % 256

/-- The notice queue (R182 to R184): at most 32 notices, whose numbers run upward from the head to the counter, modulo 256,
and at most one RESULT per occupation. -/
def NoticesSound (s : State) : Prop :=
  s.port.notices.length ≤ 32
    ∧ s.port.counter < 256
    ∧ s.port.notices.map Notice.number = lastNumbers s.port.counter s.port.notices.length
    ∧ ∀ occ, (s.port.notices.filter (Notice.isResultOf occ)).length ≤ 1

/-- Whether a notice is a TIME_STATE. -/
def Notice.isTimeState (n : Notice) : Bool :=
  match n.body with
  | .timeState .. => true
  | _ => false

/-- In STARTUP the schedule does not run, the receiver is OFF, nothing is recorded, reduced, queued for the air or held of
the peers, and TIME_STATE notices are the only ones (R182, R186, R190, R193). -/
def StartupIdle (s : State) : Prop :=
  s.node = .startup →
    s.tb.nextBoundary = none
      ∧ s.link = { lastBurst := s.link.lastBurst }
      ∧ s.ctl = {} ∧ s.eng = {} ∧ s.peers = {}
      ∧ s.intake.isOpen = false ∧ s.intake.opening = 0 ∧ s.intake.counter = 0
      ∧ s.intake.sums = {} ∧ s.intake.rejects = {} ∧ s.intake.shockRef = none
      ∧ s.port.changed = 0#32 ∧ ∀ n ∈ s.port.notices, n.isTimeState = true

/-- An entry and the rings (R97, R102, R105): its id lies in 1..31 and is not the node's own; an entry in DROPPED or
UNHEARD has no ring; a ring is assigned to a BASE entry and carries its id. -/
def EntrySound (s : State) (e : PeerEntry) : Prop :=
  1 ≤ e.id ∧ e.id ≤ 31 ∧ e.id ≠ s.identity.nodeId
    ∧ (e.state = .dropped ∨ e.state = .unheard → e.ring = none)
    ∧ ∀ n, e.ring = some n → e.role = some .base ∧ (s.peers.rings.get n).owner = some e.id

/-- A ring (R105, R106): free and empty, or assigned to an entry that names it; its samples strictly increase in sequence
and in mid-time. -/
def RingSound (s : State) (n : RingNo) : Prop :=
  ((s.peers.rings.get n).owner = none → (s.peers.rings.get n).samples = [])
    ∧ (∀ id, (s.peers.rings.get n).owner = some id → ∃ e ∈ s.peers.entries, e.id = id ∧ e.ring = some n)
    ∧ (s.peers.rings.get n).samples.Pairwise fun a b => a.seq < b.seq ∧ a.mid < b.mid

/-- The peer table and the rings (R97, R105, R106): at most 8 entries, no two with one id, each sound, and four sound
rings. -/
def PeersSound (s : State) : Prop :=
  s.peers.entries.length ≤ 8
    ∧ (s.peers.entries.map PeerEntry.id).Nodup
    ∧ (∀ e ∈ s.peers.entries, EntrySound s e)
    ∧ RingSound s .r0 ∧ RingSound s .r1 ∧ RingSound s .r2 ∧ RingSound s .r3

/-- A log record (R156, R157, R165): an aborted record holds no values; a sealed one that holds values has a final base term
and a set drift-frozen mark; a reduced one holds values. -/
def RecordSound (r : Record) : Prop :=
  match r.state with
  | .aborted => r.values = none
  | .reduced => r.values.isSome = true
  | .sealed => ∀ x ∈ r.values, x.term.final = true ∧ x.driftFrozen = true

/-- A pending entry refers to a REDUCED record whose base term is provisional (R162, R165). -/
def EntryPending (log : List Record) (e : PendingEntry) : Prop :=
  ∃ r ∈ log, r.number = e.occ ∧ r.state = .reduced ∧ ∃ x ∈ r.values, x.term.final = false

/-- The log and the pending list (R155, R157, R162, R165): record numbers strictly increase, none is above the occupation
number counter, nor is that of the occupation in progress among them; no opening is in force in IDLE (R43); each record
is sound; pending entries stand in increasing mid-time and, of equal mid-times, in increasing occupation number, each for a
REDUCED record whose term is provisional. -/
def LogSound (s : State) : Prop :=
  s.eng.log.Pairwise (fun a b => a.number < b.number)
    ∧ (s.ctl.state = .idle → s.ctl.inForce = none)
    ∧ (∀ r ∈ s.eng.log, if s.ctl.state = .idle then r.number ≤ s.ctl.occNumber else r.number < s.ctl.occNumber)
    ∧ (∀ r ∈ s.eng.log, RecordSound r)
    ∧ s.eng.waiting.Pairwise (fun a b => a.older b = true)
    ∧ (s.eng.waiting.map PendingEntry.occ).Nodup
    ∧ ∀ e ∈ s.eng.waiting, EntryPending s.eng.log e

/-- What the arithmetic and the sealing leave of every record that holds values (R75, R165): V is G + C_tilt + C_temp −
T_model − R and g_red is V − D; and no REDUCED record meets the sealing conditions. -/
def RecordsFormed (s : State) : Prop :=
  ∀ r ∈ s.eng.log, ∀ x ∈ r.values,
    x.v = x.g + x.cTilt + x.cTemp - x.tModel - x.term.r
      ∧ x.gRed = x.v - x.d
      ∧ (r.state = .reduced → ¬(x.term.final = true ∧ x.driftFrozen = true))

/-- The loop table between events (R135, R146, R148): each tie of a loop in the OPEN or CLOSING slots holds the value before
drift and the finality of its record, while the log holds one with values; and the oldest CLOSING loop has a tie whose base term
is not final. -/
def TiesInStep (s : State) : Prop :=
  (∀ l ∈ s.eng.loops.slots, ∀ tie ∈ l.opening :: l.closingTie.toList, ∀ r ∈ s.eng.log, r.number = tie.occ →
      ∀ x ∈ r.values, tie.v = x.g + x.cTilt + x.cTemp - x.tModel - x.term.r ∧ tie.final = x.term.final)
    ∧ ∀ l ∈ s.eng.loops.closing.head?, ∃ tie ∈ l.opening :: l.closingTie.toList, tie.final = false

/-- REDUCED records, loops and pending entries (R135, R138, R146, R165): a REDUCED record with a provisional term has its
pending entry, and one whose drift-frozen mark is clear is a member or the closing tie of a loop in the OPEN or CLOSING slots;
every member of those loops refers to a REDUCED non-tie record of that loop with a clear mark; and each of their ties is an
occupation handed off with the tie flag, whose copy is final unless its record is in the log with a provisional term, and is in
step with it. -/
def DriftSound (s : State) : Prop :=
  (∀ r ∈ s.eng.log, r.state = .reduced → ∀ x ∈ r.values,
      (x.term.final = false → ∃ e ∈ s.eng.waiting, e.occ = r.number)
        ∧ (x.driftFrozen = false →
            ∃ l ∈ s.eng.loops.slots, r.number ∈ l.members ∨ ∃ c ∈ l.closingTie, c.occ = r.number))
    ∧ (∀ l ∈ s.eng.loops.slots, ∀ n ∈ l.members, ∃ r ∈ s.eng.log,
        r.number = n ∧ r.state = .reduced ∧ r.header.tie = false
          ∧ ∃ x ∈ r.values, x.driftFrozen = false ∧ x.loopNo = some l.number)
    ∧ (∀ l ∈ s.eng.loops.slots, ∀ tie ∈ l.opening :: l.closingTie.toList,
        (if s.ctl.state = .idle then tie.occ ≤ s.ctl.occNumber else tie.occ < s.ctl.occNumber)
          ∧ (∀ r ∈ s.eng.log, r.number = tie.occ → r.header.tie = true)
          ∧ (tie.final = true
            ∨ ∃ r ∈ s.eng.log, r.number = tie.occ ∧ ∃ x ∈ r.values, x.term.final = false))
    ∧ TiesInStep s

/-- The loop table (R73, R137, R138): every rate it holds lies within the drift rate limit; a loop in the OPEN slot is
OPEN and has no closing tie, one in a CLOSING slot is CLOSING and has one, the last frozen loop is FROZEN; loop numbers
increase from the last frozen loop through the CLOSING slots to the OPEN slot and none is above the counter. -/
def LoopsSound (s : State) : Prop :=
  (∀ l ∈ s.eng.loops.lastFrozen.toList ++ s.eng.loops.closing ++ s.eng.loops.openLoop.toList,
      l.rate.natAbs ≤ s.driftCfg.rateLimit ∧ l.number ≤ s.eng.loops.counter)
    ∧ (∀ c ∈ s.eng.loops.carry, c.rate.natAbs ≤ s.driftCfg.rateLimit)
    ∧ (∀ l ∈ s.eng.loops.openLoop, l.state = .opened ∧ l.closingTie = none)
    ∧ (∀ l ∈ s.eng.loops.closing, l.state = .closing ∧ l.closingTie.isSome = true)
    ∧ (∀ l ∈ s.eng.loops.lastFrozen, l.state = .frozen)
    ∧ (s.eng.loops.lastFrozen.toList ++ s.eng.loops.closing ++ s.eng.loops.openLoop.toList).Pairwise
        fun a b => a.number < b.number

/-- While RUNNING, the image is complete (R187, R191), the time base has locked (R5), boundaries are delivered (R12) and
the link has a slot in force (R78). -/
def RunningSound (s : State) : Prop :=
  s.node = .running →
    s.image.firstMissing 1 8 = none
      ∧ s.image.firstMissing 9 s.tide.count = none
      ∧ s.tb.state ≠ .unset
      ∧ s.tb.nextBoundary.isSome = true
      ∧ s.link.inForce.isSome = true

/-- A burst start is armed only while RUNNING and with an owned slot in force (R76, R78, R79, R94). -/
def BurstArmedOwned (s : State) : Prop :=
  ∀ x, s.link.burstAt = some x →
    s.node = .running ∧ ∃ a : Nat × Nat, s.link.inForce = some a ∧ s.schedule.txMask.getLsbD a.2 = true

/-- While the intake is open, the arrivals of the block that are counted so far are split among N_b and the four rejection
counts, and with those still to come they make B; at least one is to come (R24, R25). -/
def BlockSplit (s : State) : Prop :=
  s.intake.isOpen = true →
    s.intake.sums.n + s.intake.rejects.total + s.intake.counter = s.sampling.blockLength ∧ 0 < s.intake.counter

/-! ### Terms that the statements share -/

/-- The commands that are expiries and the instants at which they fall, in the node's own times (R1, R7 to R9, R12, R16, R28, R41,
R47, R54, R79, R82, R89, R130, R174, R177, R195; the sending times of bytes rounded as log entry 5 says, and no slot boundary at
the range end itself, log entry 25). -/
def Falls (t : State) : Instr → Prop
  | .armedRecordExpiry => ∃ a, t.tb.armed = some a ∧ a.expiresAt ≤ t.osc
  | .holdoverExpiry => t.tb.state = .locked ∧ ∃ p, t.tb.lastPulse = some p ∧ p.time + 2001 ≤ t.tb.nodeTime
  | .lossExpiry => t.tb.state = .holdover ∧ ∃ p, t.tb.lastPulse = some p ∧ p.time + 600001 ≤ t.tb.nodeTime
  | .rangeEnd => t.tb.state ≠ .unset ∧ t.tb.held = false ∧ 86400000000 ≤ t.tb.nodeTime
  | .slotBoundary =>
    t.node = .running ∧ t.tb.held = false
      ∧ ∃ b, t.tb.nextBoundary = some b ∧ b ≤ t.tb.nodeTime ∧ b < 86400000000
  | .sensorByteTimeout =>
    t.intake.rx ≠ [] ∧ t.intake.rxLast + (match t.period with
      | some p => p / 2
      | none => 50) < t.osc
  | .silenceExpiry => ∃ x, t.intake.silenceAt = some x ∧ x ≤ t.osc
  | .settleExpiry => t.ctl.state = .settling ∧ ∃ x, t.ctl.settleAt = some x ∧ x ≤ t.tb.nodeTime
  | .stepWaitExpiry => t.ctl.state = .waiting ∧ ∃ x, t.ctl.stepWaitAt = some x ∧ x ≤ t.tb.nodeTime
  | .endPulseExpiry => ∃ x, t.ctl.endUntil = some x ∧ x ≤ t.osc
  | .holdExpiry n => ∃ e ∈ t.eng.waiting, e.occ = n ∧ e.expiry ≤ t.tb.nodeTime
  | .burstStart => ∃ x, t.link.burstAt = some x ∧ x ≤ t.tb.nodeTime
  | .recordSent =>
    ∃ b, t.link.burst = some b ∧ b.sent < b.records
      ∧ (b.startedAt : Int) + roundDiv ((30 + 20 * (b.sent + 1)) * 25) 24 ≤ t.osc
  | .burstEnd => ∃ b, t.link.burst = some b ∧ (b.startedAt : Int) + roundDiv (b.bytes.length * 25) 24 ≤ t.osc
  | .receiverListen => ∃ x, t.link.listenAt = some x ∧ x ≤ t.tb.nodeTime
  | .loggerByteTimeout => t.port.rx ≠ [] ∧ t.port.rxLast + 20 < t.osc
  | .outputFrameSent => ∃ l, t.port.line = some l ∧ (l.startedAt : Int) + roundDiv (l.bytes.length * 25) 288 ≤ t.osc
  | _ => False

/-! #### The cycle end and the fold (chapter 6) -/

/-- An entry after the silence counting of a cycle end (R100). -/
def PeerEntry.counted (limit : Nat) (e : PeerEntry) : PeerEntry :=
  if e.state = .live ∨ e.state = .silent then
    if e.heard then { e with missed := 0, heard := false }
    else
      { e with
        missed := min 255 (e.missed + 1)
        state := if e.state = .live ∧ limit ≤ min 255 (e.missed + 1) then .silent else e.state }
  else e

/-- One record of the inbound queue at the fold, whether SERIES_MALFORMED and SERIES_RESET are latched after it, and the fold
report so far (R107, R108, R114): without an entry nothing changes; an entry in DROPPED or UNHEARD or without a ring counts it
UNUSED; another takes it. -/
def foldInto (w : PeerTable × Bool × Bool × List FoldChange) (x : Nat × PeerRecord) :
    PeerTable × Bool × Bool × List FoldChange :=
  match w.1.entries.find? fun e => e.id = x.1 with
  | none => w
  | some e =>
    match (if e.state = .dropped ∨ e.state = .unheard then none else e.ring) with
    | none =>
      ({ w.1 with entries := w.1.entries.map fun y : PeerEntry =>
          if y.id = x.1 then { e with discards := { e.discards with unused := min 65535 (e.discards.unused + 1) } } else y },
        w.2)
    | some n =>
      let f := Folding.take { entry := e, samples := (w.1.rings.get n).samples } x.2
      ({ entries := w.1.entries.map fun y : PeerEntry => if y.id = x.1 then f.entry else y
         rings := w.1.rings.put n { owner := (w.1.rings.get n).owner, samples := f.samples } },
        w.2.1 || f.malformed, w.2.2.1 || f.reset, w.2.2.2 ++ f.changes)

/-- The entries that become SILENT at a cycle end, in table order (R100; log entry 28). -/
def State.silenced (s : State) : List PeerEntry :=
  s.peers.entries.filter fun e => e.state ≠ (e.counted s.baseTerm.silenceLimit).state

/-- The peer table, SERIES_MALFORMED, SERIES_RESET and the fold report that a cycle-end event leaves (R93, R100, R107, R114). -/
def State.cycleEnded (s : State) : PeerTable × Bool × Bool × List FoldChange :=
  s.link.inq.foldl foldInto
    ({ s.peers with entries := s.peers.entries.map (PeerEntry.counted s.baseTerm.silenceLimit) },
      s.port.latched.seriesMalformed, s.port.latched.seriesReset, s.silenced.map fun e => .entryState e.id)

/-- The reception that a cycle start at oscillator time `osc` sets aside for what arrives with it (R93, R100; log entry 29): a
receiver that takes bytes, with those it holds; with none, what an earlier cycle start set aside stays. -/
def PeerLink.heldBack (l : PeerLink) (osc : Nat) : Option ClosedReception :=
  match l.rx with
  | .off => l.closed
  | .listening => some { closedAt := osc, rx := l.rx, buf := l.rxBuf }
  | .inBurst _ _ _ => some { closedAt := osc, rx := l.rx, buf := l.rxBuf }
  | .discarding => l.closed

/-- The sample that an OBS is placed as (R106, R110): at an epoch, its residual less a step, CURRENT or AMENDED. -/
def Obs.placedAs (o : Obs) (epoch : Nat) (step : Int) (amended : Bool) : Sample :=
  { seq := o.seq, mid := o.mid, residual := o.residual - step, epoch := epoch
    jump := o.flags.getLsbD 0, clamped := o.flags.getLsbD 1, amended := amended }

/-- A record discarded with its count raised (R97, R109 to R111). -/
def Folding.counting (f : Folding) (raise : Discards → Discards) : Folding :=
  { f with entry := { f.entry with discards := raise f.entry.discards } }

/-- What placing a sample in the ring leaves (R111), by the first check that applies. -/
def Folding.Placed (f : Folding) (x : Sample) (g : Folding) : Prop :=
  ((∃ y ∈ f.samples, y.seq = x.seq) →
      g = f.counting fun d : Discards => { d with duplicate := min 65535 (d.duplicate + 1) })
    ∧ ((∀ y ∈ f.samples, y.seq ≠ x.seq) →
      (128 ≤ f.samples.length → (∀ y ∈ f.samples, x.seq < y.seq) →
        g = f.counting fun d : Discards => { d with tooOld := min 65535 (d.tooOld + 1) })
      ∧ (f.samples.length < 128 ∨ (∃ y ∈ f.samples, y.seq < x.seq) →
        ((∃ y ∈ f.samples, (y.seq < x.seq ∧ x.mid ≤ y.mid) ∨ (x.seq < y.seq ∧ y.mid ≤ x.mid)) →
          g = { f.counting (fun d : Discards => { d with malformed := min 65535 (d.malformed + 1) }) with malformed := true })
        ∧ ((∀ y ∈ f.samples, (y.seq < x.seq → y.mid < x.mid) ∧ (x.seq < y.seq → x.mid < y.mid)) →
          ∃ l : List Sample, l.Perm (x :: f.samples) ∧ l.Pairwise (fun a b => a.seq < b.seq ∧ a.mid < b.mid)
            ∧ g = if f.samples.length < 128 then
                { f with samples := l, changes := f.changes ++ [.added f.entry.id] }
              else
                { f with samples := l.tail, changes := f.changes ++ [.added f.entry.id, .evicted f.entry.id] })))

/-! #### HEADs (chapter 6) -/

/-- The identity set afresh from a HEAD (R99, R104). -/
def PeerEntry.named (e : PeerEntry) (h : Head) : PeerEntry :=
  { e with
    role := some h.role, epoch := some h.epoch, series := none, mark := none
    homeId := if h.role = Role.base then h.homeId else 0
    easting := if h.role = Role.base then h.easting else 0
    northing := if h.role = Role.base then h.northing else 0
    height := if h.role = Role.base then h.height else 0 }

/-- What a taken HEAD that arrives in slot `a` leaves of its entry, but for the ring (R99). -/
def PeerEntry.heardFrom (e : PeerEntry) (h : Head) (a : Nat × Nat) : PeerEntry :=
  { e with
    state := .live, slotsHeard := e.slotsHeard ||| BitVec.ofNat 32 (2 ^ a.2), lastHeard := a
    heard := true, missed := 0, repTb := h.tbState, repOcc := h.occState, repCycle := h.cycle
    repEpoch := h.epoch, repLatest := h.latestObs
    easting := if h.role = Role.base then h.easting else e.easting
    northing := if h.role = Role.base then h.northing else e.northing
    height := if h.role = Role.base then h.height else e.height }

/-- The ring allocation of a taken HEAD (R105), from the rings `x` and the entry `e`: a BASE entry without a ring takes the lowest
free one, emptied, its series none; with none free it is marked NO_RING; any other entry and the rings stay. -/
def Allocated (x : Rings) (e : PeerEntry) (x' : Rings) (e' : PeerEntry) : Prop :=
  (e.role ≠ some .base ∨ e.ring ≠ none → x' = x ∧ e' = e)
    ∧ (e.role = some .base → e.ring = none →
      (∀ n, (x.get n).owner = none → (∀ m : RingNo, m.code < n.code → (x.get m).owner ≠ none) →
          x' = x.put n { owner := some e.id, samples := [] }
            ∧ e' = { e with ring := some n, noRing := false, series := none })
        ∧ ((∀ n, (x.get n).owner ≠ none) → x' = x ∧ e' = { e with noRing := true }))

/-! #### Base terms (chapter 7) -/

/-- The conditions of a candidate (R125). -/
def PeerEntry.Candidate (cfg : BaseConfig) (h : Header) (e : PeerEntry) : Prop :=
  (e.state = .live ∨ e.state = .silent) ∧ e.ring ≠ none
    ∧ (h.easting - e.easting) ^ 2 + (h.northing - e.northing) ^ 2 ≤ (cfg.maxDistance : Int) ^ 2

/-- The order in which two candidates are tried (R125). -/
def PeerEntry.TriedFirst (h : Header) (a b : PeerEntry) : Prop :=
  h.preferred = some a.id ∨ (h.preferred ≠ some b.id
    ∧ ((h.easting - a.easting) ^ 2 + (h.northing - a.northing) ^ 2
          < (h.easting - b.easting) ^ 2 + (h.northing - b.northing) ^ 2
      ∨ ((h.easting - a.easting) ^ 2 + (h.northing - a.northing) ^ 2
          = (h.easting - b.easting) ^ 2 + (h.northing - b.northing) ^ 2 ∧ a.id < b.id)))

/-- Two samples of an entry's ring that bracket mid-time `t` (R126). -/
def Brackets (s : State) (t : Nat) (e : PeerEntry) (a b : Sample) : Prop :=
  (∃ l₁ l₂, s.peers.samplesOf e = l₁ ++ a :: b :: l₂)
    ∧ a.mid ≤ t ∧ t < b.mid ∧ b.mid - a.mid ≤ s.baseTerm.maxGap * 1000

/-- The latest sample of an entry's ring, near enough before mid-time `t` to hold (R127). -/
def Holds (s : State) (t : Nat) (e : PeerEntry) (a : Sample) : Prop :=
  (s.peers.samplesOf e).getLast? = some a ∧ a.mid ≤ t ∧ t - a.mid ≤ s.baseTerm.maxGap * 1000

/-- The outcome that candidate `e` gives with samples `a` and `b` around mid-time `t` (R126, R71): BRACKETED, with R interpolated,
when `b` is not flagged JUMP; else STEP_NEAR on the nearer sample, `a` at an equal distance. -/
def bracketed (t : Nat) (e : PeerEntry) (a b : Sample) : Selection :=
  if b.jump = false then
    { outcome := .bracketed, final := true
      bracket := some { peer := e.id, series := e.series.getD 0, a := ⟨a.seq, a.mid, a.residual⟩
                        b := some ⟨b.seq, b.mid, b.residual⟩, epoch := e.epoch.getD 0 }
      r := a.residual + roundDiv ((b.residual - a.residual) * ((t : Int) - a.mid)) (b.mid - a.mid) }
  else if t - a.mid ≤ b.mid - t then
    { outcome := .stepNear, final := true, r := a.residual
      bracket := some { peer := e.id, series := e.series.getD 0, a := ⟨a.seq, a.mid, a.residual⟩, b := none
                        epoch := e.epoch.getD 0 } }
  else
    { outcome := .stepNear, final := true, r := b.residual
      bracket := some { peer := e.id, series := e.series.getD 0, a := ⟨b.seq, b.mid, b.residual⟩, b := none
                        epoch := e.epoch.getD 0 } }

/-- The selection of an occupation with header `h` and mid-time `t` (R125 to R127): of the candidates in their order, the first
that gives a bracket decides; with none, the first that gives a hold; with none, AWAITED when a candidate is LIVE, and
MODEL_FALLBACK otherwise. -/
def SelectedFirst (s : State) (h : Header) (t : Nat) (x : Selection) : Prop :=
  ∃ cs : List PeerEntry, cs.Pairwise (PeerEntry.TriedFirst h)
    ∧ (∀ e, e ∈ cs ↔ e ∈ s.peers.entries ∧ e.Candidate s.baseTerm h)
    ∧ (∀ l₁ e l₂ a b, cs = l₁ ++ e :: l₂ → Brackets s t e a b → (∀ d ∈ l₁, ∀ a' b', ¬ Brackets s t d a' b') →
        x = bracketed t e a b)
    ∧ ((∀ e ∈ cs, ∀ a b, ¬ Brackets s t e a b) →
      (∀ l₁ e l₂ a, cs = l₁ ++ e :: l₂ → Holds s t e a → (∀ d ∈ l₁, ∀ a', ¬ Holds s t d a') →
        x = { outcome := .held, final := false, r := a.residual
              bracket := some { peer := e.id, series := e.series.getD 0, a := ⟨a.seq, a.mid, a.residual⟩, b := none
                                epoch := e.epoch.getD 0 } })
      ∧ ((∀ e ∈ cs, ∀ a, ¬ Holds s t e a) →
        x = if ∃ e ∈ cs, e.state = .live then { outcome := .awaited, final := false, bracket := none, r := 0 }
          else { outcome := .modelFallback, final := true, bracket := none, r := 0 }))

/-- The base term of an occupation with mid-time `t`, not sealed, after one change that a fold report lists (R132, R71): a REV on its
bracket's peer and series takes the step from each stored residual at or above its from-sequence, the bracket takes its epoch,
and R is formed anew. -/
def BaseTerm.revised (t : Nat) (m : BaseTerm) : FoldChange → BaseTerm
  | .rev peer series fromSeq step epoch =>
    match m.bracket with
    | none => m
    | some k =>
      if k.peer = peer ∧ k.series = series then
        let low : Stored → Stored := fun y => if fromSeq ≤ y.seq then { y with residual := y.residual - step } else y
        { m with
          bracket := some { k with a := low k.a, b := k.b.map low, epoch := epoch }
          r := match k.b.map low with
            | none => (low k.a).residual
            | some b =>
              (low k.a).residual
                + roundDiv ((b.residual - (low k.a).residual) * ((t : Int) - k.a.time)) (b.time - k.a.time) }
      else m
  | _ => m

/-- Whether a REV that a fold report lists reaches a stored sequence of a bracket (R133). -/
def Bracket.reachedBy (k : Bracket) : FoldChange → Bool
  | .rev peer series fromSeq _ _ =>
    k.peer = peer && k.series = series && (fromSeq ≤ k.a.seq || k.b.any (fun y => fromSeq ≤ y.seq))
  | _ => false

/-- Whether a change that a fold report lists is a coherence loss. -/
def FoldChange.isLoss : FoldChange → Bool
  | .loss _ _ _ => true
  | _ => false

/-- Whether a change that a fold report lists acts on base terms: a REV or a coherence loss (R132). -/
def FoldChange.acts : FoldChange → Bool
  | .rev _ _ _ _ _ => true
  | .loss _ _ _ => true
  | _ => false

/-- A base term that takes a selection, its source and expiry unchanged (R128). -/
def BaseTerm.selected (m : BaseTerm) (y : Selection) : BaseTerm :=
  { m with outcome := y.outcome, final := y.final, bracket := y.bracket, r := y.r }

/-- Every pending occupation re-evaluated from state `s`, with the entries and rings as `t` has them (R128, R129), after the REVs of
a fold report without a coherence loss (R132, R133), or with no report: each pending one has the selection that they give, its
expiry and source unchanged, and is pending still when that is provisional; the other base terms change as the REVs have them, a
sealed record's not at all, which is flagged when one reaches it; and no entry joins the pending list. -/
def Reselected (s t : State) (report : List FoldChange) : Prop :=
  (∀ w ∈ s.eng.waiting, ∀ r ∈ s.eng.log, r.number = w.occ → ∀ x ∈ r.values, ∀ y : Selection, y = select t r.header x.mid →
      (∃ r' ∈ t.eng.log, r'.number = w.occ ∧ r'.flags = r.flags ∧ ∃ x' ∈ r'.values,
        x'.term = x.term.selected y
          ∧ x'.v = x'.g + x'.cTilt + x'.cTemp - x'.tModel - y.r ∧ x'.gRed = x'.v - x'.d)
      ∧ (w ∈ t.eng.waiting ↔ y.final = false))
    ∧ (∀ r ∈ s.eng.log, (∀ w ∈ s.eng.waiting, w.occ ≠ r.number) →
      ∃ r' ∈ t.eng.log, r'.number = r.number
        ∧ (r.state = .sealed → r'.values = r.values ∧ r'.state = .sealed
          ∧ r'.flags = { r.flags with
            amendedAfterSeal := r.flags.amendedAfterSeal
              || r.values.any (fun x => x.term.bracket.any fun k => report.any k.reachedBy) })
        ∧ (r.state ≠ .sealed → r'.flags = r.flags
          ∧ r'.values.map Values.term = r.values.map fun x => report.foldl (BaseTerm.revised x.mid) x.term))
    ∧ ∀ w ∈ t.eng.waiting, w ∈ s.eng.waiting

/-- A fold report taken whose one change that acts on base terms is a coherence loss of this peer and series (R134): a sealed record
on them is flagged; another on them is MODEL_FALLBACK, flagged BASE_INVALIDATED, when its hold expiry has passed, and else
re-selected against the rings as `t` has them, as every other pending one is (R129); what is provisional is pending. -/
def LossTaken (s t : State) (peer series : Nat) : Prop :=
  ∀ r ∈ s.eng.log, ∃ r' ∈ t.eng.log, r'.number = r.number ∧
    match r.values with
    | none => r' = r
    | some x =>
      if x.term.bracket.any fun k => k.peer = peer && k.series = series then
        if r.state = .sealed then r' = { r with flags := { r.flags with amendedAfterSeal := true } }
        else if x.term.expiry ≤ s.tb.nodeTime then
          r'.flags = { r.flags with baseInvalidated := true }
            ∧ r'.values.map Values.term
              = some { x.term with outcome := .modelFallback, final := true, bracket := none, r := 0 }
            ∧ ∀ w ∈ t.eng.waiting, w.occ ≠ r.number
        else
          r'.flags = r.flags ∧ r'.values.map Values.term = some (x.term.selected (select t r.header x.mid))
            ∧ ((∃ w ∈ t.eng.waiting, w.occ = r.number) ↔ (select t r.header x.mid).final = false)
            ∧ ∀ w ∈ t.eng.waiting, w.occ = r.number →
              w ∈ s.eng.waiting ∨ w = { occ := r.number, mid := x.mid, expiry := x.term.expiry }
      else if s.eng.waiting.any fun w => w.occ = r.number then
        r'.flags = r.flags ∧ r'.values.map Values.term = some (x.term.selected (select t r.header x.mid))
          ∧ ((∃ w ∈ t.eng.waiting, w.occ = r.number) ↔ (select t r.header x.mid).final = false)
      else r'.flags = r.flags ∧ r'.values.map Values.term = some x.term

/-! #### Loops (chapter 8) -/

/-- The rate before loop `k` (R139): of the newest loop with a number below `k` that is CLOSING or the last frozen one, or 0. -/
def LoopTable.priorRate (t : LoopTable) (k : Nat) : Int :=
  (((t.lastFrozen.toList ++ t.closing).filter fun l : Loop => l.number < k).getLast?.map Loop.rate).getD 0

/-- The carry line's value at a mid-time, or 0 (R72, R140, R142). -/
def LoopTable.carried (t : LoopTable) (mid : Nat) : Int :=
  match t.carry with
  | none => 0
  | some c => c.dO + roundDiv (c.rate * ((mid : Int) - c.time)) 1000000

/-- The table after the abandonment of its OPEN loop `l` (R141). -/
def LoopTable.abandoned (t : LoopTable) (l : Loop) : LoopTable :=
  { t with
    openLoop := none
    carry := some { time := l.opening.mid, dO := l.dO, rate := l.rate, loopNo := l.number } }

/-- The table with a loop opened at a tie (R142, R143, R145). -/
def LoopTable.opened (t : LoopTable) (tie : Tie) (dO : Int) (joined unmatched : Bool) : LoopTable :=
  { t with
    counter := t.counter + 1
    openLoop := some
      { number := t.counter + 1, state := .opened, joined := joined, opening := tie, dO := dO, closingTie := none
        members := [], rate := t.priorRate (t.counter + 1), flags := { tieUnmatched := unmatched } } }

/-- The table after the forced freeze that a third closure needs (R144). -/
def LoopTable.forced (t : LoopTable) : LoopTable :=
  match t.closing with
  | l :: m :: rest =>
    { t with
      closing := m :: rest
      lastFrozen := some { l with state := .frozen, flags := { l.flags with rateProvisional := true } } }
  | _ => t

/-- The OPEN loop `l` as its closing tie leaves it (R73, R143): the rate before it when its span is short, else the computed rate
clamped to the drift rate limit. -/
def Loop.closedBy (cfg : DriftConfig) (before : Int) (l : Loop) (tie : Tie) : Loop :=
  if (tie.mid : Int) - l.opening.mid < cfg.minLoopTime * 1000 then
    { l with state := .closing, closingTie := some tie, rate := before, flags := { l.flags with shortLoop := true } }
  else
    { l with
      state := .closing, closingTie := some tie
      rate := max (-(cfg.rateLimit : Int)) (min cfg.rateLimit
        (roundDiv ((tie.v - l.opening.v) * 1000000) (tie.mid - l.opening.mid)))
      flags := { l.flags with driftClamp :=
        cfg.rateLimit < (roundDiv ((tie.v - l.opening.v) * 1000000) (tie.mid - l.opening.mid)).natAbs } }

/-- Whether both ties of a loop have final base terms (R148). -/
def Loop.settled (l : Loop) : Bool := l.opening.final && l.closingTie.any Tie.final

/-- What the closure of the OPEN loop `l` of table `t` at a tie leaves (R143, R144, R148): the forced freeze, the closed loop in
the CLOSING slots, the joined loop open at the tie, and the loops whose ties are final frozen in their order. -/
def LoopTable.closedAt (cfg : DriftConfig) (t : LoopTable) (l : Loop) (tie : Tie) : LoopTable :=
  let c := l.closedBy cfg (t.forced.priorRate l.number) tie
  let q := t.forced.closing ++ [c]
  { openLoop := some
      { number := t.counter + 1, state := .opened, joined := true, opening := tie
        dO := c.dO + roundDiv (c.rate * ((tie.mid : Int) - c.opening.mid)) 1000000
        closingTie := none, members := [], rate := c.rate, flags := {} }
    closing := q.dropWhile Loop.settled
    lastFrozen := ((q.takeWhile Loop.settled).getLast?.map fun x : Loop => { x with state := .frozen }).or
      t.forced.lastFrozen
    carry := t.carry
    counter := t.counter + 1 }

/-- A tie's copy brought up to its record's value before drift and finality (R146). -/
def Tie.copied (log : List Record) (k : Tie) : Tie :=
  match (log.find? fun r => r.number = k.occ).bind Record.values with
  | none => k
  | some x => { k with v := x.g + x.cTilt + x.cTemp - x.tModel - x.term.r, final := x.term.final }

/-- A loop with the copies of its ties brought up (R146). -/
def Loop.copied (log : List Record) (l : Loop) : Loop :=
  { l with opening := l.opening.copied log, closingTie := l.closingTie.map (Tie.copied log) }

/-- The anchor offset of a loop behind loop `older`: on its line when that loop's closing tie opened it, else as held (R74, R147). -/
def Loop.anchored (older : Option Loop) (l : Loop) : Int :=
  match older with
  | none => l.dO
  | some o =>
    if l.joined = true ∧ o.closingTie.map Tie.occ = some l.opening.occ then
      o.dO + roundDiv (o.rate * ((l.opening.mid : Int) - o.opening.mid)) 1000000
    else l.dO

/-- The CLOSING loops formed anew in increasing number, behind loop `older` and the rate `before` (R73, R74, R146, R147): the anchor
offset of each, then its rate from its ties. -/
def formedAnew (cfg : DriftConfig) : Option Loop → Int → List Loop → List Loop
  | _, _, [] => []
  | older, before, l :: rest =>
    let m : Loop := { l with dO := l.anchored older }
    let m : Loop := match l.closingTie with
      | none => m
      | some c => { m.closedBy cfg before c with state := l.state }
    m :: formedAnew cfg (some m) m.rate rest

/-- Whether the value of a tie of the OPEN and CLOSING slots has moved, with the log as `log` (R146). -/
def LoopTable.moved (t : LoopTable) (log : List Record) : Bool :=
  t.slots.any fun l => (l.opening :: l.closingTie.toList).any fun k => (k.copied log).v ≠ k.v

/-- The loop table after the changes of one event's base terms have been passed to it and carried forward, before the freezing
test, with the log as the event leaves it (R135, R146, R147): the copies of the ties follow, and when a value moved the CLOSING
loops are formed anew, and the OPEN loop's anchor offset and extrapolation rate retaken. -/
def LoopTable.passed (cfg : DriftConfig) (t : LoopTable) (log : List Record) : LoopTable :=
  let c : LoopTable := { t with closing := t.closing.map (Loop.copied log), openLoop := t.openLoop.map (Loop.copied log) }
  if t.moved log then
    let q := formedAnew cfg none ((t.lastFrozen.map Loop.rate).getD 0) c.closing
    { c with
      closing := q
      openLoop := c.openLoop.map fun o =>
        { o with dO := o.anchored q.getLast?, rate := ({ c with closing := q } : LoopTable).priorRate o.number } }
  else c

/-- The loop table after the freezing test (R148; made once an event, log entry 34): the CLOSING loops whose ties are final, from the
oldest to the first that does not qualify, leave their slots, the last of them is the last frozen loop, and the OPEN loop's
extrapolation rate is retaken. -/
def LoopTable.frozenUp (t : LoopTable) : LoopTable :=
  match (t.closing.takeWhile Loop.settled).getLast? with
  | none => t
  | some l =>
    let u : LoopTable :=
      { t with closing := t.closing.dropWhile Loop.settled, lastFrozen := some { l with state := .frozen } }
    { u with openLoop := u.openLoop.map fun o => { o with rate := u.priorRate o.number } }

/-- A record without what an event may change after it was written (R156): what is left stays until the record leaves the log. -/
def Record.written (r : Record) : Record :=
  { r with
    state := .reduced, revisions := 0, flags := {}
    values := r.values.map fun x => { x with
      term := { x.term with outcome := .model, final := true, bracket := none, r := 0 }
      d := 0, driftFrozen := true, v := 0, gRed := 0 } }

/-- A record `o` as the end of an event leaves it, `o'` (R75, R149, R157, R165 to R167): a REDUCED one has V and g_red formed from
the terms it then has, is SEALED when its base term is final and its drift frozen, and has one revision more when its R, its D or
its state changed; a frozen D stays; any other record keeps all but its flags. -/
def Record.Closed (o o' : Record) : Prop :=
  if o.state = .reduced then
    ∀ x ∈ o.values, ∃ x' ∈ o'.values,
      x'.v = x'.g + x'.cTilt + x'.cTemp - x'.tModel - x'.term.r ∧ x'.gRed = x'.v - x'.d
        ∧ (x.driftFrozen = true → x'.driftFrozen = true ∧ x'.d = x.d)
        ∧ o'.state = (if x'.term.final && x'.driftFrozen then .sealed else .reduced)
        ∧ o'.revisions = if x'.term.r = x.term.r ∧ x'.d = x.d ∧ o'.state = o.state then o.revisions
          else min 255 (o.revisions + 1)
  else o' = { o with flags := o'.flags }

/-- The drift term of record `r` with values `x` once an event's changes have been passed to the loop table, which stands as `t`
(R139, R147): with its drift frozen, or no tie value moved, as it was; else that of its loop's line. -/
def LoopTable.driftOf (t : LoopTable) (moved : Bool) (r : Record) (x : Values) : Int :=
  if x.driftFrozen || !moved then x.d
  else
    match t.slots.find? fun l => some l.number = x.loopNo with
    | none => x.d
    | some l => if r.header.tie then l.dO else l.dO + roundDiv (l.rate * ((x.mid : Int) - l.opening.mid)) 1000000

/-- What an event that changes base terms and writes no record passes on from state `s` to state `t` (R135, R146 to R150, R165,
R167): the loop table, and for each REDUCED record its drift term on its loop's line when a tie's value moved, its drift-frozen mark
when its loop is frozen, the sealing, and one revision when its R, its D or its state changed; no record enters or leaves the log. -/
def LoopsPassed (s t : State) : Prop :=
  t.eng.loops = (s.eng.loops.passed s.driftCfg t.eng.log).frozenUp
    ∧ t.eng.log.map Record.written = s.eng.log.map Record.written
    ∧ ∀ r ∈ s.eng.log, ∃ r' ∈ t.eng.log, r'.number = r.number ∧ r.Closed r'
      ∧ (r.state = .reduced → ∀ x ∈ r.values, ∃ x' ∈ r'.values,
        x'.d = (s.eng.loops.passed s.driftCfg t.eng.log).driftOf (s.eng.loops.moved t.eng.log) r x
          ∧ x'.driftFrozen = (x.driftFrozen
            || ((s.eng.loops.passed s.driftCfg t.eng.log).closing.takeWhile Loop.settled).any (fun l =>
              l.members.contains r.number || l.closingTie.any (fun c => c.occ = r.number))))

/-- A provisional base term made final (R130, R164): HELD stays with its sample and its R, AWAITED becomes MODEL_FALLBACK with
R = 0. -/
def BaseTerm.madeFinal (m : BaseTerm) : BaseTerm :=
  { m with
    final := true
    outcome := if m.outcome = .awaited then .modelFallback else m.outcome
    r := if m.outcome = .awaited then 0 else m.r }

/-- The hold expiries of the entries that are `due`, taken together as one event (R128, R130, R131, R135, R164): these leave the
pending list, and each has the selection that the rings as they stand give, when that is final, or that selection made final and
the flag HOLD_EXPIRED; every other record keeps its flags and its base term; what changed is passed on (`LoopsPassed`). -/
def HoldsExpired (s t : State) (due : PendingEntry → Bool) : Prop :=
  t.eng.waiting = s.eng.waiting.filter (fun w => !due w)
    ∧ LoopsPassed s t
    ∧ (∀ o ∈ s.eng.log, (∀ e ∈ s.eng.waiting, due e = true → e.occ ≠ o.number) →
      ∃ o' ∈ t.eng.log, o'.number = o.number ∧ o'.flags = o.flags ∧ o'.values.map Values.term = o.values.map Values.term)
    ∧ ∀ e ∈ s.eng.waiting, due e = true → ∃ r ∈ s.eng.log, r.number = e.occ ∧ ∃ x ∈ r.values,
      ∃ r' ∈ t.eng.log, r'.number = e.occ ∧ ∃ x' ∈ r'.values, ∀ y : Selection, y = select s r.header x.mid →
        r'.flags = { r.flags with holdExpired := r.flags.holdExpired || !y.final }
          ∧ x'.term = (if y.final then x.term.selected y else (x.term.selected y).madeFinal)
          ∧ x'.v = x'.g + x'.cTilt + x'.cTemp - x'.tModel - x'.term.r ∧ x'.gRed = x'.v - x'.d

/-- The loop table after FINISH, with the log as it leaves it (R141, R148, R151): the changes passed, the OPEN loop abandoned, which
sets the carry line, and every CLOSING loop FROZEN, the newest of them the last frozen loop. -/
def LoopTable.finished (cfg : DriftConfig) (t : LoopTable) (log : List Record) : LoopTable :=
  let q := t.passed cfg log
  let u : LoopTable := match q.openLoop with
    | none => q
    | some l => q.abandoned l
  { u with closing := [], lastFrozen := (q.closing.getLast?.map fun l : Loop => { l with state := .frozen }).or q.lastFrozen }

/-- The members of the OPEN loop that the placing of an occupation abandons: a 65th member's, or an unmatched tie's (R140, R141,
R145). -/
def LoopTable.givenUp (cfg : DriftConfig) (t : LoopTable) (pointId : Nat) (isTie : Bool) : List Nat :=
  match t.openLoop with
  | none => []
  | some l => if cfg.on && (if isTie then l.opening.pointId ≠ pointId else 64 ≤ l.members.length) then l.members else []

/-- What the first reduction that adds record `r` leaves of the log (R141, R145, R155, R160 to R166): the records of the log before
it, less the one evicted from a full log, in their order, and then `r`. Of the others, the occupation that `r` displaces from a full
pending list, its oldest, has its base term made final and is flagged FORCED; the members of an OPEN loop abandoned gain
LOOP_ABANDONED; and every other keeps its flags and base term. -/
def LogJoined (s t : State) (r : Record) : Prop :=
  t.eng.log.map Record.written = (evict s.eng.log).map Record.written ++ [r.written]
    ∧ ∀ (displaced : Option Nat) (abandoned : List Nat),
      displaced = (if s.eng.waiting.length < 32 ∨ (∀ x ∈ r.values, x.term.final = true) then none
        else s.eng.waiting.head?.map PendingEntry.occ) →
      abandoned = s.eng.loops.givenUp s.driftCfg r.header.pointId r.header.tie →
      ∀ o ∈ evict s.eng.log, ∃ o' ∈ t.eng.log, o'.number = o.number ∧ o.Closed o'
        ∧ o'.flags = { o.flags with
            forced := o.flags.forced || displaced = some o.number
            loopAbandoned := o.flags.loopAbandoned || abandoned.contains o.number }
        ∧ o'.values.map Values.term = o.values.map fun x : Values =>
          if displaced = some o.number then x.term.madeFinal else x.term

/-- What R168 lists of a record that holds values. -/
def Record.listed (r : Record) (x : Values) :
    (Int × Int × Int) × (BaseOutcome × Bool) × (Option Nat × Bool) × RecState × RecordFlags :=
  ((x.gRed, x.term.r, x.d), (x.term.outcome, x.term.final), (x.loopNo, x.driftFrozen), r.state, r.flags)

/-- The RESULT notice of a record as it stands, when it is due (R168): the record holds values, and no record of `before` has its
number and all that R168 lists the same. -/
def Record.resultDue (before : List Record) (r : Record) : Option NoticeBody :=
  match r.values with
  | none => none
  | some x =>
    if before.any fun o => o.number = r.number && o.values.any (fun y => o.listed y = r.listed x) then none
    else some (.result
      { occ := r.number, pointId := r.header.pointId, tie := r.header.tie, state := r.state, revisions := r.revisions
        gRed := x.gRed, v := x.v, r := x.term.r, outcome := x.term.outcome, final := x.term.final
        peer := x.term.bracket.map Bracket.peer, d := x.d, loopNo := x.loopNo, driftFrozen := x.driftFrozen
        flags := r.flags })

/-- The items of a loop's LOOP notice (R150). -/
def Loop.items (l : Loop) : LoopBody :=
  { number := l.number, state := l.state, rate := l.rate, dO := l.dO, openingOcc := l.opening.occ
    closingOcc := l.closingTie.map Tie.occ, members := l.members.length, flags := l.flags }

/-- The notices of one event of the reduction engine from state `s` to state `t`, which make port `p` into `p'` (R150, R166, R168):
first the LOOP notices in increasing loop number, one for each loop whose state, rate or anchor offset changed, those that left
the slots FROZEN or ABANDONED among them; then the RESULT notices in increasing occupation number. -/
def Told (s t : State) (p p' : Port) : Prop :=
  ∃ ls : List LoopBody,
    p' = (ls.map NoticeBody.loop ++ t.eng.log.filterMap (Record.resultDue s.eng.log)).foldl Port.offer p
      ∧ ls.Pairwise (fun a b => a.number < b.number)
      ∧ (∀ b ∈ ls, ∃ l ∈ s.eng.loops.slots ++ t.eng.loops.slots, l.number = b.number)
      ∧ (∀ l ∈ t.eng.loops.slots,
        if s.eng.loops.slots.any fun o => o.number = l.number && o.state = l.state && o.rate = l.rate && o.dO = l.dO then
          ∀ b ∈ ls, b.number ≠ l.number
        else l.items ∈ ls)
      ∧ (∀ l ∈ s.eng.loops.slots, (∀ u ∈ t.eng.loops.slots, u.number ≠ l.number) →
        ∃ b ∈ ls, b.number = l.number ∧ (b.state = .frozen ∨ b.state = .abandoned))
      ∧ ∀ l ∈ t.eng.loops.lastFrozen, (∃ o ∈ s.eng.loops.slots, o.number = l.number) → l.items ∈ ls

/-- The place that an occupation takes among the loops at its first reduction (R139 to R145, R152): the table `t` before it, the
table `u` and the log after it, the occupation as a tie would be held, whether it is one, and the values and flags its record
takes. -/
def LoopPlacing (cfg : DriftConfig) (t u : LoopTable) (log : List Record) (tie : Tie) (isTie : Bool) (x : Values)
    (unmatched : Bool) : Prop :=
  if cfg.on = false then u = t ∧ x.loopNo = none ∧ x.d = 0 ∧ x.driftFrozen = true ∧ unmatched = false
  else
    match t.openLoop with
    | none =>
      unmatched = false ∧ x.d = t.carried tie.mid ∧ x.driftFrozen = true
        ∧ if isTie then u = t.opened tie (t.carried tie.mid) false false ∧ x.loopNo = some (t.counter + 1)
          else u = t ∧ x.loopNo = none
    | some l =>
      if isTie = false ∧ l.members.length < 64 then
        u = { t with openLoop := some { l with members := l.members ++ [tie.occ] } }
          ∧ x.loopNo = some l.number ∧ x.d = l.dO + roundDiv (l.rate * ((tie.mid : Int) - l.opening.mid)) 1000000
          ∧ x.driftFrozen = false ∧ unmatched = false
      else if isTie = true ∧ l.opening.pointId = tie.pointId then
        u = t.closedAt cfg l tie ∧ x.loopNo = some (t.counter + 1) ∧ u.openLoop.map Loop.dO = some x.d
          ∧ x.driftFrozen = u.closing.isEmpty ∧ unmatched = false
          ∧ ∀ r ∈ log, r.number ∈ l.members → ∀ y ∈ r.values,
            y.d = l.dO + roundDiv ((l.closedBy cfg (t.forced.priorRate l.number) tie).rate
              * ((y.mid : Int) - l.opening.mid)) 1000000
      else
        x.d = (t.abandoned l).carried tie.mid ∧ x.driftFrozen = true ∧ unmatched = isTie
          ∧ (if isTie then u = (t.abandoned l).opened tie x.d false true ∧ x.loopNo = some (t.counter + 1)
            else u = t.abandoned l ∧ x.loopNo = none)
          ∧ ∀ r ∈ log, r.number ∈ l.members → r.flags.loopAbandoned = true ∧ ∀ y ∈ r.values, y.driftFrozen = true

/-- The base term of a first reduction and the pending list after it (R124, R128, R162, R163), for the occupation whose entry
would be `own`, with the handed-off flags `flags`: a MODEL term; a selection that is final; a provisional one, pending; and, with
32 pending, the oldest mid-time of them and it forced, whether that is another's or its own. -/
def FirstTerm (s : State) (h : Header) (flags : RecordFlags) (own : PendingEntry) (after : List PendingEntry)
    (term : BaseTerm) (forced : Bool) : Prop :=
  let y := select s h own.mid
  let base : BaseTerm :=
    { source := .base, outcome := y.outcome, final := y.final, bracket := y.bracket, r := y.r, expiry := own.expiry }
  if s.tide.mode = .model ∨ h.tideRequest = .model ∨ flags.timeSuspect = true then
    term = { source := .model, outcome := .model, final := true, bracket := none, r := 0, expiry := own.expiry }
      ∧ after = s.eng.waiting ∧ forced = flags.forced
  else if y.final = true then term = base ∧ after = s.eng.waiting ∧ forced = flags.forced
  else if s.eng.waiting.length < 32 then
    term = base ∧ forced = flags.forced ∧ ∀ e, e ∈ after ↔ e = own ∨ e ∈ s.eng.waiting
  else if ∀ e ∈ s.eng.waiting, own.mid < e.mid ∨ (own.mid = e.mid ∧ own.occ < e.occ) then
    term = { base with
        final := true
        outcome := if y.outcome = .awaited then .modelFallback else y.outcome
        r := if y.outcome = .awaited then 0 else y.r }
      ∧ after = s.eng.waiting ∧ forced = true
  else term = base ∧ forced = flags.forced ∧ ∀ e, e ∈ after ↔ e = own ∨ e ∈ s.eng.waiting.tail

/-! #### The logger port, the intake and the controller -/

/-- The frame receiver HUNTING, as the end of a frame leaves it (R174). -/
def State.hunting (s : State) : State := s.setPort { s.port with rx := [] }

/-- The state after a frame that was answered `r`, which becomes the reply owed: the receiver is HUNTING and the output line
is served (R174 to R178). `s` is the state that the frame's own effect left. -/
def State.replied (s : State) (kind seq : Byte) (r : Reply) : State :=
  s.setPort ((({ s.port with rx := [] } : Port).answer kind seq r).serve s.osc)

/-- The state after a frame discarded under a reply owed: BUSY takes the BUSY place (R176). -/
def State.repliedBusy (s : State) (kind seq : Byte) : State :=
  s.setPort ((({ s.port with rx := [] } : Port).answerBusy kind seq).serve s.osc)

/-- The kind, the sequence byte and the payload of a request (R200). -/
def Instr.request : Instr → Option (Byte × Byte × List Byte)
  | .status q p => some (0x01#8, q, p)
  | .setup q p => some (0x02#8, q, p)
  | .run q p => some (0x03#8, q, p)
  | .restart q p => some (0x04#8, q, p)
  | .stage q p => some (0x05#8, q, p)
  | .commit q p => some (0x06#8, q, p)
  | .amend q p => some (0x07#8, q, p)
  | .start q p => some (0x08#8, q, p)
  | .step q p => some (0x09#8, q, p)
  | .stop q p => some (0x0A#8, q, p)
  | .quiet q p => some (0x0B#8, q, p)
  | .rxmask q p => some (0x0C#8, q, p)
  | .drop q p => some (0x0D#8, q, p)
  | .restore q p => some (0x0E#8, q, p)
  | .reref q p => some (0x0F#8, q, p)
  | .finish q p => some (0x10#8, q, p)
  | .readOcc q p => some (0x11#8, q, p)
  | .readPeer q p => some (0x12#8, q, p)
  | .readSeries q p => some (0x13#8, q, p)
  | .readLoop q p => some (0x14#8, q, p)
  | _ => none

/-- Whether the node state admits a request of this kind: STATUS and the four reads in either state, SETUP and RUN in
STARTUP, the others in RUNNING (R175, R186). -/
def admits (kind : Byte) (n : NodeState) : Bool :=
  if kind.toNat = 0x01 || 0x11 ≤ kind.toNat then true
  else if kind.toNat = 0x02 || kind.toNat = 0x03 then n = .startup
  else n = .running

/-- The intake closed, its partial block discarded (R20, R29), the rejection counts too (log entry 27). -/
def Intake.closed (i : Intake) : Intake :=
  { i with
    isOpen := false
    counter := if i.isOpen then 0 else i.counter
    sums := if i.isOpen then {} else i.sums
    rejects := if i.isOpen then {} else i.rejects }

/-- The controller in IDLE after an ending: it holds no occupation, its items cleared (log entry 11), and the END line is asserted
for 100 ms (R38, R52, R54). -/
def State.idled (s : State) : Controller :=
  { s.ctl with
    state := .idle, active := none, startTime := 0, k := none, kept := 0, retakes := 0, sums := {}, rejects := {}
    flags := {}, settleAt := none, stepWaitAt := none, inForce := none, endLine := true
    endUntil := some (s.osc + 100) }

/-- The OCC_END notice of an ending (R52). -/
def State.occEnd (s : State) (reason : Option AbortReason) (flags : RecordFlags) (endTime : Nat) : NoticeBody :=
  .occEnd
    { occ := s.ctl.occNumber, pointId := (s.ctl.active.getD default).pointId, reason := reason
      startTime := s.ctl.startTime, endTime := endTime, kept := s.ctl.kept, retakes := s.ctl.retakes, flags := flags }

/-- The record that an ending of the occupation in progress writes when it holds no values (R158, R159). -/
def State.bare (s : State) (state : RecState) (reason : Option AbortReason) (flags : RecordFlags) (endTime : Nat)
    (firstObs lastObs : Option Nat) : Record :=
  { number := s.ctl.occNumber, header := s.ctl.active.getD default, state := state, reason := reason
    startTime := s.ctl.startTime, endTime := endTime, n := s.ctl.sums.n, kept := s.ctl.kept
    retakes := s.ctl.retakes, rejects := s.ctl.rejects, values := none, firstObs := firstObs, lastObs := lastObs
    revisions := 0, flags := flags }

/-- The state after an aborted ending (R52, R158), at node time `endTime`. -/
def State.abortedBy (s : State) (reason : AbortReason) (endTime : Nat) : State :=
  { s with
    intake := s.intake.closed
    ctl := s.idled
    eng := { s.eng with
      gRef := none
      log := evict s.eng.log ++ [s.bare .aborted (some reason) s.ctl.flags endTime none none] }
    port := s.port.offer (s.occEnd (some reason) s.ctl.flags endTime) }

/-- What a reduced ending of the occupation in progress leaves (R52, R58, R150, R159, R160, R168), at node time `endTime` and with the
flags `flags`: the intake closed, the controller in IDLE, everything outside the intake, the controller, the engine and the
port as it was, and the newest record of the log that of the occupation. A base's is its bare SEALED record; a rover's holds
the fixed terms formed from the occupation sums, the base term of its first reduction, and its drift place among the loops, and
is SEALED when both are final. The loop table that the place is taken in is that of `s`, unless the full pending list forces
another occupation that is a tie of one of its loops (R146): it is then passed first (log entry 14). The other records stay in the
log as `LogJoined` says (R155, R161, R163). OCC_END is offered first, and a rover's LOOP and RESULT notices follow it. That IDLE
holds none of the occupation's items is log entry 11, that the close clears the rejection counts log entry 27. -/
def ReducedEnding (s t : State) (flags : RecordFlags) (endTime : Nat) : Prop :=
  t = { s with intake := s.intake.closed, ctl := s.idled, eng := t.eng, port := t.port }
    ∧ t.eng.gRef = none ∧ t.eng.home = s.eng.home ∧ t.eng.epoch = s.eng.epoch
    ∧ t.eng.obsCounter = s.eng.obsCounter
    ∧ if s.isBase then
        t.eng.log = evict s.eng.log ++ [s.bare .sealed none flags endTime s.eng.firstObs s.eng.lastObs]
          ∧ t.port = s.port.offer (s.occEnd none flags endTime)
      else
        ∃ r, t.eng.log.getLast? = some r ∧ r.number = s.ctl.occNumber
          ∧ r.header = s.ctl.active.getD default ∧ r.reason = none
          ∧ r.startTime = s.ctl.startTime ∧ r.endTime = endTime ∧ r.n = s.ctl.sums.n
          ∧ r.kept = s.ctl.kept ∧ r.retakes = s.ctl.retakes ∧ r.rejects = s.ctl.rejects ∧ r.revisions = 0
          ∧ r.flags = { flags with
              thermal := flags.thermal || tempClampActs s.instrument (roundDiv s.ctl.sums.temp s.ctl.sums.n)
              forced := r.flags.forced, loopAbandoned := r.flags.loopAbandoned
              tieUnmatched := r.flags.tieUnmatched }
          ∧ ∃ x, r.values = some x
            ∧ r.state = (if x.term.final = true ∧ x.driftFrozen = true then .sealed else .reduced)
            ∧ x.mid = (roundDiv s.ctl.sums.time s.ctl.sums.n).toNat
            ∧ x.g = meanGravity s.instrument s.ctl.sums
            ∧ x.xMean = roundDiv s.ctl.sums.x s.ctl.sums.n ∧ x.yMean = roundDiv s.ctl.sums.y s.ctl.sums.n
            ∧ x.tMean = roundDiv s.ctl.sums.temp s.ctl.sums.n
            ∧ x.cTilt = tiltCorrection s.instrument x.xMean x.yMean
            ∧ x.cTemp = tempCorrection s.instrument x.tMean
            ∧ x.tModel = modelTide s.image x.mid
            ∧ x.v = x.g + x.cTilt + x.cTemp - x.tModel - x.term.r
            ∧ x.gRed = x.v - x.d
            ∧ FirstTerm s r.header flags
                { occ := r.number, mid := x.mid, expiry := endTime + s.baseTerm.holdLimit * 1000 } t.eng.waiting x.term
                r.flags.forced
            ∧ (LoopsSound s → Told s t (s.port.offer (s.occEnd none flags endTime)) t.port)
            ∧ (DriftSound s → LogJoined s t r)
            ∧ (LoopsSound s → DriftSound s →
              r.flags.loopAbandoned = flags.loopAbandoned
                ∧ ∃ (u : LoopTable) (unmatched : Bool),
                  (s.eng.waiting.length < 32 ∨ x.term.final = true
                      ∨ (∀ e ∈ s.eng.waiting.head?, ∀ l ∈ s.eng.loops.slots,
                        ∀ tie ∈ l.opening :: l.closingTie.toList, tie.occ ≠ e.occ) →
                    u = s.eng.loops)
                  ∧ u = (s.eng.loops.passed s.driftCfg t.eng.log).frozenUp
                  ∧ u.counter = s.eng.loops.counter ∧ u.carry = s.eng.loops.carry
                  ∧ (u.openLoop.map fun l : Loop => (l.number, l.members, l.opening.pointId))
                    = (s.eng.loops.openLoop.map fun l : Loop => (l.number, l.members, l.opening.pointId))
                  ∧ r.flags.tieUnmatched = (flags.tieUnmatched || unmatched)
                  ∧ LoopPlacing s.driftCfg u t.eng.loops t.eng.log
                      { occ := r.number, pointId := r.header.pointId, mid := x.mid, v := x.v, final := x.term.final }
                      r.header.tie x unmatched)

/-- An occupation in SETTLING under header `h` with this K, its items at 0 and its settle expiry armed (R40, R41, R49). -/
def State.started (s : State) (h : Header) (k : Option Nat) : State :=
  { s with ctl := { s.ctl with
      state := .settling, active := some h, occNumber := s.ctl.occNumber + 1, startTime := s.tb.nodeTime, k := k
      kept := 0, retakes := 0, sums := {}, rejects := {}
      flags := { settleClamped := h.settleClamp, timeSuspect := s.tb.state = .lost }
      settleAt := some (s.tb.nodeTime + h.settle.getD s.sampling.settle * 1000), stepWaitAt := none
      inForce := none } }

/-- The intake opened and the controller RECORDING under the new opening (R19, R30, R42, R46). -/
def State.opened (s : State) (mode : ContMode) (first : Bool) : State :=
  { s with
    intake := { s.intake with
      isOpen := true, mode := mode, opening := (s.intake.opening + 1) % 65536, counter := s.sampling.blockLength
      sums := {}, rejects := {}, shockRef := if first then none else s.intake.shockRef
      silenceAt := if s.intake.sensor = .absent then some (s.osc + 5000) else s.intake.silenceAt }
    ctl := { s.ctl with
      state := .recording, settleAt := none, stepWaitAt := none
      inForce := some ((s.intake.opening + 1) % 65536) } }

/-- The continuation mode that an occupation's mode gives (R42). -/
def Mode.continuation : Mode → ContMode
  | .spot => .continuous
  | .stepped => .singleKept

/-- Field `k` of a STAGE payload, 1 to 10, is in range (R35, R197, R200). -/
def StageField (p : List Byte) : Nat → Prop
  | 1 => 1 ≤ uAt p 0 4 ∧ uAt p 0 4 ≤ 999999
  | 2 => uAt p 4 1 ≤ 1
  | 3 => -10000000 ≤ sAt p 5 4 ∧ sAt p 5 4 ≤ 10000000
  | 4 => -10000000 ≤ sAt p 9 4 ∧ sAt p 9 4 ≤ 10000000
  | 5 => -10000000 ≤ sAt p 13 4 ∧ sAt p 13 4 ≤ 10000000
  | 6 => uAt p 17 1 ≤ 1
  | 7 => uAt p 18 1 ≤ 1
  | 8 => uAt p 19 1 ≤ 31
  | 9 => uAt p 20 1 ≤ 1
  | 10 => uAt p 22 1 ≤ 1
  | _ => True

/-- The header that a STAGE payload carries (R35, R197, R200): a settle time above 600 s is held as 600 s and sets the clamp mark. -/
def Staged (p : List Byte) (h : Header) : Prop :=
  h.pointId = uAt p 0 4 ∧ (h.tie = true ↔ uAt p 4 1 = 1) ∧ h.easting = sAt p 5 4 ∧ h.northing = sAt p 9 4
    ∧ h.height = sAt p 13 4 ∧ (h.tideRequest = .auto ↔ uAt p 17 1 = 1) ∧ (h.mode = .stepped ↔ uAt p 18 1 = 1)
    ∧ h.preferred = (if uAt p 19 1 = 0 then none else some (uAt p 19 1))
    ∧ h.blockCount = (if uAt p 20 1 = 0 then none else some (uAt p 21 1))
    ∧ h.settle = (if uAt p 22 1 = 0 then none else some (min 600 (uAt p 23 2)))
    ∧ (h.settleClamp = true ↔ uAt p 22 1 = 1 ∧ 600 < uAt p 23 2)

/-- The number of fields of SETUP part `n` (R188). -/
def setupFields : Nat → Nat
  | 1 => 3
  | 2 => 5
  | 3 => 7
  | 4 => 9
  | 5 => 3
  | 6 => 4
  | 7 => 3
  | 8 => 5
  | _ => 3

/-- Field `k` of SETUP part `n` is in range, in the bytes behind the part number (R188, R189, R197, R200); parts 9 to 20 are the
constituents. -/
def SetupField (n : Nat) (p : List Byte) (k : Nat) : Prop :=
  match n, k with
  | 1, 1 => 1 ≤ uAt p 0 1 ∧ uAt p 0 1 ≤ 31
  | 1, 2 => uAt p 1 1 ≤ 1
  | 1, _ => uAt p 2 1 ≤ 2
  | 2, 2 => 4 ≤ uAt p 4 1 ∧ uAt p 4 1 ≤ 32
  | 2, 3 => 150 ≤ uAt p 5 2 ∧ uAt p 5 2 ≤ 2000 ∧ uAt p 5 2 % 50 = 0
  | 2, _ => True
  | 3, 1 => uAt p 0 2 ∈ [100, 200, 500, 1000]
  | 3, 2 => 10 ≤ uAt p 2 2 ∧ uAt p 2 2 ≤ 600
  | 3, 3 => 1 ≤ uAt p 4 2 ∧ uAt p 4 2 ≤ 600
  | 3, 4 => uAt p 6 1 ≤ 15
  | 3, 5 => True
  | 3, 6 => uAt p 8 2 ≤ 600
  | 3, _ => 10 ≤ uAt p 10 2 ∧ uAt p 10 2 ≤ 3600
  | 4, 1 => 1 ≤ uAt p 0 4
  | 4, 5 => 1 ≤ uAt p 12 2 ∧ uAt p 12 2 ≤ 5000
  | 4, 6 => 1 ≤ uAt p 14 4 ∧ uAt p 14 4 ≤ 1000000
  | 4, 8 => -1000000 ≤ sAt p 22 4 ∧ sAt p 22 4 ≤ 1000000
  | 4, 9 => 1 ≤ uAt p 26 4 ∧ uAt p 26 4 ≤ 1000000
  | 4, _ => True
  | 5, 1 => uAt p 0 1 ≤ 1
  | 5, 2 => -1000000 ≤ sAt p 1 4 ∧ sAt p 1 4 ≤ 1000000
  | 5, _ => uAt p 5 1 ≤ 12
  | 6, 1 => 1 ≤ uAt p 0 4 ∧ uAt p 0 4 ≤ 10000000
  | 6, 2 => 10 ≤ uAt p 4 2 ∧ uAt p 4 2 ≤ 3600
  | 6, 3 => 60 ≤ uAt p 6 2 ∧ uAt p 6 2 ≤ 7200
  | 6, _ => 1 ≤ uAt p 8 1
  | 7, 1 => uAt p 0 1 ≤ 1
  | 7, 2 => 1 ≤ uAt p 1 4 ∧ uAt p 1 4 ≤ 500000
  | 7, _ => 60 ≤ uAt p 5 4 ∧ uAt p 5 4 ≤ 86400
  | 8, 1 => 1 ≤ uAt p 0 4 ∧ uAt p 0 4 ≤ 10000000
  | 8, 2 => 1 ≤ uAt p 4 4 ∧ uAt p 4 4 ≤ 999999
  | 8, 3 => -10000000 ≤ sAt p 8 4 ∧ sAt p 8 4 ≤ 10000000
  | 8, 4 => -10000000 ≤ sAt p 12 4 ∧ sAt p 12 4 ≤ 10000000
  | 8, _ => -10000000 ≤ sAt p 16 4 ∧ sAt p 16 4 ≤ 10000000
  | _, 1 => uAt p 0 4 ≤ 100000000
  | _, 2 => uAt p 4 4 ≤ 359999999
  | _, _ => -500000 ≤ sAt p 8 4 ∧ sAt p 8 4 ≤ 500000

/-- Field `k` of `count` fields is the first that is not in range. -/
def FirstOut (field : Nat → Prop) (count k : Nat) : Prop :=
  1 ≤ k ∧ k ≤ count ∧ ¬ field k ∧ ∀ j, 1 ≤ j → j < k → field j

/-- The fields of a sample frame fit their widths (R198). -/
def Frame.fits (f : Frame) : Prop :=
  f.seq < 256 ∧ (-2147483648 ≤ f.counts ∧ f.counts ≤ 2147483647) ∧ (-32768 ≤ f.x ∧ f.x ≤ 32767)
    ∧ (-32768 ≤ f.y ∧ f.y ≤ 32767) ∧ (-2147483648 ≤ f.temp ∧ f.temp ≤ 2147483647)

/-- The fields of a HEAD are values that R81 allows. -/
def Head.fits (h : Head) : Prop :=
  (1 ≤ h.sender ∧ h.sender ≤ 31) ∧ (h.tbState = .locked ∨ h.tbState = .holdover) ∧ h.cycle < 65536 ∧ h.epoch < 256
    ∧ h.count ≤ 5 ∧ h.homeId < 16777216 ∧ (-2147483648 ≤ h.easting ∧ h.easting ≤ 2147483647)
    ∧ (-2147483648 ≤ h.northing ∧ h.northing ≤ 2147483647) ∧ (-2147483648 ≤ h.height ∧ h.height ≤ 2147483647)
    ∧ h.latestObs < 4294967296

/-- Whether thirty bytes are a bad HEAD (R90; the check of R196, the codes of R197 that R81 allows, the layout of R199): the check
fails, the kind is not HEAD, the sender is outside 1..31, the role, the time-base state (LOCKED or HOLDOVER), the node state
(RUNNING) or the occupation state is not one that R81 allows, or the record count is above 5. -/
def HeadBad (bs : List Byte) : Prop :=
  bs.drop 28 ≠ crcBytes (bs.take 28) ∨ uAt bs 0 1 ≠ 0xB1 ∨ uAt bs 1 1 = 0 ∨ 31 < uAt bs 1 1 ∨ 1 < uAt bs 2 1
    ∨ (uAt bs 3 1 % 16 ≠ 1 ∧ uAt bs 3 1 % 16 ≠ 2) ∨ uAt bs 3 1 / 16 ≠ 1 ∨ 3 < uAt bs 4 1 ∨ 5 < uAt bs 8 1

/-- Whether twenty bytes are a bad record (R91; the check of R196, the layout of R199): the check fails, or the kind is neither OBS
nor REV. -/
def RecordBad (bs : List Byte) : Prop :=
  bs.drop 18 ≠ crcBytes (bs.take 18) ∨ (uAt bs 0 1 ≠ 0xB2 ∧ uAt bs 0 1 ≠ 0xB3)

/-- The fields of an OBS or a REV fit their widths (R199). -/
def PeerRecord.fits : PeerRecord → Prop
  | .obs o => o.series < 65536 ∧ o.seq < 4294967296 ∧ o.mid < 1099511627776
      ∧ (-2147483648 ≤ o.residual ∧ o.residual ≤ 2147483647) ∧ o.epoch < 256
  | .rev r => r.series < 65536 ∧ r.epoch < 256 ∧ r.fromSeq < 4294967296
      ∧ (-2147483648 ≤ r.step ∧ r.step ≤ 2147483647)

/-- The arrivals that a frame's gap adds (R17). -/
def gapOf (expect : Option Nat) (seq : Nat) : Nat :=
  match expect with
  | none => 0
  | some e => (seq + 256 - e) % 256

/-- Whether a frame's own arrival fails the tilt gate (R22). -/
def Frame.tilted (f : Frame) (ins : Instrument) : Bool :=
  decide ((ins.tiltGate : Int) < |f.x - ins.ox|) || decide ((ins.tiltGate : Int) < |f.y - ins.oy|)

/-- Whether a frame's own arrival fails the shock gate against a reference (R23). -/
def Frame.shocked (f : Frame) (ins : Instrument) : Option Int → Bool
  | none => false
  | some c => decide ((ins.shockLimit : Int) < |f.counts - c|)

/-- Whether a frame's own arrival is accepted (R21 to R23). -/
def Frame.accepted (f : Frame) (ins : Instrument) (ref : Option Int) : Bool :=
  f.status = 0#3 && !f.tilted ins && !f.shocked ins ref

/-- The sums of a block after a frame's own arrival: an accepted one enters N_b and the sums with its stamp (R24). -/
def Frame.summed (f : Frame) (ins : Instrument) (stamp : Nat) (i : Intake) : Sums :=
  if f.accepted ins i.shockRef then
    { n := i.sums.n + 1, counts := i.sums.counts + f.counts, x := i.sums.x + f.x, y := i.sums.y + f.y
      temp := i.sums.temp + f.temp, time := i.sums.time + stamp }
  else i.sums

/-- The rejection counts of a block after the arrivals of a frame: its gap counts as missing, and its own arrival, rejected, raises
the count of the first gate it fails (R17, R21 to R24). -/
def Frame.rejected (f : Frame) (ins : Instrument) (i : Intake) : Rejects :=
  { missing := i.rejects.missing + gapOf i.expect f.seq
    status := i.rejects.status + if f.status ≠ 0#3 then 1 else 0
    tilt := i.rejects.tilt + if f.status = 0#3 && f.tilted ins then 1 else 0
    shock := i.rejects.shock + if f.status = 0#3 && !f.tilted ins && f.shocked ins i.shockRef then 1 else 0 }

/-- The shock reference after a frame's own arrival: the counts of an accepted one (R23). -/
def Frame.reference (f : Frame) (ins : Instrument) (i : Intake) : Option Int :=
  if f.accepted ins i.shockRef then some f.counts else i.shockRef

end Sys2Proof.Machine
end

