-- ==== Sys2Proof/Certificates/Slice0/Obligations.lean ====
section
/-! DEFINITION. The statements for the provers. Each says in its name what it states and in its docstring which rules of spec/
it formalises. Requests are stated for a node that owes no reply; `RequestChecks` says what happens otherwise. -/

section Statements

open Sys2Proof Sys2Proof.Machine

/-! ### The queue and the clock (log entries 1 and 3) -/

/-- A step with a command at the front of the queue is that command on the state with the queue's rest. -/
def Obligations.StepRunsFront : Prop :=
  ∀ (s : State) (c : Instr) (rest : List Instr),
    s.pending = c :: rest → step s = exec c { s with pending := rest }

/-- The model's choice (log entries 1 and 3; the sending times of bytes, log entry 5; no slot boundary at the range end itself, log
entry 25): a step on an empty queue is one millisecond of the oscillator, which moves node time and puts exactly the expiries
that have come due into the queue, in some order; nothing else changes. Each expiry is in the queue exactly when its instant is
reached (Safety.lean, `Falls`), and once. -/
def Obligations.IdleStep : Prop :=
  ∀ s : State, s.pending = [] →
    ∃ (q : List Instr) (n : Nat),
      step s = .next { s with osc := s.osc + 1, tb := s.tb.tick, pending := q, free := n }
        ∧ (∀ c, c ∈ q ↔ Falls { s with osc := s.osc + 1, tb := s.tb.tick } c)
        ∧ ((s.eng.waiting.map PendingEntry.occ).Nodup → q.Nodup)
        ∧ q.Perm { s with osc := s.osc + 1, tb := s.tb.tick }.dueCommands
        ∧ (q.length ≤ 1 → n = s.free)

/-- Node time on the oscillator (R4, R9): it stands in UNSET and in the range-end hold, advances by 1 a millisecond without
a slew, and during a slew of at most 50 ms reads the start value plus k plus the rounded share of the difference; a slew
never lets it decrease and has gained the whole difference after 1,000 ms. -/
def Obligations.NodeTimeMoves : Prop :=
  (∀ t : TimeBase, t.state = .unset ∨ t.held = true → t.tick = t)
    ∧ (∀ t : TimeBase, t.state ≠ .unset → t.held = false → t.slew = none → t.nodeTime < 86400000000 →
        t.tick = { t with nodeTime := t.nodeTime + 1 })
    ∧ ∀ w : Slew, w.diff.natAbs ≤ 50 →
        w.reading 0 = w.start
          ∧ (w.reading 1000 : Int) = w.start + 1000 + w.diff
          ∧ (∀ k, k < 1000 → w.reading k ≤ w.reading (k + 1))
          ∧ ∀ (t : TimeBase) (k : Nat), t.state ≠ .unset → t.held = false → k < 1000 →
              t.slew = some { w with elapsed := k } →
              t.tick = { t with
                nodeTime := min 86400000000 (w.start + (k + 1) + roundDiv ((k + 1 : Nat) * w.diff) 1000).toNat
                slew := if k + 1 = 1000 then none else some { w with elapsed := k + 1 } }

/-- Node power-on values (the power-on columns of R15, R33, R55, R69, R96, R117, R136, R154, R173, R186, R187 and R194): what
State.reset holds, block by block.
POWER_ON brings every block to its power-on value; the waiting commands and the free-choice counter, which are the
model's and not the node's, stay (log entry 24). -/
def Obligations.PowerOnValues : Prop :=
  (State.reset.node = .startup ∧ State.reset.image.heldSet = 0
        ∧ State.reset.tb.state = .unset ∧ State.reset.tb.nodeTime = 0 ∧ State.reset.tb.lastPulse = none
        ∧ State.reset.tb.armed = none ∧ State.reset.tb.slew = none ∧ State.reset.tb.held = false
        ∧ State.reset.tb.nextBoundary = none
        ∧ State.reset.intake.isOpen = false ∧ State.reset.intake.mode = .continuous ∧ State.reset.intake.expect = none
        ∧ State.reset.intake.sensor = .absent ∧ State.reset.intake.shockRef = none
        ∧ State.reset.intake.silenceAt = none ∧ State.reset.intake.opening = 0
        ∧ State.reset.ctl.state = .idle ∧ State.reset.ctl.staged = none ∧ State.reset.ctl.nextHeader = none
        ∧ State.reset.ctl.pendingMark = false ∧ State.reset.ctl.occNumber = 0 ∧ State.reset.ctl.endLine = false
        ∧ State.reset.ctl.flags = {} ∧ State.reset.ctl.k = none ∧ State.reset.ctl.startTime = 0
        ∧ State.reset.eng.log = [] ∧ State.reset.eng.waiting = [] ∧ State.reset.eng.loops.slots = []
        ∧ State.reset.eng.loops.counter = 0 ∧ State.reset.eng.loops.carry = none ∧ State.reset.eng.gRef = none
        ∧ State.reset.eng.epoch = 0 ∧ State.reset.eng.obsCounter = 0 ∧ State.reset.eng.home.samples = []
        ∧ State.reset.link.inForce = none ∧ State.reset.link.key = false ∧ State.reset.link.quiet = 0
        ∧ State.reset.link.txq = [] ∧ State.reset.link.inq = [] ∧ State.reset.link.rx = .off
        ∧ State.reset.link.lastBurst = none
        ∧ State.reset.peers.entries = [] ∧ (∀ n, (State.reset.peers.rings.get n).owner = none)
        ∧ State.reset.port.notices = [] ∧ State.reset.port.counter = 0 ∧ State.reset.port.latched = {}
        ∧ State.reset.port.changed = 0#32 ∧ State.reset.port.reply = none ∧ State.reset.port.line = none
        ∧ State.reset.intake.counter = 0 ∧ State.reset.intake.sums = {} ∧ State.reset.intake.rejects = {}
        ∧ State.reset.intake.rx = [] ∧ State.reset.period = none
        ∧ State.reset.ctl.active = none ∧ State.reset.ctl.settleAt = none ∧ State.reset.ctl.stepWaitAt = none
        ∧ State.reset.ctl.inForce = none ∧ State.reset.ctl.kept = 0 ∧ State.reset.ctl.retakes = 0
        ∧ State.reset.ctl.sums = {} ∧ State.reset.ctl.rejects = {} ∧ State.reset.ctl.endUntil = none
        ∧ State.reset.eng.home.series = none ∧ State.reset.eng.latestObs = 0 ∧ State.reset.eng.firstObs = none
        ∧ State.reset.eng.lastObs = none ∧ State.reset.eng.loops.lastFrozen = none
        ∧ State.reset.link.burst = none ∧ State.reset.link.burstAt = none ∧ State.reset.link.rxMask = none
        ∧ State.reset.link.waitingMask = none ∧ (∀ n, (State.reset.peers.rings.get n).samples = [])
        ∧ State.reset.port.rx = [] ∧ State.reset.port.busy = none
        ∧ State.reset.pending = [])
    ∧ (∀ s : State, exec .powerOn s = .next { State.reset with pending := s.pending, free := s.free })

/-- The standing facts of Safety.lean hold at reset: KEY and the burst, the transmit queue, the capacities, the image, node
time, the notice queue, STARTUP idle, RUNNING complete, the block split, peer table and rings, log and pending list, the
records' values, the loop table, the drift terms in step with it, and a burst start armed in an owned slot alone. -/
def Obligations.FactsAtReset : Prop :=
  KeyFollowsBurst State.reset ∧ TransmitQueueSound State.reset ∧ Bounded State.reset ∧ ImageSound State.reset
    ∧ NodeTimeSound State.reset ∧ NoticesSound State.reset ∧ StartupIdle State.reset ∧ RunningSound State.reset
    ∧ BlockSplit State.reset ∧ PeersSound State.reset ∧ LogSound State.reset ∧ RecordsFormed State.reset
    ∧ LoopsSound State.reset ∧ DriftSound State.reset ∧ BurstArmedOwned State.reset

/-! ### Time port (chapter 1) -/

/-- TIME_RECORD and ARMED_RECORD_EXPIRY (R1): a garbled record changes nothing; NOT_VALID disarms; VALID arms with its GNSS
value for 1,200 ms of the oscillator, unless no epoch is held; the expiry disarms. -/
def Obligations.TimeRecords : Prop :=
  (∀ (s : State) (sec : Nat) (valid : Bool), exec (.timeRecord false sec valid) s = .next s)
    ∧ (∀ (s : State) (sec : Nat),
        exec (.timeRecord true sec false) s = .next { s with tb := { s.tb with armed := none } })
    ∧ (∀ (s : State) (sec : Nat), s.image.schedule = none → exec (.timeRecord true sec true) s = .next s)
    ∧ (∀ (s : State) (sec : Nat) (c : Schedule), s.image.schedule = some c →
        exec (.timeRecord true sec true) s = .next { s with tb := { s.tb with
          armed := some { second := sec, gnss := ((sec : Int) - c.epoch) * 1000, expiresAt := s.osc + 1200 } } })
    ∧ ∀ (s : State) (a : ArmedRecord), s.tb.armed = some a → a.expiresAt ≤ s.osc →
        exec .armedRecordExpiry s = .next { s with tb := { s.tb with armed := none } }

/-- The first lock (R2, R5, R11): a pulse accepted in UNSET sets node time to its GNSS value and starts it, the state becomes
LOCKED, the pulse is the last accepted one, the record is disarmed, and one TIME_STATE notice with step 0 is queued, which
carries the new node time (R11 does not say which; the model's choice, log entry 26); no slew goes on (the model's choice, log
entry 36).
A pulse in LOCKED (R3): with a record of the next Second, in range, 950 to 1,050 ms after the last accepted pulse, it is
absorbed as a slew and becomes the last accepted pulse; failing any of these it disarms the record and changes nothing else. -/
def Obligations.PulseLocks : Prop :=
  (∀ (s : State) (a : ArmedRecord) (w : Nat), 1000 ≤ w → s.tb.state = .unset → s.tb.held = false →
        s.tb.armed = some a → 0 ≤ a.gnss → a.gnss ≤ 86399999000 →
        exec (.ppsPulse w) s = .next
          { s with
            tb := { s.tb with
              state := .locked, nodeTime := a.gnss.toNat, armed := none, slew := none
              lastPulse := some { second := a.second, time := a.gnss.toNat } }
            port := s.port.offer (.timeState .unset .locked a.gnss.toNat 0) }.serve)
    ∧ (∀ (s : State) (a : ArmedRecord) (p : Pulse) (w : Nat), 1000 ≤ w → s.tb.state = .locked → s.tb.held = false →
        s.tb.armed = some a → s.tb.lastPulse = some p →
        exec (.ppsPulse w) s = .next
          { s with tb :=
            if a.second = p.second + 1 ∧ (0 ≤ a.gnss ∧ a.gnss ≤ 86399999000)
                ∧ p.time + 950 ≤ s.tb.nodeTime ∧ s.tb.nodeTime ≤ p.time + 1050 then
              { s.tb with
                armed := none, lastPulse := some { second := a.second, time := a.gnss.toNat }
                slew := some { start := s.tb.nodeTime, diff := a.gnss - s.tb.nodeTime, elapsed := 0 } }
            else { s.tb with armed := none } }.serve)

/-- Pulses that are not accepted (R2, R195): one narrower than 1 µs changes nothing, and that it leaves an armed record armed
is the model's choice (log entry 33); one with no record armed, one at the range end, and one in UNSET or LOST whose record is out
of range only disarm; one in HOLDOVER whose record is out of range makes the state LOST, as R11 delivers it. -/
def Obligations.PulseNotAccepted : Prop :=
  (∀ (s : State) (w : Nat), w < 1000 → exec (.ppsPulse w) s = .next s)
    ∧ (∀ (s : State) (w : Nat), 1000 ≤ w → s.tb.armed = none ∨ s.tb.held = true →
        exec (.ppsPulse w) s = .next { s with tb := { s.tb with armed := none } }.serve)
    ∧ ∀ (s : State) (a : ArmedRecord) (w : Nat), 1000 ≤ w → s.tb.held = false → s.tb.armed = some a →
        a.gnss < 0 ∨ 86399999000 < a.gnss →
        (s.tb.state = .unset ∨ s.tb.state = .lost →
          exec (.ppsPulse w) s = .next { s with tb := { s.tb with armed := none } }.serve)
        ∧ (s.tb.state = .holdover →
          exec (.ppsPulse w) s = .next
            { s with
              tb := { s.tb with armed := none, state := .lost }
              ctl := if s.ctl.state = OccState.idle then s.ctl
                else { s.ctl with flags := { s.ctl.flags with timeSuspect := true } }
              port := s.port.offer (.timeState .holdover .lost s.tb.nodeTime 0) }.serve)

/-- A re-lock within 50 ms (R6, R4, R11, R49): the difference is absorbed as a slew, no step is delivered, and a departure
from LOST marks the occupation in progress. -/
def Obligations.RelockBySlew : Prop :=
  ∀ (s : State) (a : ArmedRecord) (w : Nat), 1000 ≤ w → s.tb.state = .holdover ∨ s.tb.state = .lost →
    s.tb.held = false → s.tb.armed = some a → 0 ≤ a.gnss → a.gnss ≤ 86399999000 →
    (a.gnss - s.tb.nodeTime).natAbs ≤ 50 →
    exec (.ppsPulse w) s = .next
      { s with
        tb := { s.tb with
          state := .locked, armed := none, lastPulse := some { second := a.second, time := a.gnss.toNat }
          slew := some { start := s.tb.nodeTime, diff := a.gnss - s.tb.nodeTime, elapsed := 0 } }
        ctl := if s.tb.state = TbState.lost ∧ s.ctl.state ≠ OccState.idle then
            { s.ctl with flags := { s.ctl.flags with timeSuspect := true } }
          else s.ctl
        port := s.port.offer (.timeState s.tb.state .locked s.tb.nodeTime 0) }.serve

/-- A re-lock beyond 50 ms (R6, R10, R11, R13, R49, R77, R89, R94, R131, R164): node time takes the GNSS value at once, with no slew
going on from it (the model's choice, log entry 36), the next
boundary is the first multiple of L beyond it, TIME_STATE is queued with the new node time (R11 does not say which; the model's
choice, log entry 26) and the size of the step, before any other notice (the model's choice, log entry 13). The three deliveries come
in a free order, which draws on `State.free` (the model's choice, log entry 3).
The controller marks an occupation in progress TIME_SUSPECT; a settle expiry that the step has reached opens the intake, and a
step-wait expiry ends the occupation, reduced and flagged STEP_TIMEOUT; else the controller and the intake stay.
No pending entry whose expiry has passed is left. Within the cycle in force such entries are made final together, as at their own
expiries (Safety.lean, `HoldsExpired`; one freezing test for all of them, log entry 34), and with none the engine stays; in any
case their terms are final. An ending within the cycle in force, with no entry expired, is a reduced ending (`ReducedEnding`; the
model's choices in it: log entries 11, 14 and 27).
In RUNNING the link abandons its burst, whose unsent records stay queued, and takes the slot of the new node time, its burst start
when less than 10 ms of it have gone, and its receiver; the inbound queue and the receive masks stay within the cycle in force, and
in another one a cycle start is taken, which sets the reception aside for what arrives with it (the model's choice, log entry 29);
its fold report, when it lists nothing, leaves the engine as it is. In STARTUP with an idle controller and no pending entry the time
base and the notice are all that changes. -/
def Obligations.RelockByStep : Prop :=
  ∀ (s : State) (a : ArmedRecord) (w : Nat), 1000 ≤ w → s.tb.state = .holdover ∨ s.tb.state = .lost →
    s.tb.held = false → s.tb.armed = some a → 0 ≤ a.gnss → a.gnss ≤ 86399999000 →
    50 < (a.gnss - s.tb.nodeTime).natAbs → 0 < s.baseTerm.holdLimit → LogSound s →
    (s.peers.entries.map PeerEntry.id).Nodup →
    ∃ t : State, exec (.ppsPulse w) s = .next t
      ∧ t.tb = { s.tb with
          state := .locked, armed := none, lastPulse := some { second := a.second, time := a.gnss.toNat }
          slew := none, nodeTime := a.gnss.toNat
          nextBoundary := s.tb.nextBoundary.map fun _ =>
            (a.gnss.toNat / s.schedule.slotLength + 1) * s.schedule.slotLength }
      ∧ t.image = s.image ∧ t.node = s.node ∧ t.osc = s.osc ∧ t.pending = s.pending
      ∧ (∃ (bs : List NoticeBody) (latched : LatchedFlags) (changed : BitVec 32),
          t.port = ({ bs.foldl Port.offer
              (s.port.offer (.timeState s.tb.state .locked a.gnss.toNat (a.gnss - s.tb.nodeTime))) with
            latched := latched, changed := changed } : Port).serve s.osc)
      ∧ (∀ e ∈ t.eng.waiting, a.gnss.toNat < e.expiry)
      ∧ (s.ctl.state ≠ .idle → t.ctl.state = .idle ∨ t.ctl.flags.timeSuspect = true)
      ∧ (s.node = .running → ∀ (cycle slot start : Nat) (stays listens : Bool) (mask : Option (BitVec 32)),
          cycle = a.gnss.toNat / (s.schedule.slots * s.schedule.slotLength) →
          slot = a.gnss.toNat % (s.schedule.slots * s.schedule.slotLength) / s.schedule.slotLength →
          start = a.gnss.toNat - a.gnss.toNat % s.schedule.slotLength →
          stays = decide (s.link.inForce.map Prod.fst = some cycle) →
          mask = (if stays then s.link.rxMask else s.link.waitingMask.or s.link.rxMask) →
          listens = ((mask.any fun m : BitVec 32 => m.getLsbD slot) && !s.schedule.txMask.getLsbD slot) →
          t.link =
            { inForce := some (cycle, slot), burst := none, key := false
              burstAt := if s.schedule.txMask.getLsbD slot && a.gnss.toNat - start < 10 then some (start + 10) else none
              lastBurst := s.link.lastBurst, quiet := s.link.quiet
              txq := s.link.txq.map fun i : TxItem => { i with inFlight := false }
              rxMask := mask, waitingMask := if stays then s.link.waitingMask else none
              rx := if listens && start + 5 ≤ a.gnss.toNat then .listening else .off
              listenAt := if listens && a.gnss.toNat < start + 5 then some (start + 5) else none
              rxBuf := [], closed := if stays then s.link.closed else s.link.heldBack s.osc
              inq := if stays then s.link.inq else [] }
            ∧ t.peers = if stays then s.peers else s.cycleEnded.1)
      ∧ (s.node = .startup → s.ctl.state = .idle → s.eng.waiting = [] →
          t = { s with
            tb := t.tb, free := s.free + 1
            port := s.port.offer (.timeState s.tb.state .locked a.gnss.toNat (a.gnss - s.tb.nodeTime)) }.serve)
      ∧ (∀ (u : State) (stepDue settleDue stays : Bool),
          u = { s with
            tb := t.tb
            ctl := if s.ctl.state = OccState.idle then s.ctl
              else { s.ctl with flags := { s.ctl.flags with timeSuspect := true } }
            port := s.port.offer (.timeState s.tb.state .locked a.gnss.toNat (a.gnss - s.tb.nodeTime)) } →
          stepDue = (s.ctl.state = .waiting && s.ctl.stepWaitAt.any fun x => x ≤ a.gnss.toNat) →
          settleDue = (s.ctl.state = .settling && s.ctl.settleAt.any fun x => x ≤ a.gnss.toNat) →
          stays = (s.node = .startup
            || s.link.inForce.map Prod.fst = some (a.gnss.toNat / (s.schedule.slots * s.schedule.slotLength))) →
          (stepDue = false → settleDue = false → t.ctl = u.ctl ∧ t.intake = s.intake)
          ∧ (settleDue = true → ∀ v, v = u.opened (s.ctl.active.getD default).mode.continuation true →
              t.ctl = v.ctl ∧ t.intake = v.intake)
          ∧ (stepDue = true → t.ctl = u.idled ∧ t.intake = s.intake.closed)
          ∧ (stepDue = false → (∀ e ∈ s.eng.waiting, a.gnss.toNat < e.expiry) →
              (stays = true → t.eng = s.eng ∧ t.port = u.port.serve s.osc)
              ∧ (s.cycleEnded.2.2.2 = [] → RecordsFormed s → DriftSound s → t.eng = s.eng))
          ∧ (stepDue = false → stays = true → (∃ e ∈ s.eng.waiting, e.expiry ≤ a.gnss.toNat) →
              HoldsExpired s t (fun e => e.expiry ≤ a.gnss.toNat)
                ∧ t.eng = { s.eng with log := t.eng.log, waiting := t.eng.waiting, loops := t.eng.loops }
                ∧ (LoopsSound s → ∃ p : Port, t.port = p.serve s.osc ∧ Told s t u.port p))
          ∧ (stepDue = true → stays = true → (∀ e ∈ s.eng.waiting, a.gnss.toNat < e.expiry) →
              ∃ p : Port, t.port = p.serve s.osc
                ∧ ReducedEnding { u with link := t.link, free := t.free } { t with port := p }
                  { u.ctl.flags with stepTimeout := true } a.gnss.toNat))
      ∧ ∀ e ∈ s.eng.waiting, e.expiry ≤ a.gnss.toNat → ∀ r ∈ s.eng.log, r.number = e.occ →
          (∀ x ∈ r.values, x.term.expiry ≤ a.gnss.toNat) →
          ∀ r' ∈ t.eng.log, r'.number = e.occ → ∀ x' ∈ r'.values, x'.term.final = true

/-- HOLDOVER_EXPIRY, LOSS_EXPIRY and RANGE_END (R7, R8, R9, R11, R49): 2,001 and 600,001 ms after the last accepted pulse, and
at the range end, where node time is held; that a slew still running there is over is the model's choice (log entry 36). -/
def Obligations.TimeExpiries : Prop :=
  ∀ s : State,
    (∀ p, s.tb.state = .locked → s.tb.lastPulse = some p → p.time + 2001 ≤ s.tb.nodeTime →
      exec .holdoverExpiry s = .next
        { s with
          tb := { s.tb with state := .holdover }
          port := s.port.offer (.timeState .locked .holdover s.tb.nodeTime 0) }.serve)
    ∧ (∀ p, s.tb.state = .holdover → s.tb.lastPulse = some p → p.time + 600001 ≤ s.tb.nodeTime →
      exec .lossExpiry s = .next
        { s with
          tb := { s.tb with state := .lost }
          ctl := if s.ctl.state = OccState.idle then s.ctl
            else { s.ctl with flags := { s.ctl.flags with timeSuspect := true } }
          port := s.port.offer (.timeState .holdover .lost s.tb.nodeTime 0) }.serve)
    ∧ (s.tb.state = .locked ∨ s.tb.state = .holdover → s.tb.held = false → 86400000000 ≤ s.tb.nodeTime →
      exec .rangeEnd s = .next
        { s with
          tb := { s.tb with state := .lost, held := true, nodeTime := 86400000000, slew := none }
          ctl := if s.ctl.state = OccState.idle then s.ctl
            else { s.ctl with flags := { s.ctl.flags with timeSuspect := true } }
          port := s.port.offer (.timeState s.tb.state .lost 86400000000 0) }.serve)
    ∧ (s.tb.state = .lost → s.tb.held = false → 86400000000 ≤ s.tb.nodeTime →
      exec .rangeEnd s = .next
        { s with tb := { s.tb with held := true, nodeTime := 86400000000, slew := none } }.serve)

/-! ### Slots and cycles (chapters 1, 5 and 6) -/

/-- SLOT_BOUNDARY within a cycle (R12, R76, R89): the next boundary is armed, the slot comes into force, a burst start is armed
10 ms later in an owned slot, and a listened slot is to listen 5 ms later; what was being received is closed.
SLOT_BOUNDARY that begins a cycle (R76, R77, R93, R100, R107, R108): the inbound queue is emptied, a waiting receive mask comes into
force, the slot is 0 of its cycle; every entry's silence is counted once, an entry that becomes SILENT has its state-changed flag
latched, and then the records of the inbound queue are folded in their order, each against its sender's entry and ring as those
before it left them, with SERIES_MALFORMED and SERIES_RESET latched (Safety.lean, `foldInto`). The reduction engine takes the fold
report (R114, R129, R132 to R135): an empty one changes nothing there; one without a coherence loss revises the base terms by its
REVs and re-evaluates every pending occupation (Safety.lean, `Reselected`); at a loss the terms on that peer and series are
re-selected (`LossTaken`, while none is forced); what changed is passed to the loop table (R146 to R150; `LoopsPassed`), and LOOP
and RESULT notices follow the PEER_STATE notices (R101, R150, R168; `Told`). The model's choices: the order of the silence counting
(log entry 28), a reception set aside for what arrives with the cycle start (log entry 29), PEER_STATE with the NO_RING mark (log
entry 32), one freezing test an event (log entry 34), the order of the report's changes across peers (log entry 35). -/
def Obligations.SlotBoundaries : Prop :=
  (∀ (s : State) (x : Nat) (slot : Nat), s.node = .running → s.tb.held = false → s.tb.nextBoundary = some x →
        x ≤ s.tb.nodeTime → x < 86400000000 →
        slot = x % (s.schedule.slots * s.schedule.slotLength) / s.schedule.slotLength → slot ≠ 0 →
        exec .slotBoundary s = .next
          { s with
            tb := { s.tb with nextBoundary := some ((x / s.schedule.slotLength + 1) * s.schedule.slotLength) }
            link := { s.link with
              inForce := some (x / (s.schedule.slots * s.schedule.slotLength), slot)
              burstAt := if s.schedule.txMask.getLsbD slot then some (x + 10) else none
              rx := .off, rxBuf := []
              listenAt := if (s.link.rxMask.any fun m : BitVec 32 => m.getLsbD slot) && !s.schedule.txMask.getLsbD slot then
                  some (x + 5)
                else none } }.serve)
    ∧ (∀ (s : State) (x : Nat), s.node = .running → s.tb.held = false → s.tb.nextBoundary = some x →
        x ≤ s.tb.nodeTime → x < 86400000000 →
        x % (s.schedule.slots * s.schedule.slotLength) / s.schedule.slotLength = 0 →
        (s.peers.entries.map PeerEntry.id).Nodup →
        ∃ t : State, exec .slotBoundary s = .next t
          ∧ t.tb = { s.tb with nextBoundary := some ((x / s.schedule.slotLength + 1) * s.schedule.slotLength) }
          ∧ t.ctl = s.ctl ∧ t.intake = s.intake ∧ t.image = s.image ∧ t.node = s.node ∧ t.osc = s.osc
          ∧ t.link = { s.link with
              inq := []
              rxMask := s.link.waitingMask.or s.link.rxMask, waitingMask := none
              inForce := some (x / (s.schedule.slots * s.schedule.slotLength), 0)
              burstAt := if s.schedule.txMask.getLsbD 0 then some (x + 10) else none
              rx := .off, rxBuf := [], closed := s.link.heldBack s.osc
              listenAt :=
                if ((s.link.waitingMask.or s.link.rxMask).any fun m : BitVec 32 => m.getLsbD 0) && !s.schedule.txMask.getLsbD 0 then
                  some (x + 5)
                else none }
          ∧ t.peers = s.cycleEnded.1
          ∧ t.port.latched.seriesMalformed = s.cycleEnded.2.1 ∧ t.port.latched.seriesReset = s.cycleEnded.2.2.1
          ∧ t.eng = { s.eng with log := t.eng.log, waiting := t.eng.waiting, loops := t.eng.loops }
          ∧ (∀ (report : List FoldChange) (q : Port), report = s.cycleEnded.2.2.2 →
            q = s.silenced.foldl
              (fun p e => p.offer (.peerState e.id (some e.state) .silent s.tb.nodeTime e.ring e.noRing)) s.port →
            LogSound s →
            LoopsPassed s t
              ∧ t.eng.log.map Record.number = s.eng.log.map Record.number
              ∧ (LoopsSound s → ∃ p : Port, t.port = p.serve s.osc
                ∧ Told s t
                  { q with
                    changed := t.port.changed
                    latched := { q.latched with seriesMalformed := s.cycleEnded.2.1, seriesReset := s.cycleEnded.2.2.1 } } p)
              ∧ (RecordsFormed s → DriftSound s → report = [] → t.eng = s.eng)
              ∧ (report ≠ [] → (∀ c ∈ report, c.isLoss = false) → Reselected s t report)
              ∧ ∀ peer series epoch, report.filter FoldChange.acts = [.loss peer series epoch] →
                s.eng.waiting.length + (s.eng.log.filter fun r : Record => r.state ≠ RecState.sealed
                  && r.values.any fun x => x.term.bracket.any fun k => k.peer = peer && k.series = series).length ≤ 32 →
                LossTaken s t peer series)
          ∧ t.port.changed = (s.peers.entries.filter fun e : PeerEntry =>
              e.state = .live && (e.counted s.baseTerm.silenceLimit).state = .silent).foldl
                (fun m e => m ||| BitVec.ofNat 32 (if e.id < 32 then 2 ^ e.id else 0)) s.port.changed
          ∧ (s.link.inq = [] →
              t.peers = { s.peers with entries := s.peers.entries.map fun e : PeerEntry =>
                if e.state = .live ∨ e.state = .silent then
                  if e.heard then { e with missed := 0, heard := false }
                  else
                    { e with
                      missed := min 255 (e.missed + 1)
                      state := if e.state = .live ∧ s.baseTerm.silenceLimit ≤ min 255 (e.missed + 1) then .silent
                        else e.state }
                else e }))

/-- The fold of an OBS by its epoch (R109 to R111, R113): at its entry's epoch it is placed as received; one behind, it is placed
AMENDED by the mark's step from the mark's from-sequence on and as received below it, and is STALE without a mark at the entry's
epoch; further behind it is STALE; above, the ring is emptied, the entry takes its epoch and no mark, SERIES_RESET is to be
latched, and it is placed. Placing (R111; Safety.lean, `Folding.Placed`) discards a sequence held as DUPLICATE, one below a full
ring as TOO_OLD, and a mid-time out of order as MALFORMED, and else puts the sample in its place, evicting the oldest from a full
ring.
The fold of a REV (R112, R113): one epoch above its entry's, it lowers every residual at or above its from-sequence by its
step and moves entry and mark to its epoch; at or below, it is ignored; further above, the ring is emptied, the entry takes
its epoch and mark, and SERIES_RESET is to be latched.
The series check of either (R109): with no series held the entry takes the record's; a record of another series is STALE below the
entry's epoch, and otherwise restarts the series and goes on; one with a field out of range is MALFORMED before that. -/
def Obligations.RecordsFolded : Prop :=
  (∀ (f : Folding) (o : Obs) (p : Nat),
        f.entry.series = some o.series → f.entry.epoch = some p →
        o.seq ≠ 0 → o.mid ≤ 86399999999 → o.residual.natAbs ≤ 2000000000 → o.flags.toNat < 4 →
        f.samples.Pairwise (fun a b => a.seq < b.seq ∧ a.mid < b.mid) →
        (o.epoch = p → f.Placed (o.placedAs p 0 false) (f.take (.obs o)))
        ∧ (o.epoch + 1 = p → ∀ m, f.entry.mark = some m → m.epoch = p →
            (m.fromSeq ≤ o.seq → f.Placed (o.placedAs p m.step true) (f.take (.obs o)))
            ∧ (o.seq < m.fromSeq → f.Placed (o.placedAs p 0 false) (f.take (.obs o))))
        ∧ ((o.epoch + 1 = p ∧ ∀ m, f.entry.mark = some m → m.epoch ≠ p) ∨ o.epoch + 2 ≤ p →
            f.take (.obs o) = f.counting fun d : Discards => { d with stale := min 65535 (d.stale + 1) })
        ∧ (p < o.epoch →
            Folding.Placed
              { f with
                entry := { f.entry with epoch := some o.epoch, mark := none }, samples := []
                changes := f.changes ++ [.loss f.entry.id o.series o.epoch], reset := true }
              (o.placedAs o.epoch 0 false) (f.take (.obs o))))
    ∧ (∀ (f : Folding) (r : Rev) (p : Nat),
        f.entry.series = some r.series → f.entry.epoch = some p → r.epoch ≠ 0 → r.fromSeq ≠ 0 →
        (r.epoch ≤ p → f.take (.rev r) = f)
        ∧ (r.epoch = p + 1 → f.take (.rev r) = { f with
            entry := { f.entry with
              epoch := some r.epoch, mark := some { fromSeq := r.fromSeq, epoch := r.epoch, step := r.step } }
            samples := f.samples.map fun x : Sample =>
              if r.fromSeq ≤ x.seq then { x with residual := x.residual - r.step, epoch := r.epoch, amended := true }
              else x
            changes := f.changes ++ [.rev f.entry.id r.series r.fromSeq r.step r.epoch] })
        ∧ (p + 1 < r.epoch → f.take (.rev r) = { f with
            entry := { f.entry with
              epoch := some r.epoch, mark := some { fromSeq := r.fromSeq, epoch := r.epoch, step := r.step } }
            samples := []
            changes := f.changes ++ [.loss f.entry.id r.series r.epoch]
            reset := true }))
    ∧ (∀ (f : Folding) (c : PeerRecord) (series epoch : Nat),
        (∃ o, c = .obs o ∧ o.series = series ∧ o.epoch = epoch ∧ o.seq ≠ 0 ∧ o.mid ≤ 86399999999
            ∧ o.residual.natAbs ≤ 2000000000 ∧ o.flags.toNat < 4)
          ∨ (∃ r, c = .rev r ∧ r.series = series ∧ r.epoch = epoch ∧ r.epoch ≠ 0 ∧ r.fromSeq ≠ 0) →
        (f.entry.series = none → f.take c = Folding.take { f with entry := { f.entry with series := some series } } c)
        ∧ ∀ (held p : Nat), f.entry.series = some held → held ≠ series → f.entry.epoch = some p →
          (epoch < p → f.take c = f.counting fun d : Discards => { d with stale := min 65535 (d.stale + 1) })
          ∧ (p ≤ epoch → f.take c =
              Folding.take
                { f with
                  entry := { f.entry with series := some series, mark := none }, samples := []
                  changes := f.changes ++ [.restart f.entry.id], reset := true } c))
    ∧ ∀ (f : Folding) (c : PeerRecord),
        (∃ o, c = .obs o ∧ (o.seq = 0 ∨ 86399999999 < o.mid ∨ 2000000000 < o.residual.natAbs ∨ 4 ≤ o.flags.toNat))
          ∨ (∃ r, c = .rev r ∧ (r.epoch = 0 ∨ r.fromSeq = 0)) →
        f.take c =
          { f.counting (fun d : Discards => { d with malformed := min 65535 (d.malformed + 1) }) with malformed := true }

/-! ### Sensor port (chapter 2) -/

/-- SAMPLE_FRAME on a closed intake (R16 to R18, R28, R31): a valid frame sets the sequence expectation, makes the sensor
PRESENT and rearms the silence expiry; its arrivals are not counted.
SAMPLE_FRAME on an open intake whose block it does not end (R16, R17, R21 to R24): the gap counts as missing arrivals; the
frame's own arrival, accepted, enters N_b and the sums with node time as its stamp and becomes the shock reference, and,
rejected, raises the count of the first gate it fails.
A garbled frame (R16, R198), its check wrong or its length another than 14, is no arrival, leaves the sequence expectation as it was
and does not rearm the silence expiry. -/
def Obligations.SampleFrameTaken : Prop :=
  (∀ (s : State) (p c : List Byte), s.intake.rx = [] → p.length = 14 → c.length = 2 → c ≠ crcBytes (14#8 :: p) →
        exec (.sampleFrame (0xA7#8 :: 14#8 :: (p ++ c))) s = .next
          { s with intake := { s.intake with rxLast := s.osc } }.serve)
    ∧ (∀ (s : State) (n : Byte), s.intake.rx = [] → n ≠ 14#8 →
        exec (.sampleFrame [0xA7#8, n]) s = .next { s with intake := { s.intake with rxLast := s.osc } }.serve)
    ∧ (∀ (s : State) (f : Frame), f.fits → s.intake.rx = [] → s.intake.isOpen = false →
        exec (.sampleFrame (encodeFrame f)) s = .next
          { s with intake := { s.intake with
              expect := some ((f.seq + 1) % 256), sensor := .present, silenceAt := some (s.osc + 5000)
              rxLast := s.osc } }.serve)
    ∧ (∀ (s : State) (f : Frame), f.fits → s.intake.rx = [] → s.intake.isOpen = true →
        gapOf s.intake.expect f.seq + 1 < s.intake.counter →
        exec (.sampleFrame (encodeFrame f)) s = .next
          { s with intake := { s.intake with
              expect := some ((f.seq + 1) % 256), sensor := .present, silenceAt := some (s.osc + 5000)
              rxLast := s.osc
              counter := s.intake.counter - gapOf s.intake.expect f.seq - 1
              sums := f.summed s.instrument s.tb.nodeTime s.intake
              shockRef := f.reference s.instrument s.intake
              rejects := f.rejected s.instrument s.intake } }.serve)

/-- SAMPLE_FRAME whose own arrival is the B-th of the block (R25, R26): the block is kept when N_b has reached M, and its
report carries the opening number, the sums, the rejections and node time, and goes to the controller; the intake then starts
a new block, or is closed when it was opened for a single kept block and the block is kept.
A gap that ends blocks (R27): when the missing arrivals of a frame reach the block's end, that block is reported with
them and the frame goes on, with the rest of its gap, on the intake as the block's end left it. With the three cases that follow it
(the own arrival ends a block; no block ends; the intake is closed) this says what any frame does to the intake and which reports
it brings, in which order.
SAMPLE_FRAME of any valid frame (R16, R25, R27): the intake takes the frame's arrivals, and the controller then takes the reports
they bring one after another, in that order; that it takes them after all the arrivals is the model's choice (log entry 10). -/
def Obligations.BlockEnds : Prop :=
  (∀ (s : State) (f : Frame) (n : Sums), f.fits → s.intake.rx = [] → s.intake.isOpen = true →
        s.intake.counter = gapOf s.intake.expect f.seq + 1 → n = f.summed s.instrument s.tb.nodeTime s.intake →
        exec (.sampleFrame (encodeFrame f)) s = .next
          ({ s with intake := { s.intake with
              expect := some ((f.seq + 1) % 256), sensor := .present, silenceAt := some (s.osc + 5000)
              rxLast := s.osc, sums := {}, rejects := {}, shockRef := f.reference s.instrument s.intake
              isOpen := !(s.intake.mode = ContMode.singleKept && s.sampling.minAccepted ≤ n.n)
              counter := if s.intake.mode = ContMode.singleKept ∧ s.sampling.minAccepted ≤ n.n then 0
                else s.sampling.blockLength } }.takeReport
            { opening := s.intake.opening, kept := s.sampling.minAccepted ≤ n.n, sums := n
              rejects := f.rejected s.instrument s.intake, endTime := s.tb.nodeTime }).serve)
    ∧ (∀ (smp : Sampling) (ins : Instrument) (osc stamp : Nat) (i j : Intake) (f : Frame) (e : Nat),
        f.seq < 256 → e < 256 → i.isOpen = true → i.expect = some e →
        0 < i.counter → i.counter ≤ gapOf (some e) f.seq →
        j = { i with
          expect := some ((e + i.counter) % 256), sums := {}, rejects := {}
          isOpen := !(i.mode = ContMode.singleKept && smp.minAccepted ≤ i.sums.n)
          counter := if i.mode = ContMode.singleKept ∧ smp.minAccepted ≤ i.sums.n then 0 else smp.blockLength } →
        i.takeFrame smp ins osc stamp f =
          ((j.takeFrame smp ins osc stamp f).1,
            { opening := i.opening, kept := smp.minAccepted ≤ i.sums.n, sums := i.sums
              rejects := { i.rejects with missing := i.rejects.missing + i.counter }, endTime := stamp }
              :: (j.takeFrame smp ins osc stamp f).2))
    ∧ (∀ (smp : Sampling) (ins : Instrument) (osc stamp : Nat) (i heard : Intake) (f : Frame) (n : Sums),
        heard = { i with expect := some ((f.seq + 1) % 256), sensor := .present, silenceAt := some (osc + 5000) } →
        n = f.summed ins stamp i →
        (i.isOpen = true → i.counter = gapOf i.expect f.seq + 1 →
          i.takeFrame smp ins osc stamp f =
            ({ heard with
                sums := {}, rejects := {}, shockRef := f.reference ins i
                isOpen := !(i.mode = ContMode.singleKept && smp.minAccepted ≤ n.n)
                counter := if i.mode = ContMode.singleKept ∧ smp.minAccepted ≤ n.n then 0 else smp.blockLength },
              [{ opening := i.opening, kept := smp.minAccepted ≤ n.n, sums := n, rejects := f.rejected ins i
                 endTime := stamp }]))
        ∧ (i.isOpen = true → gapOf i.expect f.seq + 1 < i.counter →
          i.takeFrame smp ins osc stamp f =
            ({ heard with
                counter := i.counter - gapOf i.expect f.seq - 1, sums := n, rejects := f.rejected ins i
                shockRef := f.reference ins i }, []))
        ∧ (i.isOpen = false → i.takeFrame smp ins osc stamp f = (heard, [])))
    ∧ ∀ (s : State) (f : Frame) (r : Intake × List BlockReport), f.fits → s.intake.rx = [] →
        r = ({ s.intake with rxLast := s.osc } : Intake).takeFrame s.sampling s.instrument s.osc s.tb.nodeTime f →
        exec (.sampleFrame (encodeFrame f)) s = .next (r.2.foldl State.takeReport { s with intake := r.1 }).serve

/-- A block report at the controller (R43 to R48): of another opening than the one in force it does nothing. On a rover a kept
block enters the occupation's sums; short of K a SPOT occupation records on and a STEPPED one waits, with the step-wait
expiry armed, and the K-th ends it. A discarded block adds its rejections and a retake; beyond Rmax it ends the occupation,
aborted as NOISY without a kept block and reduced, flagged NOISY, with one. A base's kept block enters N alone and its own sums
go to OBS production, the K-th kept block of a bounded cycle ends it, and its discarded blocks end nothing (R53). The model's
choices in the endings: the items cleared in IDLE (log entry 11), a forced entry passed before the drift place is taken (log
entry 14), the rejection counts cleared at the close (log entry 27).
What a reduced ending leaves of the log, the pending list, the loops and the notices: `ReducedEnding` (R150, R155, R159 to R163, R168). -/
def Obligations.ReportTaken : Prop :=
  ∀ (s : State) (b : BlockReport),
    (s.ctl.inForce ≠ some b.opening → s.takeReport b = s)
    ∧ (∀ k, s.ctl.inForce = some b.opening → s.isBase = false → s.ctl.k = some k →
      (∀ s1 : State, b.kept = true →
        s1 = { s with ctl := { s.ctl with
          kept := s.ctl.kept + 1, sums := s.ctl.sums.plus b.sums, rejects := s.ctl.rejects.plus b.rejects } } →
        (s1.ctl.kept < k → (s.ctl.active.getD default).mode = .spot → s.takeReport b = s1)
        ∧ (s1.ctl.kept < k → (s.ctl.active.getD default).mode = .stepped →
            s.takeReport b = { s1 with ctl := { s1.ctl with
              state := .waiting, inForce := none
              stepWaitAt := some (b.endTime + s.sampling.stepWait * 1000) } })
        ∧ (k ≤ s1.ctl.kept → LogSound s → ReducedEnding s1 (s.takeReport b) s.ctl.flags b.endTime))
      ∧ (∀ s1 : State, b.kept = false →
        s1 = { s with ctl := { s.ctl with
          retakes := s.ctl.retakes + 1, rejects := s.ctl.rejects.plus b.rejects } } →
        (s1.ctl.retakes ≤ s.sampling.retakeLimit → s.takeReport b = s1)
        ∧ (s.sampling.retakeLimit < s1.ctl.retakes → s.ctl.kept = 0 →
            s.takeReport b = s1.abortedBy .noisy b.endTime)
        ∧ (s.sampling.retakeLimit < s1.ctl.retakes → s.ctl.kept ≠ 0 → LogSound s →
            ReducedEnding s1 (s.takeReport b) { s.ctl.flags with noisy := true } b.endTime)))
    ∧ (∀ s1 : State, s.ctl.inForce = some b.opening → s.isBase = true → b.kept = true →
        s1 = { s with ctl := { s.ctl with
          kept := s.ctl.kept + 1, rejects := s.ctl.rejects.plus b.rejects
          sums := { s.ctl.sums with n := s.ctl.sums.n + b.sums.n } } } →
        ((∀ k, s.ctl.k = some k → s1.ctl.kept < k) → (s.ctl.active.getD default).mode = .spot →
          s.takeReport b = s1.produceObs b.sums)
        ∧ (∀ k, s.ctl.k = some k → k ≤ s1.ctl.kept → LogSound s →
          ReducedEnding (s1.produceObs b.sums) (s.takeReport b) (s1.produceObs b.sums).ctl.flags b.endTime))
    ∧ (s.ctl.inForce = some b.opening → s.isBase = true → b.kept = false →
        s.takeReport b = { s with ctl := { s.ctl with
          retakes := s.ctl.retakes + 1, rejects := s.ctl.rejects.plus b.rejects } })

/-- A base's kept block (R59, R69, R70, R84, R118 to R120): its value is G + C_tilt + C_temp − T_model at its own mid-time; the
first of the cycle sets G_ref and has residual 0, a later one's residual is the clamped difference; the OBS takes the next
sequence, is flagged JUMP beyond the step limit, and joins the home series, from which the 129th evicts the oldest, and the
transmit queue, from which at 16 records the oldest OBS not in flight is discarded with TX_DROPPED. A mid-time not above that of
the latest sample of the same series makes the home series refuse the OBS: SERIES_MALFORMED is latched, no sequence is taken and
nothing is queued. -/
def Obligations.BaseBlockObs : Prop :=
  ∀ (s s1 : State) (b : Sums) (fx : Fixed) (v r : Int) (series : Nat) (jump clamped : Bool),
    fx = fixedTerms s.image b → v = fx.g + fx.cTilt + fx.cTemp - fx.tModel →
    series = s.ctl.occNumber % 65536 →
    (r = match s.eng.gRef with
      | none => 0
      | some g => max (-2000000000) (min 2000000000 (v - g))) →
    clamped = decide (∃ g, s.eng.gRef = some g ∧ 2000000000 < (v - g).natAbs) →
    jump = decide (s.eng.home.series = some series
      ∧ ∃ y, s.eng.home.samples.getLast? = some y ∧ s.homeCfg.stepLimit < (r - y.residual).natAbs) →
    s1 = { s with
      ctl := { s.ctl with flags := { s.ctl.flags with
        thermal := s.ctl.flags.thermal || fx.thermal, clamped := s.ctl.flags.clamped || clamped } }
      eng := { s.eng with gRef := some (s.eng.gRef.getD v) } } →
    (s.eng.home.series = some series → (∃ y, s.eng.home.samples.getLast? = some y ∧ fx.mid ≤ y.mid) →
      s.produceObs b =
        { s1 with port := { s.port with latched := { s.port.latched with seriesMalformed := true } } })
    ∧ ((s.eng.home.series = some series → ∀ y, s.eng.home.samples.getLast? = some y → y.mid < fx.mid) →
      s.produceObs b =
        { s1 with
          eng := { s1.eng with
            obsCounter := s.eng.obsCounter + 1, latestObs := s.eng.obsCounter + 1
            firstObs := s.eng.firstObs.or (some (s.eng.obsCounter + 1)), lastObs := some (s.eng.obsCounter + 1)
            home := { series := some series, samples :=
              (if s.eng.home.series = some series then
                if s.eng.home.samples.length < 128 then s.eng.home.samples else s.eng.home.samples.tail
              else []) ++
                [{ seq := s.eng.obsCounter + 1, mid := fx.mid, residual := r, epoch := s.eng.epoch, jump := jump
                   clamped := clamped, amended := false }] } }
          link := { s.link with txq :=
            (if s.link.txq.length < 16 then s.link.txq
            else s.link.txq.eraseP fun i : TxItem => i.record.isObs && !i.inFlight) ++ [
              { inFlight := false
                record := .obs { series := series, seq := s.eng.obsCounter + 1, mid := fx.mid, residual := r
                                 epoch := s.eng.epoch
                                 flags := BitVec.ofNat 8 ((if jump then 1 else 0) + if clamped then 2 else 0) } }] }
          port := { s.port with latched := { s.port.latched with
            txDropped := s.port.latched.txDropped || 16 ≤ s.link.txq.length } } })

/-- SENSOR_BYTE_TIMEOUT and SILENCE_EXPIRY with no occupation in progress (R195, R16, R28 to R30): a stopped frame is discarded
after half the sample period, or 50 ms before the first RUN; silence makes the sensor ABSENT, clears the expectation and closes
the intake; with the sensor already ABSENT it closes an open intake, and on a closed one it has no effect.
SENSOR_LOST ends the occupation in progress (R29, R30, R51, R52): aborted with reason SENSOR_LOST when it has no kept block,
reduced and flagged NOISY when it has one; the sensor is ABSENT and the intake closed. An ABSENT sensor's expiry does so only for
an intake that is open. The model's choices: the rejection counts cleared at the close (log entry 27), the items cleared in IDLE
(log entry 11), a forced entry passed before the drift place is taken (log entry 14).
What a reduced ending leaves of the log, the pending list, the loops and the notices: `ReducedEnding` (R150, R155, R159 to R163, R168). -/
def Obligations.SensorLoss : Prop :=
  ((∀ s : State, s.intake.rx ≠ [] →
          s.intake.rxLast + (match s.period with
            | some p => p / 2
            | none => 50) < s.osc →
          exec .sensorByteTimeout s = .next { s with intake := { s.intake with rx := [] } })
        ∧ ∀ (s : State) (t : Nat), s.intake.silenceAt = some t → t ≤ s.osc →
          (s.intake.sensor = .present → s.ctl.state = .idle →
            exec .silenceExpiry s = .next
              { s with intake := { s.intake.closed with silenceAt := none, sensor := .absent, expect := none } }.serve)
          ∧ (s.intake.sensor = .absent → s.ctl.state = .idle ∨ s.intake.isOpen = false →
            exec .silenceExpiry s = .next { s with intake := { s.intake.closed with silenceAt := none } }.serve))
    ∧ (∀ (s s1 : State) (t : Nat), s.intake.silenceAt = some t → t ≤ s.osc → s.ctl.state ≠ .idle →
        (s.intake.sensor = .present ∧ s1 = { s with intake :=
            { s.intake.closed with silenceAt := none, sensor := .absent, expect := none } }
          ∨ s.intake.sensor = .absent ∧ s.intake.isOpen = true ∧ s1 = { s with intake :=
            { s.intake.closed with silenceAt := none } }) →
        (s.ctl.kept = 0 → exec .silenceExpiry s = .next (s1.abortedBy .sensorLost s.tb.nodeTime).serve)
        ∧ (s.ctl.kept ≠ 0 → LogSound s → ∃ t : State, exec .silenceExpiry s = .next t.serve
            ∧ ReducedEnding s1 t { s.ctl.flags with noisy := true } s.tb.nodeTime))

/-- R22, the tilt gate: an arrival fails it when |x − ox| > Gt, when |y − oy| > Gt, or when both hold, the differences formed
exactly, and a difference equal to Gt passes; with Gt = 500 and ox = 20 the x test passes exactly the tilts from −480 to 520; and
every accepted arrival has |x − ox| ≤ Gt and |y − oy| ≤ Gt. -/
def Obligations.TiltGate : Prop :=
  (∀ (ins : Instrument) (f : Frame),
      tiltFails ins f = true ↔ (ins.tiltGate : Int) < |f.x - ins.ox| ∨ (ins.tiltGate : Int) < |f.y - ins.oy|)
    ∧ (∀ (ins : Instrument) (f : Frame), ins.tiltGate = 500 → ins.ox = 20 → |f.y - ins.oy| ≤ 500 →
        (tiltFails ins f = false ↔ -480 ≤ f.x ∧ f.x ≤ 520))
    ∧ (∀ (ins : Instrument) (x : Int), -32768 ≤ x → x ≤ 32767 → -32768 ≤ ins.ox → ins.ox ≤ 32767 →
        |x - ins.ox| ≤ 65535)
    ∧ ∀ (ins : Instrument) (ref : Option Int) (f : Frame), gate ins ref (.own f) = none →
        |f.x - ins.ox| ≤ ins.tiltGate ∧ |f.y - ins.oy| ≤ ins.tiltGate

/-- R62, the tilt correction and its bound: C_tilt is round((dx² + dy²) × 49 / 10,000) of the tilt means, and over any samples
that each passed the tilt gate the means stay within Gt of the offsets and C_tilt lies from 0 to round(2·Gt² × 49 / 10,000). -/
def Obligations.TiltCorrectionBound : Prop :=
  ∀ (ins : Instrument) (fs : List Frame) (x y : Int), fs ≠ [] → (∀ f ∈ fs, tiltFails ins f = false) →
    x = roundDiv (fs.map Frame.x).sum fs.length → y = roundDiv (fs.map Frame.y).sum fs.length →
    |x - ins.ox| ≤ ins.tiltGate ∧ |y - ins.oy| ≤ ins.tiltGate
      ∧ tiltCorrection ins x y
        = roundDiv (((x - ins.ox) ^ 2 + (y - ins.oy) ^ 2) * 49) 10000
      ∧ 0 ≤ tiltCorrection ins x y
      ∧ tiltCorrection ins x y ≤ roundDiv (2 * (ins.tiltGate : Int) ^ 2 * 49) 10000

/-- The arithmetic of chapter 4. Rounded division (R56) is within one half of the quotient, takes a tie away from zero, and is exact
on exact quotients. The mean reading G (R60) and the temperature correction (R63) are these. The cosine table (R65) falls from 2³⁰
to 0; an angle is folded into the first quadrant (R66) and the table interpolated (R67), so that every signed cosine lies within
±2³⁰; the model tide (R64, R68) is T0 and the rounded terms of the constituents in use, and lies within ±7,000,000 nGal. A bracket's
base term (R71) is interpolated and lies between its residuals. A drift line (R72), and a loop's rate, clamped to its limit (R73),
are these; and a loop closed at its computed rate reduces its two ties to one value up to the rounding (R74). -/
def Obligations.RoundingAndTide : Prop :=
  (∀ (a : Int) (b : Nat), 0 < b → 2 * |a - b * roundDiv a b| ≤ b)
    ∧ (∀ (a : Int) (b : Nat), 0 < b → 2 * |a - b * roundDiv a b| = b → |a| < |b * roundDiv a b|)
    ∧ (∀ (q : Int) (b : Nat), 0 < b → roundDiv (b * q) b = q)
    ∧ (∀ (ins : Instrument) (m : Sums),
        meanGravity ins m = roundDiv (m.counts * ins.scale) (m.n * 65536) + ins.offset)
    ∧ (∀ (ins : Instrument) (x : Int),
        tempCorrection ins x
            = roundDiv (ins.tempCoeff * max (-(ins.tempWindow : Int)) (min ins.tempWindow (x - ins.tempRef))) 100
          ∧ (tempClampActs ins x = true ↔ (ins.tempWindow : Int) < |x - ins.tempRef|))
    ∧ (cosEntry 0 = 2 ^ 30 ∧ cosEntry 900 = 0 ∧ ∀ i, i < 900 → cosEntry (i + 1) < cosEntry i)
    ∧ (∀ q, q ≤ 90000000 → quadrantCos q = cosEntry (q / 100000)
        + roundDiv ((cosEntry (q / 100000 + 1) - cosEntry (q / 100000)) * (q % 100000 : Nat)) 100000)
    ∧ (∀ θ : Nat, θ < 360000000 →
        nodeCos θ = (if θ ≤ 90000000 then quadrantCos θ else if θ ≤ 180000000 then -quadrantCos (180000000 - θ)
          else if θ < 270000000 then -quadrantCos (θ - 180000000) else quadrantCos (360000000 - θ))
        ∧ |nodeCos θ| ≤ 2 ^ 30)
    ∧ (∀ (img : Image) (c : TideConfig) (t : Nat), img.tide = some c →
        modelTide img t = c.offset + ((img.constituents.take c.count).map fun k : Option Constituent =>
          match k with
          | none => 0
          | some k =>
            roundDiv (k.amplitude * nodeCos (((roundDiv (k.speed * t : Nat) 3600000).toNat + k.phase) % 360000000))
              (2 ^ 30)).sum)
    ∧ (∀ (img : Image) (t : Nat), img.valid = true → |modelTide img t| ≤ 7000000)
    ∧ (∀ (k : Bracket) (c : Stored) (t : Nat), k.b = some c → k.a.time ≤ t → t < c.time →
        k.value t = k.a.residual
            + roundDiv ((c.residual - k.a.residual) * ((t : Int) - k.a.time)) (c.time - k.a.time)
          ∧ min k.a.residual c.residual ≤ k.value t ∧ k.value t ≤ max k.a.residual c.residual)
    ∧ (∀ (tO : Nat) (dO rate : Int) (t : Nat),
        driftLine tO dO rate t = dO + roundDiv (rate * ((t : Int) - tO)) 1000000)
    ∧ (∀ (cfg : DriftConfig) (vO vC : Int) (tO tC : Nat), tO < tC →
        clampRate cfg (rawRate vO vC tO tC)
          = max (-(cfg.rateLimit : Int)) (min cfg.rateLimit (roundDiv ((vC - vO) * 1000000) (tC - tO))))
    ∧ ∀ (vO vC dO : Int) (tO tC : Nat), tO < tC →
        2000000 * |(vC - driftLine tO dO (rawRate vO vC tO tC) tC) - (vO - dO)| ≤ ((tC - tO : Nat) : Int) + 1000000

/-! ### Occupations (chapter 3) -/

/-- A start trigger on a rover in IDLE with a pending next header (R39 to R41, R45, R49), by START or by the configured TRIG
edge: the header becomes active and leaves the next place, the counter is raised, the items are at 0, and the state is
SETTLING, or RECORDING with the intake opened when the settle time is 0. START's OK carries the occupation number.
A start trigger on a base in IDLE starts a recording cycle (R53, R69, R118): the header is formed from the home point of
the image, K is the default block count or unbounded, G_ref is none and the OBS sequence starts anew. -/
def Obligations.OccupationStarts : Prop :=
  (∀ (s s1 : State) (h : Header), s.node = .running → s.isBase = false → s.ctl.state = .idle →
        s.ctl.pendingMark = true → s.ctl.nextHeader = some h →
        s1 = { s with ctl := { s.ctl with nextHeader := none, pendingMark := false } }.started h
          (some (if h.blockCount.getD s.sampling.blockCount = 0 then 256 else h.blockCount.getD s.sampling.blockCount)) →
        ∃ t : State, (0 < h.settle.getD s.sampling.settle → t = s1)
          ∧ (h.settle.getD s.sampling.settle = 0 → t = s1.opened h.mode.continuation true)
          ∧ (∀ q, s.identity.trigger = .command → s.port.owed = false →
              exec (.start q []) s = .next (t.replied 0x08#8 q (.ok (leBytes 4 (s.ctl.occNumber + 1)))))
          ∧ (∀ held, s.identity.trigger = .lineRise → 10 ≤ held → exec (.trigEdge .rising held) s = .next t)
          ∧ ∀ held, s.identity.trigger = .lineFall → 10 ≤ held → exec (.trigEdge .falling held) s = .next t)
    ∧ (∀ (s s1 : State) (h : Header), s.node = .running → s.isBase = true → s.ctl.state = .idle →
        h = { pointId := s.homeCfg.pointId, tie := false, easting := s.homeCfg.easting, northing := s.homeCfg.northing
              height := s.homeCfg.height, tideRequest := .model, mode := .spot, preferred := none, blockCount := none
              settle := none, settleClamp := false } →
        s1 = { s with eng := { s.eng with
          gRef := none, obsCounter := 0, latestObs := 0, firstObs := none, lastObs := none } }.started h
          (if s.sampling.blockCount = 0 then none else some s.sampling.blockCount) →
        ∃ t : State, (0 < s.sampling.settle → t = s1) ∧ (s.sampling.settle = 0 → t = s1.opened .continuous true)
          ∧ (∀ q, s.identity.trigger = .command → s.port.owed = false →
              exec (.start q []) s = .next (t.replied 0x08#8 q (.ok (leBytes 4 (s.ctl.occNumber + 1)))))
          ∧ (∀ held, s.identity.trigger = .lineRise → 10 ≤ held → exec (.trigEdge .rising held) s = .next t)
          ∧ ∀ held, s.identity.trigger = .lineFall → 10 ≤ held → exec (.trigEdge .falling held) s = .next t)

/-- Triggers that start nothing (R39, R40, R195): an edge held for less than 10 ms, in STARTUP, under COMMAND, of the other
direction, or in SETTLING or RECORDING has no effect; a configured edge in IDLE on a rover with no pending header latches
TRIGGER_IGNORED; START is refused with STATE outside IDLE or under another trigger source, and with NO_HEADER. -/
def Obligations.TriggersRefused : Prop :=
  ∀ s : State,
    (∀ e held, held < 10 ∨ s.node = .startup ∨ s.identity.trigger = .command
        ∨ (s.identity.trigger = .lineRise ∧ e = .falling) ∨ (s.identity.trigger = .lineFall ∧ e = .rising)
        ∨ s.ctl.state = .settling ∨ s.ctl.state = .recording →
      exec (.trigEdge e held) s = .next s)
    ∧ (∀ e held, s.node = .running → 10 ≤ held →
        (s.identity.trigger = .lineRise ∧ e = .rising) ∨ (s.identity.trigger = .lineFall ∧ e = .falling) →
        s.isBase = false → s.ctl.state = .idle → s.ctl.pendingMark = false ∨ s.ctl.nextHeader = none →
        exec (.trigEdge e held) s = .next
          { s with port := { s.port with latched := { s.port.latched with triggerIgnored := true } } })
    ∧ (∀ q, s.node = .running → s.port.owed = false → s.identity.trigger ≠ .command ∨ s.ctl.state ≠ .idle →
        exec (.start q []) s = .next (s.replied 0x08#8 q .state))
    ∧ ∀ q, s.node = .running → s.port.owed = false → s.identity.trigger = .command → s.isBase = false →
        s.ctl.state = .idle → s.ctl.pendingMark = false ∨ s.ctl.nextHeader = none →
        exec (.start q []) s = .next (s.replied 0x08#8 q .noHeader)

/-- The controller opens the intake (R42, R46): at the settle expiry with the first-opening mark, in the continuation mode of
the occupation; and at a step trigger in WAITING, STEP or the configured edge, for a single kept block and without it. STEP is
refused with ROLE on a base and with STATE outside WAITING. -/
def Obligations.IntakeOpens : Prop :=
  ∀ s : State,
    (∀ t h, s.ctl.state = .settling → s.ctl.active = some h → s.ctl.settleAt = some t → t ≤ s.tb.nodeTime →
      exec .settleExpiry s = .next (s.opened h.mode.continuation true))
    ∧ (∀ e held, s.node = .running → 10 ≤ held → s.ctl.state = .waiting →
        (s.identity.trigger = .lineRise ∧ e = .rising) ∨ (s.identity.trigger = .lineFall ∧ e = .falling) →
        exec (.trigEdge e held) s = .next (s.opened .singleKept false))
    ∧ ∀ q, s.node = .running → s.port.owed = false →
      (s.isBase = true → exec (.step q []) s = .next (s.replied 0x09#8 q .role))
      ∧ (s.isBase = false → s.ctl.state ≠ .waiting → exec (.step q []) s = .next (s.replied 0x09#8 q .state))
      ∧ (s.isBase = false → s.ctl.state = .waiting →
          exec (.step q []) s = .next ((s.opened .singleKept false).replied 0x09#8 q (.ok [])))

/-- STOP and the step-wait expiry (R47, R50, R52, R158): STOP is refused with STATE in IDLE, aborts an occupation without a kept
block with reason STOPPED, and ends one with a kept block reduced, flagged STOPPED; the step-wait expiry ends one in WAITING
reduced, flagged STEP_TIMEOUT.
END_PULSE_EXPIRY (R54): 100 ms after the latest ending the END line is de-asserted. The model's choices in the endings: the items
cleared in IDLE (log entry 11), a forced entry passed before the drift place is taken (log entry 14), the rejection counts cleared
at the close (log entry 27).
What a reduced ending leaves of the log, the pending list, the loops and the notices: `ReducedEnding` (R150, R155, R159 to R163, R168). -/
def Obligations.Endings : Prop :=
  ((∀ (s : State) (q : Byte), s.node = .running → s.port.owed = false →
          (s.ctl.state = .idle → exec (.stop q []) s = .next (s.replied 0x0A#8 q .state))
          ∧ (s.ctl.state ≠ .idle → s.ctl.kept = 0 →
              exec (.stop q []) s = .next ((s.abortedBy .stopped s.tb.nodeTime).replied 0x0A#8 q (.ok [])))
          ∧ (s.ctl.state ≠ .idle → s.ctl.kept ≠ 0 → LogSound s →
              ∃ t : State, exec (.stop q []) s = .next (t.replied 0x0A#8 q (.ok []))
                ∧ ReducedEnding s.hunting t { s.ctl.flags with stopped := true } s.tb.nodeTime))
        ∧ ∀ (s : State) (x : Nat), s.ctl.state = .waiting → s.ctl.stepWaitAt = some x → x ≤ s.tb.nodeTime →
          LogSound s →
          ∃ t : State, exec .stepWaitExpiry s = .next t.serve
            ∧ ReducedEnding s t { s.ctl.flags with stepTimeout := true } s.tb.nodeTime)
    ∧ (∀ (s : State) (x : Nat), s.ctl.endUntil = some x → x ≤ s.osc →
        exec .endPulseExpiry s = .next { s with ctl := { s.ctl with endLine := false, endUntil := none } })

/-- STAGE (R34, R35, R200): refused with ROLE on a base and with RANGE naming the first of its ten fields that is out of its range;
otherwise the header with those fields replaces the staged header whole, in every occupation state (Safety.lean, `StageField`,
`Staged`).
AMEND (R37): refused with ROLE on a base, with STATE in IDLE and with NO_HEADER; otherwise every field but the mode comes
from the staged header, K is recomputed, HEADER_AMENDED and the clamp mark's flag are gained; in SETTLING the settle expiry
moves, and an occupation whose kept blocks reach the new K ends normally. The model's choices in that ending: the items cleared in
IDLE (log entry 11), a forced entry passed before the drift place is taken (log entry 14), the rejection counts cleared at the
close (log entry 27).
What a reduced ending leaves of the log, the pending list, the loops and the notices: `ReducedEnding` (R150, R155, R159 to R163, R168). -/
def Obligations.StageAndAmend : Prop :=
  (∀ (s : State) (q : Byte) (p : List Byte), s.node = .running → s.port.owed = false → p.length = 25 →
        (s.isBase = true → exec (.stage q p) s = .next (s.replied 0x05#8 q .role))
        ∧ (s.isBase = false → ∀ k, parseHeader p = .bad k →
            exec (.stage q p) s = .next (s.replied 0x05#8 q (.range 0 k)))
        ∧ (s.isBase = false → ∀ h, parseHeader p = .ok h →
            exec (.stage q p) s = .next
              ({ s with ctl := { s.ctl with staged := some h } }.replied 0x05#8 q (.ok [])))
        ∧ (s.isBase = false → ∀ k, FirstOut (StageField p) 10 k →
            exec (.stage q p) s = .next (s.replied 0x05#8 q (.range 0 k)))
        ∧ (s.isBase = false → (∀ k, 1 ≤ k → k ≤ 10 → StageField p k) →
            ∃ h : Header, Staged p h ∧ exec (.stage q p) s = .next
              ({ s with ctl := { s.ctl with staged := some h } }.replied 0x05#8 q (.ok []))))
    ∧ (∀ (s : State) (q : Byte), s.node = .running → s.port.owed = false →
        (s.isBase = true → exec (.amend q []) s = .next (s.replied 0x07#8 q .role))
        ∧ (s.isBase = false → s.ctl.state = .idle → exec (.amend q []) s = .next (s.replied 0x07#8 q .state))
        ∧ (s.isBase = false → s.ctl.state ≠ .idle → s.ctl.staged = none →
            exec (.amend q []) s = .next (s.replied 0x07#8 q .noHeader))
        ∧ ∀ (g h : Header) (k due : Nat) (s1 : State), s.isBase = false → s.ctl.state ≠ .idle → s.ctl.staged = some g →
          s.ctl.active = some h →
          (k = if g.blockCount.getD s.sampling.blockCount = 0 then 256 else g.blockCount.getD s.sampling.blockCount) →
          s1 = { s with ctl := { s.ctl with
            active := some { g with mode := h.mode }, k := some k
            flags := { s.ctl.flags with
              headerAmended := true, settleClamped := s.ctl.flags.settleClamped || g.settleClamp } } } →
          due = s.ctl.startTime + g.settle.getD s.sampling.settle * 1000 →
          (s.ctl.state = .settling → s.tb.nodeTime < due →
            exec (.amend q []) s = .next
              ({ s1 with ctl := { s1.ctl with settleAt := some due } }.replied 0x07#8 q (.ok [])))
          ∧ (s.ctl.state = .settling → due ≤ s.tb.nodeTime →
            exec (.amend q []) s = .next ((s1.opened h.mode.continuation true).replied 0x07#8 q (.ok [])))
          ∧ (s.ctl.state ≠ .settling → s.ctl.kept < k →
            exec (.amend q []) s = .next (s1.replied 0x07#8 q (.ok [])))
          ∧ (s.ctl.state ≠ .settling → k ≤ s.ctl.kept → LogSound s →
            ∃ t : State, exec (.amend q []) s = .next (t.replied 0x07#8 q (.ok []))
              ∧ ReducedEnding s1.hunting t s1.ctl.flags s.tb.nodeTime))

/-- R36, COMMIT on a rover, in every occupation state: it copies the staged header to the next header, replacing one already
pending, sets the pending mark and leaves the active header untouched; with no staged header it is refused with NO_HEADER. On
a base it is refused with ROLE (R34). -/
def Obligations.CommitTaken : Prop :=
  ∀ (s : State) (q : Byte), s.node = .running → s.port.owed = false →
    (s.isBase = true → exec (.commit q []) s = .next (s.replied 0x06#8 q .role))
    ∧ (s.isBase = false → s.ctl.staged = none → exec (.commit q []) s = .next (s.replied 0x06#8 q .noHeader))
    ∧ (s.isBase = false → ∀ h, s.ctl.staged = some h →
        exec (.commit q []) s = .next
          ({ s with ctl := { s.ctl with nextHeader := some h, pendingMark := true } }.replied 0x06#8 q (.ok [])))

/-! ### Base terms, loops and the log (chapters 7 to 9) -/

/-- HOLD_EXPIRY (R128, R130, R164, R166): the occupation leaves the pending list, the others stay in it as they were; its term
becomes final: the selection against the rings as they stand when that is final, else the held value or MODEL_FALLBACK with
R = 0, flagged HOLD_EXPIRED; every other record keeps its flags and base term; and V and g_red are formed anew (Safety.lean,
`HoldsExpired`). A tie's changed value and finality are passed to the loop table,
carried forward and frozen, the other records take their drift terms, marks and revisions (R146 to R150, R165, R167; Safety.lean,
`LoopsPassed`; the one freezing test is log entry 34), and the LOOP notices and then the RESULT notices are queued (R150, R168;
`Told`). -/
def Obligations.HoldExpiryTaken : Prop :=
  ∀ (s : State) (e : PendingEntry), LogSound s → e ∈ s.eng.waiting → e.expiry ≤ s.tb.nodeTime →
    ∃ (t : State) (r : Record) (x : Values), exec (.holdExpiry e.occ) s = .next t.serve
      ∧ t = { s with eng := { s.eng with log := t.eng.log, waiting := t.eng.waiting, loops := t.eng.loops }
                     port := t.port }
      ∧ t.eng.waiting = s.eng.waiting.filter (fun w => w.occ ≠ e.occ)
      ∧ t.eng.log.map Record.number = s.eng.log.map Record.number
      ∧ HoldsExpired s t (fun w => w.occ = e.occ) ∧ (LoopsSound s → Told s t s.port t.port)
      ∧ r ∈ s.eng.log ∧ r.number = e.occ ∧ r.values = some x
      ∧ ∃ (r' : Record) (x' : Values), r' ∈ t.eng.log ∧ r'.number = e.occ ∧ r'.values = some x'
        ∧ x'.term.final = true ∧ x'.term.expiry = x.term.expiry ∧ x'.term.source = x.term.source
        ∧ x'.v = x'.g + x'.cTilt + x'.cTemp - x'.tModel - x'.term.r ∧ x'.gRed = x'.v - x'.d
        ∧ ((select s r.header x.mid).final = true →
            x'.term.outcome = (select s r.header x.mid).outcome ∧ x'.term.r = (select s r.header x.mid).r
              ∧ r'.flags.holdExpired = r.flags.holdExpired)
        ∧ ((select s r.header x.mid).outcome = .held →
            x'.term.outcome = .held ∧ x'.term.r = (select s r.header x.mid).r ∧ r'.flags.holdExpired = true)
        ∧ ((select s r.header x.mid).outcome = .awaited →
            x'.term.outcome = .modelFallback ∧ x'.term.r = 0 ∧ r'.flags.holdExpired = true)

/-- The selection of a base term (R125 to R127, R71): of the candidates in their order, the first that gives a bracket decides,
BRACKETED with R interpolated, or STEP_NEAR with the residual of the nearer sample when the later one is flagged JUMP; with no
bracket the first that holds, HELD; else AWAITED when a candidate is LIVE and MODEL_FALLBACK otherwise (Safety.lean,
`SelectedFirst`), for entries of distinct ids and rings in increasing sequence and mid-time. In any state a bracketed term lies
between the residuals of two samples of a candidate's ring around the mid-time, at most Gmax apart; a held one is the residual of
a candidate's latest sample, at most Gmax old; a bracketed, stepped or fallen-back term is final, a held or awaited one
provisional, and the last two have R = 0. -/
def Obligations.SelectionSound : Prop :=
  ∀ (s : State) (h : Header) (t : Nat) (x : Selection), x = select s h t →
    ((s.peers.entries.map PeerEntry.id).Nodup →
      (∀ n, (s.peers.rings.get n).samples.Pairwise fun a b => a.seq < b.seq ∧ a.mid < b.mid) →
      SelectedFirst s h t x)
    ∧ (x.outcome = .bracketed → x.final = true ∧ ∃ e ∈ s.peers.entries, isCandidate s.baseTerm h e = true
      ∧ ∃ a ∈ s.peers.samplesOf e, ∃ b ∈ s.peers.samplesOf e, a.mid ≤ t ∧ t < b.mid
        ∧ b.mid - a.mid ≤ s.baseTerm.maxGap * 1000
        ∧ min a.residual b.residual ≤ x.r ∧ x.r ≤ max a.residual b.residual)
    ∧ (x.outcome = .stepNear → x.final = true ∧ ∃ e ∈ s.peers.entries, isCandidate s.baseTerm h e = true
      ∧ ∃ a ∈ s.peers.samplesOf e, x.r = a.residual)
    ∧ (x.outcome = .held → x.final = false ∧ ∃ e ∈ s.peers.entries, isCandidate s.baseTerm h e = true
      ∧ ∃ a, (s.peers.samplesOf e).getLast? = some a ∧ a.mid ≤ t ∧ t - a.mid ≤ s.baseTerm.maxGap * 1000
        ∧ x.r = a.residual)
    ∧ (x.outcome = .awaited → x.final = false ∧ x.r = 0)
    ∧ (x.outcome = .modelFallback → x.final = true ∧ x.r = 0)
    ∧ x.outcome ≠ .model

/-- FINISH (R141, R148, R151, R164, R170): refused with STATE unless the occupation state is IDLE; else as one event every pending
term is made final without re-evaluation, HELD with its R and AWAITED as MODEL_FALLBACK with R = 0, and flagged FINISHED, while every
other record keeps its base term; the OPEN loop is abandoned, which flags its members LOOP_ABANDONED and sets the carry line, and the
CLOSING loops are FROZEN (Safety.lean, `LoopTable.finished`); flags gain nothing else, the loop number counter stands, every drift
is frozen at the value that the changes passed leave, no record is left REDUCED, and the LOOP and RESULT notices are queued (R150,
R168; `Told`). -/
def Obligations.FinishTaken : Prop :=
  ∀ (s : State) (q : Byte), s.node = .running → s.port.owed = false →
    (s.ctl.state ≠ .idle → exec (.finish q []) s = .next (s.replied 0x10#8 q .state))
    ∧ (s.ctl.state = .idle → LogSound s → LoopsSound s → DriftSound s →
        ∃ t : State, exec (.finish q []) s = .next (t.replied 0x10#8 q (.ok []))
          ∧ t = { s.hunting with
              eng := { s.eng with log := t.eng.log, waiting := [], loops := t.eng.loops }, port := t.port }
          ∧ t.eng.loops.openLoop = none ∧ t.eng.loops.closing = []
          ∧ t.eng.loops.counter = s.eng.loops.counter
          ∧ t.eng.loops = s.eng.loops.finished s.driftCfg t.eng.log
          ∧ t.eng.log.map Record.number = s.eng.log.map Record.number
          ∧ t.eng.log.map Record.written = s.eng.log.map Record.written
          ∧ Told s t s.hunting.port t.port
          ∧ (∀ r ∈ t.eng.log, r.state ≠ .reduced)
          ∧ ∀ (o : Record) (isPending : Bool), o ∈ s.eng.log →
            isPending = s.eng.waiting.any (fun w => w.occ = o.number) →
            ∃ o' ∈ t.eng.log, o'.number = o.number ∧ o.Closed o'
              ∧ o'.flags = { o.flags with
                  finished := o.flags.finished || isPending
                  loopAbandoned := o.flags.loopAbandoned
                    || s.eng.loops.openLoop.any (fun l => l.members.contains o.number) }
              ∧ o'.values.map Values.term = o.values.map (fun x : Values => if isPending then x.term.madeFinal else x.term)
              ∧ (o.state = .reduced → ∀ x ∈ o.values, ∃ x' ∈ o'.values, x'.driftFrozen = true
                ∧ x'.d = (s.eng.loops.passed s.driftCfg t.eng.log).driftOf (s.eng.loops.moved t.eng.log) o x))

/-! ### The peer link and the peer table (chapters 5 and 6) -/

/-- BURST_START (R79 to R82), the first row that applies: in LOST, in a slot not later than that of the last burst, and under
a QUIET count, which is lowered, the slot passes silent; otherwise a burst is composed of the HEAD with the node's state and
the largest number of records, at most 5, that the queue and the slot allow, which are marked in flight, KEY is asserted and
the slot recorded. -/
def Obligations.BurstStartDecides : Prop :=
  ∀ (s : State) (x : Nat) (a : Nat × Nat), s.link.burstAt = some x → x ≤ s.tb.nodeTime → s.link.inForce = some a →
    (s.tb.state = .lost → exec .burstStart s = .next { s with link := { s.link with burstAt := none } })
    ∧ (∀ b : Nat × Nat, s.tb.state ≠ .lost → s.link.lastBurst = some b → a.1 < b.1 ∨ (a.1 = b.1 ∧ a.2 ≤ b.2) →
        exec .burstStart s = .next { s with link := { s.link with burstAt := none } })
    ∧ ((∀ b : Nat × Nat, s.link.lastBurst = some b → b.1 < a.1 ∨ (b.1 = a.1 ∧ b.2 < a.2)) → s.tb.state ≠ .lost →
        (0 < s.link.quiet →
          exec .burstStart s = .next
            { s with link := { s.link with burstAt := none, quiet := s.link.quiet - 1 } })
        ∧ ∀ k : Nat, s.link.quiet = 0 → 150 ≤ s.schedule.slotLength →
          k ≤ 5 → k ≤ s.link.txq.length → (30 + 20 * k) * 25 ≤ (s.schedule.slotLength - 20) * 24 →
          (∀ j : Nat, j ≤ 5 → j ≤ s.link.txq.length →
            (30 + 20 * j) * 25 ≤ (s.schedule.slotLength - 20) * 24 → j ≤ k) →
          exec .burstStart s = .next { s with link := { s.link with
            burstAt := none, quiet := 0, key := true, lastBurst := some a
            txq := (s.link.txq.take k).map (fun i : TxItem => { i with inFlight := true }) ++ s.link.txq.drop k
            burst := some
              { startedAt := s.osc, records := k, sent := 0
                bytes := encodeHead
                    { sender := s.identity.nodeId, role := s.identity.role, tbState := s.tb.state
                      occState := s.ctl.state, cycle := a.1 % 65536, count := k
                      epoch := if s.isBase then s.eng.epoch else 0
                      homeId := if s.isBase then s.homeCfg.pointId else 0
                      easting := if s.isBase then s.homeCfg.easting else 0
                      northing := if s.isBase then s.homeCfg.northing else 0
                      height := if s.isBase then s.homeCfg.height else 0
                      latestObs := if s.isBase then s.eng.latestObs else 0 }
                  ++ (s.link.txq.take k).flatMap fun i : TxItem => encodeRecord i.record } } })

/-- RECORD_SENT, BURST_END and RECEIVER_LISTEN (R82, R89): an in-flight record leaves the queue's head when its last byte has
gone; at the burst's end KEY is de-asserted and what was in flight has left; the receiver begins to listen. That the last byte's
instant, 25/24 ms a byte, is taken at the nearest millisecond is the model's choice (log entry 5). -/
def Obligations.LinkProgress : Prop :=
  (∀ (s : State) (b : Burst) (i : TxItem) (q : List TxItem), s.link.burst = some b → s.link.txq = i :: q →
      i.inFlight = true → b.sent < b.records → (b.startedAt : Int) + roundDiv ((30 + 20 * (b.sent + 1)) * 25) 24 ≤ s.osc →
      exec .recordSent s = .next
        { s with link := { s.link with burst := some { b with sent := b.sent + 1 }, txq := q } })
    ∧ (∀ (s : State) (b : Burst), s.link.burst = some b →
      (b.startedAt : Int) + roundDiv (b.bytes.length * 25) 24 ≤ s.osc →
      exec .burstEnd s = .next { s with link := { s.link with
        burst := none, key := false, txq := s.link.txq.filter fun i : TxItem => !i.inFlight } })
    ∧ ∀ (s : State) (x : Nat), s.link.listenAt = some x → x ≤ s.tb.nodeTime →
      exec .receiverListen s = .next { s with link := { s.link with rx := .listening, rxBuf := [], listenAt := none } }

/-- HEAD_RECEIVED of a sender with no entry (R90, R98, R99, R101, R105): with room in the table it creates the entry, LIVE, with
the HEAD's identity, epoch and reported fields; a BASE takes the lowest free ring, emptied, or is marked NO_RING; the receiver
goes on to its records; a PEER_STATE notice, which carries the ring and the NO_RING mark (log entry 32), is queued and the
state-changed flag latched. -/
def Obligations.HeadCreatesEntry : Prop :=
  ∀ (s : State) (h : Head) (a : Nat × Nat), h.fits → s.link.rx = .listening → s.link.rxBuf = [] →
    (∀ c, s.link.closed = some c → c.closedAt ≠ s.osc) →
    s.link.inForce = some a → a.2 < 32 → h.sender ≠ s.identity.nodeId →
    (∀ e ∈ s.peers.entries, e.id ≠ h.sender) → s.peers.entries.length < 8 →
    ∃ e : PeerEntry,
      exec (.headReceived (encodeHead h)) s = .next
        { s with
          link := { s.link with
            rx := if h.count = 0 then .listening else .inBurst h.sender true h.count }
          peers :=
            { entries := s.peers.entries ++ [e]
              rings := match e.ring with
                | some n => s.peers.rings.put n { owner := some h.sender, samples := [] }
                | none => s.peers.rings }
          port := { s.port with changed := s.port.changed ||| BitVec.ofNat 32 (2 ^ h.sender) }.offer
            (.peerState h.sender none .live s.tb.nodeTime e.ring e.noRing) }.serve
      ∧ e = { id := h.sender, role := some h.role, state := .live
              slotsHeard := BitVec.ofNat 32 (2 ^ a.2), lastHeard := a, heard := true, missed := 0
              repTb := h.tbState, repOcc := h.occState, repCycle := h.cycle, repEpoch := h.epoch
              repLatest := h.latestObs
              homeId := if h.role = Role.base then h.homeId else 0
              easting := if h.role = Role.base then h.easting else 0
              northing := if h.role = Role.base then h.northing else 0
              height := if h.role = Role.base then h.height else 0
              ring := e.ring, noRing := e.noRing, series := none, epoch := some h.epoch, mark := none
              discards := {} }
      ∧ (h.role = .rover → e.ring = none ∧ e.noRing = false)
      ∧ (h.role = .base → (∃ n, (s.peers.rings.get n).owner = none) →
          e.noRing = false ∧ ∃ n, e.ring = some n ∧ (s.peers.rings.get n).owner = none
            ∧ ∀ m, m.code < n.code → (s.peers.rings.get m).owner ≠ none)
      ∧ (h.role = .base → (∀ n, (s.peers.rings.get n).owner ≠ none) → e.ring = none ∧ e.noRing = true)

/-- A HEAD taken into an entry of the table (R98, R99, R101, R105), in LIVE or SILENT with the identity that it matches, or in
UNHEARD, whose identity it sets afresh: slots heard, last heard, mark, count and reported fields follow the HEAD, a BASE's home
position too; a BASE entry without a ring tries the allocation, its first or again; a PEER_STATE notice, with ring and NO_RING mark
(log entry 32), is queued and the state-changed flag latched unless the entry was LIVE.
HEADs that are ignored or bad (R90, R98): the node's own id and an identity that does not match latch ID_CLASH, a full
table latches PEER_TABLE_FULL, a DROPPED entry ignores without effect, and the records that follow are to be discarded; thirty
bytes that are no good HEAD put the receiver into DISCARDING and do nothing else. They are no good HEAD (R196, R197, R199; Safety.lean,
`HeadBad`) when the check fails, the kind is another, the sender is outside 1..31, the role, one of the two state nibbles or the
occupation state has a code that R81 does not allow, or the count is above 5; any others are a HEAD as sent
(`PeerAndSensorRoundTrip`). -/
def Obligations.HeadJudged : Prop :=
  (∀ (s : State) (h : Head) (a : Nat × Nat) (e : PeerEntry), h.fits → s.link.rx = .listening → s.link.rxBuf = [] →
        (∀ c, s.link.closed = some c → c.closedAt ≠ s.osc) →
        s.link.inForce = some a → a.2 < 32 → h.sender ≠ s.identity.nodeId → s.peers.find h.sender = some e →
        e.state = .unheard ∨ ((e.state = .live ∨ e.state = .silent) ∧ e.role = some h.role
          ∧ (h.role = .base → e.homeId = h.homeId)) →
        ∃ (x' : Rings) (e' : PeerEntry),
          Allocated s.peers.rings ((if e.state = .unheard then e.named h else e).heardFrom h a) x' e'
          ∧ exec (.headReceived (encodeHead h)) s = .next
            { s with
              link := { s.link with rx := if h.count = 0 then .listening else .inBurst h.sender true h.count }
              peers :=
                { entries := s.peers.entries.map fun x : PeerEntry => if x.id = h.sender then e' else x, rings := x' }
              port := if e.state = PeerState.live then s.port
                else { s.port with changed := s.port.changed ||| BitVec.ofNat 32 (2 ^ h.sender) }.offer
                  (.peerState h.sender (some e.state) .live s.tb.nodeTime e'.ring e'.noRing) }.serve)
    ∧ (∀ s : State, s.link.rx = .listening → s.link.rxBuf = [] → (∀ c, s.link.closed = some c → c.closedAt ≠ s.osc) →
        (∀ (h : Head) (l : PeerLink), h.fits →
          l = { s.link with rx := if h.count = 0 then .listening else .inBurst h.sender false h.count } →
          (h.sender = s.identity.nodeId →
            exec (.headReceived (encodeHead h)) s = .next
              { s with link := l, port := { s.port with latched := { s.port.latched with idClash := true } } }.serve)
          ∧ (h.sender ≠ s.identity.nodeId → (∀ e ∈ s.peers.entries, e.id ≠ h.sender) → 8 ≤ s.peers.entries.length →
            exec (.headReceived (encodeHead h)) s = .next
              { s with link := l, port := { s.port with latched := { s.port.latched with peerTableFull := true } } }.serve)
          ∧ ∀ e, h.sender ≠ s.identity.nodeId → s.peers.find h.sender = some e →
            (e.state = .dropped → exec (.headReceived (encodeHead h)) s = .next { s with link := l }.serve)
            ∧ (e.state = .live ∨ e.state = .silent →
                e.role ≠ some h.role ∨ (h.role = .base ∧ e.homeId ≠ h.homeId) →
              exec (.headReceived (encodeHead h)) s = .next
                { s with link := l, port := { s.port with latched := { s.port.latched with idClash := true } } }.serve))
        ∧ ∀ bs : List Byte, bs.length = 30 → HeadBad bs ∨ parseHead bs = none →
          exec (.headReceived bs) s = .next { s with link := { s.link with rx := .discarding } }.serve)

/-- PEER_RECORD_RECEIVED (R91, R92): each 20 bytes lower the number to come, to LISTENING at the last; a good record under a
take verdict joins the inbound queue with its sender, or at 32 is discarded and latches RX_OVERFLOW; a good one under an
ignore verdict and a bad one are discarded. It is bad (R196, R199; Safety.lean, `RecordBad`) when the check fails or the kind is
neither OBS nor REV; the others are read as `PeerAndSensorRoundTrip` says.
HEAD_RECEIVED and PEER_RECORD_RECEIVED with the receiver OFF or DISCARDING (R89, R90): the bytes are discarded, whatever they are,
and no entry, ring, record of the inbound queue, flag or notice changes.
HEAD_RECEIVED and PEER_RECORD_RECEIVED together with a cycle start, taken after it (R93, R100; how R89 and R91 go with them is the
model's choice, log entry 29): the bytes meet the reception that the cycle start set aside, as they would with it in place, so a
HEAD is judged and a record begins the next cycle's queue; the receiver of the new slot stays as it is. -/
def Obligations.PeerRecordTaken : Prop :=
  (∀ (s : State) (c : ClosedReception) (bs : List Byte) (i : Instr), i = .headReceived bs ∨ i = .peerRecordReceived bs →
        s.link.closed = some c → c.closedAt = s.osc →
        ∃ t : State, exec i { s with link := { s.link with rx := c.rx, rxBuf := c.buf, closed := none } } = .next t
          ∧ exec i s = .next { t with link := { t.link with
              rx := s.link.rx, rxBuf := s.link.rxBuf
              closed := some { closedAt := c.closedAt, rx := t.link.rx, buf := t.link.rxBuf } } })
    ∧ (∀ (s : State) (bs : List Byte) (i : Instr), i = .headReceived bs ∨ i = .peerRecordReceived bs →
        s.link.rx = .off ∨ s.link.rx = .discarding → (∀ c, s.link.closed = some c → c.closedAt ≠ s.osc) →
        exec i s = .next { s with link := { s.link with rxBuf := [] } }.serve)
    ∧ ∀ (s : State) (id n : Nat) (take : Bool) (bs : List Byte) (l : PeerLink), s.link.rx = .inBurst id take n →
    1 ≤ n → s.link.rxBuf = [] → (∀ c, s.link.closed = some c → c.closedAt ≠ s.osc) → bs.length = 20 →
    l = { s.link with rx := if n = 1 then .listening else .inBurst id take (n - 1) } →
    (∀ r, parseRecord bs = some r → take = true → s.link.inq.length < 32 →
      exec (.peerRecordReceived bs) s = .next { s with link := { l with inq := s.link.inq ++ [(id, r)] } }.serve)
    ∧ (∀ r, parseRecord bs = some r → take = true → 32 ≤ s.link.inq.length →
      exec (.peerRecordReceived bs) s = .next
        { s with link := l, port := { s.port with latched := { s.port.latched with rxOverflow := true } } }.serve)
    ∧ (RecordBad bs ∨ parseRecord bs = none ∨ take = false →
      exec (.peerRecordReceived bs) s = .next { s with link := l }.serve)

/-- DROP and RESTORE (R101 to R103, R129): refused with RANGE, NOT_FOUND and STATE; DROP makes the entry DROPPED, frees its
ring and keeps the rest of it; RESTORE puts a new UNHEARD entry in its place, whose cleared fields are those of a fresh entry (last
heard (0, 0), reported UNSET and IDLE, home point 0), the model's choice (log entry 18); the change is latched; every pending
occupation is re-evaluated against the entries and rings as they then stand (R129), what changed is passed to the loop table (R135,
R146 to R150; one freezing test an event, log entry 34), and LOOP and RESULT notices follow the PEER_STATE notice (log entry 32
for its NO_RING mark); and only the engine and the port are touched besides. -/
def Obligations.DropAndRestore : Prop :=
  ∀ (s : State) (q id : Byte), s.node = .running → s.port.owed = false →
    (id.toNat = 0 ∨ 31 < id.toNat →
      exec (.drop q [id]) s = .next (s.replied 0x0D#8 q (.range 0 1))
        ∧ exec (.restore q [id]) s = .next (s.replied 0x0E#8 q (.range 0 1)))
    ∧ (1 ≤ id.toNat → id.toNat ≤ 31 → (∀ e ∈ s.peers.entries, e.id ≠ id.toNat) →
      exec (.drop q [id]) s = .next (s.replied 0x0D#8 q .notFound)
        ∧ exec (.restore q [id]) s = .next (s.replied 0x0E#8 q .notFound))
    ∧ ∀ e : PeerEntry, 1 ≤ id.toNat → id.toNat ≤ 31 → s.peers.find id.toNat = some e →
      (e.state = .dropped →
        exec (.drop q [id]) s = .next (s.replied 0x0D#8 q .state)
        ∧ ∃ t : State, exec (.restore q [id]) s = .next (t.replied 0x0E#8 q (.ok []))
          ∧ t = { s.hunting with eng := t.eng, port := t.port, peers := { s.peers with
              entries := s.peers.entries.map fun x : PeerEntry => if x.id = id.toNat then { id := id.toNat } else x } }
          ∧ t.port.changed = s.port.changed ||| BitVec.ofNat 32 (2 ^ id.toNat)
          ∧ (LogSound s → Reselected s t [] ∧ LoopsPassed s t ∧ (LoopsSound s → Told s t
            (({ s.hunting.port with changed := s.port.changed ||| BitVec.ofNat 32 (2 ^ id.toNat) } : Port).offer
              (.peerState id.toNat (some .dropped) .unheard s.tb.nodeTime none false)) t.port)))
      ∧ (e.state ≠ .dropped →
        exec (.restore q [id]) s = .next (s.replied 0x0E#8 q .state)
        ∧ ∃ t : State, exec (.drop q [id]) s = .next (t.replied 0x0D#8 q (.ok []))
          ∧ t = { s.hunting with eng := t.eng, port := t.port, peers :=
              { entries := s.peers.entries.map fun x : PeerEntry =>
                  if x.id = id.toNat then { e with state := .dropped, ring := none, noRing := false } else x
                rings := match e.ring with
                  | some n => s.peers.rings.put n { owner := none, samples := [] }
                  | none => s.peers.rings } }
          ∧ t.port.changed = s.port.changed ||| BitVec.ofNat 32 (2 ^ id.toNat)
          ∧ (LogSound s → Reselected s t [] ∧ LoopsPassed s t ∧ (LoopsSound s → Told s t
            (({ s.hunting.port with changed := s.port.changed ||| BitVec.ofNat 32 (2 ^ id.toNat) } : Port).offer
              (.peerState id.toNat (some e.state) .dropped s.tb.nodeTime none false)) t.port)))

/-- REREF accepted (R84 to R86, R121, R122): the base epoch rises by one, the step is subtracted from every home sample and
queued OBS at or above the from-sequence, which take the new epoch, the REV stands in the transmit queue behind the records in
flight, for which a full queue gives up its oldest OBS not in flight, G_ref rises by the step, and the OK carries the new
epoch.
REREF refused (R121), in order: ROLE on a rover; STATE with a REV in the transmit queue, or with an OBS there of another
series than the home series'; RANGE at epoch 255, whose position is a free value (log entry 21); RANGE for a step of 0 or beyond
±2,000,000,000 and for a from-sequence that the home series does not hold. A refusal changes nothing but the answer. -/
def Obligations.RerefJudged : Prop :=
  (∀ (s : State) (q : Byte) (p : List Byte) (fs series : Nat) (d : Int) (revised kept : List TxItem),
        s.node = .running → s.port.owed = false →
        p.length = 8 → fs = uAt p 0 4 → d = sAt p 4 4 → s.isBase = true →
        (∀ i ∈ s.link.txq, ∃ o, i.record = .obs o ∧ o.series = series) → s.eng.home.series = some series →
        s.eng.epoch < 255 → d ≠ 0 → d.natAbs ≤ 2000000000 → (∃ y ∈ s.eng.home.samples, y.seq = fs) →
        (revised = s.link.txq.map fun i : TxItem => match i.record with
          | .obs o =>
            if fs ≤ o.seq then
              { i with record := .obs { o with residual := o.residual - d, epoch := s.eng.epoch + 1 } }
            else i
          | .rev _ => i) →
        kept = (if s.link.txq.length < 16 then revised else revised.eraseP fun i : TxItem => !i.inFlight) →
        exec (.reref q p) s = .next
          ({ s with
            eng := { s.eng with
              epoch := s.eng.epoch + 1, gRef := s.eng.gRef.map fun g => g + d
              home := { s.eng.home with samples := s.eng.home.samples.map fun y : Sample =>
                if fs ≤ y.seq then { y with residual := y.residual - d, epoch := s.eng.epoch + 1, amended := true }
                else y } }
            link := { s.link with
              txq := kept.takeWhile TxItem.inFlight ++
                TxItem.mk (.rev { series := series, epoch := s.eng.epoch + 1, fromSeq := fs, step := d }) false ::
                  kept.dropWhile TxItem.inFlight }
            port := { s.port with latched := { s.port.latched with
              txDropped := s.port.latched.txDropped || 16 ≤ s.link.txq.length } } }.replied 0x0F#8 q
                (.ok (leBytes 1 (s.eng.epoch + 1)))))
    ∧ (∀ (s : State) (q : Byte) (p : List Byte), s.node = .running → s.port.owed = false → p.length = 8 →
        (s.isBase = false → exec (.reref q p) s = .next (s.replied 0x0F#8 q .role))
        ∧ (s.isBase = true → (∃ i ∈ s.link.txq, ∀ o, i.record = .obs o → s.eng.home.series ≠ some o.series) →
            exec (.reref q p) s = .next (s.replied 0x0F#8 q .state))
        ∧ (s.isBase = true → (∀ i ∈ s.link.txq, ∃ o, i.record = .obs o ∧ s.eng.home.series = some o.series) →
            (s.eng.epoch = 255 → ∃ k, exec (.reref q p) s = .next (s.replied 0x0F#8 q (.range 0 k)))
            ∧ (s.eng.epoch ≠ 255 → sAt p 4 4 = 0 ∨ 2000000000 < (sAt p 4 4).natAbs →
              exec (.reref q p) s = .next (s.replied 0x0F#8 q (.range 0 2)))
            ∧ (s.eng.epoch ≠ 255 → sAt p 4 4 ≠ 0 → (sAt p 4 4).natAbs ≤ 2000000000 →
              (∀ y ∈ s.eng.home.samples, y.seq ≠ uAt p 0 4) →
              exec (.reref q p) s = .next (s.replied 0x0F#8 q (.range 0 1)))))

/-- QUIET and RXMASK (R77, R87, R88): QUIET takes the number of owned slots up to 255 and refuses 0; RXMASK puts its mask into the
waiting place and refuses one that names a slot at or above S. QUIET's answer carries the count in one byte (log entry 30). -/
def Obligations.QuietAndRxmask : Prop :=
  ∀ (s : State) (q : Byte) (p : List Byte), s.node = .running → s.port.owed = false →
    (p.length = 2 → uAt p 0 2 = 0 → exec (.quiet q p) s = .next (s.replied 0x0B#8 q (.range 0 1)))
    ∧ (p.length = 2 → uAt p 0 2 ≠ 0 →
        exec (.quiet q p) s = .next
          ({ s with link := { s.link with quiet := min (uAt p 0 2) 255 } }.replied 0x0B#8 q
            (.ok (leBytes 1 (min (uAt p 0 2) 255)))))
    ∧ (p.length = 4 → uAt p 0 4 < 2 ^ s.schedule.slots →
        exec (.rxmask q p) s = .next
          ({ s with link := { s.link with waitingMask := some (BitVec.ofNat 32 (uAt p 0 4)) } }.replied 0x0C#8 q
            (.ok [])))
    ∧ (p.length = 4 → 2 ^ s.schedule.slots ≤ uAt p 0 4 →
        exec (.rxmask q p) s = .next (s.replied 0x0C#8 q (.range 0 1)))

/-! ### Logger port and configuration (chapter 10) -/

/-- The checks of every request (R175, R176, R186), in order: under a reply owed it is answered BUSY, with a payload of a wrong
length FORMAT, in a node state that does not admit it STATE; none of these acts on the request. -/
def Obligations.RequestChecks : Prop :=
  ∀ (s : State) (c : Instr) (k q : Byte) (p : List Byte), Sys2Proof.Machine.Instr.request c = some (k, q, p) →
    (s.port.owed = true → exec c s = .next (s.repliedBusy k q))
    ∧ (s.port.owed = false → payloadLengthOk k.toNat p = false → exec c s = .next (s.replied k q .format))
    ∧ (s.port.owed = false → payloadLengthOk k.toNat p = true → admits k s.node = false →
        exec c s = .next (s.replied k q .state))

/-- Frames that are not acted on (R174 to R176): a frame whose check fails or whose length is above 512 is answered FORMAT, one
abandoned after more than 20 ms FORMAT when its header is complete and nothing when it is not, one of no request kind
UNKNOWN; under a reply owed each is answered BUSY instead. -/
def Obligations.BadFrames : Prop :=
  (∀ (s : State) (kind seq : Byte) (p c : List Byte), s.port.rx = [] → p.length ≤ 512 → c.length = 2 →
      c ≠ crcBytes (leBytes 2 p.length ++ [kind, seq] ++ p) →
      exec (.badLoggerFrame (0x5C#8 :: (leBytes 2 p.length ++ [kind, seq] ++ p ++ c))) s = .next
        (let t := if s.port.owed then s.repliedBusy kind seq else s.replied kind seq .format
         t.setPort { t.port with rxLast := s.osc }))
    ∧ (∀ (s : State) (kind seq : Byte) (n : Nat), s.port.rx = [] → 512 < n → n < 65536 →
      exec (.badLoggerFrame (0x5C#8 :: (leBytes 2 n ++ [kind, seq]))) s = .next
        (let t := if s.port.owed then s.repliedBusy kind seq else s.replied kind seq .format
         t.setPort { t.port with rxLast := s.osc }))
    ∧ (∀ s : State, s.port.rx ≠ [] → s.port.rxLast + 20 < s.osc →
      (s.port.rx.length < 5 → exec .loggerByteTimeout s = .next s.hunting)
      ∧ ∀ m l0 l1 kind seq rest, s.port.rx = m :: l0 :: l1 :: kind :: seq :: rest →
          exec .loggerByteTimeout s = .next
            (if s.port.owed then s.repliedBusy kind seq else s.replied kind seq .format))
    ∧ ∀ (s : State) (kind seq : Byte) (p : List Byte), kind.toNat = 0 ∨ 0x14 < kind.toNat →
      exec (.unknownRequest kind seq p) s = .next
        (if s.port.owed then s.repliedBusy kind seq else s.replied kind seq .unknown)

/-- A request frame byte by byte (R174, R200): the bytes of a whole good frame at the input line do what the request of its
kind does, for every request and for a frame of no request kind. That the command BAD_LOGGER_FRAME, met as the bytes it carries,
dispatches a good frame is the model's choice (log entry 7). -/
def Obligations.GoodFrameDispatched : Prop :=
  ∀ (s t : State) (c : Instr) (kind seq : Byte) (p : List Byte), s.port.rx = [] → p.length ≤ 512 →
    Sys2Proof.Machine.Instr.request c = some (kind, seq, p) ∨
      ((kind.toNat = 0 ∨ 0x14 < kind.toNat) ∧ c = .unknownRequest kind seq p) →
    exec c s = .next t →
    exec (.badLoggerFrame (loggerFrame kind seq p)) s = .next (t.setPort { t.port with rxLast := s.osc })

/-- Notices (R182 to R184): a notice that replaces none takes the next number, modulo 256, at the tail; at 32 held the head is
discarded and NOTICES_LOST latched; a RESULT whose occupation has one in the queue takes its place and number there and
nothing else changes.
OUTPUT_FRAME_SENT (R177, R185): the line begins the next frame: an answer before a notice, of two answers the one whose
frame arrived first, else the head notice, which leaves the queue and goes out under its number; with nothing waiting the
line is idle. -/
def Obligations.NoticesAndLine : Prop :=
  (∀ (p : Port) (b : NoticeBody),
        ((∀ r, b = .result r → ∀ n ∈ p.notices, ∀ r', n.body = .result r' → r'.occ ≠ r.occ) →
          p.offer b = { p with
            counter := (p.counter + 1) % 256
            notices := (if p.notices.length < 32 then p.notices else p.notices.tail)
              ++ [{ number := (p.counter + 1) % 256, body := b }]
            latched := { p.latched with noticesLost := p.latched.noticesLost || !decide (p.notices.length < 32) } })
        ∧ ∀ (r r' : ResultBody) (n : Notice) (l₁ l₂ : List Notice), b = .result r → p.notices = l₁ ++ n :: l₂ →
            n.body = .result r' → r'.occ = r.occ →
            (∀ m ∈ l₁ ++ l₂, ∀ r'', m.body = .result r'' → r''.occ ≠ r.occ) →
            p.offer b = { p with notices := l₁ ++ { n with body := b } :: l₂ })
    ∧ (∀ (s : State) (l : LineFrame), s.port.line = some l →
        (∀ r, s.port.reply = some r → (∀ b, s.port.busy = some b → r.arrival ≤ b.arrival) →
          exec .outputFrameSent s = .next { s with port := { s.port with
            reply := none, line := some { claim := .reply, bytes := r.bytes, startedAt := s.osc } } })
        ∧ (∀ b, s.port.busy = some b → (∀ r, s.port.reply = some r → b.arrival < r.arrival) →
          exec .outputFrameSent s = .next { s with port := { s.port with
            busy := none, line := some { claim := .busy, bytes := b.bytes, startedAt := s.osc } } })
        ∧ (∀ n rest, s.port.reply = none → s.port.busy = none → s.port.notices = n :: rest →
          exec .outputFrameSent s = .next { s with port := { s.port with
            notices := rest, line := some
              { claim := .notice, startedAt := s.osc
                bytes := loggerFrame n.body.kind (BitVec.ofNat 8 n.number) n.body.bytes } } })
        ∧ (s.port.reply = none → s.port.busy = none → s.port.notices = [] →
          exec .outputFrameSent s = .next { s with port := { s.port with line := none } }))

/-- STATUS (R179, R180): its OK carries the items of R179 as they stand, and the latched and state-changed flags it returns are
cleared. -/
def Obligations.StatusTaken : Prop :=
  ∀ (s : State) (q : Byte), s.port.owed = false →
    exec (.status q []) s = .next
      ({ s with port := { s.port with latched := {}, changed := 0#32 } }.replied 0x01#8 q
        (.ok (leBytes 1 s.node.code
          ++ (match s.image.identity with
              | none => [0#8, 0#8]
              | some x => leBytes 1 1 ++ leBytes 1 x.role.code)
          ++ leBytes 4 s.image.heldSet ++ leBytes 1 s.tb.state.code ++ leBytes 5 s.tb.nodeTime
          ++ leBytes 1 s.intake.sensor.code ++ leBytes 1 s.ctl.state.code ++ leBytes 4 s.ctl.occNumber
          ++ leBytes 1 s.link.quiet ++ leBytes 1 s.link.txq.length ++ leBytes 1 s.link.inq.length
          ++ leBytes 1 s.eng.waiting.length
          ++ leBytes 1 (s.eng.loops.closing.length + if s.eng.loops.openLoop.isSome then 1 else 0)
          ++ leBytes 1 (s.eng.log.filter fun r : Record => r.state = RecState.reduced).length
          ++ leBytes 1 s.port.notices.length ++ leBytes 1 s.port.latched.bits ++ leBytes 4 s.port.changed.toNat)))

/-- SETUP (R14, R187 to R190): a part number outside 1..20 is refused naming part 0 and field 1, a part with a field out of its
range naming the part and the first such field (Safety.lean, `SetupField`); otherwise the part is stored whole and the OK carries
its number and the parts held. Only part 2 touches anything else, and only when its epoch differs from the one held outside UNSET:
the time base then returns to UNSET with a TIME_STATE notice. That a different epoch in UNSET leaves the time base and an armed
record as they are is the model's choice (log entry 12), and so is the node time 0 of that notice (log entry 26). -/
def Obligations.SetupTaken : Prop :=
  ∀ (s : State) (q n : Byte) (p : List Byte), s.node = .startup → s.port.owed = false →
    payloadLengthOk 0x02 (n :: p) = true →
    (n.toNat = 0 ∨ 20 < n.toNat → exec (.setup q (n :: p)) s = .next (s.replied 0x02#8 q (.range 0 1)))
    ∧ (1 ≤ n.toNat → n.toNat ≤ 20 →
        (∀ k, storePart s.image n.toNat p = .bad k →
          exec (.setup q (n :: p)) s = .next (s.replied 0x02#8 q (.range n.toNat k)))
        ∧ (∀ k, FirstOut (SetupField n.toNat p) (setupFields n.toNat) k →
          exec (.setup q (n :: p)) s = .next (s.replied 0x02#8 q (.range n.toNat k)))
        ∧ ((∀ k, 1 ≤ k → k ≤ setupFields n.toNat → SetupField n.toNat p k) → ∃ img, storePart s.image n.toNat p = .ok img)
        ∧ (∀ img, storePart s.image n.toNat p = .ok img →
            n.toNat ≠ 2 ∨ s.image.schedule = none ∨ s.tb.state = .unset
              ∨ s.image.schedule.map Schedule.epoch = img.schedule.map Schedule.epoch →
          exec (.setup q (n :: p)) s = .next
            ({ s with image := img }.replied 0x02#8 q (.ok (leBytes 1 n.toNat ++ leBytes 4 img.heldSet))))
        ∧ (∀ img, storePart s.image n.toNat p = .ok img → n.toNat = 2 → s.image.schedule ≠ none →
            s.tb.state ≠ .unset → s.image.schedule.map Schedule.epoch ≠ img.schedule.map Schedule.epoch →
            s.ctl.state = .idle →
          exec (.setup q (n :: p)) s = .next
            ({ s with
              image := img
              tb := { s.tb with
                state := .unset, nodeTime := 0, lastPulse := none, armed := none, slew := none, held := false }
              link := { s.link with lastBurst := none }
              port := s.port.offer (.timeState s.tb.state .unset 0 0) }.replied 0x02#8 q
                (.ok (leBytes 1 n.toNat ++ leBytes 4 img.heldSet)))))

/-- RUN (R12, R78, R191, R192): refused with CONFIG for a missing part, a missing constituent or a cross-field rule, with NO_TIME
in UNSET and at the range end; accepted, the node is RUNNING, the next boundary is the first multiple of L beyond node time,
the link takes the slot node time lies in with the initial receive mask, and the OK carries node time, cycle and slot. -/
def Obligations.RunTaken : Prop :=
  ∀ (s : State) (q : Byte), s.node = .startup → s.port.owed = false →
    (∀ n, s.image.firstMissing 1 8 = some n → exec (.run q []) s = .next (s.replied 0x03#8 q (.config 0 n)))
    ∧ (s.image.firstMissing 1 8 = none →
        (∀ n, s.image.firstMissing 9 s.tide.count = some n →
          exec (.run q []) s = .next (s.replied 0x03#8 q (.config 0 n)))
        ∧ (s.image.firstMissing 9 s.tide.count = none →
          (s.schedule.txMask = 0#32 ∨ 2 ^ s.schedule.slots ≤ s.schedule.txMask.toNat →
            exec (.run q []) s = .next (s.replied 0x03#8 q (.config 1 1)))
          ∧ (s.schedule.txMask ≠ 0#32 → s.schedule.txMask.toNat < 2 ^ s.schedule.slots →
            (2 ^ s.schedule.slots ≤ s.schedule.rxMask.toNat →
              exec (.run q []) s = .next (s.replied 0x03#8 q (.config 1 2)))
            ∧ (s.schedule.rxMask.toNat < 2 ^ s.schedule.slots →
              (s.sampling.blockLength < s.sampling.minAccepted →
                exec (.run q []) s = .next (s.replied 0x03#8 q (.config 1 3)))
              ∧ (s.sampling.minAccepted ≤ s.sampling.blockLength →
                (s.tb.state = .unset ∨ s.tb.held = true →
                  exec (.run q []) s = .next (s.replied 0x03#8 q (.noTime s.tb.state)))
                ∧ (s.tb.state ≠ .unset → s.tb.held = false → ∀ (n slot start : Nat) (l : Bool),
                  n = s.tb.nodeTime / (s.schedule.slots * s.schedule.slotLength) →
                  slot = s.tb.nodeTime % (s.schedule.slots * s.schedule.slotLength) / s.schedule.slotLength →
                  start = s.tb.nodeTime - s.tb.nodeTime % s.schedule.slotLength →
                  l = (s.schedule.rxMask.getLsbD slot && !s.schedule.txMask.getLsbD slot) →
                  exec (.run q []) s = .next
                    ({ s with
                      node := .running, period := some s.sampling.period
                      tb := { s.tb with
                        nextBoundary := some ((s.tb.nodeTime / s.schedule.slotLength + 1) * s.schedule.slotLength) }
                      link := { s.link with
                        inForce := some (n, slot), rxMask := some s.schedule.rxMask, waitingMask := none
                        burstAt := if s.schedule.txMask.getLsbD slot && s.tb.nodeTime - start < 10 then
                            some (start + 10)
                          else none
                        rx := if l && start + 5 ≤ s.tb.nodeTime then Receiver.listening else Receiver.off
                        listenAt := if l && s.tb.nodeTime < start + 5 then some (start + 5) else none
                        rxBuf := [] } }.replied 0x03#8 q
                          (.ok (leBytes 5 s.tb.nodeTime ++ leBytes 4 n ++ leBytes 1 slot)))))))))

/-- RESTART (R193 and the RESTART columns of R15, R33, R55, R69, R96, R117, R136, R154, R173 and R194): image, time base, sensor
state, the slot of the last burst, and the answers and the frame on the line are kept; everything else takes its value. -/
def Obligations.RestartTaken : Prop :=
  ∀ (s : State) (q : Byte), s.node = .running → s.port.owed = false →
    exec (.restart q []) s = .next
      ({ osc := s.osc, free := s.free, node := .startup, image := s.image, period := s.period
         tb := { s.tb with nextBoundary := none }
         intake := { mode := s.intake.mode, sensor := s.intake.sensor, silenceAt := s.intake.silenceAt
                     rx := s.intake.rx, rxLast := s.intake.rxLast }
         link := { lastBurst := s.link.lastBurst }
         port := { reply := s.port.reply, busy := s.port.busy, line := s.port.line, rxLast := s.port.rxLast
                   arrivals := s.port.arrivals }
         pending := s.pending : State }.replied 0x04#8 q (.ok []))

/-- The four reads change nothing but the answer (R116, R123, R153, R172): READ_OCC by number or LATEST, READ_PEER of the table
or of one entry, READ_SERIES of the home series or of a peer with up to 8 samples at or above the sequence, READ_LOOP of the
table or of one loop; with their refusals: NOT_FOUND, and RANGE naming the field for a selector above 1, an id above 31 and an
occupation or loop number of 0. The layouts of the answers (log entry 17), the widths of items that two layouts give (log entry 30)
and the loop number not examined under selector 0 (log entry 31) are the model's choices. -/
def Obligations.ReadsAnswer : Prop :=
  ∀ (s : State) (q : Byte) (p : List Byte), s.port.owed = false →
    (p.length = 5 →
      (∀ r, uAt p 0 1 = 1 → s.eng.log.getLast? = some r →
        exec (.readOcc q p) s = .next (s.replied 0x11#8 q (.ok r.bytes)))
      ∧ (∀ r, uAt p 0 1 = 0 → uAt p 1 4 ≠ 0 → r ∈ s.eng.log → r.number = uAt p 1 4 →
          s.eng.log.Pairwise (fun a b => a.number < b.number) →
          exec (.readOcc q p) s = .next (s.replied 0x11#8 q (.ok r.bytes)))
      ∧ (uAt p 0 1 = 0 → uAt p 1 4 ≠ 0 → (∀ r ∈ s.eng.log, r.number ≠ uAt p 1 4) →
          exec (.readOcc q p) s = .next (s.replied 0x11#8 q .notFound))
      ∧ (uAt p 0 1 = 1 → s.eng.log = [] → exec (.readOcc q p) s = .next (s.replied 0x11#8 q .notFound))
      ∧ (uAt p 0 1 = 0 → uAt p 1 4 = 0 → exec (.readOcc q p) s = .next (s.replied 0x11#8 q (.range 0 2)))
      ∧ (1 < uAt p 0 1 → exec (.readOcc q p) s = .next (s.replied 0x11#8 q (.range 0 1))))
    ∧ (p.length = 1 →
      (uAt p 0 1 = 0 → exec (.readPeer q p) s = .next (s.replied 0x12#8 q (.ok
        (leBytes 1 s.peers.entries.length ++ s.peers.entries.flatMap fun e =>
          leBytes 1 e.id ++ optRole e.role ++ leBytes 1 e.state.code ++ optRing e.ring))))
      ∧ (∀ e, 1 ≤ uAt p 0 1 → uAt p 0 1 ≤ 31 → s.peers.find (uAt p 0 1) = some e →
          exec (.readPeer q p) s = .next (s.replied 0x12#8 q (.ok (peerAnswer e (s.peers.samplesOf e)))))
      ∧ (1 ≤ uAt p 0 1 → uAt p 0 1 ≤ 31 → s.peers.find (uAt p 0 1) = none →
          exec (.readPeer q p) s = .next (s.replied 0x12#8 q .notFound))
      ∧ (31 < uAt p 0 1 → exec (.readPeer q p) s = .next (s.replied 0x12#8 q (.range 0 1))))
    ∧ (p.length = 5 →
      (uAt p 0 1 = 0 → exec (.readSeries q p) s = .next (s.replied 0x13#8 q (.ok
        (optBytes 2 s.eng.home.series ++ leBytes 1 s.eng.epoch
          ++ listBytes Sample.bytes ((s.eng.home.samples.filter fun y => uAt p 1 4 ≤ y.seq).take 8)))))
      ∧ (∀ e, 1 ≤ uAt p 0 1 → uAt p 0 1 ≤ 31 → s.peers.find (uAt p 0 1) = some e →
          exec (.readSeries q p) s = .next (s.replied 0x13#8 q (.ok
            (seriesAnswer e (s.peers.samplesOf e) (uAt p 1 4)))))
      ∧ (1 ≤ uAt p 0 1 → uAt p 0 1 ≤ 31 → s.peers.find (uAt p 0 1) = none →
          exec (.readSeries q p) s = .next (s.replied 0x13#8 q .notFound))
      ∧ (31 < uAt p 0 1 → exec (.readSeries q p) s = .next (s.replied 0x13#8 q (.range 0 1))))
    ∧ (p.length = 5 →
      (uAt p 0 1 = 0 → exec (.readLoop q p) s = .next (s.replied 0x14#8 q (.ok s.eng.loops.answer)))
      ∧ (∀ l, uAt p 0 1 = 1 → uAt p 1 4 ≠ 0 → s.eng.loops.held (uAt p 1 4) = some l →
          exec (.readLoop q p) s = .next (s.replied 0x14#8 q (.ok l.bytes)))
      ∧ (∀ c, uAt p 0 1 = 1 → uAt p 1 4 ≠ 0 → s.eng.loops.held (uAt p 1 4) = none →
          s.eng.loops.carry = some c → c.loopNo = uAt p 1 4 →
          exec (.readLoop q p) s = .next (s.replied 0x14#8 q (.ok c.loopBytes)))
      ∧ (uAt p 0 1 = 1 → uAt p 1 4 ≠ 0 → s.eng.loops.held (uAt p 1 4) = none →
          (∀ c, s.eng.loops.carry = some c → c.loopNo ≠ uAt p 1 4) →
          exec (.readLoop q p) s = .next (s.replied 0x14#8 q .notFound))
      ∧ (uAt p 0 1 = 1 → uAt p 1 4 = 0 → exec (.readLoop q p) s = .next (s.replied 0x14#8 q (.range 0 2)))
      ∧ (1 < uAt p 0 1 → exec (.readLoop q p) s = .next (s.replied 0x14#8 q (.range 0 1))))

/-! ### Formats (chapter 11) -/

/-- Peer records and sample frames as sent are read as they were (R16, R81, R90, R91, R196, R198, R199): every HEAD with the values
R81 allows, every OBS and REV and every sample frame whose fields fit their widths; and a HEAD has 30 bytes, a record 20, a
frame 18.
Of any bytes (R90, R91): thirty that are a bad HEAD (Safety.lean, `HeadBad`) are read as none, and any others are a HEAD with the
values R81 allows, as sent; twenty that are a bad record (`RecordBad`) are read as none, and any others by their kind as the OBS
or the REV of their fields, the fill of a REV not examined. -/
def Obligations.PeerAndSensorRoundTrip : Prop :=
  (∀ h : Head, h.fits → parseHead (encodeHead h) = some h ∧ (encodeHead h).length = 30)
    ∧ (∀ r : PeerRecord, r.fits → parseRecord (encodeRecord r) = some r ∧ (encodeRecord r).length = 20)
    ∧ (∀ f : Frame, f.fits → parseFrame (encodeFrame f) = some f ∧ (encodeFrame f).length = 18)
    ∧ (∀ bs : List Byte, bs.length = 30 →
        (HeadBad bs → parseHead bs = none) ∧ (¬ HeadBad bs → ∃ h : Head, h.fits ∧ bs = encodeHead h))
    ∧ ∀ bs : List Byte, bs.length = 20 →
        (RecordBad bs → parseRecord bs = none)
        ∧ (¬ RecordBad bs →
          (uAt bs 0 1 = 0xB2 → parseRecord bs = some (.obs
            { series := uAt bs 1 2, seq := uAt bs 3 4, mid := uAt bs 7 5, residual := sAt bs 12 4, epoch := uAt bs 16 1
              flags := BitVec.ofNat 8 (uAt bs 17 1) }))
          ∧ (uAt bs 0 1 = 0xB3 → parseRecord bs = some (.rev
            { series := uAt bs 1 2, epoch := uAt bs 3 1, fromSeq := uAt bs 4 4, step := sAt bs 8 4 })))

/-- Every part of the image and every header as the logger sends it is read as it was (R35, R187 to R189, R196, R200): a part whose
fields are in range is stored as it is, and a header in range is read with its settle time held at 600 s at most and the clamp
mark set beyond that. Of any bytes, those of a part or a header whose every field is in its range are read, and others are not,
naming the first field that is out (Safety.lean, `SetupField`, `StageField`, `Staged`). -/
def Obligations.LoggerRoundTrip : Prop :=
  (∀ (img : Image) (x : Identity), x.ranges.all id = true →
      storePart img 1 (x.payload.drop 1) = .ok { img with identity := some x })
    ∧ (∀ (img : Image) (x : Schedule), x.ranges.all id = true →
      storePart img 2 (x.payload.drop 1) = .ok { img with schedule := some x })
    ∧ (∀ (img : Image) (x : Sampling), x.ranges.all id = true →
      storePart img 3 (x.payload.drop 1) = .ok { img with sampling := some x })
    ∧ (∀ (img : Image) (x : Instrument), x.ranges.all id = true →
      storePart img 4 (x.payload.drop 1) = .ok { img with instrument := some x })
    ∧ (∀ (img : Image) (x : TideConfig), x.ranges.all id = true →
      storePart img 5 (x.payload.drop 1) = .ok { img with tide := some x })
    ∧ (∀ (img : Image) (x : BaseConfig), x.ranges.all id = true →
      storePart img 6 (x.payload.drop 1) = .ok { img with baseTerm := some x })
    ∧ (∀ (img : Image) (x : DriftConfig), x.ranges.all id = true →
      storePart img 7 (x.payload.drop 1) = .ok { img with drift := some x })
    ∧ (∀ (img : Image) (x : HomeConfig), x.ranges.all id = true →
      storePart img 8 (x.payload.drop 1) = .ok { img with home := some x })
    ∧ (∀ (img : Image) (x : Constituent) (k : Nat), 1 ≤ k → k ≤ 12 → x.ranges.all id = true →
      storePart img (8 + k) ((x.payload k).drop 1)
        = .ok { img with constituents := img.constituents.set (k - 1) (some x) })
    ∧ (∀ (img : Image) (n : Nat) (p : List Byte), 1 ≤ n → n ≤ 20 →
      (∀ k, FirstOut (SetupField n p) (setupFields n) k → storePart img n p = .bad k)
        ∧ ((∀ k, 1 ≤ k → k ≤ setupFields n → SetupField n p k) → ∃ img', storePart img n p = .ok img'))
    ∧ (∀ p : List Byte,
      (∀ k, FirstOut (StageField p) 10 k → parseHeader p = .bad k)
        ∧ ((∀ k, 1 ≤ k → k ≤ 10 → StageField p k) → ∃ h, parseHeader p = .ok h ∧ Staged p h))
    ∧ ∀ (h : Header) (settle : Option Nat), 1 ≤ h.pointId → h.pointId ≤ 999999 → h.easting.natAbs ≤ 10000000 →
      h.northing.natAbs ≤ 10000000 → h.height.natAbs ≤ 10000000 → (∀ n, h.preferred = some n → 1 ≤ n ∧ n ≤ 31) →
      (∀ n, h.blockCount = some n → n < 256) → (∀ n, settle = some n → n < 65536) →
      h.settle = settle.map (fun n => min n 600) → h.settleClamp = settle.any (fun n => 600 < n) →
      parseHeader (stagePayload h settle) = .ok h ∧ (stagePayload h settle).length = 25

/-! ### What every step keeps -/

/-- The link (R80, R82, R84, R85): KEY follows the burst, and the transmit queue keeps its shape. -/
def Obligations.LinkKept : Prop :=
  ∀ s t : State, step s = .next t →
    (KeyFollowsBurst s → KeyFollowsBurst t) ∧ (TransmitQueueSound s → TransmitQueueSound t)

/-- The QUIET count, the inbound queue, the peer table, the rings, the home series, the CLOSING slots, the members of the loops in
the OPEN and CLOSING slots and the pending list keep within their capacities (R87, R92, R97, R106, R120, R137, R140, R162); so does
the occupation log, at most 512 records (R155, R161), since at most 229 of its records are REDUCED: its evictions always find one
that is not. The transmit queue stands in `LinkKept`, the notice queue in `BasicsKept`. -/
def Obligations.CapacitiesKept : Prop :=
  ∀ s t : State, Bounded s → step s = .next t →
    Bounded t
      ∧ (LogSound s → RecordsFormed s → LoopsSound s → DriftSound s → s.eng.log.length ≤ 512 → t.eng.log.length ≤ 512)

/-- The image holds each part whole and valid or not at all (R187, R189), and does not change in a step that starts and ends in
RUNNING (R186).
Node time (R4, R9, R14) and the notice queue (R182 to R184) stay sound. -/
def Obligations.BasicsKept : Prop :=
  (∀ s t : State, step s = .next t →
        (ImageSound s → ImageSound t) ∧ (s.node = .running → t.node = .running → t.image = s.image))
    ∧ (∀ s t : State, step s = .next t →
        (NodeTimeSound s → NodeTimeSound t) ∧ (NoticesSound s → NoticesSound t))

/-- STARTUP stays idle, and RUNNING stays complete and locked once (R5, R182, R186, R190 to R193). -/
def Obligations.NodeStatesKept : Prop :=
  ∀ s t : State, StartupIdle s → RunningSound s → step s = .next t → StartupIdle t ∧ RunningSound t

/-- A block's arrivals are split among N_b and the rejection counts and make B at its end (R24, R25). -/
def Obligations.BlockSplitKept : Prop :=
  ∀ s t : State, ImageSound s → StartupIdle s → RunningSound s → BlockSplit s → step s = .next t → BlockSplit t

/-- The peer table and its rings stay sound (R97, R102, R105, R106). -/
def Obligations.PeersKept : Prop :=
  ∀ s t : State, StartupIdle s → PeersSound s → step s = .next t → PeersSound t

/-- The log and the pending list stay sound (R155, R157, R162, R165), and every record's V and g_red follow from its terms, with
none left REDUCED that meets the sealing conditions (R75, R165). -/
def Obligations.LogKept : Prop :=
  ∀ s t : State, LogSound s → step s = .next t → LogSound t ∧ (RecordsFormed s → RecordsFormed t)

/-- Once a record is SEALED it keeps everything but its flags while it stays in the log (R133, R165). -/
def Obligations.SealedStays : Prop :=
  ∀ (s t : State) (r r' : Record), LogSound s → step s = .next t → r ∈ s.eng.log → r.state = .sealed →
    r' ∈ t.eng.log → r'.number = r.number → r' = { r with flags := r'.flags }

/-- The loop table stays sound, its rates within the drift rate limit (R73, R137, R138). -/
def Obligations.LoopsKept : Prop :=
  ∀ s t : State, StartupIdle s → LoopsSound s → step s = .next t → LoopsSound t

/-- Every REDUCED record is pending or hangs on a loop that may still change, and the loops' members and ties stay in step with
the log (R135, R146, R165). -/
def Obligations.DriftKept : Prop :=
  ∀ s t : State, LogSound s → LoopsSound s → DriftSound s → step s = .next t → DriftSound t

/-- Transmission is confined (R76, R78, R79, R94, R95): every step keeps a burst start armed only while RUNNING and with an owned
slot in force (Safety.lean, `BurstArmedOwned`). A step begins a burst only as BURST_START, outside LOST, with no QUIET count, and
in a slot later than that of the last burst, which it records; and, a burst start being armed so, only while RUNNING, in a slot of
the transmit mask, and, RUNNING being complete (`RunningSound`), with the time base LOCKED or HOLDOVER. -/
def Obligations.BurstsConfined : Prop :=
  (∀ s t : State, BurstArmedOwned s → step s = .next t → BurstArmedOwned t)
    ∧ ∀ s t : State, step s = .next t → s.link.burst = none → t.link.burst ≠ none →
    s.pending.head? = some .burstStart ∧ s.tb.state ≠ .lost ∧ s.link.quiet = 0
      ∧ t.link.lastBurst = s.link.inForce
      ∧ (∀ a b : Nat × Nat, s.link.inForce = some a → s.link.lastBurst = some b →
          b.1 < a.1 ∨ (b.1 = a.1 ∧ b.2 < a.2))
      ∧ (BurstArmedOwned s →
          s.node = .running
            ∧ (∃ a : Nat × Nat, s.link.inForce = some a ∧ s.schedule.txMask.getLsbD a.2 = true)
            ∧ (RunningSound s → s.tb.state = .locked ∨ s.tb.state = .holdover))

end Statements
end

