-- ==== Sys2Proof/Laws/State.lean ====
section
/-! SUPPORT. What replacing one block's state leaves of every field, one lemma per field per replacement, all true by rfl; and
the image's parts, which no replacement touches. -/

namespace Sys2Proof.Machine

variable (s : State)

/-! ### `setTb` -/

@[simp] theorem State.setTb_osc (x : TimeBase) : (s.setTb x).osc = s.osc := rfl
@[simp] theorem State.setTb_free (x : TimeBase) : (s.setTb x).free = s.free := rfl
@[simp] theorem State.setTb_node (x : TimeBase) : (s.setTb x).node = s.node := rfl
@[simp] theorem State.setTb_image (x : TimeBase) : (s.setTb x).image = s.image := rfl
@[simp] theorem State.setTb_period (x : TimeBase) : (s.setTb x).period = s.period := rfl
@[simp] theorem State.setTb_tb (x : TimeBase) : (s.setTb x).tb = x := rfl
@[simp] theorem State.setTb_intake (x : TimeBase) : (s.setTb x).intake = s.intake := rfl
@[simp] theorem State.setTb_ctl (x : TimeBase) : (s.setTb x).ctl = s.ctl := rfl
@[simp] theorem State.setTb_eng (x : TimeBase) : (s.setTb x).eng = s.eng := rfl
@[simp] theorem State.setTb_link (x : TimeBase) : (s.setTb x).link = s.link := rfl
@[simp] theorem State.setTb_peers (x : TimeBase) : (s.setTb x).peers = s.peers := rfl
@[simp] theorem State.setTb_port (x : TimeBase) : (s.setTb x).port = s.port := rfl
@[simp] theorem State.setTb_pending (x : TimeBase) : (s.setTb x).pending = s.pending := rfl
@[simp] theorem State.setTb_identity' (x : TimeBase) : (s.setTb x).identity = s.identity := rfl
@[simp] theorem State.setTb_schedule' (x : TimeBase) : (s.setTb x).schedule = s.schedule := rfl
@[simp] theorem State.setTb_sampling' (x : TimeBase) : (s.setTb x).sampling = s.sampling := rfl
@[simp] theorem State.setTb_instrument' (x : TimeBase) : (s.setTb x).instrument = s.instrument := rfl
@[simp] theorem State.setTb_tide' (x : TimeBase) : (s.setTb x).tide = s.tide := rfl
@[simp] theorem State.setTb_baseTerm' (x : TimeBase) : (s.setTb x).baseTerm = s.baseTerm := rfl
@[simp] theorem State.setTb_driftCfg' (x : TimeBase) : (s.setTb x).driftCfg = s.driftCfg := rfl
@[simp] theorem State.setTb_homeCfg' (x : TimeBase) : (s.setTb x).homeCfg = s.homeCfg := rfl
@[simp] theorem State.setTb_isBase' (x : TimeBase) : (s.setTb x).isBase = s.isBase := rfl
@[simp] theorem State.setTb_setTb (x y : TimeBase) : (s.setTb x).setTb y = s.setTb y := rfl
@[simp] theorem State.setTb_self : s.setTb s.tb = s := rfl

/-! ### `setIntake` -/

@[simp] theorem State.setIntake_osc (x : Intake) : (s.setIntake x).osc = s.osc := rfl
@[simp] theorem State.setIntake_free (x : Intake) : (s.setIntake x).free = s.free := rfl
@[simp] theorem State.setIntake_node (x : Intake) : (s.setIntake x).node = s.node := rfl
@[simp] theorem State.setIntake_image (x : Intake) : (s.setIntake x).image = s.image := rfl
@[simp] theorem State.setIntake_period (x : Intake) : (s.setIntake x).period = s.period := rfl
@[simp] theorem State.setIntake_tb (x : Intake) : (s.setIntake x).tb = s.tb := rfl
@[simp] theorem State.setIntake_intake (x : Intake) : (s.setIntake x).intake = x := rfl
@[simp] theorem State.setIntake_ctl (x : Intake) : (s.setIntake x).ctl = s.ctl := rfl
@[simp] theorem State.setIntake_eng (x : Intake) : (s.setIntake x).eng = s.eng := rfl
@[simp] theorem State.setIntake_link (x : Intake) : (s.setIntake x).link = s.link := rfl
@[simp] theorem State.setIntake_peers (x : Intake) : (s.setIntake x).peers = s.peers := rfl
@[simp] theorem State.setIntake_port (x : Intake) : (s.setIntake x).port = s.port := rfl
@[simp] theorem State.setIntake_pending (x : Intake) : (s.setIntake x).pending = s.pending := rfl
@[simp] theorem State.setIntake_identity' (x : Intake) : (s.setIntake x).identity = s.identity := rfl
@[simp] theorem State.setIntake_schedule' (x : Intake) : (s.setIntake x).schedule = s.schedule := rfl
@[simp] theorem State.setIntake_sampling' (x : Intake) : (s.setIntake x).sampling = s.sampling := rfl
@[simp] theorem State.setIntake_instrument' (x : Intake) : (s.setIntake x).instrument = s.instrument := rfl
@[simp] theorem State.setIntake_tide' (x : Intake) : (s.setIntake x).tide = s.tide := rfl
@[simp] theorem State.setIntake_baseTerm' (x : Intake) : (s.setIntake x).baseTerm = s.baseTerm := rfl
@[simp] theorem State.setIntake_driftCfg' (x : Intake) : (s.setIntake x).driftCfg = s.driftCfg := rfl
@[simp] theorem State.setIntake_homeCfg' (x : Intake) : (s.setIntake x).homeCfg = s.homeCfg := rfl
@[simp] theorem State.setIntake_isBase' (x : Intake) : (s.setIntake x).isBase = s.isBase := rfl
@[simp] theorem State.setIntake_setIntake (x y : Intake) : (s.setIntake x).setIntake y = s.setIntake y := rfl
@[simp] theorem State.setIntake_self : s.setIntake s.intake = s := rfl

/-! ### `setCtl` -/

@[simp] theorem State.setCtl_osc (x : Controller) : (s.setCtl x).osc = s.osc := rfl
@[simp] theorem State.setCtl_free (x : Controller) : (s.setCtl x).free = s.free := rfl
@[simp] theorem State.setCtl_node (x : Controller) : (s.setCtl x).node = s.node := rfl
@[simp] theorem State.setCtl_image (x : Controller) : (s.setCtl x).image = s.image := rfl
@[simp] theorem State.setCtl_period (x : Controller) : (s.setCtl x).period = s.period := rfl
@[simp] theorem State.setCtl_tb (x : Controller) : (s.setCtl x).tb = s.tb := rfl
@[simp] theorem State.setCtl_intake (x : Controller) : (s.setCtl x).intake = s.intake := rfl
@[simp] theorem State.setCtl_ctl (x : Controller) : (s.setCtl x).ctl = x := rfl
@[simp] theorem State.setCtl_eng (x : Controller) : (s.setCtl x).eng = s.eng := rfl
@[simp] theorem State.setCtl_link (x : Controller) : (s.setCtl x).link = s.link := rfl
@[simp] theorem State.setCtl_peers (x : Controller) : (s.setCtl x).peers = s.peers := rfl
@[simp] theorem State.setCtl_port (x : Controller) : (s.setCtl x).port = s.port := rfl
@[simp] theorem State.setCtl_pending (x : Controller) : (s.setCtl x).pending = s.pending := rfl
@[simp] theorem State.setCtl_identity' (x : Controller) : (s.setCtl x).identity = s.identity := rfl
@[simp] theorem State.setCtl_schedule' (x : Controller) : (s.setCtl x).schedule = s.schedule := rfl
@[simp] theorem State.setCtl_sampling' (x : Controller) : (s.setCtl x).sampling = s.sampling := rfl
@[simp] theorem State.setCtl_instrument' (x : Controller) : (s.setCtl x).instrument = s.instrument := rfl
@[simp] theorem State.setCtl_tide' (x : Controller) : (s.setCtl x).tide = s.tide := rfl
@[simp] theorem State.setCtl_baseTerm' (x : Controller) : (s.setCtl x).baseTerm = s.baseTerm := rfl
@[simp] theorem State.setCtl_driftCfg' (x : Controller) : (s.setCtl x).driftCfg = s.driftCfg := rfl
@[simp] theorem State.setCtl_homeCfg' (x : Controller) : (s.setCtl x).homeCfg = s.homeCfg := rfl
@[simp] theorem State.setCtl_isBase' (x : Controller) : (s.setCtl x).isBase = s.isBase := rfl
@[simp] theorem State.setCtl_setCtl (x y : Controller) : (s.setCtl x).setCtl y = s.setCtl y := rfl
@[simp] theorem State.setCtl_self : s.setCtl s.ctl = s := rfl

/-! ### `setEng` -/

@[simp] theorem State.setEng_osc (x : Engine) : (s.setEng x).osc = s.osc := rfl
@[simp] theorem State.setEng_free (x : Engine) : (s.setEng x).free = s.free := rfl
@[simp] theorem State.setEng_node (x : Engine) : (s.setEng x).node = s.node := rfl
@[simp] theorem State.setEng_image (x : Engine) : (s.setEng x).image = s.image := rfl
@[simp] theorem State.setEng_period (x : Engine) : (s.setEng x).period = s.period := rfl
@[simp] theorem State.setEng_tb (x : Engine) : (s.setEng x).tb = s.tb := rfl
@[simp] theorem State.setEng_intake (x : Engine) : (s.setEng x).intake = s.intake := rfl
@[simp] theorem State.setEng_ctl (x : Engine) : (s.setEng x).ctl = s.ctl := rfl
@[simp] theorem State.setEng_eng (x : Engine) : (s.setEng x).eng = x := rfl
@[simp] theorem State.setEng_link (x : Engine) : (s.setEng x).link = s.link := rfl
@[simp] theorem State.setEng_peers (x : Engine) : (s.setEng x).peers = s.peers := rfl
@[simp] theorem State.setEng_port (x : Engine) : (s.setEng x).port = s.port := rfl
@[simp] theorem State.setEng_pending (x : Engine) : (s.setEng x).pending = s.pending := rfl
@[simp] theorem State.setEng_identity' (x : Engine) : (s.setEng x).identity = s.identity := rfl
@[simp] theorem State.setEng_schedule' (x : Engine) : (s.setEng x).schedule = s.schedule := rfl
@[simp] theorem State.setEng_sampling' (x : Engine) : (s.setEng x).sampling = s.sampling := rfl
@[simp] theorem State.setEng_instrument' (x : Engine) : (s.setEng x).instrument = s.instrument := rfl
@[simp] theorem State.setEng_tide' (x : Engine) : (s.setEng x).tide = s.tide := rfl
@[simp] theorem State.setEng_baseTerm' (x : Engine) : (s.setEng x).baseTerm = s.baseTerm := rfl
@[simp] theorem State.setEng_driftCfg' (x : Engine) : (s.setEng x).driftCfg = s.driftCfg := rfl
@[simp] theorem State.setEng_homeCfg' (x : Engine) : (s.setEng x).homeCfg = s.homeCfg := rfl
@[simp] theorem State.setEng_isBase' (x : Engine) : (s.setEng x).isBase = s.isBase := rfl
@[simp] theorem State.setEng_setEng (x y : Engine) : (s.setEng x).setEng y = s.setEng y := rfl
@[simp] theorem State.setEng_self : s.setEng s.eng = s := rfl

/-! ### `setLink` -/

@[simp] theorem State.setLink_osc (x : PeerLink) : (s.setLink x).osc = s.osc := rfl
@[simp] theorem State.setLink_free (x : PeerLink) : (s.setLink x).free = s.free := rfl
@[simp] theorem State.setLink_node (x : PeerLink) : (s.setLink x).node = s.node := rfl
@[simp] theorem State.setLink_image (x : PeerLink) : (s.setLink x).image = s.image := rfl
@[simp] theorem State.setLink_period (x : PeerLink) : (s.setLink x).period = s.period := rfl
@[simp] theorem State.setLink_tb (x : PeerLink) : (s.setLink x).tb = s.tb := rfl
@[simp] theorem State.setLink_intake (x : PeerLink) : (s.setLink x).intake = s.intake := rfl
@[simp] theorem State.setLink_ctl (x : PeerLink) : (s.setLink x).ctl = s.ctl := rfl
@[simp] theorem State.setLink_eng (x : PeerLink) : (s.setLink x).eng = s.eng := rfl
@[simp] theorem State.setLink_link (x : PeerLink) : (s.setLink x).link = x := rfl
@[simp] theorem State.setLink_peers (x : PeerLink) : (s.setLink x).peers = s.peers := rfl
@[simp] theorem State.setLink_port (x : PeerLink) : (s.setLink x).port = s.port := rfl
@[simp] theorem State.setLink_pending (x : PeerLink) : (s.setLink x).pending = s.pending := rfl
@[simp] theorem State.setLink_identity' (x : PeerLink) : (s.setLink x).identity = s.identity := rfl
@[simp] theorem State.setLink_schedule' (x : PeerLink) : (s.setLink x).schedule = s.schedule := rfl
@[simp] theorem State.setLink_sampling' (x : PeerLink) : (s.setLink x).sampling = s.sampling := rfl
@[simp] theorem State.setLink_instrument' (x : PeerLink) : (s.setLink x).instrument = s.instrument := rfl
@[simp] theorem State.setLink_tide' (x : PeerLink) : (s.setLink x).tide = s.tide := rfl
@[simp] theorem State.setLink_baseTerm' (x : PeerLink) : (s.setLink x).baseTerm = s.baseTerm := rfl
@[simp] theorem State.setLink_driftCfg' (x : PeerLink) : (s.setLink x).driftCfg = s.driftCfg := rfl
@[simp] theorem State.setLink_homeCfg' (x : PeerLink) : (s.setLink x).homeCfg = s.homeCfg := rfl
@[simp] theorem State.setLink_isBase' (x : PeerLink) : (s.setLink x).isBase = s.isBase := rfl
@[simp] theorem State.setLink_setLink (x y : PeerLink) : (s.setLink x).setLink y = s.setLink y := rfl
@[simp] theorem State.setLink_self : s.setLink s.link = s := rfl

/-! ### `setPeers` -/

@[simp] theorem State.setPeers_osc (x : PeerTable) : (s.setPeers x).osc = s.osc := rfl
@[simp] theorem State.setPeers_free (x : PeerTable) : (s.setPeers x).free = s.free := rfl
@[simp] theorem State.setPeers_node (x : PeerTable) : (s.setPeers x).node = s.node := rfl
@[simp] theorem State.setPeers_image (x : PeerTable) : (s.setPeers x).image = s.image := rfl
@[simp] theorem State.setPeers_period (x : PeerTable) : (s.setPeers x).period = s.period := rfl
@[simp] theorem State.setPeers_tb (x : PeerTable) : (s.setPeers x).tb = s.tb := rfl
@[simp] theorem State.setPeers_intake (x : PeerTable) : (s.setPeers x).intake = s.intake := rfl
@[simp] theorem State.setPeers_ctl (x : PeerTable) : (s.setPeers x).ctl = s.ctl := rfl
@[simp] theorem State.setPeers_eng (x : PeerTable) : (s.setPeers x).eng = s.eng := rfl
@[simp] theorem State.setPeers_link (x : PeerTable) : (s.setPeers x).link = s.link := rfl
@[simp] theorem State.setPeers_peers (x : PeerTable) : (s.setPeers x).peers = x := rfl
@[simp] theorem State.setPeers_port (x : PeerTable) : (s.setPeers x).port = s.port := rfl
@[simp] theorem State.setPeers_pending (x : PeerTable) : (s.setPeers x).pending = s.pending := rfl
@[simp] theorem State.setPeers_identity' (x : PeerTable) : (s.setPeers x).identity = s.identity := rfl
@[simp] theorem State.setPeers_schedule' (x : PeerTable) : (s.setPeers x).schedule = s.schedule := rfl
@[simp] theorem State.setPeers_sampling' (x : PeerTable) : (s.setPeers x).sampling = s.sampling := rfl
@[simp] theorem State.setPeers_instrument' (x : PeerTable) : (s.setPeers x).instrument = s.instrument := rfl
@[simp] theorem State.setPeers_tide' (x : PeerTable) : (s.setPeers x).tide = s.tide := rfl
@[simp] theorem State.setPeers_baseTerm' (x : PeerTable) : (s.setPeers x).baseTerm = s.baseTerm := rfl
@[simp] theorem State.setPeers_driftCfg' (x : PeerTable) : (s.setPeers x).driftCfg = s.driftCfg := rfl
@[simp] theorem State.setPeers_homeCfg' (x : PeerTable) : (s.setPeers x).homeCfg = s.homeCfg := rfl
@[simp] theorem State.setPeers_isBase' (x : PeerTable) : (s.setPeers x).isBase = s.isBase := rfl
@[simp] theorem State.setPeers_setPeers (x y : PeerTable) : (s.setPeers x).setPeers y = s.setPeers y := rfl
@[simp] theorem State.setPeers_self : s.setPeers s.peers = s := rfl

/-! ### `setPort` -/

@[simp] theorem State.setPort_osc (x : Port) : (s.setPort x).osc = s.osc := rfl
@[simp] theorem State.setPort_free (x : Port) : (s.setPort x).free = s.free := rfl
@[simp] theorem State.setPort_node (x : Port) : (s.setPort x).node = s.node := rfl
@[simp] theorem State.setPort_image (x : Port) : (s.setPort x).image = s.image := rfl
@[simp] theorem State.setPort_period (x : Port) : (s.setPort x).period = s.period := rfl
@[simp] theorem State.setPort_tb (x : Port) : (s.setPort x).tb = s.tb := rfl
@[simp] theorem State.setPort_intake (x : Port) : (s.setPort x).intake = s.intake := rfl
@[simp] theorem State.setPort_ctl (x : Port) : (s.setPort x).ctl = s.ctl := rfl
@[simp] theorem State.setPort_eng (x : Port) : (s.setPort x).eng = s.eng := rfl
@[simp] theorem State.setPort_link (x : Port) : (s.setPort x).link = s.link := rfl
@[simp] theorem State.setPort_peers (x : Port) : (s.setPort x).peers = s.peers := rfl
@[simp] theorem State.setPort_port (x : Port) : (s.setPort x).port = x := rfl
@[simp] theorem State.setPort_pending (x : Port) : (s.setPort x).pending = s.pending := rfl
@[simp] theorem State.setPort_identity' (x : Port) : (s.setPort x).identity = s.identity := rfl
@[simp] theorem State.setPort_schedule' (x : Port) : (s.setPort x).schedule = s.schedule := rfl
@[simp] theorem State.setPort_sampling' (x : Port) : (s.setPort x).sampling = s.sampling := rfl
@[simp] theorem State.setPort_instrument' (x : Port) : (s.setPort x).instrument = s.instrument := rfl
@[simp] theorem State.setPort_tide' (x : Port) : (s.setPort x).tide = s.tide := rfl
@[simp] theorem State.setPort_baseTerm' (x : Port) : (s.setPort x).baseTerm = s.baseTerm := rfl
@[simp] theorem State.setPort_driftCfg' (x : Port) : (s.setPort x).driftCfg = s.driftCfg := rfl
@[simp] theorem State.setPort_homeCfg' (x : Port) : (s.setPort x).homeCfg = s.homeCfg := rfl
@[simp] theorem State.setPort_isBase' (x : Port) : (s.setPort x).isBase = s.isBase := rfl
@[simp] theorem State.setPort_setPort (x y : Port) : (s.setPort x).setPort y = s.setPort y := rfl
@[simp] theorem State.setPort_self : s.setPort s.port = s := rfl

end Sys2Proof.Machine
end

