-- ==== Sys2Proof/Laws/Frames.lean ====
section
/-! SUPPORT. For each shared operation, once, the blocks whose state it can replace: everything else of the node is as it
was. Proofs cite these and unfold nothing. -/

namespace Sys2Proof.Machine

variable {s : State}

/-! ### The logger port -/

/-- Offering notices replaces the port alone, by offering them to it in turn. -/
theorem State.offerAll_eq (s : State) (bs : List NoticeBody) :
    s.offerAll bs = s.setPort (bs.foldl Port.offer s.port) := by
  unfold State.offerAll
  induction bs generalizing s with
  | nil => rfl
  | cons b bs ih => exact ih (s.offer b)

/-- An answer given without acting replaces the port alone: BUSY under a reply owed, else the answer. -/
theorem State.answerOrBusy_eq (s : State) (kind seq : Byte) (r : Reply) :
    s.answerOrBusy kind seq r
      = s.setPort (if s.port.owed then s.port.answerBusy kind seq else s.port.answer kind seq r) := by
  unfold State.answerOrBusy
  split <;> rfl

/-- What a request frame can do: BUSY, FORMAT or STATE with nothing else changed, or its handler's effect and answer. -/
theorem State.request_cases (s : State) (kind : Nat) (allowed : NodeState → Bool) (handler : State → State × Reply)
    (seq : Byte) (payload : List Byte) :
    (s.port.owed = true
        ∧ s.request kind allowed handler seq payload
          = s.setPort (({ s.port with rx := [] } : Port).answerBusy (BitVec.ofNat 8 kind) seq))
      ∨ (s.port.owed = false ∧ payloadLengthOk kind payload = false
        ∧ s.request kind allowed handler seq payload
          = s.setPort (({ s.port with rx := [] } : Port).answer (BitVec.ofNat 8 kind) seq .format))
      ∨ (s.port.owed = false ∧ payloadLengthOk kind payload = true ∧ allowed s.node = false
        ∧ s.request kind allowed handler seq payload
          = s.setPort (({ s.port with rx := [] } : Port).answer (BitVec.ofNat 8 kind) seq .state))
      ∨ (s.port.owed = false ∧ payloadLengthOk kind payload = true ∧ allowed s.node = true
        ∧ s.request kind allowed handler seq payload
          = (handler (s.setPort { s.port with rx := [] })).1.answer (BitVec.ofNat 8 kind) seq
              (handler (s.setPort { s.port with rx := [] })).2) := by
  have howed : Port.owed { s.port with rx := [] } = s.port.owed := rfl
  unfold State.request
  by_cases h1 : s.port.owed = true
  · left; simp [h1, howed]
  · by_cases h2 : payloadLengthOk kind payload = true
    · by_cases h3 : allowed s.node = true
      · right; right; right; simp_all
      · right; right; left; simp_all [State.answer]
    · right; left; simp_all [State.answer]

/-! ### The reduction engine -/

/-- An event of the reduction engine replaces the engine and the port. -/
theorem State.engineEvent_eq (s : State) (f : Work → Work) :
    s.engineEvent f
      = (s.setEng { s.eng with
          log := closeLog s.eng.log (f s.eng.work).log
          waiting := (f s.eng.work).waiting
          loops := (f s.eng.work).loops }).setPort
        ((loopNotices s.eng.work (f s.eng.work)
          ++ resultNotices s.eng.log (closeLog s.eng.log (f s.eng.work).log)).foldl Port.offer s.port) := by
  unfold State.engineEvent
  rw [State.offerAll_eq]
  rfl

/-- A hand-off replaces the engine and the port. -/
theorem State.handOff_frame (s : State) (h : HandOff) : ∃ e p, s.handOff h = (s.setEng e).setPort p := by
  unfold State.handOff
  split
  · exact ⟨_, s.port, (State.setPort_self _).symm⟩
  · split
    · exact ⟨_, s.port, (State.setPort_self _).symm⟩
    · exact ⟨_, _, s.engineEvent_eq _⟩

/-- An OBS at the transmit queue replaces the queue and the port. -/
theorem State.queueObs_frame (s : State) (o : Obs) :
    ∃ p, s.queueObs o = (s.setLink { s.link with txq := appendObs s.link.txq o }).setPort p := by
  unfold State.queueObs
  simp only
  split
  · exact ⟨_, rfl⟩
  · exact ⟨s.port, rfl⟩

/-- A REV at the transmit queue replaces the queue and the port. -/
theorem State.queueRev_frame (s : State) (r : Rev) :
    ∃ p, s.queueRev r = (s.setLink { s.link with txq := placeRev s.link.txq r }).setPort p := by
  unfold State.queueRev
  simp only
  split
  · exact ⟨_, rfl⟩
  · exact ⟨s.port, rfl⟩

/-- OBS production replaces the controller's flags, the engine, the transmit queue and the port. -/
theorem State.produceObs_frame (s : State) (sums : Sums) :
    (∃ f, (s.produceObs sums).ctl = { s.ctl with flags := f })
      ∧ ((s.produceObs sums).link = s.link
        ∨ ∃ o, (s.produceObs sums).link = { s.link with txq := appendObs s.link.txq o })
      ∧ s.produceObs sums
        = (((s.setCtl (s.produceObs sums).ctl).setEng (s.produceObs sums).eng).setLink
            (s.produceObs sums).link).setPort (s.produceObs sums).port := by
  unfold State.produceObs
  simp only
  split
  · exact ⟨⟨_, rfl⟩, .inl rfl, rfl⟩
  · unfold State.queueObs
    simp only
    split
    · exact ⟨⟨_, rfl⟩, .inr ⟨_, rfl⟩, rfl⟩
    · exact ⟨⟨_, rfl⟩, .inr ⟨_, rfl⟩, rfl⟩

/-! ### The occupation controller -/

/-- An ending replaces the intake, the controller, which is then IDLE, the engine and the port. -/
theorem State.endOccupation_frame (s : State) (reason : Option AbortReason) (flag : RecordFlags → RecordFlags)
    (endTime : Nat) :
    ∃ e p, s.endOccupation reason flag endTime
      = (((s.setIntake s.intake.shut).setCtl
          ({ s.ctl with flags := flag s.ctl.flags }.pulse s.osc).toIdle).setEng e).setPort p := by
  unfold State.endOccupation
  simp only
  obtain ⟨e, p, h⟩ := State.handOff_frame
    (((s.setIntake s.intake.shut).setCtl ({ s.ctl with flags := flag s.ctl.flags }.pulse s.osc)).offer
      (({ s.ctl with flags := flag s.ctl.flags }.pulse s.osc).handOff reason endTime).notice)
    (({ s.ctl with flags := flag s.ctl.flags }.pulse s.osc).handOff reason endTime)
  refine ⟨e.endCycle, p, ?_⟩
  simp only [State.setCtl_ctl, State.setIntake_ctl, State.setIntake_osc] at h ⊢
  rw [h]
  rfl

/-- An opening of the intake replaces the intake and the controller, which is then RECORDING. -/
theorem State.openIntake_frame (s : State) (mode : ContMode) (first : Bool) :
    ∃ i c, c.state = .recording ∧ s.openIntake mode first = (s.setIntake i).setCtl c :=
  ⟨_, _, rfl, rfl⟩

/-- The settle test leaves everything, or opens the intake. -/
theorem State.settleIfDue_frame (s : State) :
    s.settleIfDue = s ∨ ∃ i c, c.state = .recording ∧ s.settleIfDue = (s.setIntake i).setCtl c := by
  unfold State.settleIfDue State.settle
  split
  · exact .inr (State.openIntake_frame ..)
  · exact .inl rfl

/-- A start replaces the intake and the controller. -/
theorem State.beginOccupation_frame (s : State) (h : Header) (k : Option Nat) :
    ∃ i c, s.beginOccupation h k = (s.setIntake i).setCtl c := by
  unfold State.beginOccupation
  rcases State.settleIfDue_frame (s.setCtl _) with h | ⟨i, c, -, h⟩
  · exact ⟨s.intake, _, h⟩
  · exact ⟨i, c, h⟩

/-! ### The peer table and the peer link -/

/-- A HEAD taken replaces the peer table and the port. -/
theorem State.takeHead_frame (s : State) (e : PeerEntry) (before : Option PeerState) (h : Head) :
    s.takeHead e before h = (s.setPeers (s.takeHead e before h).peers).setPort (s.takeHead e before h).port := by
  simp only [State.takeHead]
  split <;> rfl

/-- A HEAD's verdict replaces the peer table and the port. -/
theorem State.judgeHead_frame (s : State) (h : Head) :
    (s.judgeHead h).1 = (s.setPeers (s.judgeHead h).1.peers).setPort (s.judgeHead h).1.port := by
  unfold State.judgeHead
  split
  · rfl
  · split
    · split
      · rfl
      · exact State.takeHead_frame s (PeerEntry.identify { id := h.sender } h) none h
    · rename_i e _
      split
      · rfl
      · exact State.takeHead_frame s (e.identify h) (some .unheard) h
      · split
        · exact State.takeHead_frame s e (some .live) h
        · rfl
      · split
        · exact State.takeHead_frame s e (some .silent) h
        · rfl

/-- The silence counting of one entry replaces the peer table and the port. -/
theorem countOne_frame (w : State × List FoldChange) (e : PeerEntry) :
    (countOne w e).1 = (w.1.setPeers (countOne w e).1.peers).setPort (countOne w e).1.port := by
  unfold countOne
  simp only
  split <;> rfl

/-- What a folded record leaves replaces the peer table and the port. -/
theorem State.putFolding_frame (s : State) (n : RingNo) (f : Folding) :
    s.putFolding n f = (s.setPeers (s.putFolding n f).peers).setPort (s.putFolding n f).port := by
  unfold State.putFolding
  simp only
  split <;> split <;> rfl

/-- The fold of one record replaces the peer table and the port. -/
theorem foldRecord_frame (w : State × List FoldChange) (x : Nat × PeerRecord) :
    (foldRecord w x).1 = (w.1.setPeers (foldRecord w x).1.peers).setPort (foldRecord w x).1.port := by
  unfold foldRecord
  split
  · rfl
  · simp only
    split
    · rfl
    · split
      · rfl
      · exact State.putFolding_frame ..

/-- A run of state changes, each of which replaces the peer table and the port, replaces them. -/
theorem foldl_peers_frame {α : Type} (f : State × List FoldChange → α → State × List FoldChange)
    (hf : ∀ w a, (f w a).1 = (w.1.setPeers (f w a).1.peers).setPort (f w a).1.port) (l : List α)
    (w : State × List FoldChange) :
    ∃ t p, (l.foldl f w).1 = (w.1.setPeers t).setPort p := by
  induction l generalizing w with
  | nil => exact ⟨w.1.peers, w.1.port, rfl⟩
  | cons a l ih =>
    obtain ⟨t, p, h⟩ := ih (f w a)
    exact ⟨t, p, by rw [List.foldl_cons, h, hf w a]; rfl⟩

/-- The store's work at a cycle end replaces the peer table and the port. -/
theorem State.foldAll_frame (s : State) (records : List (Nat × PeerRecord)) :
    ∃ t p, (s.foldAll records).1 = (s.setPeers t).setPort p := by
  obtain ⟨t, p, h⟩ := foldl_peers_frame foldRecord foldRecord_frame records s.countSilence
  obtain ⟨t', p', h'⟩ := foldl_peers_frame countOne countOne_frame s.peers.entries (s, [])
  exact ⟨t, p, by rw [State.foldAll, h]; unfold State.countSilence; rw [h']; rfl⟩

/-- A cycle-end event empties the inbound queue and replaces the peer table, the engine and the port. -/
theorem State.cycleEnd_frame (s : State) :
    ∃ t e p, s.cycleEnd = (((s.setLink { s.link with inq := [] }).setPeers t).setEng e).setPort p := by
  unfold State.cycleEnd State.foldEvent
  simp only
  obtain ⟨t, p, h⟩ := (s.setLink { s.link with inq := [] }).foldAll_frame s.link.inq
  rw [State.engineEvent_eq, h]
  exact ⟨t, _, _, rfl⟩

/-- A cycle start sets the reception aside, besides, and does what a waiting receive mask asks. -/
theorem State.cycleStart_frame (s : State) :
    ∃ t e p, s.cycleStart
      = (((s.setLink (PeerLink.setAside { s.link with inq := [] } s.osc).adoptMask).setPeers t).setEng e).setPort p := by
  unfold State.cycleStart
  obtain ⟨t, e, p, h⟩ := s.cycleEnd_frame
  exact ⟨t, e, p, by rw [h]; rfl⟩

/-- A time step at the link replaces the link, the peer table, the engine and the port. -/
theorem State.stepAtLink_frame (s : State) :
    ∃ l t e p, s.stepAtLink = (((s.setLink l).setPeers t).setEng e).setPort p := by
  obtain ⟨t, e, p, h⟩ := (s.setLink s.link.abandonBurst).cycleStart_frame
  unfold State.stepAtLink
  split
  · simp only
    split
    · exact ⟨s.link.abandonBurst.joinSlot s.schedule s.tb.nodeTime, s.peers, s.eng, s.port, rfl⟩
    · refine ⟨(PeerLink.setAside { s.link.abandonBurst with inq := [] } s.osc).adoptMask.joinSlot s.schedule
        s.tb.nodeTime, t, e, p, ?_⟩
      rw [h]
      rfl
  · exact ⟨s.link, s.peers, s.eng, s.port, rfl⟩

/-! ### The time base -/

/-- A change of the time-base state replaces it, the slot of the last burst, a TIME_SUSPECT flag and the port. -/
theorem State.changeTb_eq (s : State) (after : TbState) (step : Int) :
    s.changeTb after step
      = (((s.setTb { s.tb with state := after }).setLink (s.link.takeTbState after)).setCtl
          (if decide (s.tb.state = .lost) ≠ decide (after = .lost) then s.ctl.suspect else s.ctl)).setPort
        (s.port.offer (.timeState s.tb.state after s.tb.nodeTime step)) := by
  unfold State.changeTb
  simp only
  split <;> rfl

end Sys2Proof.Machine
end

