-- ==== Sys2Proof/Laws/Requests.lean ====
section
/-! SUPPORT. A request frame from its checks to its answer, once for all twenty; what the receiver's return to HUNTING leaves;
notices against the frame receiver's bytes; and the aborted ending in the statements' terms. -/

namespace Sys2Proof.Machine

variable (s : State)

/-! ### The receiver back in HUNTING -/

@[simp] theorem State.hunting_osc : s.hunting.osc = s.osc := rfl
@[simp] theorem State.hunting_node : s.hunting.node = s.node := rfl
@[simp] theorem State.hunting_image : s.hunting.image = s.image := rfl
@[simp] theorem State.hunting_tb : s.hunting.tb = s.tb := rfl
@[simp] theorem State.hunting_intake : s.hunting.intake = s.intake := rfl
@[simp] theorem State.hunting_ctl : s.hunting.ctl = s.ctl := rfl
@[simp] theorem State.hunting_eng : s.hunting.eng = s.eng := rfl
@[simp] theorem State.hunting_link : s.hunting.link = s.link := rfl
@[simp] theorem State.hunting_peers : s.hunting.peers = s.peers := rfl
@[simp] theorem State.hunting_identity : s.hunting.identity = s.identity := rfl
@[simp] theorem State.hunting_schedule : s.hunting.schedule = s.schedule := rfl
@[simp] theorem State.hunting_sampling : s.hunting.sampling = s.sampling := rfl
@[simp] theorem State.hunting_homeCfg : s.hunting.homeCfg = s.homeCfg := rfl
@[simp] theorem State.hunting_isBase : s.hunting.isBase = s.isBase := rfl
@[simp] theorem State.hunting_hunting : s.hunting.hunting = s.hunting := rfl
@[simp] theorem State.hunting_replied (k q : Byte) (r : Reply) : s.hunting.replied k q r = s.replied k q r := rfl

/-! ### Requests (R175, R176) -/

/-- A request that passes R175's checks under no owed reply: its handler runs on the state with the receiver HUNTING, and what
the handler answers is the reply. -/
theorem State.request_taken {s t : State} {kind : Nat} {allowed : NodeState → Bool}
    {handler : State → State × Reply} {seq : Byte} {payload : List Byte} {r : Reply}
    (owed : s.port.owed = false) (length : payloadLengthOk kind payload = true) (node : allowed s.node = true)
    (effect : handler s.hunting = (t, r)) (rx : t.hunting = t) :
    (s.request kind allowed handler seq payload).serve = t.replied (BitVec.ofNat 8 kind) seq r := by
  have owed' : ({ s.port with rx := [] } : Port).owed = false := owed
  simp only [State.request, State.setPort_port]
  rw [if_neg (by rw [owed']; decide), if_neg (by simp [length]), if_neg (by simp [State.setPort, node])]
  show ((handler s.hunting).1.answer _ seq (handler s.hunting).2).serve = _
  rw [effect]
  show (t.answer _ seq r).serve = _
  conv_lhs => rw [← rx]
  rfl

/-! ### Notices leave the frame receiver alone -/

theorem Port.append_rx (p : Port) (bytes : List Byte) (b : NoticeBody) :
    ({ p with rx := bytes } : Port).append b = { p.append b with rx := bytes } := by
  simp only [Port.append]; split <;> rfl

theorem Port.offer_rx (p : Port) (bytes : List Byte) (b : NoticeBody) :
    ({ p with rx := bytes } : Port).offer b = { p.offer b with rx := bytes } := by
  unfold Port.offer
  cases b with
  | result x => simp only; split; rfl; exact append_rx ..
  | _ => exact append_rx ..

theorem Port.offers_rx (bs : List NoticeBody) (p : Port) (bytes : List Byte) :
    bs.foldl Port.offer ({ p with rx := bytes } : Port) = { bs.foldl Port.offer p with rx := bytes } := by
  induction bs generalizing p with
  | nil => rfl
  | cons b bs ih => simp only [List.foldl_cons]; rw [Port.offer_rx, ih]

/-! ### Endings in the statements' terms (R52) -/

/-- The intake shut, as the statements write it. -/
theorem Intake.shut_eq_closed (i : Intake) : i.shut = i.closed := by
  simp only [Intake.shut, Intake.closed]
  cases h : i.isOpen <;> simp_all
  cases i; simp_all

/-- An aborted ending, as the statements write it. -/
theorem State.endOccupation_aborted (reason : AbortReason) (endTime : Nat) :
    s.endOccupation (some reason) id endTime = s.abortedBy reason endTime := by
  simp only [State.endOccupation, State.abortedBy, State.handOff, Controller.handOff, State.setIntake, State.setCtl,
    Controller.pulse, id, State.offer, State.setPort, State.setEng, HandOff.notice, State.occEnd, HandOff.bareRecord,
    State.bare, Engine.endCycle, Controller.toIdle, State.idled, Intake.shut_eq_closed]

/-- An aborted ending leaves the receiver's bytes alone. -/
theorem State.hunting_abortedBy (reason : AbortReason) (endTime : Nat) :
    s.hunting.abortedBy reason endTime = (s.abortedBy reason endTime).hunting := by
  simp only [State.abortedBy, State.hunting, State.setPort, State.occEnd, Port.offer_rx]
  rfl

end Sys2Proof.Machine
end

