-- ==== Sys2Proof/Laws/Terms.lean ====
section
/-! SUPPORT. The terms that the statements share, against the operations of the machine that they describe: proofs of the
statements cite these and unfold neither side. -/

namespace Sys2Proof.Machine

/-! ### Rounding and clamping -/

/-- Rounded division of a number that is not negative. -/
theorem roundDiv_natCast (a b : Nat) : roundDiv (a : Int) b = (roundNat a b : Int) := by
  have h : ¬ (a : Int) < 0 := by omega
  simp only [roundDiv, if_neg h, Int.natAbs_natCast]

/-- The line time of `n` bytes at the peer port. -/
theorem burstMs_eq (n : Nat) : (burstMs n : Int) = roundDiv ((n : Int) * 25) 24 := by
  rw [burstMs, ← roundDiv_natCast]; push_cast; rfl

/-- A clamp to a range that is not empty. -/
theorem clampTo_eq {lo hi : Int} (h : lo ≤ hi) (x : Int) : clampTo lo hi x = max lo (min hi x) := by
  unfold clampTo
  split
  · omega
  · split <;> omega

/-- A rate clamped to the drift rate limit. -/
theorem clampRate_eq (cfg : DriftConfig) (r : Int) :
    clampRate cfg r = max (-(cfg.rateLimit : Int)) (min cfg.rateLimit r) := clampTo_eq (by omega) r

/-! ### The gates of a frame's own arrival -/

/-- The tilt gate. -/
theorem tiltFails_eq (ins : Instrument) (f : Frame) : tiltFails ins f = f.tilted ins := by
  unfold tiltFails Frame.tilted
  congr 1 <;> exact decide_eq_decide.mpr (by rw [Int.abs_eq_natAbs]; omega)

/-- The shock gate. -/
theorem shockFails_eq (ins : Instrument) (ref : Option Int) (f : Frame) : shockFails ins ref f = f.shocked ins ref := by
  cases ref with
  | none => rfl
  | some c => exact decide_eq_decide.mpr (by rw [Int.abs_eq_natAbs]; omega)

/-- The first gate that a frame's own arrival fails. -/
theorem gate_own (ins : Instrument) (ref : Option Int) (f : Frame) :
    gate ins ref (.own f) =
      if f.status ≠ 0#3 then some .sensorStatus
      else if f.tilted ins then some .tilt
      else if f.shocked ins ref then some .shock
      else none := by
  rw [gate, tiltFails_eq, shockFails_eq]

/-- A frame's own arrival without a gap, gated and accumulated. -/
theorem Intake.accumulate_own (ins : Instrument) (stamp : Nat) (i : Intake) (f : Frame)
    (h : gapOf i.expect f.seq = 0) :
    i.accumulate ins stamp (.own f) =
      { i with
        counter := i.counter - 1, sums := f.summed ins stamp i, rejects := f.rejected ins i
        shockRef := f.reference ins i } := by
  unfold Intake.accumulate Frame.summed Frame.rejected Frame.reference Frame.accepted
  rw [gate_own, h]
  by_cases h1 : f.status = 0#3 <;> cases h2 : f.tilted ins <;> cases h3 : f.shocked ins i.shockRef <;>
    simp [h1, Rejects.add, Sums.add]

/-! ### The cycle end -/

/-- The silence counting of one entry. -/
theorem PeerEntry.countSilence_eq (limit : Nat) (e : PeerEntry) : e.countSilence limit = e.counted limit := by
  unfold PeerEntry.countSilence PeerEntry.counted
  by_cases h : e.state = .live ∨ e.state = .silent
  · have h' : (decide (e.state = .live) || decide (e.state = .silent)) = true := by simpa using h
    rw [if_pos h', if_pos h]
    cases e.heard
    · by_cases hl : e.state = .live ∧ limit ≤ min 255 (e.missed + 1)
      · simp [hl.1, hl.2]
      · have hl' : ¬ ((decide (e.state = .live) && decide (limit ≤ min 255 (e.missed + 1))) = true) := by simpa using hl
        simp only [if_neg hl, if_neg hl']
    · rfl
  · have h' : ¬ (decide (e.state = .live) || decide (e.state = .silent)) = true := by simpa using h
    rw [if_neg h', if_neg h]

/-- The link with its reception set aside at a cycle start. -/
theorem PeerLink.setAside_eq (l : PeerLink) (osc : Nat) : l.setAside osc = { l with closed := l.heldBack osc } := by
  unfold PeerLink.setAside PeerLink.heldBack
  obtain ⟨_, _, _, _, _, _, _, _, _, rx, _, _, _, _⟩ := l
  cases rx <;> rfl

/-! ### HEADs -/

/-- The identity that a HEAD sets. -/
theorem PeerEntry.identify_eq (e : PeerEntry) (h : Head) : e.identify h = e.named h := by
  simp [PeerEntry.identify, PeerEntry.named]

/-! ### Base terms -/

/-- A provisional term made final. -/
theorem BaseTerm.makeFinal_eq (m : BaseTerm) : m.makeFinal = m.madeFinal := by
  unfold BaseTerm.makeFinal BaseTerm.madeFinal
  split <;> simp_all

/-- A term that takes a selection. -/
theorem BaseTerm.take_eq (m : BaseTerm) (y : Selection) : m.take y = m.selected y := rfl

/-! ### Loops -/

/-- The rate before a loop. -/
theorem LoopTable.rateBefore_eq (t : LoopTable) (k : Nat) : t.rateBefore k = t.priorRate k := by
  unfold LoopTable.rateBefore LoopTable.priorRate
  rw [List.filter_append, List.getLast?_append]
  cases h : (t.closing.filter fun l => l.number < k).getLast? with
  | some l => simp
  | none =>
    cases hf : t.lastFrozen with
    | none => simp
    | some l => by_cases hl : l.number < k <;> simp [hl]

/-- The carry line's value. -/
theorem LoopTable.carryAt_eq (t : LoopTable) (mid : Nat) : t.carryAt mid = t.carried mid := by
  unfold LoopTable.carryAt LoopTable.carried
  cases t.carry <;> rfl

/-- A loop opened at a tie. -/
theorem LoopTable.openAt_eq (t : LoopTable) (tie : Tie) (dO : Int) (joined unmatched : Bool) :
    t.openAt tie dO joined unmatched = t.opened tie dO joined unmatched := by
  simp only [LoopTable.openAt, LoopTable.opened, LoopTable.rateBefore_eq]

/-- Whether both ties of a loop are final. -/
theorem Loop.tiesFinal_eq (l : Loop) : l.tiesFinal = l.settled := rfl

/-- The rate of a loop that its closing tie closes. -/
theorem Loop.closedBy_eq (cfg : DriftConfig) (before : Int) (l : Loop) (tie : Tie) :
    Loop.withRate cfg before { l with state := .closing, closingTie := some tie } tie = l.closedBy cfg before tie := by
  unfold Loop.withRate Loop.closedBy shortSpan
  by_cases h : (tie.mid : Int) - l.opening.mid < cfg.minLoopTime * 1000
  · simp [h]
  · simp only [h, decide_false, Bool.false_eq_true, if_false, clampRate_eq, rawRate]
    congr 2
    have : ∀ (L : Nat) (r : Int), (max (-(L : Int)) (min (L : Int) r) ≠ r) ↔ L < r.natAbs := by intro L r; omega
    exact decide_eq_decide.mpr (this _ _)

/-- A tie's copy brought up to its record. -/
theorem Tie.follow_eq (log : List Record) (k : Tie) : k.follow log = k.copied log := rfl

/-- A loop with its ties' copies brought up. -/
theorem Loop.follow_eq (log : List Record) (l : Loop) : l.follow log = l.copied log := rfl

/-- The anchor offset of a loop. -/
theorem Loop.anchorOn_eq (older : Option Loop) (l : Loop) : l.anchorOn older = l.anchored older := by
  unfold Loop.anchorOn Loop.anchored
  cases older with
  | none => rfl
  | some o =>
    simp only []
    cases l.joined <;> cases o.closingTie <;> simp [Loop.line, driftLine]

/-- A CLOSING loop's rate formed anew from its ties. -/
theorem Loop.withRate_eq (cfg : DriftConfig) (before : Int) (l : Loop) (c : Tie) (h : l.closingTie = some c) :
    Loop.withRate cfg before l c = { l.closedBy cfg before c with state := l.state } := by
  rw [← Loop.closedBy_eq]
  unfold Loop.withRate
  split <;> simp [h]

/-- The CLOSING loops formed anew. -/
theorem recompute_eq (cfg : DriftConfig) (older : Option Loop) (before : Int) (q : List Loop) :
    recompute cfg older before q = formedAnew cfg older before q := by
  induction q generalizing older before with
  | nil => rfl
  | cons l rest ih =>
    simp only [recompute, formedAnew, Loop.anchorOn_eq, ih]
    cases hc : l.closingTie with
    | none => rfl
    | some c =>
      have key := Loop.withRate_eq cfg before { l with dO := l.anchored older, closingTie := some c } c rfl
      simp only [key]

/-- The loop table carried forward after a tie value has moved. -/
theorem LoopTable.cascade_eq (cfg : DriftConfig) (t : LoopTable) :
    t.cascade cfg =
      { t with
        closing := formedAnew cfg none ((t.lastFrozen.map Loop.rate).getD 0) t.closing
        openLoop := t.openLoop.map fun o =>
          { o with
            dO := o.anchored (formedAnew cfg none ((t.lastFrozen.map Loop.rate).getD 0) t.closing).getLast?
            rate := ({ t with closing := formedAnew cfg none ((t.lastFrozen.map Loop.rate).getD 0) t.closing } :
              LoopTable).priorRate o.number } } := by
  unfold LoopTable.cascade
  cases t.lastFrozen <;> simp [recompute_eq, Loop.anchorOn_eq, LoopTable.rateBefore_eq]

/-- The loop that a record's loop number names. -/
theorem LoopTable.find_loopNo (t : LoopTable) (n : Option Nat) :
    (t.slots.find? fun l => some l.number = n) = n.bind t.find := by
  cases n with
  | none => simp
  | some k => simp [LoopTable.find]

/-- A record's D formed anew from a loop table. -/
theorem LoopTable.reformD_eq (t : LoopTable) (r : Record) :
    t.reformD r = { r with values := r.values.map fun x => { x with d := t.driftOf true r x } } := by
  unfold LoopTable.reformD LoopTable.driftOf
  obtain ⟨_, header, _, _, _, _, _, _, _, _, values, _, _, _, _⟩ := r
  cases values with
  | none => rfl
  | some x =>
    obtain ⟨mid, _, _, _, _, _, _, _, _, loopNo, d, frozen, _, _⟩ := x
    simp only [LoopTable.find_loopNo]
    cases frozen
    · cases h : loopNo.bind t.find <;> simp [h, Loop.line, driftLine]
    · simp

end Sys2Proof.Machine
end

