-- ==== Sys2Proof/WellFormed.lean ====
section
/-! DEFINITION. When a command's operands are such as the port can deliver. The machine's meanings are total: an
ill-formed command is met as the bytes or the edge it carries (log entries 6 and 7). -/

namespace Sys2Proof

/-- The twenty request kinds are 0x01 to 0x14 (R200). -/
def isRequestKind (kind : Byte) : Bool := 1 ≤ kind.toNat && kind.toNat ≤ 20

/-- A payload a logger frame can carry (R174, R200). -/
def payloadFits (payload : List Byte) : Bool := payload.length ≤ 512

/-- The operands a port can deliver with a command: a PPS pulse at least 1 µs wide and a TRIG level held for 10 ms
(R195), a sample frame of 18 bytes (R198), a HEAD of 30 and a record of 20 bytes (R199), a payload of at most 512 bytes
(R200), a kind that is no request kind for UNKNOWN_REQUEST (R175), an occupation number from 1 (R155). -/
def Instr.wellFormed : Instr → Bool
  | .powerOn => true
  | .timeRecord _ _ _ => true
  | .armedRecordExpiry => true
  | .ppsPulse w => 1000 ≤ w
  | .holdoverExpiry => true
  | .lossExpiry => true
  | .rangeEnd => true
  | .slotBoundary => true
  | .sampleFrame bs => bs.length = 18
  | .sensorByteTimeout => true
  | .silenceExpiry => true
  | .trigEdge _ held => 10 ≤ held
  | .settleExpiry => true
  | .stepWaitExpiry => true
  | .endPulseExpiry => true
  | .holdExpiry n => 1 ≤ n
  | .burstStart => true
  | .recordSent => true
  | .burstEnd => true
  | .receiverListen => true
  | .headReceived bs => bs.length = 30
  | .peerRecordReceived bs => bs.length = 20
  | .badLoggerFrame bs => bs.head? = some 0x5C#8 && 5 ≤ bs.length
  | .loggerByteTimeout => true
  | .unknownRequest k _ p => !isRequestKind k && payloadFits p
  | .outputFrameSent => true
  | .status _ p => payloadFits p
  | .setup _ p => payloadFits p
  | .run _ p => payloadFits p
  | .restart _ p => payloadFits p
  | .stage _ p => payloadFits p
  | .commit _ p => payloadFits p
  | .amend _ p => payloadFits p
  | .start _ p => payloadFits p
  | .step _ p => payloadFits p
  | .stop _ p => payloadFits p
  | .quiet _ p => payloadFits p
  | .rxmask _ p => payloadFits p
  | .drop _ p => payloadFits p
  | .restore _ p => payloadFits p
  | .reref _ p => payloadFits p
  | .finish _ p => payloadFits p
  | .readOcc _ p => payloadFits p
  | .readPeer _ p => payloadFits p
  | .readSeries _ p => payloadFits p
  | .readLoop _ p => payloadFits p

end Sys2Proof
end

