-- ==== Sys2Proof/Tests/Slice0.lean ====
section
/-! SUPPORT. Tests on single commands, their expected results taken from the manual's worked sequences and tables; a smoke test
of well-formedness; and, for each statement with hypotheses, a witness that meets them. -/

namespace Sys2Proof.Tests

open Sys2Proof Sys2Proof.Machine

/-! ### Small states -/

/-- The state a command leaves. -/
def after (c : Instr) (s : State) : State :=
  match exec c s with
  | .next t => t
  | _ => s

/-- The state a command leaves at the sensor and peer ports, whose bytes it is given. -/
def firstReply (s : State) : Option (List Byte) := s.port.line.map LineFrame.bytes

def image (role : Role) (trigger : TriggerSource) : Image :=
  { identity := some { nodeId := 14, role := role, trigger := trigger }
    schedule := some { epoch := 1300000000, slots := 8, slotLength := 500, txMask := 0x44#32, rxMask := 0xBB#32 }
    sampling := some { period := 500, blockLength := 10, minAccepted := 7, retakeLimit := 1, blockCount := 4
                       settle := 90, stepWait := 300 }
    instrument := some { scale := 65536000, offset := 0, ox := 20, oy := -30, tiltGate := 500, shockLimit := 5000
                         tempRef := 0, tempCoeff := -250, tempWindow := 5000 }
    tide := some { mode := .base, offset := 0, count := 2 }
    baseTerm := some { maxDistance := 500000, maxGap := 120, holdLimit := 600, silenceLimit := 3 }
    drift := some { on := true, rateLimit := 10000, minLoopTime := 600 }
    home := some { stepLimit := 1500, pointId := 7, easting := 1000000, northing := 2000000, height := 0 }
    constituents := [some { speed := 28984104, phase := 40000000, amplitude := 48000 },
      some { speed := 13943036, phase := 110000000, amplitude := 21000 }] ++ List.replicate 10 none }

/-- A node RUNNING in slot 3 of cycle 3,086 (chapter 1, "Worked example: slot of a given node time"). -/
def running (role : Role) (trigger : TriggerSource) : State :=
  { node := .running, image := image role trigger, period := some 500, osc := 5000
    tb := { state := .locked, nodeTime := 12345600, lastPulse := some { second := 1300012345, time := 12345000 }
            nextBoundary := some 12346000 }
    intake := { sensor := .present, silenceAt := some 10000, expect := some 42 }
    link := { inForce := some (3086, 3), rxMask := some 0xBB#32 } }

def rover : State := running .rover .command

def base : State := running .base .command

/-- A rover in STARTUP. -/
def idleRover : State :=
  { image := image .rover .command, tb := { state := .locked, nodeTime := 3700250 } }

/-- A rover header at point 4,117: a STEPPED header of the worked sequence of chapter 3, or a SPOT one. -/
def header (mode : Mode) : Header :=
  { pointId := 4117, tie := false, easting := 1050000, northing := 2010000, height := 0, tideRequest := .auto
    mode := mode, preferred := none, blockCount := some 3, settle := none, settleClamp := false }

def withCtl (s : State) (c : Controller) : State := { s with ctl := c }

/-- A rover whose occupation 7 stands in a state, with a kept-block count. -/
def occupied (mode : Mode) (st : OccState) (kept : Nat) : State :=
  withCtl rover
    { state := st, staged := some (header mode), active := some (header mode), occNumber := 7, startTime := 12200000
      k := some 3, kept := kept, sums := { n := 10 * kept, counts := 24135781 * kept, time := 123450000 * kept }
      settleAt := if st = .settling then some 12290000 else none
      stepWaitAt := if st = .waiting then some 12345600 else none
      inForce := if st = .recording then some 1 else none }

/-- The same with the intake open in opening 1, `left` arrivals to come. -/
def recording (mode : Mode) (kept left accepted : Nat) : State :=
  { occupied mode .recording kept with
    intake := { isOpen := true, mode := mode.continuation, opening := 1, counter := left, expect := some 42
                sums := { n := accepted, counts := 2413585 * accepted, time := 12345000 * accepted }
                rejects := { missing := 10 - left - accepted }, shockRef := some 2413585, sensor := .present
                silenceAt := some 5000 } }

/-- A sample frame of the worked sequence of chapter 2. -/
def frame (seq : Nat) (counts x y : Int) (status : Nat) : Frame :=
  { seq := seq, counts := counts, x := x, y := y, temp := 0, status := BitVec.ofNat 3 status }

/-! ### Well-formedness: each check refuses an ill-formed command -/

theorem test_wf_narrow_pulse : (Instr.ppsPulse 999).wellFormed = false := by decide
theorem test_wf_short_sample_frame : (Instr.sampleFrame []).wellFormed = false := by decide
theorem test_wf_brief_trigger : (Instr.trigEdge .rising 9).wellFormed = false := by decide
theorem test_wf_no_occupation : (Instr.holdExpiry 0).wellFormed = false := by decide
theorem test_wf_short_head : (Instr.headReceived [0xB1#8]).wellFormed = false := by decide
theorem test_wf_short_record : (Instr.peerRecordReceived [0xB2#8]).wellFormed = false := by decide
theorem test_wf_no_marker : (Instr.badLoggerFrame [0#8, 0#8, 0#8, 1#8, 1#8]).wellFormed = false := by decide
theorem test_wf_known_kind : (Instr.unknownRequest 0x01#8 1#8 []).wellFormed = false := by decide
theorem test_wf_long_payload : (Instr.setup 1#8 (List.replicate 513 0#8)).wellFormed = false := by decide +kernel
theorem test_wf_good : (Instr.ppsPulse 1000).wellFormed = true ∧ (Instr.trigEdge .falling 10).wellFormed = true
    ∧ (Instr.unknownRequest 0x15#8 1#8 []).wellFormed = true ∧ (Instr.status 1#8 []).wellFormed = true := by decide

/-! ### Formats (chapter 11) -/

/-- R196: over the characters "123456789" the check is 0x29B1. -/
theorem test_crc : crc16 [0x31#8, 0x32#8, 0x33#8, 0x34#8, 0x35#8, 0x36#8, 0x37#8, 0x38#8, 0x39#8] = 0x29B1#16 := by decide +kernel

/-- Chapter 11, "Worked encoding: one OBS". -/
theorem test_obs_bytes :
    (encodeRecord (.obs { series := 12, seq := 51, mid := 6060000, residual := 3530, epoch := 1, flags := 0#8 })).take 18
      = [0xB2#8, 0x0C#8, 0x00#8, 0x33#8, 0x00#8, 0x00#8, 0x00#8, 0xE0#8, 0x77#8, 0x5C#8, 0x00#8, 0x00#8, 0xCA#8, 0x0D#8,
        0x00#8, 0x00#8, 0x01#8, 0x00#8]
      ∧ intBytes 4 (-300) = [0xD4#8, 0xFE#8, 0xFF#8, 0xFF#8] := by decide

/-- R196 to R198: a frame as sent is read as it was, and one bit changed is not. -/
theorem test_frame_read :
    parseFrame (encodeFrame (frame 42 2413570 310 (-140) 0)) = some (frame 42 2413570 310 (-140) 0)
      ∧ parseFrame ((encodeFrame (frame 42 2413570 310 (-140) 0)).set 5 0xFF#8) = none := by decide +kernel

/-! ### Time (chapter 1) -/

/-- Chapter 1, "Worked example: slot of a given node time", and the slot and next boundary at RUN and at the re-lock. -/
theorem test_slot_of :
    rover.schedule.slotOf 12345600 = (3086, 3) ∧ rover.schedule.slotOf 3700250 = (925, 0)
      ∧ rover.schedule.nextBoundary 3700250 = 3700500 ∧ rover.schedule.slotOf 7950000 = (1987, 4)
      ∧ rover.schedule.nextBoundary 7950000 = 7950500 := by decide

/-- Chapter 1, "Worked sequence": the record of Second 1,300,003,600 is armed with GNSS value 3,600,000. -/
theorem test_time_record :
    (after (.timeRecord true 1300003600 true) { image := image .rover .command, osc := 7 }).tb.armed
      = some { second := 1300003600, gnss := 3600000, expiresAt := 1207 } := by decide

/-- The first pulse: LOCKED at 3,600,000, and TIME_STATE UNSET to LOCKED with step 0 goes out. -/
theorem test_first_lock :
    let s := after (.ppsPulse 1000)
      { tb := { armed := some { second := 1300003600, gnss := 3600000, expiresAt := 1207 } } }
    s.tb.state = .locked ∧ s.tb.nodeTime = 3600000
      ∧ s.port.line = some { claim := .notice, startedAt := 0
                             bytes := loggerFrame 0x81#8 1#8
                               ([0#8, 1#8] ++ leBytes 5 3600000 ++ leBytes 8 0) } := by decide +kernel

/-- The pulse of the next Second at node time 3,601,012 slews by −12. -/
theorem test_locked_pulse :
    (after (.ppsPulse 1000)
      { tb := { state := .locked, nodeTime := 3601012, lastPulse := some { second := 1300003600, time := 3600000 }
                armed := some { second := 1300003601, gnss := 3601000, expiresAt := 9 } } }).tb.slew
      = some { start := 3601012, diff := -12, elapsed := 0 } := by decide

/-- The holdover expiry at 7,202,001 and the loss expiry at 7,800,001. -/
theorem test_holdover_and_loss :
    (after .holdoverExpiry { tb := { state := .locked, nodeTime := 7202001, lastPulse := some ⟨1300007200, 7200000⟩ } }).tb.state
        = .holdover
      ∧ (after .lossExpiry { tb := { state := .holdover, nodeTime := 7800001, lastPulse := some ⟨1300007200, 7200000⟩ } }).tb.state
        = .lost
      ∧ (after .lossExpiry { tb := { state := .holdover, nodeTime := 7800000, lastPulse := some ⟨1300007200, 7200000⟩ } }).tb.state
        = .holdover := by decide

/-- R9: at the range end node time is held and the state becomes LOST. -/
theorem test_range_end :
    let s := after .rangeEnd { tb := { state := .holdover, nodeTime := 86400000000 } }
    s.tb.state = .lost ∧ s.tb.held = true := by decide

/-- R1: the armed record expires 1,200 ms after its arrival. -/
theorem test_record_expiry :
    (after .armedRecordExpiry { osc := 1200, tb := { armed := some ⟨5, 5000, 1200⟩ } }).tb.armed = none
      ∧ (after .armedRecordExpiry { osc := 1199, tb := { armed := some ⟨5, 5000, 1200⟩ } }).tb.armed = some ⟨5, 5000, 1200⟩ := by
  decide

/-- R12, R76: the boundary at 12,346,000 begins slot 4 of cycle 3,086. -/
theorem test_boundary :
    (after .slotBoundary { rover with tb := { rover.tb with nodeTime := 12346000 } }).link.inForce = some (3086, 4) := by
  decide

/-- R4: node time through a slew of −12: 1,000 ms bring 988. -/
theorem test_slew : (Slew.reading { start := 3601012, diff := -12, elapsed := 0 } 500) = 3601506
    ∧ (Slew.reading { start := 3601012, diff := -12, elapsed := 0 } 1000) = 3602000 := by decide

/-! ### Samples and occupations (chapters 2 and 3) -/

/-- Chapter 2, "Worked sequence": frame 43 is accepted and frame 47 brings two missing arrivals and one TILT. -/
theorem test_samples :
    (after (.sampleFrame (encodeFrame (frame 42 2413600 322 (-152) 0))) (recording .spot 0 9 1)).intake.sums.counts = 4827185
      ∧ (after (.sampleFrame (encodeFrame (frame 44 2413581 900 (-145) 0))) (recording .spot 0 8 2)).intake.rejects
        = { missing := 2, status := 0, tilt := 1, shock := 0 } := by decide +kernel

/-- Chapter 2: |2,420,100 − 2,413,585| = 6,515 > 5,000 fails the shock gate. -/
theorem test_shock :
    gate rover.instrument (some 2413585) (.own (frame 48 2420100 318 (-150) 0)) = some .shock
      ∧ gate rover.instrument (some 2413585) (.own (frame 44 0 0 0 4)) = some .sensorStatus := by decide

/-- R195: a sensor frame whose bytes stop for more than half of the sample period of 500 ms is discarded. -/
theorem test_sensor_timeout :
    (after .sensorByteTimeout { rover with intake := { rover.intake with rx := [1#8], rxLast := 4749 } }).intake.rx = []
      ∧ (after .sensorByteTimeout { rover with intake := { rover.intake with rx := [1#8], rxLast := 4750 } }).intake.rx
        = [1#8] := by decide

/-- R29, R51: silence aborts an occupation without a kept block, with reason SENSOR_LOST. -/
theorem test_silence :
    ((after .silenceExpiry (recording .spot 0 9 1)).eng.log.map fun r => (r.number, r.state, r.reason))
      = [(7, .aborted, some .sensorLost)] := by decide

/-- Chapter 3, "Worked sequence": the rising edge at 20,000,000 starts occupation 7, settling until 20,090,000. -/
theorem test_edge_starts :
    let s := after (.trigEdge .rising 10)
      { running .rover .lineRise with
        tb := { state := .locked, nodeTime := 20000000 }
        ctl := { staged := some (header .stepped), nextHeader := some (header .stepped), pendingMark := true
                 occNumber := 6 } }
    s.ctl.state = .settling ∧ s.ctl.occNumber = 7 ∧ s.ctl.settleAt = some 20090000 ∧ s.ctl.nextHeader = none
      ∧ s.ctl.k = some 3 := by decide

/-- Chapter 3: the settle expiry opens the intake in SINGLE_KEPT mode under opening 12. -/
theorem test_settle :
    let s := after .settleExpiry
      { occupied .stepped .settling 0 with intake := { opening := 11 } }
    s.ctl.state = .recording ∧ s.ctl.inForce = some 12 ∧ s.intake.mode = .singleKept := by decide

/-- Chapter 3: report 12 KEPT at 20,120,400 brings WAITING until 20,420,400. -/
theorem test_kept_waits :
    let s := (occupied .stepped .recording 0).takeReport
      { opening := 1, kept := true, sums := { n := 58 }, rejects := {}, endTime := 20120400 }
    s.ctl.state = .waiting ∧ s.ctl.kept = 1 ∧ s.ctl.sums.n = 58 ∧ s.ctl.stepWaitAt = some 20420400 ∧ s.ctl.inForce = none := by
  decide

/-- R54: 100 ms after an ending the END line is de-asserted. -/
theorem test_end_pulse :
    (after .endPulseExpiry { osc := 100, ctl := { endLine := true, endUntil := some 100 } }).ctl.endLine = false := by decide

/-! ### Arithmetic (chapter 4, "Worked case: one rover occupation") -/

theorem test_tilt_and_temp :
    tiltCorrection rover.instrument 320 (-150) = 512 ∧ tempCorrection rover.instrument 1240 = -3100
      ∧ meanGravity rover.instrument { n := 180, counts := 434444062 } = 2413578122 := by decide

theorem test_model_tide : modelTide rover.image 12345600 = -55888 := by decide

theorem test_bracket_value :
    Bracket.value { peer := 3, series := 12, a := ⟨1, 12300000, 1850⟩, b := some ⟨2, 12360000, 2090⟩, epoch := 0 } 12345600
      = 2032 := by decide

theorem test_drift :
    rawRate 2413580000 2413589060 10000000 14000000 = 2265 ∧ driftLine 10000000 0 2265 12345600 = 5313
      ∧ driftLine 10000000 0 2265 13100000 = 7022 := by decide

/-- Chapter 4, "Residuals through a base cycle": block 2 against G_ref 2,398,112,640. -/
theorem test_residual : rawResidual (some 2398112640) 2398114490 = (1850, 2398112640) := by decide

/-! ### The peer link and the peer table (chapters 5 and 6) -/

/-- R80: a slot of 150 ms takes 4 records, one of 200 ms or more takes 5. -/
theorem test_burst_count : burstCount 150 6 = 4 ∧ burstCount 200 6 = 5 ∧ burstCount 200 3 = 3 := by decide

/-- R79, R80: KEY is asserted at the burst start, and the slot is that of the last burst; a rover's burst is HEAD alone. -/
theorem test_burst_start :
    let s := after .burstStart { rover with link := { rover.link with inForce := some (3086, 2), burstAt := some 12345010 } }
    s.link.key = true ∧ s.link.lastBurst = some (3086, 2) ∧ (s.link.burst.map fun b => b.records) = some 0 := by decide

/-- Chapter 5, "Worked sequence": HEAD and OBS 41 are sent at 6,000,362, the burst of 110 bytes at 6,000,425, and that of 90
bytes begun at 6,001,510 at 6,001,604. -/
theorem test_record_sent :
    Burst.nextRecordAt { bytes := [], startedAt := 6000310, records := 4, sent := 0 } = some 6000362
      ∧ Burst.endAt { bytes := List.replicate 110 0#8, startedAt := 6000310, records := 4, sent := 0 } = 6000425
      ∧ Burst.endAt { bytes := List.replicate 90 0#8, startedAt := 6001510, records := 3, sent := 0 } = 6001604 := by decide

/-- R82: at the last byte KEY is de-asserted. -/
theorem test_burst_end :
    (after .burstEnd { link := { key := true, burst := some { bytes := [], startedAt := 0, records := 0, sent := 0 } } }).link.key
      = false := by decide

/-- R89: a listened slot's receiver begins to listen 5 ms into it. -/
theorem test_listen : (after .receiverListen { rover with link := { rover.link with listenAt := some 12345600 } }).link.rx
    = .listening := by decide

/-- A base's HEAD as node 3 of the worked sequences sends it. -/
def head3 : Head :=
  { sender := 3, role := .base, tbState := .locked, occState := .recording, cycle := 5000, epoch := 0, count := 4
    homeId := 7, easting := 1000000, northing := 2000000, height := 0, latestObs := 46 }

def listeningRover : State := { rover with link := { rover.link with rx := .listening } }

/-- R98, R105: an unknown base's HEAD creates its entry with ring 0, and its records are to be taken. -/
theorem test_head :
    let s := after (.headReceived (encodeHead head3)) listeningRover
    (s.peers.entries.map fun e => (e.id, e.state, e.ring)) = [(3, .live, some .r0)] ∧ s.link.rx = .inBurst 3 true 4 := by decide +kernel

/-- R91, R92: a good record under a take verdict joins the inbound queue. -/
theorem test_peer_record :
    (after (.peerRecordReceived (encodeRecord (.rev { series := 12, epoch := 1, fromSeq := 43, step := 300 })))
      { rover with link := { rover.link with rx := .inBurst 3 true 1 } }).link.inq
      = [(3, .rev { series := 12, epoch := 1, fromSeq := 43, step := 300 })] := by decide +kernel

/-- Chapter 6, "A REV heard in order": 43 and 44 are lowered by 300, the entry moves to epoch 1. -/
theorem test_fold_rev :
    let f := Folding.take
      { entry := { id := 3, series := some 12, epoch := some 0 }
        samples := [⟨42, 5925000, 1810, 0, false, false, false⟩, ⟨43, 5940000, 1850, 0, false, false, false⟩,
          ⟨44, 5955000, 1905, 0, false, false, false⟩] }
      (.rev { series := 12, epoch := 1, fromSeq := 43, step := 300 })
    f.samples.map Sample.residual = [1810, 1550, 1605] ∧ f.entry.epoch = some 1 := by decide

/-- Chapter 6, "The REV lost": an OBS one epoch above empties the ring and is placed. -/
theorem test_fold_loss :
    let f := Folding.take
      { entry := { id := 3, series := some 12, epoch := some 0 }, samples := [⟨44, 5955000, 1905, 0, false, false, false⟩] }
      (.obs { series := 12, seq := 45, mid := 5970000, residual := 1660, epoch := 1, flags := 0#8 })
    f.samples.map Sample.seq = [45] ∧ f.reset = true := by decide

/-- A base's entry of the worked selections of chapter 7. -/
def baseEntry (id : Nat) (easting northing : Int) (ring : RingNo) : PeerEntry :=
  { id := id, role := some .base, state := .live, easting := easting, northing := northing, ring := some ring
    series := some 12, epoch := some 1 }

/-- Rings 0 and 1 as the worked selections of chapter 7 give them. -/
def selecting : State :=
  { rover with peers :=
    { entries := [baseEntry 3 1000000 2000000 .r0, baseEntry 5 1300000 2100000 .r1, baseEntry 9 1800000 2400000 .r2]
      rings :=
        { r0 := { owner := some 3, samples := [⟨47, 6000000, 1760, 1, false, false, false⟩,
                    ⟨48, 6015000, 3400, 1, true, false, false⟩, ⟨50, 6045000, 3500, 1, false, false, false⟩] }
          r1 := { owner := some 5, samples := [⟨209, 6010000, 880, 0, false, false, false⟩,
                    ⟨210, 6040000, 900, 0, false, false, false⟩] }
          r2 := { owner := some 9, samples := [] } } } }

def header22 : Header := { header .spot with easting := 1120000, northing := 2050000, preferred := some 5 }

/-- Chapter 7, "Selections at a rover": occupation 21 is STEP_NEAR with R = 3,400, occupation 22 HELD with R = 900. -/
theorem test_selections :
    (select selecting (header .spot) 6010000).outcome = .stepNear ∧ (select selecting (header .spot) 6010000).r = 3400
      ∧ (select selecting header22 6050000).outcome = .held ∧ (select selecting header22 6050000).r = 900 := by decide

/-! ### The logger port (chapter 10) -/

/-- Chapter 10, "Bringing a rover into RUNNING": part 10 with A = 600,000 is refused for its third field. -/
theorem test_setup_range :
    storePart {} 10 ((Constituent.payload 2 { speed := 13943036, phase := 110000000, amplitude := 600000 }).drop 1) = .bad 3 := by
  decide

/-- Chapter 10: RUN without part 10, and RUN in UNSET. -/
theorem test_run_refusals :
    ({ image := { image .rover .command with constituents := [some ⟨1, 2, 3⟩] ++ List.replicate 11 none } } : State).runRefusal
        = some (.config 0 10)
      ∧ ({ image := image .rover .command } : State).runRefusal = some (.noTime .unset) := by decide

/-- Chapter 1, "Worked sequence": RUN at 3,700,250 gives cycle 925, slot 0. -/
theorem test_run : (after (.run 15#8 []) idleRover).link.inForce = some (925, 0)
    ∧ (after (.run 15#8 []) idleRover).node = .running := by decide

theorem test_setup : (after (.setup 1#8 (Identity.payload ⟨14, .rover, .command⟩)) {}).image.identity
    = some ⟨14, .rover, .command⟩ := by decide

/-- R179, R180: STATUS clears the flags it returns. -/
theorem test_status :
    (after (.status 1#8 []) { rover with port := { latched := { idClash := true }, changed := 8#32 } }).port.latched = {} := by
  decide

theorem test_restart : (after (.restart 1#8 []) rover).node = .startup ∧ (after (.restart 1#8 []) rover).tb.nodeTime = 12345600 := by
  decide

/-- R35, R36, R37: staged, committed, amended. -/
theorem test_stage_commit :
    (after (.stage 1#8 (stagePayload (header .stepped) none)) rover).ctl.staged = some (header .stepped)
      ∧ (after (.commit 1#8 []) (withCtl rover { staged := some (header .spot) })).ctl.pendingMark = true := by decide

theorem test_amend : (after (.amend 1#8 []) (occupied .stepped .waiting 2)).ctl.flags.headerAmended = true := by decide

theorem test_start_refused : firstReply (after (.start 5#8 []) rover)
    = some (answerFrame 0x08#8 5#8 .noHeader) := by decide +kernel

theorem test_step : (after (.step 1#8 []) (occupied .stepped .waiting 1)).ctl.state = .recording := by decide

/-- R50: STOP without a kept block aborts. -/
theorem test_stop :
    ((after (.stop 1#8 []) (occupied .spot .settling 0)).eng.log.map fun r => (r.number, r.state, r.reason))
      = [(7, .aborted, some .stopped)] := by decide

/-- R87: a count above 255 is taken as 255. -/
theorem test_quiet : (after (.quiet 1#8 [0x00#8, 0x01#8]) rover).link.quiet = 255 := by decide

/-- R88: a mask that names slot 8 of 8 is refused; one that names slots 0, 4 and 5 waits. -/
theorem test_rxmask : (after (.rxmask 1#8 (leBytes 4 0x100)) rover).link.waitingMask = none
    ∧ (after (.rxmask 1#8 (leBytes 4 0x31)) rover).link.waitingMask = some 0x31#32 := by decide

theorem test_drop : (after (.drop 1#8 [5#8]) selecting).peers.rings.r1 = {} := by decide

theorem test_restore :
    ((after (.restore 1#8 [4#8]) { rover with peers := { entries := [{ id := 4, state := .dropped }] } }).peers.entries.map
      fun e => e.state) = [.unheard] := by decide

/-- A base with home samples 41 to 43 and their OBS waiting. -/
def revising : State :=
  { base with
    eng := { gRef := some 2398112640, epoch := 0, obsCounter := 43, home := { series := some 12, samples :=
      [⟨41, 5910000, 1760, 0, false, false, false⟩, ⟨43, 5940000, 1850, 0, false, false, false⟩] } }
    link := { base.link with txq := [
      { record := .obs ⟨12, 41, 5910000, 1760, 0, 0#8⟩, inFlight := true },
      { record := .obs ⟨12, 43, 5940000, 1850, 0, 0#8⟩, inFlight := false }] } }

/-- Chapter 5: REREF from 43 by 300 places the REV behind the record in flight, and G_ref rises by 300 (chapter 4). -/
theorem test_reref :
    let s := after (.reref 1#8 (leBytes 4 43 ++ intBytes 4 300)) revising
    s.eng.gRef = some 2398112940 ∧ s.eng.epoch = 1
      ∧ (s.link.txq.map TxItem.record) = [.obs ⟨12, 41, 5910000, 1760, 0, 0#8⟩, .rev ⟨12, 1, 43, 300⟩,
          .obs ⟨12, 43, 5940000, 1550, 1, 0#8⟩] := by decide

/-- R174, R176: a frame whose check fails is answered FORMAT; R175: an unknown kind UNKNOWN. -/
theorem test_bad_frame :
    firstReply (after (.badLoggerFrame [0x5C#8, 0#8, 0#8, 1#8, 9#8, 0#8, 0#8]) rover) = some (answerFrame 1#8 9#8 .format)
      ∧ firstReply (after (.unknownRequest 0x15#8 9#8 []) rover) = some (answerFrame 0x15#8 9#8 .unknown) := by decide +kernel

/-- R174: a whole good frame at the input line is the request of its kind. -/
theorem test_good_frame :
    (after (.badLoggerFrame (loggerFrame 0x0B#8 3#8 [1#8, 0#8])) rover).link.quiet = 1 := by decide +kernel

theorem test_logger_timeout :
    firstReply (after .loggerByteTimeout
      { rover with osc := 21, port := { rx := [0x5C#8, 0#8, 0#8, 1#8, 9#8], rxLast := 0 } }) = some (answerFrame 1#8 9#8 .format) := by decide +kernel

/-- R182, R184: a notice at a full queue discards the head and latches NOTICES_LOST. -/
theorem test_notices_lost :
    let p := Port.offer { notices := List.replicate 32 ⟨7, .timeState .lost .locked 0 0⟩, counter := 255 } (.timeState .locked .lost 1 0)
    p.notices.length = 32 ∧ (p.notices.getLast?.map Notice.number) = some 0 ∧ p.latched.noticesLost = true := by decide

/-- R177: when the frame on the line has gone, the owed reply goes before the head notice. -/
theorem test_line_order :
    ((after .outputFrameSent { port := { line := some ⟨.notice, [], 0⟩, reply := some { arrival := 0, bytes := [1#8] }
                                         notices := [⟨1, .timeState .unset .locked 0 0⟩] } }).port.line.map LineFrame.claim)
      = some .reply := by decide

theorem test_power_on : (after .powerOn rover).node = .startup ∧ (after .powerOn rover).image.heldSet = 0 := by decide

/-! ### A log with a loop, for the engine's tests and witnesses -/

def values (v : Int) (final frozen : Bool) : Values :=
  { mid := 12345600, g := v, xMean := 20, yMean := -30, tMean := 0, cTilt := 0, cTemp := 0, tModel := 0
    term := { source := .base, outcome := if final then .bracketed else .held, final := final
              bracket := some { peer := 3, series := 12, a := ⟨47, 6000000, 0⟩, b := none, epoch := 1 }, r := 0
              expiry := 12345600 }
    loopNo := some 1, d := 0, driftFrozen := frozen, v := v, gRed := v }

def record (number : Nat) (tie : Bool) (state : RecState) (x : Values) : Record :=
  { number := number, header := { header .spot with tie := tie }, state := state, reason := none, startTime := 1, endTime := 2
    n := 10, kept := 1, retakes := 0, rejects := {}, values := some x, firstObs := none, lastObs := none, revisions := 0
    flags := {} }

/-- Occupation 1, the sealed opening tie of loop 1, and occupation 2, its member, pending and due. -/
def logged : State :=
  { withCtl selecting { occNumber := 2 } with
    eng :=
      { log := [record 1 true .sealed (values 2413580000 true true), record 2 false .reduced (values 2413611000 false false)]
        waiting := [{ occ := 2, mid := 12345600, expiry := 12345600 }]
        loops :=
          { openLoop := some
              { number := 1, state := .opened, joined := false
                opening := { occ := 1, pointId := 4117, mid := 12345600, v := 2413580000, final := true }
                dO := 0, closingTie := none, members := [2], rate := 0, flags := {} }
            counter := 1 } } }

/-- The same with base 3 alone in the table, its ring holding one sample 10 s before the mid-time, or none. -/
def heldBy (samples : List Sample) : State :=
  { logged with peers :=
    { entries := [baseEntry 3 1000000 2000000 .r0], rings := { r0 := { owner := some 3, samples := samples } } } }

def recent : Sample := ⟨50, 12335600, 900, 1, false, false, false⟩

/-- R130: at its hold expiry a HELD term becomes final with its sample, flagged HOLD_EXPIRED. -/
theorem test_hold_expiry :
    ((after (.holdExpiry 2) (heldBy [recent])).eng.log.map fun r =>
        (r.flags.holdExpired, (r.values.map fun x => (x.term.final, x.term.r)).getD (false, 0)))
      = [(false, true, 0), (true, true, 900)] ∧ (after (.holdExpiry 2) (heldBy [recent])).eng.waiting = [] := by decide

/-- R170: FINISH leaves no record REDUCED. -/
theorem test_finish : ((after (.finish 1#8 []) logged).eng.log.map Record.state) = [.sealed, .sealed] := by decide

/-- R164, R141: FINISH flags the pending member FINISHED and LOOP_ABANDONED, leaves the flags of the sealed opening tie, and sets the
carry line from the OPEN loop. -/
theorem test_finish_flags :
    ((after (.finish 1#8 []) logged).eng.log.map fun r => (r.flags.finished, r.flags.loopAbandoned)) = [(false, false), (true, true)]
      ∧ (after (.finish 1#8 []) logged).eng.loops.carry = some { time := 12345600, dO := 0, rate := 0, loopNo := 1 } := by decide

/-- The reads: occupation 2 and LATEST are one record; an unknown number, an entry and a loop. -/
theorem test_reads :
    logged.readOcc [1#8, 0#8, 0#8, 0#8, 0#8] = logged.readOcc [0#8, 2#8, 0#8, 0#8, 0#8]
      ∧ logged.readOcc [0#8, 9#8, 0#8, 0#8, 0#8] = .notFound := ⟨rfl, rfl⟩

theorem test_reads_other :
    firstReply (after (.readPeer 1#8 [4#8]) logged) = some (answerFrame 0x12#8 1#8 .notFound)
      ∧ firstReply (after (.readSeries 1#8 [32#8, 0#8, 0#8, 0#8, 0#8]) logged) = some (answerFrame 0x13#8 1#8 (.range 0 1))
      ∧ firstReply (after (.readLoop 1#8 [1#8, 0#8, 0#8, 0#8, 0#8]) logged) = some (answerFrame 0x14#8 1#8 (.range 0 2)) := by
  decide +kernel

/-! ### Witnesses: a state and operands that meet each statement's hypotheses -/

/-- A command that changes nothing, in front of the queue. -/
def stepping (s : State) : State := { s with pending := [.outputFrameSent] }

theorem witness_logSound : LogSound logged := by
  have key : ∀ r ∈ logged.eng.log, r.state = .sealed ∧ (∀ x ∈ r.values, x.term.final = true ∧ x.driftFrozen = true)
      ∨ r.state = .reduced ∧ r.values.isSome = true := by decide
  refine ⟨by decide, by decide, by decide, ?_, by decide, by decide, by unfold EntryPending; decide⟩
  intro r hr
  unfold RecordSound
  rcases key r hr with ⟨h, hx⟩ | ⟨h, hx⟩ <;> rw [h] <;> exact hx

theorem witness_recordsFormed : RecordsFormed logged := by unfold RecordsFormed; decide

theorem witness_loopsSound : LoopsSound logged := by unfold LoopsSound; decide

theorem witness_driftSound : DriftSound logged := by
  refine ⟨by decide, by decide, by decide, by decide, ?_⟩
  intro l h
  cases h

/-- An engine with no record, no pending entry and no loop is sound. -/
theorem witness_fresh {s : State} (h : s.eng = {}) : LoopsSound s ∧ DriftSound s := by
  unfold LoopsSound DriftSound TiesInStep
  rw [h]
  refine ⟨⟨?_, ?_, ?_, ?_, ?_, List.Pairwise.nil⟩, ?_, ?_, ?_, ?_, ?_⟩ <;> intro _ h <;> cases h

theorem witness_peersSound : PeersSound logged := by
  unfold PeersSound EntrySound RingSound
  refine ⟨by decide, by decide, ?_, ⟨by decide, ?_, by decide⟩, ⟨by decide, ?_, by decide⟩, ⟨by decide, ?_, by decide⟩,
    ⟨by decide, ?_, by decide⟩⟩
  · have key : ∀ e ∈ logged.peers.entries, 1 ≤ e.id ∧ e.id ≤ 31 ∧ e.id ≠ logged.identity.nodeId
        ∧ (e.state = .dropped ∨ e.state = .unheard → e.ring = none)
        ∧ (e.ring.all fun n => e.role = some .base && (logged.peers.rings.get n).owner = some e.id) = true := by decide
    intro e he
    obtain ⟨h1, h2, h3, h4, h5⟩ := key e he
    exact ⟨h1, h2, h3, h4, fun n hn => by simpa [hn] using h5⟩
  · intro id h; cases h; decide
  · intro id h; cases h; decide
  · intro id h; cases h; decide
  · intro id h; cases h

/-! The invariants' premises hold of `stepping logged`, which takes a step. -/

theorem witness_LinkKept :
    step (stepping logged) = .next logged ∧ KeyFollowsBurst (stepping logged) ∧ TransmitQueueSound (stepping logged) :=
  ⟨rfl, rfl, by unfold TransmitQueueSound; decide⟩

theorem witness_CapacitiesKept :
    step (stepping logged) = .next logged ∧ Bounded (stepping logged) ∧ LogSound (stepping logged)
      ∧ RecordsFormed (stepping logged) ∧ LoopsSound (stepping logged) ∧ DriftSound (stepping logged)
      ∧ (stepping logged).eng.log.length ≤ 512 :=
  ⟨rfl, by unfold Bounded; decide, witness_logSound, witness_recordsFormed, witness_loopsSound, witness_driftSound, by decide⟩

theorem witness_BasicsKept :
    step (stepping logged) = .next logged ∧ (stepping logged).node = .running ∧ ImageSound (stepping logged)
      ∧ NodeTimeSound (stepping logged) ∧ NoticesSound (stepping logged) :=
  ⟨rfl, rfl, by unfold ImageSound; decide, by unfold NodeTimeSound; decide,
    by decide, by decide, by decide, fun _ => Nat.zero_le 1⟩

theorem witness_NodeStatesKept :
    step (stepping logged) = .next logged ∧ StartupIdle (stepping logged) ∧ RunningSound (stepping logged) :=
  ⟨rfl, by unfold StartupIdle; decide, by unfold RunningSound; decide⟩

theorem witness_PeersKept :
    step (stepping logged) = .next logged ∧ StartupIdle (stepping logged) ∧ PeersSound (stepping logged) :=
  ⟨rfl, by unfold StartupIdle; decide, witness_peersSound⟩

theorem witness_LogKept :
    step (stepping logged) = .next logged ∧ LogSound (stepping logged) ∧ RecordsFormed (stepping logged) :=
  ⟨rfl, witness_logSound, witness_recordsFormed⟩

theorem witness_LoopsKept :
    step (stepping logged) = .next logged ∧ StartupIdle (stepping logged) ∧ LoopsSound (stepping logged) :=
  ⟨rfl, by unfold StartupIdle; decide, witness_loopsSound⟩

theorem witness_DriftKept :
    step (stepping logged) = .next logged ∧ LogSound (stepping logged) ∧ LoopsSound (stepping logged)
      ∧ DriftSound (stepping logged) :=
  ⟨rfl, witness_logSound, witness_loopsSound, witness_driftSound⟩

theorem witness_StepRunsFront : (stepping rover).pending = .outputFrameSent :: [] := rfl

theorem witness_IdleStep : rover.pending = [] ∧ (logged.eng.waiting.map PendingEntry.occ).Nodup := by decide

theorem witness_NodeTimeMoves :
    ({} : TimeBase).state = .unset ∧ ({ held := true } : TimeBase).held = true
      ∧ rover.tb.state ≠ .unset ∧ rover.tb.held = false ∧ rover.tb.slew = none ∧ rover.tb.nodeTime < 86400000000
      ∧ ({ rover.tb with nodeTime := 86399999999 } : TimeBase).nodeTime < 86400000000
      ∧ (Slew.mk 0 (-50) 0).diff.natAbs ≤ 50 ∧ (Slew.mk 7 50 0).diff.natAbs ≤ 50
      ∧ ({ rover.tb with slew := some { Slew.mk 0 (-50) 0 with elapsed := 999 } } : TimeBase).slew
        = some { Slew.mk 0 (-50) 0 with elapsed := 999 } := by decide

/-- A record armed whose GNSS value is `g`, in a state of the time base, at oscillator time 1,200. -/
def pulsed (s : State) (st : TbState) (g : Int) : State :=
  { s with osc := 1200, tb := { s.tb with state := st, armed := some { second := 1300012346, gnss := g, expiresAt := 1200 } } }

theorem witness_TimeRecords :
    ({} : State).image.schedule = none ∧ rover.image.schedule = some rover.schedule
      ∧ (pulsed rover .locked 0).tb.armed = some { second := 1300012346, gnss := 0, expiresAt := 1200 }
      ∧ (1200 : Nat) ≤ (pulsed rover .locked 0).osc := by decide

theorem witness_PulseLocks :
    (pulsed {} .unset 86399999000).tb.state = .unset ∧ (pulsed {} .unset 86399999000).tb.held = false
      ∧ (pulsed {} .unset 86399999000).tb.armed = some { second := 1300012346, gnss := 86399999000, expiresAt := 1200 }
      ∧ (pulsed rover .locked 12346000).tb.state = .locked
      ∧ (pulsed rover .locked 12346000).tb.lastPulse = some { second := 1300012345, time := 12345000 }
      ∧ (1300012346 : Nat) = 1300012345 + 1 := by decide

theorem witness_PulseNotAccepted :
    (999 : Nat) < 1000 ∧ rover.tb.armed = none ∧ ({ rover.tb with held := true } : TimeBase).held = true
      ∧ (pulsed rover .lost (-1)).tb.held = false ∧ (pulsed rover .lost (-1)).tb.state = .lost
      ∧ (pulsed rover .lost (-1)).tb.armed = some { second := 1300012346, gnss := -1, expiresAt := 1200 }
      ∧ (pulsed rover .holdover 86399999001).tb.state = .holdover
      ∧ (pulsed rover .holdover 86399999001).tb.armed
        = some { second := 1300012346, gnss := 86399999001, expiresAt := 1200 } := by decide

theorem witness_RelockBySlew :
    (pulsed rover .holdover 12345650).tb.state = .holdover ∧ (pulsed rover .lost 12345550).tb.state = .lost
      ∧ (pulsed rover .lost 12345550).tb.held = false
      ∧ (pulsed rover .lost 12345550).tb.armed = some { second := 1300012346, gnss := 12345550, expiresAt := 1200 }
      ∧ ((12345650 : Int) - rover.tb.nodeTime).natAbs ≤ 50 ∧ ((12345550 : Int) - rover.tb.nodeTime).natAbs ≤ 50 := by decide

theorem witness_RelockByStep :
    (pulsed logged .lost 12345651).tb.state = .lost ∧ (pulsed logged .lost 12345651).tb.held = false
      ∧ (pulsed logged .lost 12345651).tb.armed = some { second := 1300012346, gnss := 12345651, expiresAt := 1200 }
      ∧ 50 < ((12345651 : Int) - (pulsed logged .lost 12345651).tb.nodeTime).natAbs
      ∧ 0 < (pulsed logged .lost 12345651).baseTerm.holdLimit ∧ LogSound (pulsed logged .lost 12345651)
      ∧ (pulsed logged .lost 12345651).node = .running
      ∧ (pulsed idleRover .holdover 0).node = .startup ∧ (pulsed idleRover .holdover 0).ctl.state = .idle
      ∧ ((pulsed logged .lost 12345651).peers.entries.map PeerEntry.id).Nodup
      ∧ (pulsed logged .lost 12345651).link.inForce.map Prod.fst = some (12345651 / 4000)
      ∧ (pulsed logged .lost 12345651).schedule.slots * (pulsed logged .lost 12345651).schedule.slotLength = 4000
      ∧ (pulsed logged .lost 12345651).link.inForce.map Prod.fst ≠ some (12348000 / 4000)
      ∧ (pulsed idleRover .holdover 0).eng.waiting = [] ∧ 50 < ((0 : Int) - (pulsed idleRover .holdover 0).tb.nodeTime).natAbs
      ∧ LogSound (pulsed idleRover .holdover 0) := by
  refine ⟨rfl, rfl, rfl, by decide, by decide, witness_logSound, rfl, rfl, rfl, by decide, by decide, by decide, by decide,
    rfl, by decide, by decide, by decide, by decide, ?_, by decide, by decide, ?_⟩ <;> intro _ h <;> cases h

/-- The clauses of a re-lock by a step: expiries of the controller that fall exactly at the step, entries expired and not, and a
cycle start whose fold lists nothing. -/
theorem witness_RelockByStep_due :
    (occupied .stepped .waiting 1).ctl.stepWaitAt = some 12345600 ∧ (12345600 : Nat) ≤ 12345651
      ∧ ({ occupied .spot .settling 0 with ctl := { (occupied .spot .settling 0).ctl with settleAt := some 12345651 } } :
          State).ctl.settleAt.any (fun x => x ≤ 12345651) = true
      ∧ LogSound (pulsed (occupied .stepped .waiting 1) .lost 12345651)
      ∧ (pulsed (occupied .stepped .waiting 1) .lost 12345651).link.inForce.map Prod.fst = some (12345651 / 4000)
      ∧ (∃ e ∈ (pulsed logged .lost 12345651).eng.waiting, e.expiry ≤ 12345651)
      ∧ (∀ e ∈ (pulsed logged .lost 12345500).eng.waiting, 12345500 < e.expiry)
      ∧ 50 < ((12345500 : Int) - (pulsed logged .lost 12345500).tb.nodeTime).natAbs
      ∧ (pulsed logged .lost 12345500).link.inForce.map Prod.fst = some (12345500 / 4000)
      ∧ LoopsSound (pulsed logged .lost 12345651)
      ∧ (pulsed logged .lost 12340000).link.inForce.map Prod.fst ≠ some (12340000 / 4000)
      ∧ (pulsed logged .lost 12340000).cycleEnded.2.2.2 = [] ∧ RecordsFormed (pulsed logged .lost 12340000)
      ∧ DriftSound (pulsed logged .lost 12340000) ∧ (∀ e ∈ (pulsed logged .lost 12340000).eng.waiting, 12340000 < e.expiry)
      ∧ (∀ r ∈ logged.eng.log, ∀ x ∈ r.values, x.term.expiry ≤ 12345651) := by
  refine ⟨rfl, by decide, by decide, ⟨by decide, by decide, by decide, ?_, by decide, by decide, ?_⟩, by decide, by decide, by decide,
    by decide, by decide, witness_loopsSound, by decide, by decide, witness_recordsFormed, witness_driftSound, by decide, by decide⟩
    <;> intro _ h <;> cases h

/-- A time base at node time `t`. -/
def atTime (s : State) (t : Nat) : State := { s with tb := { s.tb with nodeTime := t } }

theorem witness_TimeExpiries :
    (atTime rover 12347001).tb.state = .locked ∧ (atTime rover 12347001).tb.lastPulse = some ⟨1300012345, 12345000⟩
      ∧ 12345000 + 2001 ≤ (atTime rover 12347001).tb.nodeTime
      ∧ (pulsed (atTime rover 12945001) .holdover 0).tb.state = .holdover
      ∧ 12345000 + 600001 ≤ (pulsed (atTime rover 12945001) .holdover 0).tb.nodeTime
      ∧ 86400000000 ≤ (atTime rover 86400000000).tb.nodeTime ∧ (atTime rover 86400000000).tb.held = false
      ∧ (pulsed (atTime rover 86400000000) .lost 0).tb.state = .lost := by decide

/-- At the start of cycle 3,087 with three records waiting: one behind its entry's epoch, one that starts a series anew, and one
of a sender without an entry. -/
def inbound : State :=
  { selecting with
    tb := { selecting.tb with nodeTime := 12348000, nextBoundary := some 12348000 }
    link := { selecting.link with inq :=
      [(3, .obs ⟨12, 51, 6060000, 3600, 0, 0#8⟩), (5, .obs ⟨12, 211, 6070000, 905, 1, 0#8⟩),
        (4, .rev ⟨12, 1, 43, 300⟩), (9, .obs ⟨13, 1, 6000000, 0, 1, 0#8⟩)] } }

theorem witness_SlotBoundaries :
    (atTime rover 12346000).node = .running ∧ (atTime rover 12346000).tb.held = false
      ∧ (atTime rover 12346000).tb.nextBoundary = some 12346000 ∧ (12346000 : Nat) ≤ (atTime rover 12346000).tb.nodeTime
      ∧ 12346000 % (rover.schedule.slots * rover.schedule.slotLength) / rover.schedule.slotLength = 4
      ∧ 12348000 % (rover.schedule.slots * rover.schedule.slotLength) / rover.schedule.slotLength = 0
      ∧ (logged.peers.entries.map PeerEntry.id).Nodup ∧ logged.link.inq = []
      ∧ (inbound.peers.entries.map PeerEntry.id).Nodup ∧ inbound.node = .running ∧ inbound.tb.held = false
      ∧ inbound.tb.nextBoundary = some 12348000 ∧ 12348000 ≤ inbound.tb.nodeTime
      ∧ (inbound.cycleEnded.1.entries.map fun e : PeerEntry => (e.id, e.discards.unused, e.discards.stale)) = [(3, 0, 1), (5, 0, 0), (9, 0, 0)]
      ∧ inbound.cycleEnded.1.rings.r1.samples.length = 3 ∧ (inbound.cycleEnded.2.1, inbound.cycleEnded.2.2.1) = (false, true)
      ∧ ({ rover.tb with nextBoundary := some 12348000 } : TimeBase).nextBoundary = some 12348000 := by decide

/-- `logged` at the start of cycle 3,087 with these records waiting. -/
def folded (q : List (Nat × PeerRecord)) : State :=
  { logged with
    tb := { logged.tb with nodeTime := 12348000, nextBoundary := some 12348000 }, link := { logged.link with inq := q } }

theorem witness_SlotBoundaries_report :
    LogSound (folded []) ∧ LoopsSound (folded []) ∧ RecordsFormed (folded []) ∧ DriftSound (folded [])
      ∧ (folded []).cycleEnded.2.2.2 = []
      ∧ (folded [(3, .rev ⟨12, 2, 43, 300⟩)]).cycleEnded.2.2.2 = [.rev 3 12 43 300 2]
      ∧ (folded [(3, .rev ⟨12, 3, 43, 300⟩)]).cycleEnded.2.2.2.filter FoldChange.acts = [.loss 3 12 3]
      ∧ (folded []).eng.waiting.length + ((folded []).eng.log.filter fun r : Record => r.state ≠ RecState.sealed
          && r.values.any fun x => x.term.bracket.any fun k => k.peer = 3 && k.series = 12).length ≤ 32 :=
  ⟨witness_logSound, witness_loopsSound, witness_recordsFormed, witness_driftSound, by decide, by decide, by decide, by decide⟩

/-- A ring of two samples under an entry of series 12 and epoch 1. -/
def folding : Folding :=
  { entry := { id := 3, series := some 12, epoch := some 1 }
    samples := [⟨1, 100, 5, 1, false, false, false⟩, ⟨5, 500, 6, 1, false, false, false⟩] }

def anObs (seq mid : Nat) : Obs := { series := 12, seq := seq, mid := mid, residual := 2000000000, epoch := 1, flags := 3#8 }

theorem witness_RecordsFolded :
    folding.entry.series = some (anObs 3 300).series ∧ folding.entry.epoch = some (anObs 3 300).epoch
      ∧ (anObs 3 300).seq ≠ 0 ∧ (anObs 3 300).mid ≤ 86399999999 ∧ (anObs 3 300).residual.natAbs ≤ 2000000000
      ∧ (anObs 3 300).flags.toNat < 4
      ∧ folding.samples.Pairwise (fun a b => a.seq < b.seq ∧ a.mid < b.mid)
      ∧ (∃ y ∈ folding.samples, y.seq = (anObs 5 0).seq)
      ∧ (∀ y ∈ folding.samples, (y.seq < 3 → y.mid < 300) ∧ (3 < y.seq → 300 < y.mid) ∧ y.seq ≠ 3)
      ∧ folding.samples.length < 128
      ∧ (∃ y ∈ folding.samples, y.seq < (anObs 3 600).seq) ∧ (∃ y ∈ folding.samples, 3 < y.seq ∧ y.mid ≤ 600)
      ∧ ({ anObs 3 300 with epoch := 0 } : Obs).epoch + 1 = 1
      ∧ (RevMark.mk 3 1 7).epoch = 1 ∧ (RevMark.mk 3 1 7).fromSeq ≤ (anObs 3 300).seq
      ∧ (anObs 3 300).seq < (RevMark.mk 4 1 7).fromSeq ∧ (RevMark.mk 4 0 7).epoch ≠ 1
      ∧ ({ anObs 3 300 with epoch := 0 } : Obs).epoch + 2 ≤ 2 ∧ 1 < ({ anObs 3 300 with epoch := 2 } : Obs).epoch
      ∧ (Rev.mk 12 1 1 7).epoch ≤ 1 ∧ (Rev.mk 12 2 1 7).epoch = 1 + 1 ∧ 1 + 1 < (Rev.mk 12 3 1 7).epoch
      ∧ (Rev.mk 12 1 1 7).epoch ≠ 0 ∧ (Rev.mk 12 1 1 7).fromSeq ≠ 0
      ∧ ({ id := 3 } : PeerEntry).series = none ∧ folding.entry.series ≠ some ({ anObs 3 300 with series := 13 } : Obs).series
      ∧ ({ anObs 3 300 with series := 13, epoch := 0 } : Obs).epoch < 1
      ∧ ({ anObs 3 300 with seq := 0 } : Obs).seq = 0 ∧ (Rev.mk 12 0 1 7).epoch = 0 := by decide

/-- A full ring: a sequence below its oldest is TOO_OLD, and one in its place evicts the oldest. -/
def fullRing : List Sample := (List.range 128).map fun i => ⟨10 + 2 * i, 1000 + 200 * i, 5, 1, false, false, false⟩

theorem witness_RecordsFolded_full :
    fullRing.length = 128 ∧ fullRing.Pairwise (fun a b => a.seq < b.seq ∧ a.mid < b.mid)
      ∧ (∀ y ∈ fullRing, (anObs 9 900).seq < y.seq) ∧ (∀ y ∈ fullRing, y.seq ≠ (anObs 11 1100).seq)
      ∧ (∃ y ∈ fullRing, y.seq < (anObs 11 1100).seq) := by decide +kernel

theorem witness_SampleFrameTaken :
    (frame 255 2147483647 (-32768) 32767 7).fits ∧ rover.intake.rx = [] ∧ rover.intake.isOpen = false
      ∧ (recording .spot 0 9 1).intake.rx = [] ∧ (recording .spot 0 9 1).intake.isOpen = true
      ∧ gapOf (recording .spot 0 9 1).intake.expect 49 + 1 < (recording .spot 0 9 1).intake.counter
      ∧ (List.replicate 14 0#8).length = 14 ∧ [0#8, 0#8] ≠ crcBytes (14#8 :: List.replicate 14 0#8) ∧ (15#8 : Byte) ≠ 14#8 := by
  unfold Frame.fits; decide +kernel

/-- R25, R27, R43: a gap of 29 ends three blocks; the second report is one retake too many for Rmax = 1 and ends the occupation, and
the third, of an opening since closed, is discarded. -/
theorem test_gap_reports :
    let s := after (.sampleFrame (encodeFrame (frame 71 0 0 0 0))) (recording .spot 0 9 1)
    s.ctl.state = .idle ∧ s.intake.isOpen = false ∧ s.intake.expect = some 72
      ∧ (s.eng.log.map fun r => (r.number, r.state, r.reason, r.rejects)) =
        [(7, .aborted, some .noisy, { missing := 19, status := 0, tilt := 0, shock := 0 })] := by decide +kernel

/-- The fold clause on that frame: its reports, each by its missing arrivals, and what the other clauses ask for. -/
theorem witness_BlockEnds_reports :
    let s := recording .spot 0 9 1
    (frame 71 0 0 0 0).fits ∧ s.intake.rx = []
      ∧ ((s.intake.takeFrame s.sampling s.instrument s.osc s.tb.nodeTime (frame 71 0 0 0 0)).2.map fun b =>
          (b.opening, b.kept, b.rejects.missing)) = [(1, false, 9), (1, false, 10), (1, false, 10)]
      ∧ gapOf s.intake.expect 49 + 1 < s.intake.counter ∧ rover.intake.isOpen = false := by
  unfold Frame.fits; decide

theorem witness_BlockEnds :
    (frame 50 0 0 0 0).fits ∧ (recording .spot 0 9 1).intake.rx = [] ∧ (recording .spot 0 9 1).intake.isOpen = true
      ∧ (recording .spot 0 9 1).intake.counter = gapOf (recording .spot 0 9 1).intake.expect 50 + 1
      ∧ (recording .spot 0 9 1).intake.expect = some 42 ∧ 0 < (recording .spot 0 9 1).intake.counter
      ∧ (recording .spot 0 9 1).intake.counter ≤ gapOf (some 42) 51 := by
  unfold Frame.fits; decide

/-- A block report of opening 1. -/
def report (kept : Bool) : BlockReport := { opening := 1, kept := kept, sums := { n := 58 }, rejects := {}, endTime := 12345600 }

/-- A base recording under opening 1. -/
def cycle : State :=
  withCtl base { state := .recording, active := some (header .spot), occNumber := 12, inForce := some 1, kept := 2 }

theorem witness_ReportTaken :
    (occupied .spot .waiting 1).ctl.inForce ≠ some (report true).opening
      ∧ (occupied .spot .recording 1).ctl.inForce = some (report true).opening ∧ (occupied .spot .recording 1).isBase = false
      ∧ (occupied .spot .recording 1).ctl.k = some 3 ∧ 1 + 1 < 3 ∧ 3 ≤ (occupied .spot .recording 2).ctl.kept + 1
      ∧ ((occupied .spot .recording 1).ctl.active.getD default).mode = .spot
      ∧ ((occupied .stepped .recording 1).ctl.active.getD default).mode = .stepped
      ∧ (occupied .spot .recording 1).ctl.retakes + 1 ≤ rover.sampling.retakeLimit
      ∧ rover.sampling.retakeLimit < ({ (occupied .spot .recording 0).ctl with retakes := 1 } : Controller).retakes + 1
      ∧ (occupied .spot .recording 0).ctl.kept = 0 ∧ (occupied .spot .recording 2).ctl.kept ≠ 0
      ∧ LogSound (occupied .spot .recording 2)
      ∧ (LoopsSound (occupied .spot .recording 2) ∧ DriftSound (occupied .spot .recording 2))
      ∧ LogSound cycle ∧ ({ cycle.ctl with k := some 3 } : Controller).k = some 3 ∧ 3 ≤ cycle.ctl.kept + 1
      ∧ cycle.ctl.kept + 1 < 4
      ∧ cycle.ctl.inForce = some (report true).opening ∧ cycle.isBase = true ∧ cycle.ctl.k = none
      ∧ (cycle.ctl.active.getD default).mode = .spot := by
  refine ⟨by decide, rfl, rfl, rfl, by decide, by decide, rfl, rfl, by decide, by decide, rfl, by decide, ?_, witness_fresh rfl, ?_,
    rfl, by decide, by decide, rfl, rfl, rfl, rfl⟩ <;>
    refine ⟨by decide, by decide, by decide, ?_, by decide, by decide, ?_⟩ <;> intro _ h <;> cases h

theorem witness_BaseBlockObs :
    (base.eng.home.series = some 0 → ∀ y, base.eng.home.samples.getLast? = some y → y.mid < 5)
      ∧ revising.eng.home.series = some 12
      ∧ (∃ y, revising.eng.home.samples.getLast? = some y ∧ y.mid < (fixedTerms revising.image { n := 1, time := 5940001 }).mid)
      ∧ (∃ y, revising.eng.home.samples.getLast? = some y ∧ (fixedTerms revising.image { n := 1, time := 5940000 }).mid ≤ y.mid)
      ∧ revising.eng.home.samples.length < 128 ∧ revising.link.txq.length < 16 ∧ ¬ fullRing.length < 128
      ∧ (withCtl revising { occNumber := 12 }).ctl.occNumber % 65536 = 12 := by
  refine ⟨fun h => (by cases h), rfl, ⟨_, rfl, by decide⟩, ⟨_, rfl, by decide⟩, by decide, by decide, by decide +kernel, by decide⟩

theorem witness_SensorLoss :
    ({ rover.intake with rx := [1#8], rxLast := 4749 } : Intake).rx ≠ []
      ∧ 4749 + (match rover.period with | some p => p / 2 | none => 50) < rover.osc
      ∧ (recording .spot 2 9 1).intake.silenceAt = some 5000 ∧ (5000 : Nat) ≤ (recording .spot 2 9 1).osc
      ∧ (recording .spot 2 9 1).intake.sensor = .present ∧ (recording .spot 2 9 1).ctl.state ≠ .idle
      ∧ (recording .spot 2 9 1).ctl.kept ≠ 0 ∧ (recording .spot 0 9 1).ctl.kept = 0
      ∧ ({ rover.intake with sensor := .absent } : Intake).sensor = .absent ∧ rover.ctl.state = .idle
      ∧ (LoopsSound (recording .spot 2 9 1) ∧ DriftSound (recording .spot 2 9 1)) ∧ LogSound (recording .spot 2 9 1) := by
  refine ⟨by decide, by decide, rfl, by decide, rfl, by decide, by decide, rfl, rfl, rfl, witness_fresh rfl, ?_⟩
  refine ⟨by decide, by decide, by decide, ?_, by decide, by decide, ?_⟩ <;> intro _ h <;> cases h

theorem witness_TiltGate :
    rover.instrument.tiltGate = 500 ∧ rover.instrument.ox = 20 ∧ |(frame 1 0 520 470 0).y - rover.instrument.oy| ≤ 500
      ∧ gate rover.instrument none (.own (frame 1 0 520 470 0)) = none
      ∧ tiltFails rover.instrument (frame 1 0 521 470 0) = true ∧ tiltFails rover.instrument (frame 1 0 (-480) 470 0) = false := by
  refine ⟨rfl, rfl, ?_, by decide, by decide, by decide⟩
  show |(470 : Int) - -30| ≤ 500
  decide

theorem witness_TiltCorrectionBound :
    [frame 1 0 520 470 0] ≠ [] ∧ ∀ f ∈ [frame 1 0 520 470 0], tiltFails rover.instrument f = false := by decide

theorem witness_RoundingAndTide :
    (0 : Nat) < 2 ∧ 2 * |(3 : Int) - (2 : Nat) * roundDiv 3 2| = (2 : Nat) ∧ (359999999 : Nat) < 360000000
      ∧ rover.image.valid = true ∧ rover.image.tide = some rover.tide
      ∧ (Sys2Proof.Machine.Bracket.mk 3 12 ⟨1, 12300000, 1850⟩ (some ⟨2, 12360000, 2090⟩) 0).b = some ⟨2, 12360000, 2090⟩
      ∧ (12300000 : Nat) ≤ 12345600 ∧ (12345600 : Nat) < 12360000 ∧ (10000000 : Nat) < 14000000 := by
  refine ⟨by decide, ?_, by decide, by decide, rfl, rfl, by decide, by decide, by decide⟩
  show 2 * |(3 : Int) - 2 * 2| = 2
  decide

/-- A node with a next header pending, under a trigger source. -/
def committed (trigger : TriggerSource) (settle : Nat) : State :=
  withCtl (running .rover trigger)
    { nextHeader := some { header .stepped with settle := some settle }, pendingMark := true, occNumber := 6 }

theorem witness_OccupationStarts :
    (committed .command 1).node = .running ∧ (committed .command 1).isBase = false ∧ (committed .command 1).ctl.state = .idle
      ∧ (committed .command 1).ctl.pendingMark = true
      ∧ (committed .command 1).ctl.nextHeader = some { header .stepped with settle := some 1 }
      ∧ (committed .command 0).ctl.nextHeader = some { header .stepped with settle := some 0 }
      ∧ (committed .command 1).identity.trigger = .command ∧ (committed .command 1).port.owed = false
      ∧ (committed .lineRise 1).identity.trigger = .lineRise ∧ (committed .lineFall 1).identity.trigger = .lineFall
      ∧ base.node = .running ∧ base.isBase = true ∧ base.ctl.state = .idle ∧ 0 < base.sampling.settle := by decide

theorem witness_TriggersRefused :
    (9 : Nat) < 10 ∧ idleRover.node = .startup ∧ rover.identity.trigger = .command
      ∧ (occupied .spot .settling 0).ctl.state = .settling ∧ (occupied .spot .recording 0).ctl.state = .recording
      ∧ (running .rover .lineRise).node = .running ∧ (running .rover .lineRise).identity.trigger = .lineRise
      ∧ (running .rover .lineFall).identity.trigger = .lineFall ∧ (running .rover .lineRise).isBase = false
      ∧ (running .rover .lineRise).ctl.state = .idle ∧ (running .rover .lineRise).ctl.pendingMark = false
      ∧ (running .rover .lineRise).identity.trigger ≠ .command ∧ rover.ctl.nextHeader = none ∧ rover.port.owed = false := by
  decide

theorem witness_IntakeOpens :
    (occupied .spot .settling 0).ctl.active = some (header .spot) ∧ (occupied .spot .settling 0).ctl.settleAt = some 12290000
      ∧ 12290000 ≤ (occupied .spot .settling 0).tb.nodeTime
      ∧ (withCtl (running .rover .lineRise) { state := .waiting }).ctl.state = .waiting
      ∧ (withCtl (running .rover .lineRise) { state := .waiting }).node = .running
      ∧ (withCtl (running .rover .lineRise) { state := .waiting }).identity.trigger = .lineRise
      ∧ base.isBase = true ∧ base.node = .running ∧ rover.ctl.state ≠ .waiting
      ∧ (occupied .stepped .waiting 1).ctl.state = .waiting ∧ (occupied .stepped .waiting 1).isBase = false := by decide

theorem witness_Endings :
    rover.ctl.state = .idle ∧ rover.node = .running ∧ rover.port.owed = false
      ∧ (occupied .spot .settling 0).ctl.state ≠ .idle ∧ (occupied .spot .settling 0).ctl.kept = 0
      ∧ (occupied .stepped .waiting 1).ctl.kept ≠ 0 ∧ (occupied .stepped .waiting 1).ctl.stepWaitAt = some 12345600
      ∧ 12345600 ≤ (occupied .stepped .waiting 1).tb.nodeTime
      ∧ (LoopsSound (occupied .stepped .waiting 1) ∧ DriftSound (occupied .stepped .waiting 1))
      ∧ LogSound (occupied .stepped .waiting 1)
      ∧ ({ osc := 100, ctl := { endUntil := some 100 } } : State).ctl.endUntil = some 100 := by
  refine ⟨rfl, rfl, rfl, by decide, rfl, by decide, rfl, by decide, witness_fresh rfl, ?_, rfl⟩
  refine ⟨by decide, by decide, by decide, ?_, by decide, by decide, ?_⟩ <;> intro _ h <;> cases h

theorem witness_StageAndAmend :
    (stagePayload (header .spot) none).length = 25 ∧ base.isBase = true ∧ rover.isBase = false
      ∧ parseHeader (stagePayload { header .spot with pointId := 0 } none) = .bad 1
      ∧ parseHeader (stagePayload (header .spot) none) = .ok (header .spot)
      ∧ rover.ctl.state = .idle ∧ (withCtl rover { state := .settling }).ctl.staged = none
      ∧ (occupied .spot .waiting 1).ctl.staged = some (header .spot) ∧ (occupied .spot .waiting 1).ctl.active = some (header .spot)
      ∧ (occupied .spot .settling 0).ctl.startTime + 90 * 1000 ≤ (occupied .spot .settling 0).tb.nodeTime
      ∧ (atTime (occupied .spot .settling 0) 12289999).tb.nodeTime < 12200000 + 90 * 1000
      ∧ (occupied .spot .waiting 1).ctl.kept < 3 ∧ 3 ≤ (occupied .spot .waiting 3).ctl.kept
      ∧ (LoopsSound (occupied .spot .waiting 3) ∧ DriftSound (occupied .spot .waiting 3))
      ∧ LogSound (occupied .spot .waiting 3) := by
  refine ⟨by decide, rfl, rfl, by decide, by decide, rfl, rfl, rfl, rfl, by decide, by decide, by decide, by decide,
    witness_fresh rfl, ?_⟩
  refine ⟨by decide, by decide, by decide, ?_, by decide, by decide, ?_⟩ <;> intro _ h <;> cases h

/-- Fields at the ends of their ranges: a point id of 999,999 with a preferred base 31 is in range, and 1,000,000 is not; of part 1, a
node id of 31 with trigger source 2 is in range, 0 is not, and 3 is not behind a role in range. -/
theorem witness_fields :
    FirstOut (StageField (stagePayload { header .spot with pointId := 1000000 } none)) 10 1
      ∧ FirstOut (StageField (stagePayload { header .spot with pointId := 999999, preferred := some 32 } none)) 10 8
      ∧ (∀ k, 1 ≤ k → k ≤ 10 → StageField (stagePayload { header .spot with pointId := 999999, preferred := some 31 } none) k)
      ∧ FirstOut (SetupField 1 [0#8, 0#8, 0#8]) (setupFields 1) 1 ∧ FirstOut (SetupField 1 [31#8, 1#8, 3#8]) (setupFields 1) 3
      ∧ (∀ k, 1 ≤ k → k ≤ setupFields 1 → SetupField 1 [31#8, 1#8, 2#8] k) := by
  refine ⟨⟨by decide, by decide, by simp only [StageField]; decide, fun j h h' => by omega⟩,
    ⟨by decide, by decide, by simp only [StageField]; decide, fun j h h' => ?_⟩, fun k h h' => ?_,
    ⟨by decide, by decide, by simp only [SetupField]; decide, fun j h h' => by omega⟩,
    ⟨by decide, by decide, by simp only [SetupField]; decide, fun j h h' => ?_⟩, fun k h h' => ?_⟩
  · interval_cases j <;> (simp only [StageField]; decide)
  · interval_cases k <;> (simp only [StageField]; decide)
  · interval_cases j <;> (simp only [SetupField]; decide)
  · rw [setupFields] at h'
    interval_cases k <;> (simp only [SetupField]; decide)

theorem witness_CommitTaken :
    rover.node = .running ∧ rover.port.owed = false ∧ base.isBase = true ∧ rover.isBase = false ∧ rover.ctl.staged = none
      ∧ (occupied .spot .waiting 1).ctl.staged = some (header .spot) := by decide

theorem witness_HoldExpiryTaken :
    LogSound logged ∧ LogSound (heldBy [recent]) ∧ LogSound (heldBy [])
      ∧ (⟨2, 12345600, 12345600⟩ : PendingEntry) ∈ logged.eng.waiting ∧ 12345600 ≤ logged.tb.nodeTime
      ∧ (select (heldBy [recent, ⟨51, 12345601, 930, 1, false, false, false⟩]) (header .spot) 12345600).final = true
      ∧ (select (heldBy [recent]) (header .spot) 12345600).outcome = .held
      ∧ (select (heldBy []) (header .spot) 12345600).outcome = .awaited :=
  ⟨witness_logSound, witness_logSound, witness_logSound, by decide, by decide, by decide, by decide, by decide⟩

theorem witness_SelectionSound :
    (select (heldBy [recent, ⟨51, 12345601, 930, 1, false, false, false⟩]) (header .spot) 12345600).outcome = .bracketed
      ∧ (select selecting (header .spot) 6010000).outcome = .stepNear
      ∧ (select (heldBy [recent]) (header .spot) 12345600).outcome = .held
      ∧ (select (heldBy []) (header .spot) 12345600).outcome = .awaited
      ∧ (select rover (header .spot) 12345600).outcome = .modelFallback
      ∧ (selecting.peers.entries.map PeerEntry.id).Nodup
      ∧ (selecting.peers.entries.map fun e : PeerEntry => e.ring.isSome) = [true, true, true]
      ∧ (∀ n, (selecting.peers.rings.get n).samples.Pairwise fun a b => a.seq < b.seq ∧ a.mid < b.mid) := by
  refine ⟨by decide, by decide, by decide, by decide, by decide, by decide, by decide, ?_⟩
  intro n
  cases n <;> decide

/-- Chapter 7, "Selections at a rover": the samples that bracket occupation 21's mid-time, and occupation 22's that holds. -/
theorem witness_SelectionSound_samples :
    Brackets selecting 6010000 (baseEntry 3 1000000 2000000 .r0) ⟨47, 6000000, 1760, 1, false, false, false⟩
        ⟨48, 6015000, 3400, 1, true, false, false⟩
      ∧ Holds selecting 6050000 (baseEntry 5 1300000 2100000 .r1) ⟨210, 6040000, 900, 0, false, false, false⟩ :=
  ⟨⟨⟨[], [⟨50, 6045000, 3500, 1, false, false, false⟩], rfl⟩, by decide, by decide, by decide⟩,
    rfl, by decide, by decide⟩

theorem witness_FinishTaken :
    logged.node = .running ∧ logged.port.owed = false ∧ (occupied .spot .waiting 1).ctl.state ≠ .idle ∧ logged.ctl.state = .idle
      ∧ LogSound logged ∧ LoopsSound logged ∧ DriftSound logged :=
  ⟨rfl, rfl, by decide, rfl, witness_logSound, witness_loopsSound, witness_driftSound⟩

/-- A burst start due in slot 2 of cycle 3,086, which the node owns. -/
def bursting (last : Option (Nat × Nat)) (quiet : Nat) : State :=
  { revising with
    tb := { revising.tb with nodeTime := 12345010, nextBoundary := some 12345500 }
    link := { revising.link with inForce := some (3086, 2), burstAt := some 12345010, lastBurst := last, quiet := quiet } }

theorem witness_BurstStartDecides :
    (bursting none 0).link.burstAt = some 12345010 ∧ 12345010 ≤ (bursting none 0).tb.nodeTime
      ∧ (bursting none 0).link.inForce = some (3086, 2) ∧ (pulsed (bursting none 0) .lost 0).tb.state = .lost
      ∧ (bursting none 0).tb.state ≠ .lost ∧ (bursting (some (3086, 2)) 0).link.lastBurst = some (3086, 2)
      ∧ (3086 = 3086 ∧ 2 ≤ 2) ∧ 0 < (bursting none 1).link.quiet ∧ (bursting none 0).link.quiet = 0
      ∧ 150 ≤ (bursting none 0).schedule.slotLength ∧ 2 ≤ (bursting none 0).link.txq.length
      ∧ (30 + 20 * 2) * 25 ≤ ((bursting none 0).schedule.slotLength - 20) * 24
      ∧ ((bursting (some (3085, 6)) 0).link.lastBurst = some (3085, 6) ∧ 3085 < 3086) := by decide

theorem witness_LinkProgress :
    let b : Burst := { bytes := List.replicate 50 0#8, startedAt := 0, records := 1, sent := 0 }
    let s : State := { revising with osc := 52, link := { revising.link with burst := some b, listenAt := some 12345600 } }
    s.link.burst = some b ∧ s.link.txq.length = 2 ∧ (s.link.txq.head?.map TxItem.inFlight) = some true ∧ b.sent < b.records
      ∧ (b.startedAt : Int) + roundDiv ((30 + 20 * (b.sent + 1)) * 25) 24 ≤ s.osc
      ∧ (b.startedAt : Int) + roundDiv (b.bytes.length * 25) 24 ≤ s.osc
      ∧ s.link.listenAt = some 12345600 ∧ 12345600 ≤ s.tb.nodeTime := by decide

theorem witness_HeadCreatesEntry :
    head3.fits ∧ listeningRover.link.rx = .listening ∧ listeningRover.link.rxBuf = []
      ∧ listeningRover.link.inForce = some (3086, 3) ∧ head3.sender ≠ listeningRover.identity.nodeId
      ∧ (∀ e ∈ listeningRover.peers.entries, e.id ≠ head3.sender) ∧ listeningRover.peers.entries.length < 8
      ∧ head3.role = .base ∧ (∃ n, (listeningRover.peers.rings.get n).owner = none)
      ∧ ({ head3 with role := .rover } : Head).fits
      ∧ (∀ c, listeningRover.link.closed = some c → c.closedAt ≠ listeningRover.osc)
      ∧ (∀ n, (Rings.get ⟨⟨some 1, []⟩, ⟨some 2, []⟩, ⟨some 4, []⟩, ⟨some 5, []⟩⟩ n).owner ≠ none) := by
  refine ⟨by unfold Head.fits; decide, rfl, rfl, rfl, by decide, by decide, by decide, rfl, ⟨.r0, rfl⟩,
    by unfold Head.fits; decide, by decide, ?_⟩
  intro n; cases n <;> decide

/-- A base's entry that found no ring free. -/
def waitingBase : PeerEntry :=
  { id := 6, role := some .base, state := .live, homeId := 7, noRing := true, epoch := some 0 }

/-- The rover of `selecting`, listening, with entry 2 dropped, entry 4 restored, and a base's entry 6 without a ring. -/
def hearing : State :=
  { selecting with
    link := { selecting.link with rx := .listening }
    peers := { selecting.peers with entries := selecting.peers.entries ++ [{ id := 2, state := .dropped }, { id := 4 }, waitingBase] } }

/-- The HEAD of base 3 with one byte put in another's place and the check over it, as a sender would send it. -/
def headWith (k : Nat) (b : Byte) : List Byte := withCrc (((encodeHead head3).take 28).set k b)

/-- R90, R197, R199: kind, sender, role, the two nibbles, occupation state and count, each at the first value that is bad. -/
theorem test_bad_heads :
    ∀ x ∈ [(0, 0xB2#8), (1, 0#8), (1, 32#8), (2, 2#8), (3, 0x10#8), (3, 0x13#8), (3, 0x01#8), (3, 0x21#8), (4, 4#8), (8, 6#8)],
      (headWith x.1 x.2).length = 30 ∧ HeadBad (headWith x.1 x.2)
        ∧ (after (.headReceived (headWith x.1 x.2)) listeningRover).link.rx = .discarding
        ∧ (after (.headReceived (headWith x.1 x.2)) listeningRover).peers.entries = [] := by
  unfold HeadBad; decide +kernel

/-- R90, R197, R199: the same fields at the last values that are good. -/
theorem test_good_heads :
    ∀ x ∈ [(1, 1#8), (1, 31#8), (2, 0#8), (3, 0x11#8), (3, 0x12#8), (4, 3#8), (8, 0#8), (8, 5#8)],
      (headWith x.1 x.2).length = 30 ∧ ¬ HeadBad (headWith x.1 x.2)
        ∧ (after (.headReceived (headWith x.1 x.2)) listeningRover).peers.entries.length = 1 := by
  unfold HeadBad; decide +kernel

/-- R196: a HEAD and a record whose check fails. -/
theorem witness_HeadJudged_check :
    ((encodeHead head3).set 28 0#8).length = 30 ∧ HeadBad ((encodeHead head3).set 28 0#8)
      ∧ ((encodeRecord (.rev ⟨12, 1, 43, 300⟩)).set 19 0#8).length = 20 ∧ RecordBad ((encodeRecord (.rev ⟨12, 1, 43, 300⟩)).set 19 0#8)
      := by
  unfold HeadBad RecordBad; decide +kernel

/-- R91, R199: of the kinds about 0xB2 and 0xB3 these two alone are records; the fill of a REV is not examined. -/
theorem test_record_kinds :
    ∀ x ∈ [(0xB1#8, true), (0xB2#8, false), (0xB3#8, false), (0xB4#8, true)],
      (withCrc (x.1 :: List.replicate 17 1#8)).length = 20 ∧ (RecordBad (withCrc (x.1 :: List.replicate 17 1#8)) ↔ x.2 = true)
        ∧ (after (.peerRecordReceived (withCrc (x.1 :: List.replicate 17 1#8)))
            { rover with link := { rover.link with rx := .inBurst 3 true 1 } }).link.inq.length = if x.2 then 0 else 1 := by
  unfold RecordBad; decide +kernel

/-- R89, R90: OFF and DISCARDING receivers, with nothing set aside at this reading of the oscillator. -/
theorem witness_PeerRecordTaken_deaf :
    rover.link.rx = .off ∧ (∀ c, rover.link.closed = some c → c.closedAt ≠ rover.osc)
      ∧ ({ rover.link with rx := .discarding, rxBuf := [1#8] } : PeerLink).rx = .discarding
      ∧ (after (.headReceived (encodeHead head3)) rover).peers = rover.peers
      ∧ (after (.peerRecordReceived (encodeRecord (.rev ⟨12, 1, 43, 300⟩))) rover).link.inq = [] := by decide +kernel

theorem witness_HeadJudged :
    head3.fits ∧ hearing.link.rx = .listening ∧ hearing.link.rxBuf = [] ∧ hearing.link.inForce = some (3086, 3)
      ∧ hearing.peers.find 3 = some (baseEntry 3 1000000 2000000 .r0)
      ∧ (baseEntry 3 1000000 2000000 .r0).role = some head3.role
      ∧ (baseEntry 3 1000000 2000000 .r0).homeId = ({ head3 with homeId := 0 } : Head).homeId
      ∧ (baseEntry 3 1000000 2000000 .r0).homeId ≠ head3.homeId ∧ (baseEntry 3 1000000 2000000 .r0).ring ≠ none
      ∧ ({ head3 with homeId := 0 } : Head).fits
      ∧ ({ head3 with sender := 14 } : Head).fits ∧ hearing.identity.nodeId = 14
      ∧ ({ head3 with sender := 2 } : Head).fits ∧ hearing.peers.find 2 = some { id := 2, state := .dropped }
      ∧ (8 ≤ (List.replicate 8 ({ id := 1 } : PeerEntry)).length ∧ ∀ e ∈ List.replicate 8 ({ id := 1 } : PeerEntry), e.id ≠ 3)
      ∧ parseHead (List.replicate 30 0#8) = none
      ∧ hearing.peers.find 4 = some { id := 4 } ∧ ({ id := 4 } : PeerEntry).state = .unheard
      ∧ ({ head3 with sender := 4 } : Head).fits
      ∧ hearing.peers.find 6 = some waitingBase ∧ waitingBase.state = .live ∧ waitingBase.role = some .base
      ∧ waitingBase.homeId = head3.homeId ∧ waitingBase.ring = none ∧ ({ head3 with sender := 6 } : Head).fits
      ∧ (hearing.peers.rings.get .r3).owner = none
      ∧ (∀ c, hearing.link.closed = some c → c.closedAt ≠ hearing.osc) := by
  refine ⟨by unfold Head.fits; decide, rfl, rfl, rfl, rfl, rfl, rfl, by decide, by decide, by unfold Head.fits; decide,
    by unfold Head.fits; decide, rfl, by unfold Head.fits; decide, rfl, by decide, by decide +kernel, rfl, rfl,
    by unfold Head.fits; decide, rfl, rfl, rfl, rfl, rfl, by unfold Head.fits; decide, rfl, by decide⟩

/-- A receiver in mid-burst at a cycle start, one record to come of sender 3. -/
def cut : State := { folded [] with osc := 7, link := { (folded []).link with rx := .inBurst 3 true 1 } }

/-- R93, R100 (log entry 29): a record that falls together with a cycle start and is taken after it begins the next cycle's queue;
after another millisecond the reception is over. -/
theorem test_record_at_cycle_start :
    (after .slotBoundary cut).link.closed = some { closedAt := 7, rx := .inBurst 3 true 1, buf := [] }
      ∧ (after (.peerRecordReceived (encodeRecord (.rev ⟨12, 2, 43, 300⟩))) (after .slotBoundary cut)).link.inq
        = [(3, .rev ⟨12, 2, 43, 300⟩)]
      ∧ (after (.peerRecordReceived (encodeRecord (.rev ⟨12, 2, 43, 300⟩)))
        { after .slotBoundary cut with osc := 8 }).link.inq = [] := by decide +kernel

theorem witness_PeerRecordTaken :
    let s : State := { rover with link := { rover.link with rx := .inBurst 3 true 1 } }
    let bs := encodeRecord (.rev { series := 12, epoch := 1, fromSeq := 43, step := 300 })
    s.link.rx = .inBurst 3 true 1 ∧ s.link.rxBuf = [] ∧ bs.length = 20
      ∧ parseRecord bs = some (.rev { series := 12, epoch := 1, fromSeq := 43, step := 300 })
      ∧ s.link.inq.length < 32 ∧ 32 ≤ (List.replicate 32 (3, PeerRecord.rev ⟨1, 2, 3, 4⟩)).length
      ∧ parseRecord (List.replicate 20 0#8) = none
      ∧ (∀ c, s.link.closed = some c → c.closedAt ≠ s.osc)
      ∧ (after .slotBoundary cut).link.closed = some { closedAt := (after .slotBoundary cut).osc, rx := .inBurst 3 true 1, buf := [] }
      := by decide +kernel

theorem witness_DropAndRestore :
    hearing.node = .running ∧ hearing.port.owed = false ∧ (0#8).toNat = 0 ∧ 31 < (32#8).toNat
      ∧ (∀ e ∈ hearing.peers.entries, e.id ≠ (31#8).toNat)
      ∧ hearing.peers.find (2#8).toNat = some { id := 2, state := .dropped }
      ∧ hearing.peers.find (3#8).toNat = some (baseEntry 3 1000000 2000000 .r0)
      ∧ (baseEntry 3 1000000 2000000 .r0).state ≠ .dropped
      ∧ LogSound logged ∧ logged.peers.find 3 = some (baseEntry 3 1000000 2000000 .r0) ∧ logged.eng.waiting.length = 1 := by
  refine ⟨rfl, rfl, rfl, by decide, by decide, rfl, rfl, by decide, witness_logSound, rfl, rfl⟩

theorem witness_RerefJudged :
    revising.node = .running ∧ revising.port.owed = false ∧ (leBytes 4 43 ++ intBytes 4 (-2000000000)).length = 8
      ∧ uAt (leBytes 4 43 ++ intBytes 4 (-2000000000)) 0 4 = 43 ∧ sAt (leBytes 4 43 ++ intBytes 4 (-2000000000)) 4 4 = -2000000000
      ∧ revising.isBase = true ∧ revising.eng.home.series = some 12 ∧ revising.eng.epoch < 255
      ∧ (∃ y ∈ revising.eng.home.samples, y.seq = 43) ∧ rover.isBase = false
      ∧ sAt (leBytes 4 43 ++ intBytes 4 0) 4 4 = 0 ∧ (∀ y ∈ revising.eng.home.samples, y.seq ≠ uAt (leBytes 4 42 ++ intBytes 4 1) 0 4)
      ∧ ({ revising.eng with epoch := 255 } : Engine).epoch = 255 := by decide

theorem witness_RerefJudged_queue :
    (∀ i ∈ revising.link.txq, ∃ o, i.record = .obs o ∧ o.series = 12)
      ∧ (∃ i ∈ [TxItem.mk (.rev ⟨12, 1, 43, 300⟩) false], ∀ o, i.record = .obs o → revising.eng.home.series ≠ some o.series) := by
  refine ⟨?_, _, List.mem_singleton_self _, fun o h => by cases h⟩
  have key : ∀ i ∈ revising.link.txq, i.record = .obs ⟨12, 41, 5910000, 1760, 0, 0#8⟩
      ∨ i.record = .obs ⟨12, 43, 5940000, 1850, 0, 0#8⟩ := by decide
  intro i hi
  rcases key i hi with h | h <;> exact ⟨_, h, rfl⟩

theorem witness_QuietAndRxmask :
    rover.node = .running ∧ rover.port.owed = false ∧ uAt [0#8, 0#8] 0 2 = 0 ∧ uAt [1#8, 0#8] 0 2 ≠ 0
      ∧ uAt (leBytes 4 0xFF) 0 4 < 2 ^ rover.schedule.slots ∧ 2 ^ rover.schedule.slots ≤ uAt (leBytes 4 0x100) 0 4
      ∧ (leBytes 4 0x100).length = 4 := by decide

theorem witness_RequestChecks :
    ({ rover with port := { reply := some ⟨0, []⟩ } } : State).port.owed = true ∧ rover.port.owed = false
      ∧ Sys2Proof.Machine.Instr.request (.status 1#8 []) = some (0x01#8, 1#8, [])
      ∧ payloadLengthOk (0x01#8).toNat [0#8] = false ∧ payloadLengthOk (0x03#8).toNat [] = true
      ∧ admits 0x03#8 rover.node = false := by decide

theorem witness_BadFrames :
    rover.port.rx = [] ∧ ([] : List Byte).length ≤ 512
      ∧ [0#8, 0#8] ≠ crcBytes (leBytes 2 ([] : List Byte).length ++ [1#8, 9#8] ++ []) ∧ 512 < 513 ∧ 513 < 65536
      ∧ ({ rover with osc := 21, port := { rx := [0x5C#8] } } : State).port.rx ≠ []
      ∧ 0 + 20 < ({ rover with osc := 21, port := { rx := [0x5C#8] } } : State).osc
      ∧ [0x5C#8, 0#8, 0#8, 1#8, 9#8] = 0x5C#8 :: 0#8 :: 0#8 :: 1#8 :: 9#8 :: []
      ∧ (0#8).toNat = 0 ∧ 0x14 < (0x15#8).toNat :=
  ⟨rfl, by decide, by decide +kernel, by decide, by decide, by decide, by decide, rfl, rfl, by decide⟩

theorem witness_GoodFrameDispatched :
    rover.port.rx = [] ∧ Sys2Proof.Machine.Instr.request (.quiet 3#8 [1#8, 0#8]) = some (0x0B#8, 3#8, [1#8, 0#8])
      ∧ exec (.quiet 3#8 [1#8, 0#8]) rover = .next (rover.doQuiet 3#8 [1#8, 0#8]) ∧ 0x14 < (0x15#8).toNat
      ∧ exec (.unknownRequest 0x15#8 3#8 []) rover = .next (rover.dispatch 0x15#8 3#8 []) :=
  ⟨rfl, rfl, rfl, by decide, rfl⟩

/-- A RESULT notice's items. -/
def result (occ : Nat) : ResultBody :=
  { occ := occ, pointId := 1, tie := false, state := .reduced, revisions := 0, gRed := 0, v := 0, r := 0, outcome := .model
    final := true, peer := none, d := 0, loopNo := none, driftFrozen := false, flags := {} }

theorem witness_NoticesAndLine :
    let p : Port := { notices := [⟨1, .result (result 7)⟩], counter := 1, line := some ⟨.notice, [], 0⟩ }
    (∀ n ∈ p.notices, ∀ r', n.body = .result r' → r'.occ ≠ (result 8).occ)
      ∧ p.notices = [] ++ ⟨1, .result (result 7)⟩ :: [] ∧ (result 7).occ = 7 ∧ p.line = some ⟨.notice, [], 0⟩
      ∧ p.reply = none ∧ p.busy = none ∧ (Answer.mk 3 []).arrival ≤ (Answer.mk 3 []).arrival
      ∧ (Answer.mk 3 []).arrival < (Answer.mk 4 []).arrival := by
  refine ⟨?_, rfl, rfl, rfl, rfl, rfl, by decide, by decide⟩
  intro n hn r' h
  cases List.mem_singleton.mp hn
  cases h
  decide

theorem witness_StatusTaken : rover.port.owed = false := rfl

theorem witness_SetupTaken :
    idleRover.node = .startup ∧ idleRover.port.owed = false ∧ payloadLengthOk 0x02 [21#8] = true
      ∧ (0#8).toNat = 0 ∧ 20 < (21#8).toNat
      ∧ payloadLengthOk 0x02 (Identity.payload ⟨14, .rover, .command⟩) = true
      ∧ storePart {} 1 [0#8, 0#8, 0#8] = .bad 1
      ∧ storePart {} 1 [31#8, 0#8, 0#8] = .ok { identity := some ⟨31, .rover, .command⟩ }
      ∧ idleRover.image.schedule ≠ none ∧ idleRover.tb.state ≠ .unset ∧ idleRover.ctl.state = .idle
      ∧ storePart idleRover.image 2 ((Schedule.payload { idleRover.schedule with epoch := 0 }).drop 1)
        = .ok { idleRover.image with schedule := some { idleRover.schedule with epoch := 0 } }
      ∧ idleRover.image.schedule.map Schedule.epoch ≠ some 0 := by decide +kernel

theorem witness_RunTaken :
    ({} : State).image.firstMissing 1 8 = some 1 ∧ idleRover.image.firstMissing 1 8 = none
      ∧ ({ image .rover .command with constituents := List.replicate 12 none } : Image).firstMissing 9 2 = some 9
      ∧ idleRover.image.firstMissing 9 idleRover.tide.count = none
      ∧ idleRover.schedule.txMask ≠ 0#32 ∧ idleRover.schedule.txMask.toNat < 2 ^ idleRover.schedule.slots
      ∧ 2 ^ idleRover.schedule.slots ≤ (0x100#32).toNat ∧ idleRover.schedule.rxMask.toNat < 2 ^ idleRover.schedule.slots
      ∧ idleRover.sampling.minAccepted ≤ idleRover.sampling.blockLength ∧ idleRover.sampling.blockLength < 11
      ∧ idleRover.tb.state ≠ .unset ∧ idleRover.tb.held = false ∧ ({ image := image .rover .command } : State).tb.state = .unset := by
  decide

theorem witness_RestartTaken : rover.node = .running ∧ rover.port.owed = false := ⟨rfl, rfl⟩

theorem witness_ReadsAnswer :
    uAt [1#8, 0#8, 0#8, 0#8, 0#8] 0 1 = 1 ∧ uAt [0#8, 2#8, 0#8, 0#8, 0#8] 1 4 = 2
      ∧ logged.eng.log.getLast? = some (record 2 false .reduced (values 2413611000 false false))
      ∧ logged.eng.log.Pairwise (fun a b => a.number < b.number) ∧ (∀ r ∈ logged.eng.log, r.number ≠ 9)
      ∧ rover.eng.log = [] ∧ uAt [31#8] 0 1 = 31 ∧ logged.peers.find 5 = some (baseEntry 5 1300000 2100000 .r1)
      ∧ logged.peers.find 31 = none ∧ 31 < uAt [32#8] 0 1 ∧ (logged.eng.loops.held 1).isSome = true
      ∧ ({ carry := some ⟨0, 0, 0, 4⟩ } : LoopTable).held 4 = none ∧ logged.eng.loops.held 9 = none
      ∧ logged.eng.loops.carry = none ∧ 1 < uAt [2#8, 0#8, 0#8, 0#8, 0#8] 0 1 := by decide

theorem witness_PeerAndSensorRoundTrip :
    head3.fits ∧ PeerRecord.fits (.obs ⟨65535, 4294967295, 1099511627775, -2147483648, 255, 0xFF#8⟩)
      ∧ PeerRecord.fits (.rev ⟨65535, 255, 4294967295, 2147483647⟩) ∧ (frame 255 (-2147483648) 32767 (-32768) 7).fits := by
  unfold Head.fits PeerRecord.fits Frame.fits; decide

theorem witness_LoggerRoundTrip :
    rover.image.valid = true ∧ rover.identity.ranges.all id = true ∧ rover.schedule.ranges.all id = true
      ∧ rover.sampling.ranges.all id = true ∧ rover.instrument.ranges.all id = true ∧ rover.tide.ranges.all id = true
      ∧ rover.baseTerm.ranges.all id = true ∧ rover.driftCfg.ranges.all id = true ∧ rover.homeCfg.ranges.all id = true
      ∧ (Constituent.mk 100000000 359999999 (-500000)).ranges.all id = true
      ∧ ({ header .spot with settle := some 600, settleClamp := true } : Header).settle = (some 601).map (fun n => min n 600)
      ∧ ({ header .spot with settle := some 600, settleClamp := true } : Header).settleClamp = (some 601).any (fun n => 600 < n) := by
  decide

theorem witness_BlockSplitKept :
    BlockSplit (recording .spot 2 9 1) ∧ StartupIdle (recording .spot 2 9 1) ∧ RunningSound (recording .spot 2 9 1)
      ∧ ImageSound (recording .spot 2 9 1) ∧ step (stepping (recording .spot 2 9 1)) = .next (recording .spot 2 9 1) :=
  ⟨by unfold BlockSplit; decide, by unfold StartupIdle; decide, by unfold RunningSound; decide, by unfold ImageSound; decide, rfl⟩

theorem witness_SealedStays :
    LogSound (stepping logged) ∧ step (stepping logged) = .next logged
      ∧ record 1 true .sealed (values 2413580000 true true) ∈ logged.eng.log :=
  ⟨witness_logSound, rfl, by decide⟩

/-- The same with BURST_START at the front of the queue. -/
def starting : State := { bursting none 0 with pending := [.burstStart] }

theorem witness_BurstsConfined :
    step starting = .next (after .burstStart (bursting none 0)) ∧ starting.link.burst = none
      ∧ (after .burstStart (bursting none 0)).link.burst ≠ none ∧ BurstArmedOwned starting ∧ RunningSound starting :=
  ⟨rfl, rfl, (fun h => by cases h), fun _ _ => ⟨rfl, (3086, 2), rfl, by decide⟩, by unfold RunningSound; decide⟩

/-- A boundary that begins slot 6, which the node owns, arms a burst start, and one that begins slot 3 arms none. -/
theorem witness_BurstsConfined_armed :
    (after .slotBoundary
        { rover with tb := { rover.tb with nodeTime := 12347000, nextBoundary := some 12347000 } }).link.burstAt = some 12347010
      ∧ (after .slotBoundary
        { rover with tb := { rover.tb with nodeTime := 12347000, nextBoundary := some 12347000 } }).link.inForce = some (3086, 6)
      ∧ (after .slotBoundary
        { rover with tb := { rover.tb with nodeTime := 12345500, nextBoundary := some 12345500 } }).link.burstAt = none := by decide

end Sys2Proof.Tests
end

