-- ==== Sys2Proof/Proofs/NoticeQueue.lean ====
section
/-! PROOF. The logger port between requests and events: the ways in which an event can change it (notices offered, flags
latched) and in which the answering of frames can (answers, the output line), and what both leave of the notice queue. -/

namespace Sys2Proof.Machine

/-! ### The notice queue's standing fact, of the port alone -/

/-- The notice queue is sound (R182 to R184), as a fact of the port. -/
def Port.Sound (p : Port) : Prop :=
  p.notices.length ≤ 32
    ∧ p.counter < 256
    ∧ p.notices.map Notice.number = lastNumbers p.counter p.notices.length
    ∧ ∀ occ, (p.notices.filter (Notice.isResultOf occ)).length ≤ 1

theorem noticesSound_iff (s : State) : NoticesSound s ↔ s.port.Sound := Iff.rfl

/-- One notice more: its number follows those given out before. -/
theorem lastNumbers_succ {c n : Nat} (hn : n ≤ 32) :
    lastNumbers c n ++ [(c + 1) % 256] = lastNumbers ((c + 1) % 256) (n + 1) := by
  unfold lastNumbers
  rw [List.range_succ, List.map_append]
  congr 1
  · refine List.map_congr_left fun i hi => ?_
    have := List.mem_range.mp hi
    omega
  · simp only [List.map_cons, List.map_nil, List.cons.injEq, and_true]
    omega

/-- The numbers that are left when notices leave at the head. -/
theorem lastNumbers_drop (c n k : Nat) : (lastNumbers c n).drop k = lastNumbers c (n - k) := by
  refine List.ext_getElem (by simp [lastNumbers]) fun i h₁ h₂ => ?_
  have : i < n - k := by simpa [lastNumbers] using h₂
  simp only [lastNumbers, List.getElem_drop, List.getElem_map, List.getElem_range]
  omega

theorem lastNumbers_tail (c n : Nat) : (lastNumbers c n).tail = lastNumbers c (n - 1) := by
  rw [← List.drop_one, lastNumbers_drop]

/-! ### Notices offered -/

theorem Notice.isResultOf_body {n : Notice} {b : NoticeBody} (h : ∀ r, b ≠ .result r) (occ : Nat) :
    ({ n with body := b } : Notice).isResultOf occ = false := by
  unfold Notice.isResultOf
  cases b with
  | result r => exact absurd rfl (h r)
  | _ => rfl

/-- A notice that adds no second RESULT of an occupation is appended soundly. -/
theorem Port.append_sound {p : Port} (hp : p.Sound) (b : NoticeBody)
    (h : ∀ occ n, ({ number := n, body := b } : Notice).isResultOf occ = true →
      p.notices.filter (Notice.isResultOf occ) = []) : (p.append b).Sound := by
  obtain ⟨len, count, numbers, results⟩ := hp
  have filter_tail : ∀ occ, (p.notices.tail.filter (Notice.isResultOf occ)).length
      ≤ (p.notices.filter (Notice.isResultOf occ)).length :=
    fun occ => ((List.tail_sublist _).filter _).length_le
  have single : ∀ (l : List Notice) (n : Notice) occ,
      (l.filter (Notice.isResultOf occ)).length ≤ (p.notices.filter (Notice.isResultOf occ)).length →
      n.body = b → ((l ++ [n]).filter (Notice.isResultOf occ)).length ≤ 1 := by
    intro l n occ hl hb
    rw [List.filter_append, List.length_append]
    by_cases hn : n.isResultOf occ = true
    · have : p.notices.filter (Notice.isResultOf occ) = [] := h occ n.number (by rw [← hb]; exact hn)
      simp_all
    · have := results occ
      simp only [List.filter_cons, hn, Bool.false_eq_true, if_false, List.filter_nil, List.length_nil]
      omega
  unfold Port.append
  split
  · refine ⟨by simp; omega, Nat.mod_lt _ (by decide), ?_, fun occ => single _ _ occ (le_refl _) rfl⟩
    rw [List.map_append, numbers, List.length_append]
    exact lastNumbers_succ len
  · have len' : p.notices.length = 32 := by omega
    refine ⟨by simp; omega, Nat.mod_lt _ (by decide), ?_, fun occ => single _ _ occ (filter_tail occ) rfl⟩
    rw [List.map_append, List.map_tail, numbers, lastNumbers_tail, List.length_append, List.length_tail, len']
    exact lastNumbers_succ (by decide)

/-- A RESULT that replaces the one of its occupation is a RESULT of the same occupations. -/
theorem Notice.isResultOf_replaced (r : ResultBody) (occ : Nat) (n : Notice) :
    (if n.isResultOf r.occ then { n with body := .result r } else n).isResultOf occ = n.isResultOf occ := by
  obtain ⟨number, body⟩ := n
  cases body with
  | result x =>
    by_cases h : x.occ = r.occ
    · simp [Notice.isResultOf, h]
    · simp [Notice.isResultOf, h]
  | _ => simp [Notice.isResultOf]

/-- Offering a notice keeps the queue sound (R182 to R184). -/
theorem Port.offer_sound {p : Port} (hp : p.Sound) (b : NoticeBody) : (p.offer b).Sound := by
  unfold Port.offer
  split
  · rename_i r
    split
    · obtain ⟨len, count, numbers, results⟩ := hp
      refine ⟨by simpa using len, count, ?_, fun occ => ?_⟩
      · rw [List.map_map, List.length_map, ← numbers]
        refine List.map_congr_left fun n _ => ?_
        simp only [Function.comp]
        split <;> rfl
      · rw [List.filter_map, List.length_map]
        have same : (Notice.isResultOf occ ∘ fun n : Notice =>
            if n.isResultOf r.occ then { n with body := .result r } else n) = Notice.isResultOf occ :=
          funext fun n => Notice.isResultOf_replaced r occ n
        rw [same]
        exact results occ
    · rename_i none_held
      refine Port.append_sound hp _ fun occ n hn => ?_
      have : r.occ = occ := by simpa [Notice.isResultOf] using hn
      subst this
      simpa [List.filter_eq_nil_iff] using none_held
  · rename_i hb
    refine Port.append_sound hp _ fun occ n hn => ?_
    rw [Notice.isResultOf_body (n := ⟨n, b⟩) hb] at hn
    cases hn

/-- Latched flags and the state-changed flags do not bear on what a notice does to the queue. -/
theorem Port.offer_flags (p : Port) (l : LatchedFlags) (c : BitVec 32) (b : NoticeBody) :
    ∃ l', ({ p with latched := l, changed := c } : Port).offer b = { p.offer b with latched := l', changed := c } := by
  have append : ∃ l', ({ p with latched := l, changed := c } : Port).append b
      = { p.append b with latched := l', changed := c } := by
    unfold Port.append
    by_cases h : p.notices.length < 32
    · exact ⟨l, by simp only [h, if_true]⟩
    · exact ⟨latchNoticesLost l, by simp only [h, if_false]⟩
  cases b with
  | result r =>
    by_cases h : p.notices.any (Notice.isResultOf r.occ) = true
    · exact ⟨l, by simp only [Port.offer, h, if_true]⟩
    · simpa only [Port.offer, h, Bool.false_eq_true, if_false] using append
  | _ => exact append

theorem Port.offers_flags (bs : List NoticeBody) (p : Port) (l : LatchedFlags) (c : BitVec 32) :
    ∃ l', bs.foldl Port.offer ({ p with latched := l, changed := c } : Port)
      = { bs.foldl Port.offer p with latched := l', changed := c } := by
  induction bs generalizing p l with
  | nil => exact ⟨l, rfl⟩
  | cons b bs ih =>
    obtain ⟨l', h⟩ := Port.offer_flags p l c b
    obtain ⟨l'', h'⟩ := ih (p.offer b) l'
    exact ⟨l'', by rw [List.foldl_cons, h, h', List.foldl_cons]⟩

/-- What an event does to the port: it offers notices and sets flags. -/
def Port.Offered (p p' : Port) : Prop :=
  ∃ (bs : List NoticeBody) (l : LatchedFlags) (c : BitVec 32),
    p' = { bs.foldl Port.offer p with latched := l, changed := c }

theorem Port.Offered.refl (p : Port) : p.Offered p := ⟨[], p.latched, p.changed, rfl⟩

theorem Port.Offered.trans {p q r : Port} : p.Offered q → q.Offered r → p.Offered r := by
  rintro ⟨bs, l, c, rfl⟩ ⟨bs', l', c', rfl⟩
  obtain ⟨l'', h⟩ := Port.offers_flags bs' (bs.foldl Port.offer p) l c
  exact ⟨bs ++ bs', l', c', by rw [h, List.foldl_append]⟩

theorem Port.offered_offers (p : Port) (bs : List NoticeBody) : p.Offered (bs.foldl Port.offer p) :=
  ⟨bs, _, _, rfl⟩

theorem Port.offered_offer (p : Port) (b : NoticeBody) : p.Offered (p.offer b) := p.offered_offers [b]

theorem Port.offered_flags (p : Port) (l : LatchedFlags) (c : BitVec 32) :
    p.Offered { p with latched := l, changed := c } := ⟨[], l, c, rfl⟩

theorem Port.Offered.sound {p p' : Port} (h : p.Offered p') (hp : p.Sound) : p'.Sound := by
  obtain ⟨bs, l, c, rfl⟩ := h
  show (bs.foldl Port.offer p).Sound
  induction bs generalizing p with
  | nil => exact hp
  | cons b bs ih => exact ih (Port.offer_sound hp b)

/-! ### Answers and the output line -/

/-- What the answering of frames and the output line do to the port: notices leave at the head, and no flag, and not the
notice counter, changes. -/
structure Port.Answered (p p' : Port) : Prop where
  notices : p'.notices <:+ p.notices
  counter : p'.counter = p.counter
  latched : p'.latched = p.latched
  changed : p'.changed = p.changed

theorem Port.Answered.refl (p : Port) : p.Answered p := ⟨List.suffix_rfl, rfl, rfl, rfl⟩

theorem Port.Answered.trans {p q r : Port} (h : p.Answered q) (h' : q.Answered r) : p.Answered r :=
  ⟨h'.notices.trans h.notices, h'.counter.trans h.counter, h'.latched.trans h.latched, h'.changed.trans h.changed⟩

theorem Port.Answered.sound {p p' : Port} (h : p.Answered p') (hp : p.Sound) : p'.Sound := by
  obtain ⟨len, count, numbers, results⟩ := hp
  obtain ⟨gone, hgone⟩ := h.notices
  have hdrop : p'.notices = p.notices.drop gone.length := by rw [← hgone, List.drop_left]
  refine ⟨h.notices.length_le.trans len, h.counter ▸ count, ?_, fun occ => ?_⟩
  · rw [hdrop, List.map_drop, numbers, lastNumbers_drop, h.counter, List.length_drop]
  · exact ((h.notices.sublist.filter _).length_le).trans (results occ)

theorem Port.answered_answer (p : Port) (kind seq : Byte) (r : Reply) : p.Answered (p.answer kind seq r) :=
  ⟨List.suffix_rfl, rfl, rfl, rfl⟩

theorem Port.answered_answerBusy (p : Port) (kind seq : Byte) : p.Answered (p.answerBusy kind seq) :=
  ⟨List.suffix_rfl, rfl, rfl, rfl⟩

/-- Serving the line takes at most the head notice from the queue (R177, R185). -/
theorem Port.answered_serve (p : Port) (osc : Nat) : p.Answered (p.serve osc) := by
  unfold Port.serve
  split
  · exact .refl p
  · split
    · split <;> exact ⟨List.suffix_rfl, rfl, rfl, rfl⟩
    · exact ⟨List.suffix_rfl, rfl, rfl, rfl⟩
    · exact ⟨List.suffix_rfl, rfl, rfl, rfl⟩
    · split
      · exact .refl p
      · rename_i n rest h
        exact ⟨by rw [h]; exact List.suffix_cons n rest, rfl, rfl, rfl⟩

theorem Port.answered_hunting (p : Port) (bytes : List Byte) : p.Answered { p with rx := bytes } :=
  ⟨List.suffix_rfl, rfl, rfl, rfl⟩

theorem Port.answered_line (p : Port) (l : Option LineFrame) : p.Answered { p with line := l } :=
  ⟨List.suffix_rfl, rfl, rfl, rfl⟩

/-- A reply formed stays owed when the line is served: it waits, or it is on the line (R176, R177). -/
theorem Port.serve_owed {p : Port} (h : p.owed = true) (osc : Nat) : (p.serve osc).owed = true := by
  unfold Port.owed at h
  unfold Port.serve
  split
  · exact h
  · rename_i hl
    have hr : p.reply.isSome = true := by simpa [hl] using h
    obtain ⟨r, hr⟩ := Option.isSome_iff_exists.mp hr
    rw [hr]
    split
    · split <;> simp_all [Port.owed]
    · simp [Port.owed]
    · simp_all
    · simp_all

theorem Port.answer_owed (p : Port) (kind seq : Byte) (r : Reply) : (p.answer kind seq r).owed = true := rfl

end Sys2Proof.Machine
end

