-- ==== Sys2Proof/Proofs/Within.lean ====
section
/-! PROOF. Every rule of the blocks other than the time base works within them: the clock, the image, the node state, the time
base and the queue stay, the link keeps a slot in force, and the port takes notices and flags alone. One lemma an operation. -/

namespace Sys2Proof.Machine

/-- What a rule of the blocks outside the time base leaves: the clock, the free choices, the node state, the image, the time base
and the waiting commands stay; a slot in force is followed by one; the port takes notices and flags alone. -/
structure State.Within (s t : State) : Prop where
  osc : t.osc = s.osc
  free : t.free = s.free
  node : t.node = s.node
  image : t.image = s.image
  period : t.period = s.period
  tb : t.tb = s.tb
  pending : t.pending = s.pending
  slot : s.link.inForce.isSome = true → t.link.inForce.isSome = true
  port : s.port.Offered t.port

namespace State.Within

variable {s t u : State}

theorem refl (s : State) : s.Within s := ⟨rfl, rfl, rfl, rfl, rfl, rfl, rfl, id, .refl _⟩

theorem trans (h : s.Within t) (h' : t.Within u) : s.Within u :=
  ⟨h'.osc.trans h.osc, h'.free.trans h.free, h'.node.trans h.node, h'.image.trans h.image, h'.period.trans h.period,
    h'.tb.trans h.tb, h'.pending.trans h.pending, h'.slot ∘ h.slot, h.port.trans h'.port⟩

/-- A chain of operations over a list. -/
theorem foldl {α : Type} {f : State → α → State} (hf : ∀ (s : State) a, s.Within (f s a)) (l : List α) (s : State) :
    s.Within (l.foldl f s) := by
  induction l generalizing s with
  | nil => exact refl s
  | cons a l ih => exact (hf s a).trans (ih _)

/-! ### One block's state replaced -/

theorem setIntake (s : State) (x : Intake) : s.Within (s.setIntake x) := ⟨rfl, rfl, rfl, rfl, rfl, rfl, rfl, id, .refl _⟩

theorem setCtl (s : State) (x : Controller) : s.Within (s.setCtl x) := ⟨rfl, rfl, rfl, rfl, rfl, rfl, rfl, id, .refl _⟩

theorem setEng (s : State) (x : Engine) : s.Within (s.setEng x) := ⟨rfl, rfl, rfl, rfl, rfl, rfl, rfl, id, .refl _⟩

theorem setPeers (s : State) (x : PeerTable) : s.Within (s.setPeers x) := ⟨rfl, rfl, rfl, rfl, rfl, rfl, rfl, id, .refl _⟩

theorem setLink {x : PeerLink} (h : s.link.inForce.isSome = true → x.inForce.isSome = true := by exact id) :
    s.Within (s.setLink x) :=
  ⟨rfl, rfl, rfl, rfl, rfl, rfl, rfl, h, .refl _⟩

theorem setPort {p : Port} (h : s.port.Offered p) : s.Within (s.setPort p) := ⟨rfl, rfl, rfl, rfl, rfl, rfl, rfl, id, h⟩

theorem latch (s : State) (f : LatchedFlags → LatchedFlags) : s.Within (s.latch f) := setPort (Port.offered_flags ..)

theorem offer (s : State) (b : NoticeBody) : s.Within (s.offer b) := setPort (Port.offered_offer ..)

/-! ### The reduction engine -/

/-- One event of the reduction engine. -/
theorem engineEvent (s : State) (f : Work → Work) : s.Within (s.engineEvent f) := by
  rw [State.engineEvent_eq]
  exact (setEng s _).trans (setPort (Port.offered_offers ..))

theorem handOff (s : State) (h : HandOff) : s.Within (s.handOff h) := by
  unfold State.handOff
  split
  · exact setEng s _
  · split
    · exact setEng s _
    · exact engineEvent s _

theorem queueObs (s : State) (o : Obs) : s.Within (s.queueObs o) := by
  unfold State.queueObs
  simp only
  split
  · exact trans setLink (latch _ _)
  · exact setLink

theorem queueRev (s : State) (r : Rev) : s.Within (s.queueRev r) := by
  unfold State.queueRev
  simp only
  split
  · exact trans setLink (latch _ _)
  · exact setLink

theorem produceObs (s : State) (sums : Sums) : s.Within (s.produceObs sums) := by
  unfold State.produceObs
  simp only
  split
  · exact (setCtl s _).trans ((setEng _ _).trans (latch _ _))
  · exact (setCtl s _).trans ((setEng _ _).trans ((setEng _ _).trans (queueObs _ _)))

theorem reref (s : State) (fromSeq : Nat) (step : Int) : s.Within (s.reref fromSeq step) :=
  ((setEng s _).trans setLink).trans (queueRev _ _)

/-! ### The occupation controller -/

theorem endOccupation (s : State) (reason : Option AbortReason) (flag : RecordFlags → RecordFlags) (endTime : Nat) :
    s.Within (s.endOccupation reason flag endTime) :=
  (setIntake s _).trans ((setCtl _ _).trans ((offer _ _).trans ((handOff _ _).trans ((setEng _ _).trans (setCtl _ _)))))

theorem endStopped (s : State) : s.Within s.endStopped := by
  unfold State.endStopped
  split <;> exact endOccupation ..

theorem endNoisy (s : State) (endTime : Nat) : s.Within (s.endNoisy endTime) := by
  unfold State.endNoisy
  split <;> exact endOccupation ..

theorem sensorLost (s : State) : s.Within s.sensorLost := by
  unfold State.sensorLost
  split
  · exact refl s
  · split <;> exact endOccupation ..

theorem openIntake (s : State) (mode : ContMode) (first : Bool) : s.Within (s.openIntake mode first) :=
  (setIntake s _).trans (setCtl _ _)

theorem settleIfDue (s : State) : s.Within s.settleIfDue := by
  unfold State.settleIfDue
  split
  · exact openIntake ..
  · exact refl s

theorem beginOccupation (s : State) (h : Header) (k : Option Nat) : s.Within (s.beginOccupation h k) :=
  (setCtl s _).trans (settleIfDue _)

/-- A start trigger that starts an occupation. -/
theorem startTrigger (h : s.startTrigger = some t) : s.Within t := by
  unfold State.startTrigger State.startRover at h
  split at h
  · cases h
    exact (setEng s _).trans (beginOccupation ..)
  · split at h
    · cases h
      exact (setCtl s _).trans (beginOccupation ..)
    · cases h

theorem afterKept (s : State) (endTime : Nat) : s.Within (s.afterKept endTime) := by
  unfold State.afterKept
  split
  · exact endOccupation ..
  · split
    · exact setCtl s _
    · exact refl s

theorem countKept (s : State) (b : BlockReport) : s.Within (s.countKept b) := by
  unfold State.countKept
  simp only
  split
  · exact (setCtl s _).trans (produceObs _ _)
  · exact setCtl s _

theorem countDiscarded (s : State) (b : BlockReport) : s.Within (s.countDiscarded b) := by
  unfold State.countDiscarded
  simp only
  split
  · exact (setCtl s _).trans (endNoisy _ _)
  · exact setCtl s _

theorem takeReport (s : State) (b : BlockReport) : s.Within (s.takeReport b) := by
  unfold State.takeReport
  split
  · exact refl s
  · split
    · exact (countKept s b).trans (afterKept _ _)
    · exact countDiscarded s b

theorem amendWith (s : State) (staged : Header) : s.Within (s.amendWith staged) := by
  unfold State.amendWith
  simp only
  split
  · exact (setCtl s _).trans (settleIfDue _)
  · split
    · exact (setCtl s _).trans (endOccupation ..)
    · exact setCtl s _

theorem takeEdge (s : State) : s.Within s.takeEdge := by
  unfold State.takeEdge
  split
  · cases h : s.startTrigger with
    | none => exact latch ..
    | some t => exact startTrigger h
  · exact openIntake ..
  · exact refl s
  · exact refl s

/-! ### The sensor port -/

theorem takeSensorFrame (s : State) (f : Frame) : s.Within (s.takeSensorFrame f) :=
  (setIntake s _).trans (foldl takeReport _ _)

theorem sensorBytes (s : State) (bytes : List Byte) : s.Within (s.sensorBytes bytes) :=
  (setIntake s _).trans (foldl takeSensorFrame _ _)

theorem takeSilence (s : State) : s.Within s.takeSilence := by
  unfold State.takeSilence
  simp only
  split
  · exact (setIntake s _).trans (sensorLost _)
  · split
    · exact (setIntake s _).trans (sensorLost _)
    · exact setIntake s _

/-! ### The peer table -/

theorem peerChanged (s : State) (before : Option PeerState) (e : PeerEntry) : s.Within (s.peerChanged before e) :=
  (setPort (p := { s.port with changed := addToSet s.port.changed e.id }) (Port.offered_flags _ _ _)).trans (offer _ _)

theorem takeHead (s : State) (e : PeerEntry) (before : Option PeerState) (h : Head) :
    s.Within (s.takeHead e before h) := by
  unfold State.takeHead
  simp only
  split
  · exact setPeers s _
  · exact (setPeers s _).trans (peerChanged ..)

theorem judgeHead (s : State) (h : Head) : s.Within (s.judgeHead h).1 := by
  unfold State.judgeHead
  split
  · exact latch ..
  · split
    · split
      · exact latch ..
      · simp only; exact takeHead ..
    · split
      · exact refl s
      · simp only; exact takeHead ..
      · split
        · simp only; exact takeHead ..
        · exact latch ..
      · split
        · simp only; exact takeHead ..
        · exact latch ..

theorem countOne (w : State × List FoldChange) (e : PeerEntry) : w.1.Within (countOne w e).1 := by
  unfold Machine.countOne
  simp only
  split
  · exact setPeers ..
  · exact (setPeers ..).trans (peerChanged ..)

theorem putFolding (s : State) (n : RingNo) (f : Folding) : s.Within (s.putFolding n f) := by
  unfold State.putFolding
  simp only
  split <;> split
  · exact (setPeers s _).trans ((latch _ _).trans (latch _ _))
  · exact (setPeers s _).trans (latch _ _)
  · exact (setPeers s _).trans (latch _ _)
  · exact setPeers s _

theorem foldRecord (w : State × List FoldChange) (x : Nat × PeerRecord) : w.1.Within (foldRecord w x).1 := by
  unfold Machine.foldRecord
  split
  · exact refl _
  · simp only
    split
    · exact setPeers ..
    · split
      · exact setPeers ..
      · exact putFolding ..

theorem foldl_fst {α : Type} {f : State × List FoldChange → α → State × List FoldChange}
    (hf : ∀ (w : State × List FoldChange) a, w.1.Within (f w a).1) (l : List α)
    (w : State × List FoldChange) : w.1.Within (l.foldl f w).1 := by
  induction l generalizing w with
  | nil => exact refl _
  | cons a l ih => exact (hf w a).trans (ih _)

theorem foldAll (s : State) (records : List (Nat × PeerRecord)) : s.Within (s.foldAll records).1 :=
  (foldl_fst countOne s.peers.entries (s, [])).trans (foldl_fst foldRecord records _)

theorem reselectEvent (s : State) : s.Within s.reselectEvent := engineEvent s _

theorem dropEntry (s : State) (e : PeerEntry) : s.Within (s.dropEntry e) :=
  (setPeers s _).trans ((peerChanged _ _ _).trans (reselectEvent _))

theorem restoreEntry (s : State) (e : PeerEntry) : s.Within (s.restoreEntry e) :=
  (setPeers s _).trans ((peerChanged _ _ _).trans (reselectEvent _))

/-! ### The peer link -/

theorem foldEvent (s : State) (report : List FoldChange) : s.Within (s.foldEvent report) := engineEvent s _

theorem cycleEnd (s : State) : s.Within s.cycleEnd := by
  unfold State.cycleEnd
  exact (trans setLink (foldAll _ s.link.inq)).trans (foldEvent _ _)

theorem adoptMask_inForce (l : PeerLink) : l.adoptMask.inForce = l.inForce := by
  unfold PeerLink.adoptMask
  split <;> rfl

theorem setAside_inForce (l : PeerLink) (osc : Nat) : (l.setAside osc).inForce = l.inForce := by
  unfold PeerLink.setAside
  split <;> rfl

theorem cycleStart (s : State) : s.Within s.cycleStart :=
  (cycleEnd s).trans (setLink (by rw [adoptMask_inForce, setAside_inForce]; exact id))

theorem takeBoundary (s : State) (x : Nat) : s.Within (s.takeBoundary x) := by
  unfold State.takeBoundary
  simp only
  split
  · exact (cycleStart s).trans (setLink (by exact fun _ => rfl))
  · exact setLink (by exact fun _ => rfl)

theorem stepAtLink (s : State) : s.Within s.stepAtLink := by
  unfold State.stepAtLink
  split
  · simp only
    split
    · exact trans setLink (setLink (by exact fun _ => rfl))
    · exact trans setLink ((cycleStart _).trans (setLink (by exact fun _ => rfl)))
  · exact refl s

theorem decideSlot (s : State) : s.Within s.decideSlot := by
  have cleared : s.Within (s.setLink { s.link with burstAt := none }) := setLink
  unfold State.decideSlot
  simp only
  split
  · exact cleared
  · split
    · exact cleared
    · split
      · exact cleared.trans setLink
      · exact cleared.trans setLink

theorem enqueueInbound (s : State) (sender : Nat) (r : PeerRecord) : s.Within (s.enqueueInbound sender r) := by
  unfold State.enqueueInbound
  split
  · exact setLink
  · exact latch ..

theorem receiveHead (s : State) (bytes : List Byte) : s.Within (s.receiveHead bytes) := by
  unfold State.receiveHead
  split
  · exact setLink
  · exact (judgeHead s _).trans setLink

theorem receiveRecord (s : State) (sender : Nat) (take : Bool) (toCome : Nat) (bytes : List Byte) :
    s.Within (s.receiveRecord sender take toCome bytes) := by
  unfold State.receiveRecord
  simp only
  split
  · split
    · exact trans setLink (enqueueInbound ..)
    · exact setLink
  · exact setLink

theorem receive (n : Nat) (s : State) : s.Within (State.receive n s) := by
  induction n generalizing s with
  | zero => exact refl s
  | succ n ih =>
    unfold State.receive
    simp only
    split
    · exact setLink
    · exact setLink
    · split
      · exact refl s
      · exact trans setLink ((receiveHead ..).trans (ih _))
    · split
      · exact refl s
      · exact trans setLink ((receiveRecord ..).trans (ih _))

theorem hear (s : State) (bytes : List Byte) : s.Within (s.hear bytes) := trans setLink (receive _ _)

theorem hearClosed (s : State) (c : ClosedReception) (bytes : List Byte) : s.Within (s.hearClosed c bytes) :=
  (trans setLink (hear _ bytes)).trans setLink

theorem peerBytes (s : State) (bytes : List Byte) : s.Within (s.peerBytes bytes) := by
  unfold State.peerBytes
  split
  · exact hear ..
  · split
    · exact hearClosed ..
    · exact hear ..

/-! ### A time step's deliveries -/

theorem stepAtController (s : State) : s.Within s.stepAtController := by
  unfold State.stepAtController
  simp only
  split
  · exact (setCtl s _).trans (endOccupation ..)
  · exact (setCtl s _).trans (settleIfDue _)

theorem stepAtEngine (s : State) : s.Within s.stepAtEngine := by
  unfold State.stepAtEngine
  split
  · exact refl s
  · exact engineEvent ..

/-- The time base's state changed, and what R11 delivers of it. -/
theorem changeTb (s : State) (after : TbState) (step : Int) :
    (s.setTb { s.tb with state := after }).Within (s.changeTb after step) := by
  rw [State.changeTb_eq]
  have link : (s.link.takeTbState after).inForce = s.link.inForce := by
    unfold PeerLink.takeTbState
    split <;> rfl
  exact (setLink (by rw [link]; exact id)).trans ((setCtl _ _).trans (setPort (Port.offered_offer ..)))

end State.Within

end Sys2Proof.Machine
end

