-- ==== Sys2Proof/Proofs/Continues.lean ====
section
/-! PROOF. What every event leaves but POWER_ON, SETUP, RUN and RESTART: node state and image stay, node time moves soundly, a
slot in force is followed by one, and the notice queue stays sound. -/

namespace Sys2Proof.Machine

/-! ### Events that fall together (log entry 3) -/

theorem insertPlace_perm {α : Type} (k : Nat) (x : α) (l : List α) : (insertPlace k x l).Perm (x :: l) := by
  unfold insertPlace
  have : (l.take k ++ x :: l.drop k).Perm (x :: (l.take k ++ l.drop k)) := List.perm_middle
  rwa [List.take_append_drop] at this

/-- An arrangement has the same events. -/
theorem arrange_perm {α : Type} (choice : Nat → Nat) : ∀ l : List α, (arrange choice l).Perm l
  | [] => .refl _
  | [_] => .refl _
  | x :: y :: rest => (insertPlace_perm _ x _).trans ((arrange_perm choice (y :: rest)).cons x)

theorem State.inFreeOrder_perm {α : Type} (s : State) (l : List α) : (s.inFreeOrder l).Perm l := arrange_perm _ l

/-! ### How the time base moves -/

/-- The range end as the statements write it. -/
theorem rangeEnd_eq : rangeEnd = 86400000000 := by rw [rangeEnd]

/-- Node time is sound (R4, R9, R14, R15), as a fact of the time base. -/
def TimeBase.Sound (t : TimeBase) : Prop :=
  t.nodeTime ≤ rangeEnd
    ∧ (t.held = true → t.state = .lost ∧ t.nodeTime = rangeEnd)
    ∧ (t.state = .unset → t.nodeTime = 0 ∧ t.lastPulse = none ∧ t.slew = none ∧ t.held = false)

theorem nodeTimeSound_iff (s : State) : NodeTimeSound s ↔ s.tb.Sound := Iff.rfl

/-- A move of the time base that no change of epoch and no power-on makes: it stays sound, goes on delivering boundaries or not,
and does not return to UNSET. -/
structure TimeBase.Moves (t t' : TimeBase) : Prop where
  sound : t.Sound → t'.Sound
  boundary : t'.nextBoundary.isSome = t.nextBoundary.isSome
  locked : t.state ≠ .unset → t'.state ≠ .unset

theorem TimeBase.Moves.refl (t : TimeBase) : t.Moves t := ⟨id, rfl, id⟩

theorem TimeBase.Moves.trans {t t' t'' : TimeBase} (h : t.Moves t') (h' : t'.Moves t'') : t.Moves t'' :=
  ⟨h'.sound ∘ h.sound, h'.boundary.trans h.boundary, h'.locked ∘ h.locked⟩

/-- The armed record does not bear on node time. -/
theorem TimeBase.moves_armed (t : TimeBase) (a : Option ArmedRecord) : t.Moves { t with armed := a } :=
  ⟨id, rfl, id⟩

theorem TimeBase.moves_boundary (t : TimeBase) {b : Option Nat} (h : b.isSome = t.nextBoundary.isSome) :
    t.Moves { t with nextBoundary := b } := ⟨id, h, id⟩

/-- A slew begins outside UNSET (R4). -/
theorem TimeBase.moves_slew {t : TimeBase} (h : t.state ≠ .unset) (p : Option Pulse) (w : Option Slew) :
    t.Moves { t with lastPulse := p, slew := w } :=
  ⟨fun ⟨range, held, _⟩ => ⟨range, held, fun hu => absurd hu h⟩, rfl, id⟩

/-- A change of state that is not to UNSET; node time held stays in LOST. -/
theorem TimeBase.moves_state {t : TimeBase} {after : TbState} (h : after ≠ .unset)
    (held : t.Sound → t.held = true → after = .lost) : t.Moves { t with state := after } :=
  ⟨fun ht => ⟨ht.1, fun hh => ⟨held ht hh, (ht.2.1 hh).2⟩, fun hu => absurd hu h⟩, rfl, fun _ => h⟩

/-- Node time set to a pulse's value in range, as the node locks (R5, R6). -/
theorem TimeBase.moves_lock {t : TimeBase} {n : Nat} (held : t.held = false) (range : n ≤ rangeEnd) (p : Option Pulse)
    (w : Option Slew) : t.Moves { t with lastPulse := p, nodeTime := n, slew := w, state := .locked } :=
  ⟨fun _ => ⟨range, fun hh => by simp [held] at hh, fun hu => by cases hu⟩, rfl, fun _ => by simp⟩

/-- Node time held at the range end (R9). -/
theorem TimeBase.moves_hold (t : TimeBase) :
    t.Moves { t with held := true, nodeTime := rangeEnd, slew := none, state := .lost } :=
  ⟨fun _ => ⟨le_refl _, fun _ => ⟨rfl, rfl⟩, fun hu => by cases hu⟩, rfl, fun _ => by simp⟩

/-- One millisecond of the oscillator. -/
theorem TimeBase.moves_tick (t : TimeBase) : t.Moves t.tick := by
  unfold TimeBase.tick
  split
  · exact .refl t
  · rename_i h
    obtain ⟨locked, held⟩ : t.state ≠ .unset ∧ t.held = false := by simpa using h
    split
    · exact ⟨fun _ => ⟨min_le_left _ _, fun hh => by simp [held] at hh, fun hu => absurd hu locked⟩, rfl, id⟩
    · exact ⟨fun _ => ⟨min_le_left _ _, fun hh => by simp [held] at hh, fun hu => absurd hu locked⟩, rfl, id⟩

/-! ### Events that continue -/

/-- What an event leaves that is none of POWER_ON, SETUP, RUN and RESTART. -/
structure State.Continues (s t : State) : Prop where
  node : t.node = s.node
  image : t.image = s.image
  time : s.tb.Moves t.tb
  slot : s.link.inForce.isSome = true → t.link.inForce.isSome = true
  notices : s.port.Sound → t.port.Sound

namespace State.Continues

variable {s t u : State}

theorem refl (s : State) : s.Continues s := ⟨rfl, rfl, .refl _, id, id⟩

theorem trans (h : s.Continues t) (h' : t.Continues u) : s.Continues u :=
  ⟨h'.node.trans h.node, h'.image.trans h.image, h.time.trans h'.time, h'.slot ∘ h.slot, h'.notices ∘ h.notices⟩

theorem of_within (h : s.Within t) : s.Continues t := ⟨h.node, h.image, h.tb ▸ .refl _, h.slot, h.port.sound⟩

theorem setTb {x : TimeBase} (h : s.tb.Moves x) : s.Continues (s.setTb x) := ⟨rfl, rfl, h, id, id⟩

theorem setIntake (s : State) (x : Intake) : s.Continues (s.setIntake x) := of_within (.setIntake s x)

theorem setCtl (s : State) (x : Controller) : s.Continues (s.setCtl x) := of_within (.setCtl s x)

theorem answered {p : Port} (h : s.port.Answered p) : s.Continues (s.setPort p) := ⟨rfl, rfl, .refl _, id, h.sound⟩

theorem serve (s : State) : s.Continues s.serve := answered (Port.answered_serve ..)

theorem served (h : s.Continues t) : s.Continues t.serve := h.trans (serve t)

theorem ite {c : Prop} [Decidable c] (h : c → s.Continues t) : s.Continues (if c then t else s) := by
  split
  · exact h ‹_›
  · exact refl s

/-! ### The time base's commands -/

/-- The time base moved and its state changed, with what R11 delivers. -/
theorem changeTb {x : TimeBase} {after : TbState} (h : s.tb.Moves { x with state := after }) (step : Int) :
    s.Continues ((s.setTb x).changeTb after step) :=
  (setTb h).trans (of_within (.changeTb (s.setTb x) after step))

theorem drawn (s : State) : s.Continues s.drawn := ⟨rfl, rfl, .refl _, id, id⟩

/-- The three deliveries of a time step, in whatever order (R10). -/
theorem deliverStep (s : State) : s.Continues s.deliverStep := by
  have fold : ∀ (fs : List (State → State)), (∀ f ∈ fs, ∀ s : State, s.Within (f s)) → ∀ s : State,
      s.Within (fs.foldl (fun s f => f s) s) := by
    intro fs
    induction fs with
    | nil => exact fun _ s => .refl s
    | cons f fs ih =>
      exact fun h s => (h f (by simp) s).trans (ih (fun g hg => h g (by simp [hg])) (f s))
  refine (drawn s).trans (of_within (fold _ (fun f hf => ?_) _))
  have := (s.inFreeOrder_perm [State.stepAtController, State.stepAtEngine, State.stepAtLink]).mem_iff.mp hf
  rcases (by simpa using this) with rfl | rfl | rfl
  · exact State.Within.stepAtController
  · exact State.Within.stepAtEngine
  · exact State.Within.stepAtLink

theorem takeTimeRecord (s : State) (second : Nat) (fixValid : Bool) : s.Continues (s.takeTimeRecord second fixValid) := by
  unfold State.takeTimeRecord
  split
  · exact setTb (TimeBase.moves_armed ..)
  · split
    · exact refl s
    · exact setTb (TimeBase.moves_armed ..)

/-- A record in range marks a node time in range. -/
theorem fits_range {a : ArmedRecord} (h : a.fits = true) : a.gnss.toNat ≤ rangeEnd := by
  have : 0 ≤ a.gnss ∧ a.gnss ≤ 86399999000 := by simpa [ArmedRecord.fits] using h
  unfold rangeEnd
  omega

theorem relock {a : ArmedRecord} (fits : a.fits = true) (held : s.tb.held = false) (locked : s.tb.state ≠ .unset) :
    s.Continues (s.relock a) := by
  unfold State.relock
  simp only
  split
  · exact changeTb ((TimeBase.moves_slew locked _ _).trans
      (TimeBase.moves_state (by simp) fun _ hh => by simp [held] at hh)) 0
  · refine (changeTb (s := s) (x := ((s.setToPulse a).retimeBoundary).tb) ?_ _).trans (deliverStep _)
    exact (TimeBase.moves_lock held (fits_range fits) _ _).trans (TimeBase.moves_boundary _
      (by simp [State.setToPulse, State.retimeBoundary]))

theorem pulseWith (s : State) (a : ArmedRecord) (held : s.tb.held = false) : s.Continues (s.pulseWith a) := by
  unfold State.pulseWith
  split
  · exact ite fun fits => changeTb (TimeBase.moves_lock held (fits_range fits) _ _) 0
  · rename_i h
    exact ite fun _ => setTb (TimeBase.moves_slew (by simp [h]) _ _)
  · rename_i h
    split
    · exact relock ‹_› held (by simp [h])
    · exact changeTb (x := s.tb) (TimeBase.moves_state (by simp) fun _ _ => rfl) 0
  · rename_i h
    exact ite fun fits => relock fits held (by simp [h])

theorem takePulse (s : State) : s.Continues s.takePulse := by
  have disarmed : s.Continues (s.setTb { s.tb with armed := none }) := setTb (TimeBase.moves_armed ..)
  unfold State.takePulse
  simp only
  split
  · exact disarmed
  · split
    · exact disarmed
    · rename_i held
      exact disarmed.trans (pulseWith _ _ (by simpa using held))

theorem takeRangeEnd (s : State) : s.Continues s.takeRangeEnd := by
  unfold State.takeRangeEnd
  simp only
  split
  · rename_i lost
    refine setTb (TimeBase.Moves.trans (TimeBase.moves_hold s.tb) ?_)
    rw [← lost]
    exact .refl _
  · exact changeTb (TimeBase.moves_hold s.tb) 0

theorem holdover (h : s.holdoverDue = true) : s.Continues (s.changeTb .holdover 0) := by
  have locked : s.tb.state = .locked := by
    by_contra hn
    simp [State.holdoverDue, TimeBase.holdoverAt, hn] at h
  exact changeTb (x := s.tb) (TimeBase.moves_state (by simp) fun sound hh => by
    have := (sound.2.1 hh).1; simp [locked] at this) 0

theorem loss (s : State) : s.Continues (s.changeTb .lost 0) :=
  changeTb (x := s.tb) (TimeBase.moves_state (by simp) fun _ _ => rfl) 0

theorem deliverBoundary (s : State) : s.Continues s.deliverBoundary := by
  unfold State.deliverBoundary
  split
  · exact refl s
  · rename_i h
    exact (setTb (TimeBase.moves_boundary _ (by simp [h]))).trans (of_within (.takeBoundary _ _))

/-- A millisecond of the oscillator. -/
theorem tick (s : State) : s.Continues s.tick := by
  unfold State.tick State.raiseDue
  split <;> exact ⟨rfl, rfl, TimeBase.moves_tick s.tb, id, id⟩

/-! ### Requests -/

theorem hunting (s : State) : s.Continues s.hunting := answered (Port.answered_hunting ..)

theorem answerOrBusy (s : State) (kind seq : Byte) (r : Reply) : s.Continues (s.answerOrBusy kind seq r) := by
  rw [State.answerOrBusy_eq]
  split
  · exact answered (Port.answered_answerBusy ..)
  · exact answered (Port.answered_answer ..)

/-- A handler whose refusal changes nothing and whose effect continues. -/
theorem takeStatus (s : State) : s.Continues s.takeStatus.1 := of_within (.setPort (Port.offered_flags ..))

theorem takeStage (payload : List Byte) (s : State) : s.Continues (s.takeStage payload).1 := by
  unfold State.takeStage
  split
  · exact refl s
  · split
    · exact refl s
    · exact setCtl s _

theorem takeCommit (s : State) : s.Continues s.takeCommit.1 := by
  unfold State.takeCommit
  split
  · exact refl s
  · split
    · exact refl s
    · exact setCtl s _

theorem takeAmend (s : State) : s.Continues s.takeAmend.1 := by
  unfold State.takeAmend
  split
  · exact refl s
  · split
    · exact refl s
    · split
      · exact refl s
      · exact of_within (.amendWith s _)

theorem takeStart (s : State) : s.Continues s.takeStart.1 := by
  unfold State.takeStart
  split
  · exact refl s
  · split
    · exact refl s
    · exact of_within (.startTrigger ‹_›)

theorem takeStep (s : State) : s.Continues s.takeStep.1 := by
  unfold State.takeStep
  split
  · exact refl s
  · split
    · exact of_within (.openIntake s _ _)
    · exact refl s

theorem takeStop (s : State) : s.Continues s.takeStop.1 := by
  unfold State.takeStop
  split
  · exact refl s
  · exact of_within (.endStopped s)

theorem takeQuiet (payload : List Byte) (s : State) : s.Continues (s.takeQuiet payload).1 := by
  unfold State.takeQuiet
  simp only
  split
  · exact refl s
  · exact of_within .setLink

theorem takeRxmask (payload : List Byte) (s : State) : s.Continues (s.takeRxmask payload).1 := by
  unfold State.takeRxmask
  simp only
  split
  · exact of_within .setLink
  · exact refl s

theorem takeDrop (payload : List Byte) (s : State) : s.Continues (s.takeDrop payload).1 := by
  unfold State.takeDrop
  simp only
  split
  · exact refl s
  · split
    · exact refl s
    · split
      · exact refl s
      · simp only
        exact of_within (Within.dropEntry ..)

theorem takeRestore (payload : List Byte) (s : State) : s.Continues (s.takeRestore payload).1 := by
  unfold State.takeRestore
  simp only
  split
  · exact refl s
  · split
    · exact refl s
    · split
      · simp only
        exact of_within (Within.restoreEntry ..)
      · exact refl s

theorem takeReref (payload : List Byte) (s : State) : s.Continues (s.takeReref payload).1 := by
  unfold State.takeReref
  simp only
  split
  · exact refl s
  · exact of_within (.reref s _ _)

theorem takeFinish (s : State) : s.Continues s.takeFinish.1 := by
  unfold State.takeFinish
  split
  · exact of_within (t := s.finishEvent) (.engineEvent s _)
  · exact refl s

end State.Continues

end Sys2Proof.Machine
end

