-- ==== Sys2Proof/Proofs/Basics.lean ====
section
/-! PROOF. O52: every step keeps the image valid, node time and the notice queue sound, and the image as it is in RUNNING. Two
things need an argument beside `State.Continues`: what SETUP stores, and that bytes at the logger port get one frame taken at
most, since its answer is then owed (R176). -/

namespace Sys2Proof.Machine

/-! ### Checked parts (R187, R188) -/

theorem firstBad_none {k : Nat} {l : List Bool} (h : firstBad k l = none) : l.all id = true := by
  induction l generalizing k with
  | nil => rfl
  | cons ok rest ih =>
    unfold firstBad at h
    split at h
    · rename_i hok
      simp [hok, ih h]
    · cases h

/-- Fields that are all good have codes that are known and values in range. -/
theorem all_right_of_zipWith {codes ranges : List Bool} (len : ranges.length ≤ codes.length)
    (h : (List.zipWith (· && ·) codes ranges).all id = true) : ranges.all id = true := by
  induction ranges generalizing codes with
  | nil => rfl
  | cons r ranges ih =>
    cases codes with
    | nil => simp at len
    | cons c codes =>
      simp only [List.zipWith_cons_cons, List.all_cons, id_eq, Bool.and_eq_true] at h
      simp only [List.all_cons, id_eq, h.1.2, ih (by simpa using len) h.2, Bool.and_self]

/-- A part that is stored has every field in its range. -/
theorem checkFields_ok {α : Type} {codes ranges : List Bool} {a b : α} (len : ranges.length ≤ codes.length)
    (h : checkFields codes ranges a = .ok b) : b = a ∧ ranges.all id = true := by
  unfold checkFields at h
  split at h
  · cases h
    exact ⟨rfl, all_right_of_zipWith len (firstBad_none ‹_›)⟩
  · cases h

theorem Checked.store_ok {α : Type} {c : Checked α} {put : α → Image} {img : Image} (h : c.store put = .ok img) :
    ∃ a, c = .ok a ∧ img = put a := by
  unfold Checked.store at h
  split at h
  · cases h
    exact ⟨_, rfl, rfl⟩
  · cases h

/-- The validity of an image, part by part (R187, R189). -/
theorem Image.valid_iff (img : Image) : img.valid = true ↔
    (∀ x ∈ img.identity, x.ranges.all id = true) ∧ (∀ x ∈ img.schedule, x.ranges.all id = true)
      ∧ (∀ x ∈ img.sampling, x.ranges.all id = true) ∧ (∀ x ∈ img.instrument, x.ranges.all id = true)
      ∧ (∀ x ∈ img.tide, x.ranges.all id = true) ∧ (∀ x ∈ img.baseTerm, x.ranges.all id = true)
      ∧ (∀ x ∈ img.drift, x.ranges.all id = true) ∧ (∀ x ∈ img.home, x.ranges.all id = true)
      ∧ img.constituents.length = 12
      ∧ ∀ c ∈ img.constituents, ∀ x ∈ c, x.ranges.all id = true := by
  have option_all : ∀ {α : Type} (o : Option α) (p : α → Bool), o.all p = true ↔ ∀ x ∈ o, p x = true := by
    intro α o p
    cases o <;> simp
  simp only [Image.valid, Bool.and_eq_true, decide_eq_true_eq, option_all, List.all_eq_true, and_assoc]

theorem of_mem_some {α : Type} {p : α → Prop} {x : α} (h : p x) : ∀ y ∈ some x, p y := by
  rintro y ⟨⟩
  exact h

/-- A part stored leaves the image valid (R187 to R189). -/
theorem storePart_valid {img img' : Image} {part : Nat} {p : List Byte} (valid : img.valid = true)
    (h : storePart img part p = .ok img') : img'.valid = true := by
  rw [Image.valid_iff] at valid ⊢
  obtain ⟨v1, v2, v3, v4, v5, v6, v7, v8, len, v9⟩ := valid
  unfold storePart at h
  split at h
  all_goals
    obtain ⟨x, hx, rfl⟩ := Checked.store_ok h
    obtain ⟨rfl, ranges⟩ := checkFields_ok (by simp [Identity.ranges, Schedule.ranges, Sampling.ranges,
      Instrument.ranges, TideConfig.ranges, BaseConfig.ranges, DriftConfig.ranges, HomeConfig.ranges,
      Constituent.ranges]) hx
  case h_1 => exact ⟨of_mem_some ranges, v2, v3, v4, v5, v6, v7, v8, len, v9⟩
  case h_2 => exact ⟨v1, of_mem_some ranges, v3, v4, v5, v6, v7, v8, len, v9⟩
  case h_3 => exact ⟨v1, v2, of_mem_some ranges, v4, v5, v6, v7, v8, len, v9⟩
  case h_4 => exact ⟨v1, v2, v3, of_mem_some ranges, v5, v6, v7, v8, len, v9⟩
  case h_5 => exact ⟨v1, v2, v3, v4, of_mem_some ranges, v6, v7, v8, len, v9⟩
  case h_6 => exact ⟨v1, v2, v3, v4, v5, of_mem_some ranges, v7, v8, len, v9⟩
  case h_7 => exact ⟨v1, v2, v3, v4, v5, v6, of_mem_some ranges, v8, len, v9⟩
  case h_8 => exact ⟨v1, v2, v3, v4, v5, v6, v7, of_mem_some ranges, len, v9⟩
  case h_9 =>
    refine ⟨v1, v2, v3, v4, v5, v6, v7, v8, by simpa using len, fun c hc => ?_⟩
    rcases List.mem_or_eq_of_mem_set hc with hc | rfl
    · exact v9 c hc
    · exact of_mem_some ranges

/-! ### One event's effect on the image, node time and the notices -/

/-- What O52 says of one event. -/
structure State.KeepsBasics (s t : State) : Prop where
  image : ImageSound s → ImageSound t
  running : s.node = .running → t.node = .running → t.image = s.image
  time : NodeTimeSound s → NodeTimeSound t
  notices : NoticesSound s → NoticesSound t

theorem State.Continues.keepsBasics {s t : State} (h : s.Continues t) : s.KeepsBasics t :=
  ⟨fun hs => by rw [ImageSound, h.image]; exact hs, fun _ _ => h.image, h.time.sound, h.notices⟩

/-- Events that continue, before and after. -/
theorem State.KeepsBasics.between {s u v t : State} (before : s.Continues u) (h : u.KeepsBasics v)
    (after : v.Continues t) : s.KeepsBasics t where
  image hs := after.keepsBasics.image (h.image (before.keepsBasics.image hs))
  running hs ht := by
    rw [after.image, h.running (by rw [before.node]; exact hs) (by rw [← after.node]; exact ht), before.image]
  time hs := after.keepsBasics.time (h.time (before.keepsBasics.time hs))
  notices hs := after.notices (h.notices (before.notices hs))

/-- A request served, when its handler keeps the basics wherever it is taken. -/
theorem State.request_keepsBasics {s : State} {kind : Nat} {allowed : NodeState → Bool}
    {handler : State → State × Reply} {seq : Byte} {payload : List Byte}
    (h : ∀ u : State, allowed u.node = true → u.KeepsBasics (handler u).1) :
    s.KeepsBasics (s.request kind allowed handler seq payload).serve := by
  rcases s.request_cases kind allowed handler seq payload with
    ⟨-, heq⟩ | ⟨-, -, heq⟩ | ⟨-, -, -, heq⟩ | ⟨-, -, node, heq⟩ <;> rw [heq]
  · exact (Continues.answered (.trans (Port.answered_hunting ..) (Port.answered_answerBusy ..))).served.keepsBasics
  · exact (Continues.answered (.trans (Port.answered_hunting ..) (Port.answered_answer ..))).served.keepsBasics
  · exact (Continues.answered (.trans (Port.answered_hunting ..) (Port.answered_answer ..))).served.keepsBasics
  · exact .between (.hunting s) (h s.hunting node) (Continues.answered (Port.answered_answer ..)).served

/-- A request served whose handler continues. -/
theorem State.request_continues {s : State} {kind : Nat} {allowed : NodeState → Bool}
    {handler : State → State × Reply} {seq : Byte} {payload : List Byte}
    (h : ∀ u : State, u.Continues (handler u).1) :
    s.Continues (s.request kind allowed handler seq payload).serve := by
  rcases s.request_cases kind allowed handler seq payload with
    ⟨-, heq⟩ | ⟨-, -, heq⟩ | ⟨-, -, -, heq⟩ | ⟨-, -, node, heq⟩ <;> rw [heq]
  · exact (Continues.answered (.trans (Port.answered_hunting ..) (Port.answered_answerBusy ..))).served
  · exact (Continues.answered (.trans (Port.answered_hunting ..) (Port.answered_answer ..))).served
  · exact (Continues.answered (.trans (Port.answered_hunting ..) (Port.answered_answer ..))).served
  · exact .trans (.hunting s) (.trans (h s.hunting) (Continues.answered (Port.answered_answer ..)).served)

/-! ### The three requests and the event that reset blocks -/

theorem TimeBase.unset_sound (b : Option Nat) : ({ nextBoundary := b } : TimeBase).Sound :=
  ⟨Nat.zero_le _, fun h => by simp at h, fun _ => ⟨rfl, rfl, rfl, rfl⟩⟩

/-- A changed epoch leaves the image and the node state, node time sound, and the notices sound (R14). -/
theorem State.epochLoaded_keeps (s : State) (old : Option Nat) (new : Nat) :
    (s.epochLoaded old new).image = s.image ∧ (s.epochLoaded old new).node = s.node
      ∧ (NodeTimeSound s → NodeTimeSound (s.epochLoaded old new))
      ∧ (NoticesSound s → NoticesSound (s.epochLoaded old new)) := by
  unfold State.epochLoaded
  split
  · exact ⟨rfl, rfl, id, id⟩
  · split
    · exact ⟨rfl, rfl, id, id⟩
    · have h := State.Within.changeTb (s.setTb { s.tb with
        nodeTime := 0, lastPulse := none, armed := none, slew := none, held := false }) .unset 0
      refine ⟨h.image, h.node, fun _ => ?_, h.port.sound⟩
      rw [nodeTimeSound_iff, State.unsetTb, h.tb]
      exact TimeBase.unset_sound _

theorem State.takeSetup_keeps (payload : List Byte) (s : State) (node : s.node = .startup) :
    s.KeepsBasics (s.takeSetup payload).1 := by
  have refused : s.KeepsBasics s := (Continues.refl s).keepsBasics
  unfold State.takeSetup State.loadPart
  simp only
  split
  · split
    · exact refused
    · rename_i img stored
      have valid : ImageSound s → img.valid = true := fun hs => storePart_valid hs stored
      split
      · obtain ⟨image, -, time, notices⟩ := ({ s with image := img } : State).epochLoaded_keeps
          (s.image.schedule.map Schedule.epoch) ({ s with image := img } : State).schedule.epoch
        exact ⟨fun hs => by rw [ImageSound, image]; exact valid hs, fun h => by simp [node] at h, time, notices⟩
      · exact ⟨valid, fun h => by simp [node] at h, id, id⟩
  · exact refused

theorem State.takeRun_keeps (s : State) (node : s.node = .startup) : s.KeepsBasics s.takeRun.1 := by
  unfold State.takeRun
  split
  · exact (Continues.refl s).keepsBasics
  · exact ⟨id, fun h => by simp [node] at h, id, id⟩

theorem Port.sound_empty {p : Port} (notices : p.notices = []) (counter : p.counter = 0) : p.Sound := by
  unfold Port.Sound lastNumbers
  simp [notices, counter]

theorem State.restart_keeps (s : State) : s.KeepsBasics s.restart :=
  ⟨id, fun _ h => (by cases h), id, fun _ => Port.sound_empty rfl rfl⟩

theorem State.powerOn_keeps (s : State) (pending : List Instr) (free : Nat) :
    s.KeepsBasics { State.reset with pending := pending, free := free } :=
  ⟨fun _ => by show State.reset.image.valid = true; decide, fun _ h => (by cases h), fun _ => TimeBase.unset_sound _,
    fun _ => Port.sound_empty rfl rfl⟩

/-! ### The requests as events -/

theorem State.doSetup_keeps (seq : Byte) (p : List Byte) (s : State) : s.KeepsBasics (s.doSetup seq p) :=
  request_keepsBasics fun u hu => u.takeSetup_keeps p (by simpa [startupOnly] using hu)

theorem State.doRun_keeps (seq : Byte) (p : List Byte) (s : State) : s.KeepsBasics (s.doRun seq p) :=
  request_keepsBasics fun u hu => u.takeRun_keeps (by simpa [startupOnly] using hu)

theorem State.doRestart_keeps (seq : Byte) (p : List Byte) (s : State) : s.KeepsBasics (s.doRestart seq p) :=
  request_keepsBasics fun u _ => u.restart_keeps

namespace State.Continues

variable (seq : Byte) (p : List Byte) (s : State)

theorem doStatus : s.Continues (s.doStatus seq p) := request_continues takeStatus
theorem doStage : s.Continues (s.doStage seq p) := request_continues (takeStage p)
theorem doCommit : s.Continues (s.doCommit seq p) := request_continues takeCommit
theorem doAmend : s.Continues (s.doAmend seq p) := request_continues takeAmend
theorem doStart : s.Continues (s.doStart seq p) := request_continues takeStart
theorem doStep : s.Continues (s.doStep seq p) := request_continues takeStep
theorem doStop : s.Continues (s.doStop seq p) := request_continues takeStop
theorem doQuiet : s.Continues (s.doQuiet seq p) := request_continues (takeQuiet p)
theorem doRxmask : s.Continues (s.doRxmask seq p) := request_continues (takeRxmask p)
theorem doDrop : s.Continues (s.doDrop seq p) := request_continues (takeDrop p)
theorem doRestore : s.Continues (s.doRestore seq p) := request_continues (takeRestore p)
theorem doReref : s.Continues (s.doReref seq p) := request_continues (takeReref p)
theorem doFinish : s.Continues (s.doFinish seq p) := request_continues takeFinish
theorem doReadOcc : s.Continues (s.doReadOcc seq p) := request_continues refl
theorem doReadPeer : s.Continues (s.doReadPeer seq p) := request_continues refl
theorem doReadSeries : s.Continues (s.doReadSeries seq p) := request_continues refl
theorem doReadLoop : s.Continues (s.doReadLoop seq p) := request_continues refl

theorem doUnknown (kind : Byte) : s.Continues (s.doUnknown kind seq) := ((hunting s).trans (answerOrBusy _ _ _ _)).served

end State.Continues

/-! ### One frame at most of those that arrive together is acted on (R176) -/

/-- A request served leaves a reply owed. -/
theorem State.request_owed (s : State) (kind : Nat) (allowed : NodeState → Bool) (handler : State → State × Reply)
    (seq : Byte) (payload : List Byte) : (s.request kind allowed handler seq payload).serve.port.owed = true := by
  rcases s.request_cases kind allowed handler seq payload with
    ⟨owed, heq⟩ | ⟨-, -, heq⟩ | ⟨-, -, -, heq⟩ | ⟨-, -, -, heq⟩ <;> rw [heq]
  · exact Port.serve_owed (by exact owed) _
  · exact Port.serve_owed (Port.answer_owed ..) _
  · exact Port.serve_owed (Port.answer_owed ..) _
  · exact Port.serve_owed (Port.answer_owed ..) _

theorem State.answerOrBusy_owed (s : State) (kind seq : Byte) (r : Reply) :
    (s.answerOrBusy kind seq r).serve.port.owed = true := by
  rw [State.answerOrBusy_eq]
  refine Port.serve_owed ?_ _
  split
  · assumption
  · exact Port.answer_owed ..

/-- A frame is dispatched to one of the requests, or answered UNKNOWN. -/
theorem State.dispatch_cases (s : State) (kind seq : Byte) (p : List Byte) :
    (∃ k allowed handler, s.dispatch kind seq p = (s.request k allowed handler seq p).serve)
      ∨ s.dispatch kind seq p = s.doUnknown kind seq := by
  unfold State.dispatch
  split
  case h_21 => exact .inr rfl
  all_goals exact .inl ⟨_, _, _, rfl⟩

theorem State.dispatch_owed (s : State) (kind seq : Byte) (p : List Byte) : (s.dispatch kind seq p).port.owed = true := by
  rcases s.dispatch_cases kind seq p with ⟨k, allowed, handler, h⟩ | h <;> rw [h]
  · exact request_owed ..
  · exact answerOrBusy_owed ..

theorem State.takeItem_owed (s : State) (i : LoggerItem) : (s.takeItem i).port.owed = true := by
  unfold State.takeItem
  split
  · exact answerOrBusy_owed ..
  · split
    · exact dispatch_owed ..
    · exact answerOrBusy_owed ..

/-- What a frame leaves that is not acted on: the port answered. -/
def State.Replied (s t : State) : Prop := ∃ p, t = s.setPort p ∧ s.port.Answered p

theorem State.Replied.refl (s : State) : s.Replied s := ⟨s.port, rfl, .refl _⟩

theorem State.Replied.trans {s t u : State} : s.Replied t → t.Replied u → s.Replied u := by
  rintro ⟨p, rfl, hp⟩ ⟨q, rfl, hq⟩
  exact ⟨q, rfl, hp.trans hq⟩

theorem State.Replied.continues {s t : State} : s.Replied t → s.Continues t := by
  rintro ⟨p, rfl, hp⟩
  exact .answered hp

theorem State.replied_serve {s t : State} : s.Replied t → s.Replied t.serve := by
  rintro ⟨p, rfl, hp⟩
  exact ⟨_, rfl, hp.trans (Port.answered_serve ..)⟩

theorem State.request_replied {s : State} (owed : s.port.owed = true) (kind : Nat) (allowed : NodeState → Bool)
    (handler : State → State × Reply) (seq : Byte) (payload : List Byte) :
    s.Replied (s.request kind allowed handler seq payload).serve := by
  rcases s.request_cases kind allowed handler seq payload with
    ⟨-, heq⟩ | ⟨free, -⟩ | ⟨free, -⟩ | ⟨free, -⟩
  · rw [heq]
    exact replied_serve ⟨_, rfl, .trans (Port.answered_hunting ..) (Port.answered_answerBusy ..)⟩
  all_goals simp [owed] at free

theorem State.answerOrBusy_replied (s : State) (kind seq : Byte) (r : Reply) :
    s.Replied (s.answerOrBusy kind seq r).serve := by
  rw [State.answerOrBusy_eq]
  refine replied_serve ⟨_, rfl, ?_⟩
  split
  · exact Port.answered_answerBusy ..
  · exact Port.answered_answer ..

theorem State.doUnknown_replied (kind seq : Byte) (s : State) : s.Replied (s.doUnknown kind seq) :=
  .trans ⟨_, rfl, Port.answered_hunting s.port []⟩ (answerOrBusy_replied ..)

theorem State.dispatch_replied {s : State} (owed : s.port.owed = true) (kind seq : Byte) (p : List Byte) :
    s.Replied (s.dispatch kind seq p) := by
  rcases s.dispatch_cases kind seq p with ⟨k, allowed, handler, h⟩ | h <;> rw [h]
  · exact request_replied owed ..
  · exact doUnknown_replied ..

theorem State.takeItem_replied {s : State} (owed : s.port.owed = true) (i : LoggerItem) : s.Replied (s.takeItem i) := by
  unfold State.takeItem
  split
  · exact answerOrBusy_replied ..
  · split
    · exact dispatch_replied owed ..
    · exact answerOrBusy_replied ..

/-- Frames taken together: the first may be acted on, the others are answered alone. -/
theorem State.takeItems_replied (s : State) : ∀ items : List LoggerItem,
    items = [] ∨ ∃ i rest, items = i :: rest ∧ (s.takeItem i).Replied (items.foldl State.takeItem s)
  | [] => .inl rfl
  | i :: rest => by
    refine .inr ⟨i, rest, rfl, ?_⟩
    have fold : ∀ (l : List LoggerItem) (u : State), u.port.owed = true → u.Replied (l.foldl State.takeItem u) := by
      intro l
      induction l with
      | nil => exact fun u _ => .refl u
      | cons j l ih => exact fun u owed => (takeItem_replied owed j).trans (ih _ (takeItem_owed u j))
    exact fold rest _ (takeItem_owed s i)

/-- Bytes at the logger port: the receiver keeps what is left of them, after one frame at most has been acted on. -/
theorem State.loggerBytes_cases (s : State) (bytes : List Byte) :
    s.Replied (s.loggerBytes bytes)
      ∨ ∃ i, (s.takeItem i).Replied (s.loggerBytes bytes) := by
  have kept : ∀ {u t : State} (rx : List Byte) (rxLast : Nat), u.Replied t →
      u.Replied (t.setPort { t.port with rx := rx, rxLast := rxLast }) :=
    fun _ _ h => h.trans ⟨_, rfl, ⟨List.suffix_rfl, rfl, rfl, rfl⟩⟩
  unfold State.loggerBytes
  simp only
  rcases s.takeItems_replied (loggerFeed ((s.port.rx ++ bytes).length + 1) (s.port.rx ++ bytes)).1 with
    none_taken | ⟨i, rest, -, h⟩
  · rw [none_taken]
    exact .inl (kept _ _ (.refl s))
  · exact .inr ⟨i, kept _ _ h⟩

theorem State.dispatch_keeps (s : State) (kind seq : Byte) (p : List Byte) : s.KeepsBasics (s.dispatch kind seq p) := by
  unfold State.dispatch
  split
  case h_2 => exact s.doSetup_keeps seq p
  case h_3 => exact s.doRun_keeps seq p
  case h_4 => exact s.doRestart_keeps seq p
  case h_1 => exact (Continues.doStatus seq p s).keepsBasics
  case h_5 => exact (Continues.doStage seq p s).keepsBasics
  case h_6 => exact (Continues.doCommit seq p s).keepsBasics
  case h_7 => exact (Continues.doAmend seq p s).keepsBasics
  case h_8 => exact (Continues.doStart seq p s).keepsBasics
  case h_9 => exact (Continues.doStep seq p s).keepsBasics
  case h_10 => exact (Continues.doStop seq p s).keepsBasics
  case h_11 => exact (Continues.doQuiet seq p s).keepsBasics
  case h_12 => exact (Continues.doRxmask seq p s).keepsBasics
  case h_13 => exact (Continues.doDrop seq p s).keepsBasics
  case h_14 => exact (Continues.doRestore seq p s).keepsBasics
  case h_15 => exact (Continues.doReref seq p s).keepsBasics
  case h_16 => exact (Continues.doFinish seq p s).keepsBasics
  case h_17 => exact (Continues.doReadOcc seq p s).keepsBasics
  case h_18 => exact (Continues.doReadPeer seq p s).keepsBasics
  case h_19 => exact (Continues.doReadSeries seq p s).keepsBasics
  case h_20 => exact (Continues.doReadLoop seq p s).keepsBasics
  case h_21 => exact (Continues.doUnknown seq s kind).keepsBasics

theorem State.takeItem_keeps (s : State) (i : LoggerItem) : s.KeepsBasics (s.takeItem i) := by
  unfold State.takeItem
  split
  · exact (answerOrBusy_replied ..).continues.keepsBasics
  · split
    · exact dispatch_keeps ..
    · exact (answerOrBusy_replied ..).continues.keepsBasics

theorem State.loggerBytes_keeps (s : State) (bytes : List Byte) : s.KeepsBasics (s.loggerBytes bytes) := by
  rcases s.loggerBytes_cases bytes with h | ⟨i, h⟩
  · exact h.continues.keepsBasics
  · exact .between (.refl s) (s.takeItem_keeps i) h.continues

/-- A frame abandoned is answered at most. -/
theorem State.abandonFrame_replied (s : State) : s.Replied s.abandonFrame := by
  have hunting : s.Replied (s.setPort { s.port with rx := [] }) := ⟨_, rfl, Port.answered_hunting s.port []⟩
  unfold State.abandonFrame
  simp only
  split
  · exact hunting.trans (answerOrBusy_replied ..)
  · exact hunting

/-! ### Every command -/

/-- A command that is none of POWER_ON, SETUP, RUN and RESTART, and not bytes or a frame that may hold one of them. -/
def continuing : Instr → Bool
  | .powerOn | .setup .. | .run .. | .restart .. | .badLoggerFrame _ | .unknownRequest .. => false
  | _ => true

open State.Continues in
/-- Such a command continues. -/
theorem exec_continues (s : State) : ∀ c : Instr, continuing c = true → ∃ t, exec c s = .next t ∧ s.Continues t
  | .timeRecord _ second valid, _ => ⟨_, rfl, ite fun _ => takeTimeRecord s second valid⟩
  | .armedRecordExpiry, _ => ⟨_, rfl, ite fun _ => setTb (TimeBase.moves_armed ..)⟩
  | .ppsPulse w, _ => ⟨_, rfl, by split; exact refl s; exact (takePulse s).served⟩
  | .holdoverExpiry, _ => ⟨_, rfl, ite fun h => (holdover h).served⟩
  | .lossExpiry, _ => ⟨_, rfl, ite fun _ => (loss s).served⟩
  | .rangeEnd, _ => ⟨_, rfl, ite fun _ => (takeRangeEnd s).served⟩
  | .slotBoundary, _ => ⟨_, rfl, ite fun _ => (deliverBoundary s).served⟩
  | .sampleFrame bytes, _ => ⟨_, rfl, (of_within (.sensorBytes s bytes)).served⟩
  | .sensorByteTimeout, _ => ⟨_, rfl, ite fun _ => setIntake s _⟩
  | .silenceExpiry, _ => ⟨_, rfl, ite fun _ => (of_within (.takeSilence s)).served⟩
  | .trigEdge .., _ => ⟨_, rfl, ite fun _ => of_within (.takeEdge s)⟩
  | .settleExpiry, _ => ⟨_, rfl, ite fun _ => of_within (.openIntake s _ _)⟩
  | .stepWaitExpiry, _ => ⟨_, rfl, ite fun _ => (of_within (.endOccupation s _ _ _)).served⟩
  | .endPulseExpiry, _ => ⟨_, rfl, ite fun _ => setCtl s _⟩
  | .holdExpiry _, _ => ⟨_, rfl, ite fun _ => (of_within (.engineEvent s _)).served⟩
  | .burstStart, _ => ⟨_, rfl, ite fun _ => of_within (.decideSlot s)⟩
  | .recordSent, _ => ⟨_, rfl, by
      split
      · exact ite fun _ => of_within .setLink
      · exact refl s⟩
  | .burstEnd, _ => ⟨_, rfl, ite fun _ => of_within .setLink⟩
  | .receiverListen, _ => ⟨_, rfl, ite fun _ => of_within .setLink⟩
  | .headReceived bytes, _ => ⟨_, rfl, (of_within (.peerBytes s bytes)).served⟩
  | .peerRecordReceived bytes, _ => ⟨_, rfl, (of_within (.peerBytes s bytes)).served⟩
  | .loggerByteTimeout, _ => ⟨_, rfl, ite fun _ => (State.abandonFrame_replied s).continues⟩
  | .outputFrameSent, _ => ⟨_, rfl, ite fun _ => (answered (Port.answered_line ..)).served⟩
  | .status q p, _ => ⟨_, rfl, doStatus q p s⟩
  | .stage q p, _ => ⟨_, rfl, doStage q p s⟩
  | .commit q p, _ => ⟨_, rfl, doCommit q p s⟩
  | .amend q p, _ => ⟨_, rfl, doAmend q p s⟩
  | .start q p, _ => ⟨_, rfl, doStart q p s⟩
  | .step q p, _ => ⟨_, rfl, doStep q p s⟩
  | .stop q p, _ => ⟨_, rfl, doStop q p s⟩
  | .quiet q p, _ => ⟨_, rfl, doQuiet q p s⟩
  | .rxmask q p, _ => ⟨_, rfl, doRxmask q p s⟩
  | .drop q p, _ => ⟨_, rfl, doDrop q p s⟩
  | .restore q p, _ => ⟨_, rfl, doRestore q p s⟩
  | .reref q p, _ => ⟨_, rfl, doReref q p s⟩
  | .finish q p, _ => ⟨_, rfl, doFinish q p s⟩
  | .readOcc q p, _ => ⟨_, rfl, doReadOcc q p s⟩
  | .readPeer q p, _ => ⟨_, rfl, doReadPeer q p s⟩
  | .readSeries q p, _ => ⟨_, rfl, doReadSeries q p s⟩
  | .readLoop q p, _ => ⟨_, rfl, doReadLoop q p s⟩

/-- Every command keeps the basics. -/
theorem exec_keepsBasics (s : State) (c : Instr) : ∃ t, exec c s = .next t ∧ s.KeepsBasics t := by
  by_cases h : continuing c = true
  · obtain ⟨t, ht, hc⟩ := exec_continues s c h
    exact ⟨t, ht, hc.keepsBasics⟩
  · cases c with
    | powerOn => exact ⟨_, rfl, s.powerOn_keeps s.pending s.free⟩
    | setup q p => exact ⟨_, rfl, s.doSetup_keeps q p⟩
    | run q p => exact ⟨_, rfl, s.doRun_keeps q p⟩
    | restart q p => exact ⟨_, rfl, s.doRestart_keeps q p⟩
    | badLoggerFrame bytes => exact ⟨_, rfl, s.loggerBytes_keeps bytes⟩
    | unknownRequest kind q p => exact ⟨_, rfl, s.dispatch_keeps kind q p⟩
    | _ => exact absurd rfl h

/-- A step is a millisecond of the oscillator, or a command on the state without it. -/
theorem step_cases {s t : State} (h : step s = .next t) :
    t = s.tick ∨ ∃ c rest, s.pending = c :: rest ∧ exec c { s with pending := rest } = .next t := by
  unfold step at h
  split at h
  · exact .inl (Host.Outcome.next.inj h).symm
  · exact .inr ⟨_, _, ‹_›, h⟩

theorem step_keepsBasics {s t : State} (h : step s = .next t) : s.KeepsBasics t := by
  rcases step_cases h with ht | ⟨c, rest, -, hc⟩
  · rw [ht]
    exact (State.Continues.tick s).keepsBasics
  · obtain ⟨u, hu, keeps⟩ := exec_keepsBasics { s with pending := rest } c
    rw [hu] at hc
    cases hc
    exact ⟨keeps.image, keeps.running, keeps.time, keeps.notices⟩

/-- Settles O52: every command keeps the basics (`exec_keepsBasics`), and so does a millisecond of the oscillator. -/
theorem basicsKept : Obligations.BasicsKept := by
  refine ⟨fun s t h => ?_, fun s t h => ?_⟩
  · exact ⟨(step_keepsBasics h).image, (step_keepsBasics h).running⟩
  · exact ⟨(step_keepsBasics h).time, (step_keepsBasics h).notices⟩

end Sys2Proof.Machine
end

