-- ==== Sys2Proof/Proofs/NodeStates.lean ====
section
/-! PROOF. O53: a node in STARTUP stays idle, for no event of its blocks finds anything armed, open or held; a node that is
RUNNING has what RUN found, for what happens while RUNNING continues (`State.Continues`). -/

namespace Sys2Proof.Machine

/-! ### The two states of the node -/

/-- An intake that has never been opened since the node was last in STARTUP. -/
structure Intake.Idle (i : Intake) : Prop where
  closed : i.isOpen = false
  opening : i.opening = 0
  counter : i.counter = 0
  sums : i.sums = {}
  rejects : i.rejects = {}
  shockRef : i.shockRef = none

/-- A node in STARTUP, idle (R182, R186, R190, R193). -/
structure State.Idle (s : State) : Prop where
  node : s.node = .startup
  boundary : s.tb.nextBoundary = none
  link : s.link = { lastBurst := s.link.lastBurst }
  ctl : s.ctl = {}
  eng : s.eng = {}
  peers : s.peers = {}
  intake : s.intake.Idle
  changed : s.port.changed = 0#32
  notices : ∀ n ∈ s.port.notices, n.isTimeState = true

/-- A node that is RUNNING, complete (R5, R12, R78, R187, R191). -/
structure State.Complete (s : State) : Prop where
  node : s.node = .running
  parts : s.image.firstMissing 1 8 = none
  constituents : s.image.firstMissing 9 s.tide.count = none
  locked : s.tb.state ≠ .unset
  boundary : s.tb.nextBoundary.isSome = true
  slot : s.link.inForce.isSome = true

/-- The two standing facts together: idle in STARTUP, or complete while RUNNING. -/
theorem stands_iff (s : State) : (StartupIdle s ∧ RunningSound s) ↔ s.Idle ∨ s.Complete := by
  constructor
  · rintro ⟨idle, complete⟩
    cases node : s.node with
    | startup =>
      obtain ⟨h1, h2, h3, h4, h5, h6, h7, h8, h9, h10, h11, h12, h13⟩ := idle node
      exact .inl ⟨node, h1, h2, h3, h4, h5, ⟨h6, h7, h8, h9, h10, h11⟩, h12, h13⟩
    | running =>
      obtain ⟨h1, h2, h3, h4, h5⟩ := complete node
      exact .inr ⟨node, h1, h2, h3, h4, h5⟩
  · rintro (h | h)
    · exact ⟨fun _ => ⟨h.boundary, h.link, h.ctl, h.eng, h.peers, h.intake.closed, h.intake.opening, h.intake.counter,
        h.intake.sums, h.intake.rejects, h.intake.shockRef, h.changed, h.notices⟩, fun hr => by simp [h.node] at hr⟩
    · exact ⟨fun hs => by simp [h.node] at hs, fun _ => ⟨h.parts, h.constituents, h.locked, h.boundary, h.slot⟩⟩

/-- Completeness goes on. -/
theorem State.Complete.continues {s t : State} (hs : s.Complete) (h : s.Continues t) : t.Complete where
  node := h.node.trans hs.node
  parts := by rw [h.image]; exact hs.parts
  constituents := by
    rw [State.tide, h.image]
    exact hs.constituents
  locked := h.time.locked hs.locked
  boundary := h.time.boundary.trans hs.boundary
  slot := h.slot hs.slot

/-! ### A node in STARTUP -/

namespace State.Idle

variable {s t : State}

theorem setTb (hs : s.Idle) {x : TimeBase} (h : x.nextBoundary = s.tb.nextBoundary := by rfl) : (s.setTb x).Idle :=
  { hs with boundary := h.trans hs.boundary }

theorem setIntake (hs : s.Idle) {x : Intake} (h : x.Idle) : (s.setIntake x).Idle := { hs with intake := h }

theorem answered (hs : s.Idle) {p : Port} (h : s.port.Answered p) : (s.setPort p).Idle :=
  { hs with changed := h.changed.trans hs.changed, notices := fun n hn => hs.notices n (h.notices.subset hn) }

theorem replied (hs : s.Idle) (h : s.Replied t) : t.Idle := by
  obtain ⟨p, rfl, hp⟩ := h
  exact hs.answered hp

theorem serve (hs : s.Idle) : s.serve.Idle := hs.answered (Port.answered_serve ..)

theorem drawn (hs : s.Idle) : s.drawn.Idle := { hs with }

/-- A TIME_STATE notice may be queued in STARTUP (R182). -/
theorem offer (hs : s.Idle) (before after : TbState) (time : Nat) (step : Int) :
    (s.setPort (s.port.offer (.timeState before after time step))).Idle := by
  have appended : ∀ (l : List Notice) (k : Nat), (∀ n ∈ l, n.isTimeState = true) →
      ∀ n ∈ l ++ [({ number := k, body := .timeState before after time step } : Notice)], n.isTimeState = true := by
    intro l k hl n hn
    rcases List.mem_append.mp hn with hn | hn
    · exact hl n hn
    · rw [List.mem_singleton.mp hn]
      rfl
  simp only [Port.offer, Port.append]
  split
  · exact { hs with notices := appended _ _ hs.notices }
  · exact { hs with notices := appended _ _ fun n hn => hs.notices n (List.mem_of_mem_tail hn) }

/-! #### Time -/

/-- A change of the time-base state: the notice is all that the blocks see of it in STARTUP. -/
theorem changeTb (hs : s.Idle) (after : TbState) (step : Int) : (s.changeTb after step).Idle := by
  rw [State.changeTb_eq]
  have suspect : s.ctl.suspect = s.ctl := by
    rw [hs.ctl]
    rfl
  have link : s.link.takeTbState after = { lastBurst := (s.link.takeTbState after).lastBurst } := by
    rw [hs.link]
    unfold PeerLink.takeTbState
    split <;> rfl
  rw [suspect, ite_self]
  exact offer (s := ((s.setTb { s.tb with state := after }).setLink (s.link.takeTbState after)).setCtl s.ctl)
    { hs with link := link } ..

/-- A time step finds nothing to act on in STARTUP. -/
theorem deliverStep (hs : s.Idle) : s.deliverStep.Idle := by
  have nothing : ∀ (u : State), u.Idle → u.stepAtController = u ∧ u.stepAtEngine = u ∧ u.stepAtLink = u := by
    intro u hu
    refine ⟨?_, ?_, ?_⟩
    · simp [State.stepAtController, State.settleIfDue, hu.ctl, Controller.suspect, State.setCtl]
      rw [← hu.ctl]
    · simp [State.stepAtEngine, hu.eng]
    · simp [State.stepAtLink, hu.node]
  have fold : ∀ (fs : List (State → State)), (∀ f ∈ fs, ∀ u : State, u.Idle → (f u).Idle) → ∀ u : State, u.Idle →
      (fs.foldl (fun u f => f u) u).Idle := by
    intro fs
    induction fs with
    | nil => exact fun _ u hu => hu
    | cons f fs ih => exact fun h u hu => ih (fun g hg => h g (by simp [hg])) _ (h f (by simp) u hu)
  refine fold _ (fun f hf u hu => ?_) _ hs.drawn
  have := (s.inFreeOrder_perm [State.stepAtController, State.stepAtEngine, State.stepAtLink]).mem_iff.mp hf
  rcases (by simpa using this) with rfl | rfl | rfl
  · rw [(nothing u hu).1]
    exact hu
  · rw [(nothing u hu).2.1]
    exact hu
  · rw [(nothing u hu).2.2]
    exact hu

theorem takeTimeRecord (hs : s.Idle) (second : Nat) (valid : Bool) : (s.takeTimeRecord second valid).Idle := by
  unfold State.takeTimeRecord
  split
  · exact hs.setTb
  · split
    · exact hs
    · exact hs.setTb

theorem relock (hs : s.Idle) (a : ArmedRecord) : (s.relock a).Idle := by
  unfold State.relock
  simp only
  split
  · exact changeTb (hs.setTb) ..
  · have set : (s.setToPulse a).Idle := hs.setTb
    exact deliverStep (changeTb (set.setTb (by rw [set.boundary]; rfl)) ..)

theorem pulseWith (hs : s.Idle) (a : ArmedRecord) : (s.pulseWith a).Idle := by
  unfold State.pulseWith
  split
  · split
    · exact changeTb (hs.setTb) ..
    · exact hs
  · split
    · exact hs.setTb
    · exact hs
  · split
    · exact hs.relock a
    · exact hs.changeTb ..
  · split
    · exact hs.relock a
    · exact hs

theorem takePulse (hs : s.Idle) : s.takePulse.Idle := by
  have disarmed : (s.setTb { s.tb with armed := none }).Idle := hs.setTb
  unfold State.takePulse
  simp only
  split
  · exact disarmed
  · split
    · exact disarmed
    · exact disarmed.pulseWith _

theorem takeRangeEnd (hs : s.Idle) : s.takeRangeEnd.Idle := by
  unfold State.takeRangeEnd
  simp only
  split
  · exact hs.setTb
  · exact changeTb (hs.setTb) ..

theorem tick (hs : s.Idle) : s.tick.Idle := by
  have boundary : s.tb.tick.nextBoundary = none := by
    rw [← hs.boundary]
    unfold TimeBase.tick
    split
    · rfl
    · split <;> rfl
  unfold State.tick State.raiseDue
  split <;> exact { hs with boundary := boundary }

/-! #### The sensor port -/

/-- A closed intake counts no arrival (R18). -/
theorem takeSensorFrame (hs : s.Idle) (f : Frame) : (s.takeSensorFrame f).Idle := by
  have uncounted : ∀ (l : List Arrival) (i : Intake), i.isOpen = false →
      l.foldl (arrive s.sampling s.instrument s.tb.nodeTime) (i, []) = (i, []) := by
    intro l i hi
    induction l with
    | nil => rfl
    | cons a l ih => simpa [arrive, hi] using ih
  unfold State.takeSensorFrame Intake.takeFrame
  simp only
  rw [uncounted _ _ (by exact hs.intake.closed)]
  exact hs.setIntake { hs.intake with }

theorem sensorBytes (hs : s.Idle) (bytes : List Byte) : (s.sensorBytes bytes).Idle := by
  have fold : ∀ (fs : List Frame) (u : State), u.Idle → (fs.foldl State.takeSensorFrame u).Idle := by
    intro fs
    induction fs with
    | nil => exact fun u hu => hu
    | cons f fs ih => exact fun u hu => ih _ (hu.takeSensorFrame f)
  exact fold _ _ (hs.setIntake { hs.intake with })

theorem takeSilence (hs : s.Idle) : s.takeSilence.Idle := by
  have lost : ∀ u : State, u.Idle → u.sensorLost = u := fun u hu => by simp [State.sensorLost, hu.ctl]
  unfold State.takeSilence
  simp only
  split
  · have shut : (s.setIntake (Intake.shut { s.intake with silenceAt := none, sensor := .absent, expect := none })).Idle :=
      hs.setIntake (by simp only [Intake.shut, hs.intake.closed]; exact { hs.intake with closed := rfl })
    rw [lost _ shut]
    exact shut
  · simp only [hs.intake.closed]
    exact hs.setIntake { hs.intake with closed := rfl }

/-! #### The peer port -/

/-- A receiver that is OFF discards every byte (R89). -/
theorem peerBytes (hs : s.Idle) (bytes : List Byte) : (s.peerBytes bytes).Idle := by
  have link := hs.link
  unfold State.peerBytes
  rw [hs.link]
  simp only [State.hear, State.receive, State.setLink]
  rw [hs.link]
  exact { hs with link := rfl }

/-! #### The logger port -/

theorem takeStatus (hs : s.Idle) : s.takeStatus.1.Idle := { hs with changed := rfl }

theorem epochLoaded (hs : s.Idle) (old : Option Nat) (new : Nat) : (s.epochLoaded old new).Idle := by
  unfold State.epochLoaded
  split
  · exact hs
  · split
    · exact hs
    · exact changeTb (hs.setTb) ..

theorem takeSetup (hs : s.Idle) (payload : List Byte) : (s.takeSetup payload).1.Idle := by
  unfold State.takeSetup State.loadPart
  simp only
  split
  · split
    · exact hs
    · rename_i img _
      have stored : ({ s with image := img } : State).Idle := { hs with }
      split
      · exact stored.epochLoaded _ _
      · exact stored
  · exact hs

/-- A request in STARTUP: its handler, where STARTUP admits it. -/
theorem request (hs : s.Idle) {kind : Nat} {allowed : NodeState → Bool} {handler : State → State × Reply} {seq : Byte}
    {payload : List Byte} (h : allowed .startup = true → ∀ u : State, u.Idle → (handler u).1.Idle) :
    (s.request kind allowed handler seq payload).serve.Idle := by
  rcases s.request_cases kind allowed handler seq payload with
    ⟨-, heq⟩ | ⟨-, -, heq⟩ | ⟨-, -, -, heq⟩ | ⟨-, -, node, heq⟩ <;> rw [heq]
  · exact (hs.answered (.trans (Port.answered_hunting ..) (Port.answered_answerBusy ..))).serve
  · exact (hs.answered (.trans (Port.answered_hunting ..) (Port.answered_answer ..))).serve
  · exact (hs.answered (.trans (Port.answered_hunting ..) (Port.answered_answer ..))).serve
  · have hunting : s.hunting.Idle := hs.answered (Port.answered_hunting ..)
    exact ((h (hs.node ▸ node) s.hunting hunting).answered (Port.answered_answer ..)).serve

/-- A request that RUNNING alone admits. -/
theorem request_runningOnly (hs : s.Idle) {kind : Nat} {handler : State → State × Reply} {seq : Byte}
    {payload : List Byte} : (s.request kind runningOnly handler seq payload).serve.Idle :=
  hs.request fun h => by cases h

/-- An accepted RUN makes the node complete (R191, R192); any other leaves it idle. -/
theorem takeRun (hs : s.Idle) : s.takeRun.1.Idle ∨ s.takeRun.1.Complete := by
  unfold State.takeRun
  split
  · exact .inl hs
  · rename_i accepted
    refine .inr ?_
    unfold State.runRefusal at accepted
    split at accepted
    · cases accepted
    · rename_i parts
      split at accepted
      · cases accepted
      · rename_i constituents
        split at accepted; · cases accepted
        split at accepted; · cases accepted
        split at accepted; · cases accepted
        split at accepted; · cases accepted
        rename_i timed
        have locked : s.tb.state ≠ .unset := by
          simp only [Bool.or_eq_true, decide_eq_true_eq, not_or] at timed
          exact timed.1
        exact ⟨rfl, parts, constituents, locked, rfl, rfl⟩

end State.Idle

/-! ### Every command -/

/-- Idle in STARTUP, or complete while RUNNING. -/
def State.Stands (s : State) : Prop := s.Idle ∨ s.Complete

theorem State.Stands.replied {s t : State} (hs : s.Stands) (h : s.Replied t) : t.Stands :=
  hs.imp (fun idle => idle.replied h) fun complete => complete.continues h.continues

/-- A request: in STARTUP by its handler's effect, while RUNNING it continues or is RESTART. -/
theorem State.Stands.request {s : State} (hs : s.Stands) {kind : Nat} {allowed : NodeState → Bool}
    {handler : State → State × Reply} {seq : Byte} {payload : List Byte}
    (h : ∀ u : State, u.Stands → allowed u.node = true → (handler u).1.Stands) :
    (s.request kind allowed handler seq payload).serve.Stands := by
  have answered : ∀ {u : State} {p : Port}, u.Stands → u.port.Answered p → (u.setPort p).serve.Stands :=
    fun hu hp => hu.replied (replied_serve ⟨_, rfl, hp⟩)
  rcases s.request_cases kind allowed handler seq payload with
    ⟨-, heq⟩ | ⟨-, -, heq⟩ | ⟨-, -, -, heq⟩ | ⟨-, -, node, heq⟩ <;> rw [heq]
  · exact answered hs (.trans (Port.answered_hunting ..) (Port.answered_answerBusy ..))
  · exact answered hs (.trans (Port.answered_hunting ..) (Port.answered_answer ..))
  · exact answered hs (.trans (Port.answered_hunting ..) (Port.answered_answer ..))
  · exact answered (h s.hunting (hs.replied ⟨_, rfl, Port.answered_hunting s.port []⟩) node) (Port.answered_answer ..)

namespace State.Stands

variable {s : State} (hs : s.Stands) (q : Byte) (p : List Byte)

include hs

/-- A request that RUNNING alone admits and that continues. -/
theorem of_runningOnly {kind : Nat} {handler : State → State × Reply} (h : ∀ u : State, u.Continues (handler u).1) :
    (s.request kind runningOnly handler q p).serve.Stands :=
  hs.imp (fun idle => idle.request_runningOnly) fun complete => complete.continues (request_continues h)

/-- A request that only answers. -/
theorem of_read {kind : Nat} {allowed : NodeState → Bool} {read : State → Reply} :
    (s.request kind allowed (fun u => (u, read u)) q p).serve.Stands :=
  hs.request fun _ hu _ => hu

theorem doStatus : (s.doStatus q p).Stands :=
  hs.request fun u hu _ => hu.imp (fun idle => idle.takeStatus) fun complete => complete.continues (Continues.takeStatus u)

theorem doSetup : (s.doSetup q p).Stands :=
  hs.request fun u hu node => by
    rcases hu with idle | complete
    · exact .inl (idle.takeSetup p)
    · simp [startupOnly, complete.node] at node

theorem doRun : (s.doRun q p).Stands :=
  hs.request fun u hu node => by
    rcases hu with idle | complete
    · exact idle.takeRun
    · simp [startupOnly, complete.node] at node

/-- RESTART leaves the node idle (R193). -/
theorem doRestart : (s.doRestart q p).Stands :=
  hs.request fun u _ _ => .inl ⟨rfl, rfl, rfl, rfl, rfl, rfl, ⟨rfl, rfl, rfl, rfl, rfl, rfl⟩, rfl, by
    simp [State.restart, Port.restart]⟩

theorem dispatch (kind : Byte) : (s.dispatch kind q p).Stands := by
  unfold State.dispatch
  split
  case h_1 => exact hs.doStatus q p
  case h_2 => exact hs.doSetup q p
  case h_3 => exact hs.doRun q p
  case h_4 => exact hs.doRestart q p
  case h_5 => exact hs.of_runningOnly q p (Continues.takeStage p)
  case h_6 => exact hs.of_runningOnly q p Continues.takeCommit
  case h_7 => exact hs.of_runningOnly q p Continues.takeAmend
  case h_8 => exact hs.of_runningOnly q p Continues.takeStart
  case h_9 => exact hs.of_runningOnly q p Continues.takeStep
  case h_10 => exact hs.of_runningOnly q p Continues.takeStop
  case h_11 => exact hs.of_runningOnly q p (Continues.takeQuiet p)
  case h_12 => exact hs.of_runningOnly q p (Continues.takeRxmask p)
  case h_13 => exact hs.of_runningOnly q p (Continues.takeDrop p)
  case h_14 => exact hs.of_runningOnly q p (Continues.takeRestore p)
  case h_15 => exact hs.of_runningOnly q p (Continues.takeReref p)
  case h_16 => exact hs.of_runningOnly q p Continues.takeFinish
  case h_17 => exact hs.of_read q p
  case h_18 => exact hs.of_read q p
  case h_19 => exact hs.of_read q p
  case h_20 => exact hs.of_read q p
  case h_21 => exact hs.replied (doUnknown_replied ..)

theorem takeItem (i : LoggerItem) : (s.takeItem i).Stands := by
  unfold State.takeItem
  split
  · exact hs.replied (answerOrBusy_replied ..)
  · split
    · exact hs.dispatch ..
    · exact hs.replied (answerOrBusy_replied ..)

theorem loggerBytes (bytes : List Byte) : (s.loggerBytes bytes).Stands := by
  rcases s.loggerBytes_cases bytes with h | ⟨i, h⟩
  · exact hs.replied h
  · exact (hs.takeItem i).replied h

end State.Stands

/-- A node in STARTUP stays idle under every command that continues: what expires is not armed, what arrives is not counted, and
what RUNNING alone admits is refused. -/
theorem State.Idle.exec {s : State} (hs : s.Idle) {c : Instr} (hc : continuing c = true) {t : State}
    (h : Machine.exec c s = .next t) : t.Idle := by
  have none_due : ∀ {b : Bool} {u v : State}, b = false → v.Idle → (if b then u else v).Idle := by
    rintro b u v rfl hv
    exact hv
  have ite : ∀ {b : Prop} [Decidable b] {u v : State}, u.Idle → v.Idle → (if b then u else v).Idle := by
    intro b _ u v hu hv
    split <;> assumption
  have burstAt : s.link.burstAt = none := by rw [hs.link]
  have burst : s.link.burst = none := by rw [hs.link]
  have listenAt : s.link.listenAt = none := by rw [hs.link]
  cases c <;> try (cases hc; done)
  all_goals cases h
  case timeRecord => exact ite (hs.takeTimeRecord ..) hs
  case armedRecordExpiry => exact ite hs.setTb hs
  case ppsPulse => exact ite hs hs.takePulse.serve
  case holdoverExpiry => exact ite (hs.changeTb ..).serve hs
  case lossExpiry => exact ite (hs.changeTb ..).serve hs
  case rangeEnd => exact ite hs.takeRangeEnd.serve hs
  case slotBoundary => exact none_due (by simp [State.boundaryDue, hs.node]) hs
  case sampleFrame => exact (hs.sensorBytes _).serve
  case sensorByteTimeout => exact ite (hs.setIntake { hs.intake with }) hs
  case silenceExpiry => exact ite hs.takeSilence.serve hs
  case trigEdge => exact none_due (by simp [hs.node]) hs
  case settleExpiry => exact none_due (by simp [State.settleDue, hs.ctl]) hs
  case stepWaitExpiry => exact none_due (by simp [State.stepWaitDue, hs.ctl]) hs
  case endPulseExpiry => exact none_due (by simp [State.endPulseDue, hs.ctl]) hs
  case holdExpiry => exact none_due (by simp [State.holdDue, hs.eng]) hs
  case burstStart => exact none_due (by simp [State.burstStartDue, burstAt]) hs
  case recordSent =>
    simp only [burst]
    exact hs
  case burstEnd => exact none_due (by simp [State.burstEndDue, burst]) hs
  case receiverListen => exact none_due (by simp [State.listenDue, listenAt]) hs
  case headReceived => exact (hs.peerBytes _).serve
  case peerRecordReceived => exact (hs.peerBytes _).serve
  case loggerByteTimeout => exact ite (hs.replied (State.abandonFrame_replied s)) hs
  case outputFrameSent => exact ite (hs.answered (Port.answered_line ..)).serve hs
  case status => exact hs.request fun _ _ hu => hu.takeStatus
  case readOcc => exact hs.request fun _ _ hu => hu
  case readPeer => exact hs.request fun _ _ hu => hu
  case readSeries => exact hs.request fun _ _ hu => hu
  case readLoop => exact hs.request fun _ _ hu => hu
  all_goals exact hs.request_runningOnly

theorem exec_stands {s : State} (hs : s.Stands) (c : Instr) : ∃ t, exec c s = .next t ∧ t.Stands := by
  by_cases h : continuing c = true
  · obtain ⟨t, ht, hc⟩ := exec_continues s c h
    exact ⟨t, ht, hs.imp (fun idle => idle.exec h ht) fun complete => complete.continues hc⟩
  · cases c with
    | powerOn => exact ⟨_, rfl, .inl ⟨rfl, rfl, rfl, rfl, rfl, rfl, ⟨rfl, rfl, rfl, rfl, rfl, rfl⟩, rfl, by
        simp [State.reset]⟩⟩
    | setup q p => exact ⟨_, rfl, hs.doSetup q p⟩
    | run q p => exact ⟨_, rfl, hs.doRun q p⟩
    | restart q p => exact ⟨_, rfl, hs.doRestart q p⟩
    | badLoggerFrame bytes => exact ⟨_, rfl, hs.loggerBytes bytes⟩
    | unknownRequest kind q p => exact ⟨_, rfl, hs.dispatch q p kind⟩
    | _ => exact absurd rfl h

theorem step_stands {s t : State} (hs : s.Stands) (h : step s = .next t) : t.Stands := by
  rcases step_cases h with ht | ⟨c, rest, -, hc⟩
  · rw [ht]
    exact hs.imp (fun idle => idle.tick) fun complete => complete.continues (.tick s)
  · have hs' : ({ s with pending := rest } : State).Stands :=
      hs.imp (fun idle => { idle with }) fun complete => { complete with }
    obtain ⟨u, hu, stands⟩ := exec_stands hs' c
    rw [hu] at hc
    cases hc
    exact stands

/-- Settles O53: a node that is idle in STARTUP or complete while RUNNING is so after every step (`step_stands`). -/
theorem nodeStatesKept : Obligations.NodeStatesKept := by
  intro s t idle complete h
  exact (stands_iff t).mpr (step_stands ((stands_iff s).mp ⟨idle, complete⟩) h)

end Sys2Proof.Machine
end

