-- ==== Sys2Proof/Proofs/Clock.lean ====
section
/-! PROOF. O2 to O5: the step on an empty queue and the expiries it raises, node time on the oscillator, and the values and the
standing facts at reset. -/

namespace Sys2Proof.Machine

/-! ### The expiries that have come due -/

theorem mem_whenDue {due : Bool} {c d : Instr} : d ∈ whenDue due c ↔ due = true ∧ d = c := by
  cases due <;> simp [whenDue]

/-- An instant rounded to the millisecond, as the statements write it (log entry 5). -/
theorem rounded_le_iff (started osc n d : Nat) :
    started + roundNat n d ≤ osc ↔ (started : Int) + roundDiv (n : Int) d ≤ osc := by
  rw [roundDiv_natCast]
  omega

/-- A command is due exactly when it is an expiry whose instant has been reached. -/
theorem State.mem_dueCommands (s : State) (c : Instr) : c ∈ s.dueCommands ↔ Falls s c := by
  cases c <;> simp [State.dueCommands, mem_whenDue, Falls]
  case armedRecordExpiry => simp [State.armedRecordDue, Option.any_eq_true]
  case holdoverExpiry => simp [State.holdoverDue, TimeBase.holdoverAt, Option.any_eq_true, and_assoc]
  case lossExpiry => simp [State.lossDue, TimeBase.lossAt, Option.any_eq_true, and_assoc]
  case rangeEnd =>
    simp [TimeBase.rangeEndDue, and_assoc]
    simp [rangeEnd_eq]
  case slotBoundary =>
    simp [State.boundaryDue, TimeBase.boundaryDue, Option.any_eq_true]
    simp [rangeEnd_eq]
  case sensorByteTimeout =>
    simp [State.sensorByteDue]
    exact fun _ => Iff.rfl
  case silenceExpiry => simp [State.silenceDue, Option.any_eq_true]
  case settleExpiry => simp [State.settleDue, Option.any_eq_true]
  case stepWaitExpiry => simp [State.stepWaitDue, Option.any_eq_true]
  case endPulseExpiry => simp [State.endPulseDue, Option.any_eq_true]
  case holdExpiry => grind
  case burstStart => simp [State.burstStartDue, Option.any_eq_true]
  case recordSent =>
    simp [State.recordSentDue, Burst.nextRecordAt, Option.any_eq_true, burstMs, rounded_le_iff]
  case burstEnd =>
    simp [State.burstEndDue, Option.any_eq_true]
    simp [Burst.endAt, burstMs, rounded_le_iff]
  case receiverListen => simp [State.listenDue, Option.any_eq_true]
  case loggerByteTimeout => simp [State.loggerByteDue]
  case outputFrameSent =>
    simp [State.outputDue, Option.any_eq_true]
    simp [LineFrame.sentAt, rounded_le_iff]

theorem nodup_whenDue_append {due : Bool} {c : Instr} {l : List Instr} (hl : l.Nodup) (hc : c ∉ l) :
    (whenDue due c ++ l).Nodup := by
  cases due
  · simpa [whenDue] using hl
  · simpa [whenDue] using ⟨hc, hl⟩

/-- No expiry is due twice, while no occupation is pending twice. -/
theorem State.nodup_dueCommands {s : State} (h : (s.eng.waiting.map PendingEntry.occ).Nodup) : s.dueCommands.Nodup := by
  have holds : ((s.eng.waiting.filter fun e => e.expiry ≤ s.tb.nodeTime).map fun e => Instr.holdExpiry e.occ).Nodup := by
    have occs : ((s.eng.waiting.filter fun e => e.expiry ≤ s.tb.nodeTime).map PendingEntry.occ).Nodup :=
      h.sublist (List.filter_sublist.map _)
    have := occs.map (f := Instr.holdExpiry) fun _ _ e => Instr.holdExpiry.inj e
    rwa [List.map_map] at this
  have last : (whenDue s.outputDue .outputFrameSent).Nodup := by
    unfold whenDue
    split <;> simp
  simp only [State.dueCommands, List.append_assoc]
  iterate 10 refine nodup_whenDue_append ?_ (by simp [mem_whenDue])
  refine holds.append ?_ (List.disjoint_left.mpr fun c hc => ?_)
  rotate_left
  · obtain ⟨e, -, rfl⟩ := List.mem_map.mp hc
    simp [mem_whenDue]
  iterate 5 refine nodup_whenDue_append ?_ (by simp [mem_whenDue])
  exact last

/-- What raising the expiries leaves: they join the queue, two or more of them in a free order, which draws. -/
theorem State.raiseDue_eq (s : State) : ∃ (q : List Instr) (n : Nat),
    s.raiseDue = { s with pending := s.pending ++ q, free := n } ∧ q.Perm s.dueCommands ∧ (q.length ≤ 1 → n = s.free) := by
  unfold State.raiseDue
  split
  · rename_i none_due
    exact ⟨[], s.free, by simp, by rw [none_due], fun _ => rfl⟩
  · rename_i c one_due
    exact ⟨[c], s.free, rfl, by rw [one_due], fun _ => rfl⟩
  · rename_i two_due one_due
    have perm := s.inFreeOrder_perm s.dueCommands
    refine ⟨s.inFreeOrder s.dueCommands, s.free + 1, rfl, perm, fun short => ?_⟩
    rw [perm.length_eq] at short
    match h : s.dueCommands with
    | [] => exact absurd h two_due
    | [c] => exact absurd h (one_due c)
    | _ :: _ :: _ => simp [h] at short

/-- Settles O2: on an empty queue the step is a millisecond (`State.tick`), and what it raises is what is due
(`mem_dueCommands`). -/
theorem idleStep : Obligations.IdleStep := by
  intro s empty
  obtain ⟨q, n, raised, perm, drawn⟩ := ({ s with osc := s.osc + 1, tb := s.tb.tick } : State).raiseDue_eq
  refine ⟨q, n, ?_, fun c => ?_, fun nodup => ?_, perm, drawn⟩
  · rw [step, empty, State.tick, raised, empty]
    rfl
  · rw [perm.mem_iff, State.mem_dueCommands]
  · exact perm.nodup_iff.mpr (State.nodup_dueCommands nodup)

/-! ### Node time on the oscillator (R4, R9) -/

theorem TimeBase.tick_stopped {t : TimeBase} (h : t.state = .unset ∨ t.held = true) : t.tick = t := by
  unfold TimeBase.tick
  rw [if_pos (by simpa using h)]

theorem TimeBase.tick_running {t : TimeBase} (locked : t.state ≠ .unset) (held : t.held = false) (slew : t.slew = none) :
    t.tick = { t with nodeTime := min rangeEnd (t.nodeTime + 1) } := by
  unfold TimeBase.tick
  rw [if_neg (by simp [locked, held])]
  simp only [slew]

theorem TimeBase.tick_slewing {t : TimeBase} {w : Slew} (locked : t.state ≠ .unset) (held : t.held = false)
    (slew : t.slew = some w) :
    t.tick = { t with
      nodeTime := min rangeEnd (w.reading (w.elapsed + 1))
      slew := if w.elapsed + 1 < 1000 then some { w with elapsed := w.elapsed + 1 } else none } := by
  unfold TimeBase.tick
  rw [if_neg (by simp [locked, held])]
  simp only [slew]

/-- A share of a slew's difference is within 1 ms of the next one, and is no more than the time gone. -/
theorem share_next {x d : Int} (h : d.natAbs ≤ 50) : roundDiv x 1000 ≤ roundDiv (x + d) 1000 + 1 := by
  unfold roundDiv roundNat
  split <;> split <;> omega

theorem share_bounds {x : Int} {k : Nat} (h : x.natAbs ≤ 50 * k) : -(k : Int) ≤ roundDiv x 1000 := by
  unfold roundDiv roundNat
  split <;> omega

theorem share_zero : roundDiv 0 1000 = 0 := by decide

theorem share_whole (d : Int) : roundDiv (1000 * d) 1000 = d := by
  unfold roundDiv roundNat
  split <;> omega

/-- Node time in a slew of at most 50 ms, without the floor at 0. -/
theorem Slew.reading_eq {w : Slew} (small : w.diff.natAbs ≤ 50) (k : Nat) :
    (w.reading k : Int) = w.start + k + roundDiv (k * w.diff) 1000 := by
  have : (k * w.diff : Int).natAbs ≤ 50 * k := by
    rw [Int.natAbs_mul, Int.natAbs_natCast, Nat.mul_comm]
    exact Nat.mul_le_mul_right k small
  have := share_bounds this
  unfold Slew.reading
  omega

/-- Settles O3: the time base's millisecond by its three cases, and the arithmetic of a slew's share. -/
theorem nodeTimeMoves : Obligations.NodeTimeMoves := by
  refine ⟨fun t => TimeBase.tick_stopped, fun t locked held slew low => ?_, fun w small => ⟨?_, ?_, fun k _ => ?_, ?_⟩⟩
  · rw [TimeBase.tick_running locked held slew, min_eq_right (by rw [rangeEnd_eq]; omega)]
  · have := Slew.reading_eq small 0
    simp only [Int.natCast_zero, zero_mul, share_zero] at this
    omega
  · rw [Slew.reading_eq small]
    simp only [Nat.cast_ofNat, share_whole]
  · have this_ms := Slew.reading_eq small k
    have next_ms := Slew.reading_eq small (k + 1)
    have share := share_next (x := k * w.diff) small
    rw [show ((k + 1 : Nat) : Int) * w.diff = k * w.diff + w.diff by push_cast; ring] at next_ms
    omega
  · intro t k locked held inside slew
    rw [TimeBase.tick_slewing locked held slew]
    have last : (if k + 1 < 1000 then some { w with elapsed := k + 1 } else none)
        = if k + 1 = 1000 then none else some { w with elapsed := k + 1 } := by
      rcases Nat.lt_or_ge (k + 1) 1000 with h | h
      · rw [if_pos h, if_neg (by omega)]
      · rw [if_neg (by omega), if_pos (by omega)]
    simp only [last, rangeEnd_eq]
    rfl

/-! ### Power-on (R15 and the power-on columns) -/

/-- Settles O4: the defaults of the state's structures. -/
theorem powerOnValues : Obligations.PowerOnValues := by
  refine ⟨?_, fun s => rfl⟩
  and_intros
  all_goals try rfl
  · intro n
    cases n <;> rfl
  · intro n
    cases n <;> rfl

/-- Settles O5: nothing is held, armed or queued at reset. -/
theorem factsAtReset : Obligations.FactsAtReset := by
  have rings : ∀ n, State.reset.peers.rings.get n = {} := fun n => by cases n <;> rfl
  have ring : ∀ n, RingSound State.reset n := fun n => by simp [RingSound, rings]
  have stands : State.reset.Stands :=
    .inl ⟨rfl, rfl, rfl, rfl, rfl, rfl, ⟨rfl, rfl, rfl, rfl, rfl, rfl⟩, rfl, by simp [State.reset]⟩
  obtain ⟨idle, complete⟩ := (stands_iff State.reset).mpr stands
  refine ⟨rfl, ?_, ?_, ?_, TimeBase.unset_sound none, Port.sound_empty rfl rfl, idle, complete, ?_, ?_, ?_,
    ?_, ?_, ?_, ?_⟩
  · simp [TransmitQueueSound, State.reset]
  · simp [Bounded, State.reset, LoopTable.slots]
  · show State.reset.image.valid = true
    decide
  · simp [BlockSplit, State.reset]
  · exact ⟨by simp [State.reset], by simp [State.reset], by simp [State.reset], ring _, ring _, ring _, ring _⟩
  · simp [LogSound, State.reset]
  · simp [RecordsFormed, State.reset]
  · simp [LoopsSound, State.reset]
  · simp [DriftSound, TiesInStep, State.reset, LoopTable.slots]
  · simp [BurstArmedOwned, State.reset]

end Sys2Proof.Machine
end

