-- ==== Sys2Proof/Proofs/TimePort.lean ====
section
/-! PROOF. O6 to O9 and O11: time records, pulses and the expiries of chapter 1, from one equation a case of the time base's own
operations. -/

namespace Sys2Proof.Machine

variable {s : State}

/-! ### Time records (R1) -/

theorem State.takeTimeRecord_noEpoch (h : s.image.schedule = none) (second : Nat) :
    s.takeTimeRecord second true = s := by
  simp [State.takeTimeRecord, h]

theorem State.takeTimeRecord_valid {c : Schedule} (h : s.image.schedule = some c) (second : Nat) :
    s.takeTimeRecord second true = s.setTb { s.tb with
      armed := some { second := second, gnss := ((second : Int) - c.epoch) * 1000, expiresAt := s.osc + 1200 } } := by
  simp [State.takeTimeRecord, h]

/-- Settles O6. -/
theorem timeRecords : Obligations.TimeRecords := by
  refine ⟨fun s sec valid => rfl, fun s sec => rfl, fun s sec none_held => ?_, fun s sec c held => ?_,
    fun s a armed due => ?_⟩
  · exact congrArg _ (State.takeTimeRecord_noEpoch none_held sec)
  · exact congrArg _ (State.takeTimeRecord_valid held sec)
  · have due : s.armedRecordDue = true := by simp [State.armedRecordDue, armed, due]
    exact congrArg _ (if_pos due)

/-! ### State changes (R11) -/

/-- A change to a state other than UNSET, as the statements write it. -/
theorem State.changeTb_locked {after : TbState} (h : after ≠ .unset) (step : Int) :
    s.changeTb after step =
      { s with
        tb := { s.tb with state := after }
        ctl := if decide (s.tb.state = .lost) ≠ decide (after = .lost) then s.ctl.suspect else s.ctl
        port := s.port.offer (.timeState s.tb.state after s.tb.nodeTime step) } := by
  have link : s.link.takeTbState after = s.link := if_neg h
  rw [State.changeTb_eq, link]
  rfl

/-- A change that enters LOST or departs from it marks the occupation in progress (R49). -/
theorem State.changeTb_suspect {after : TbState} (h : after ≠ .unset)
    (lost : decide (s.tb.state = .lost) ≠ decide (after = .lost)) (step : Int) :
    s.changeTb after step =
      { s with
        tb := { s.tb with state := after }
        ctl := if s.ctl.state = OccState.idle then s.ctl
          else { s.ctl with flags := { s.ctl.flags with timeSuspect := true } }
        port := s.port.offer (.timeState s.tb.state after s.tb.nodeTime step) } := by
  rw [State.changeTb_locked h, if_pos lost]
  rfl

/-- Any other change leaves the controller. -/
theorem State.changeTb_plain {after : TbState} (h : after ≠ .unset)
    (lost : decide (s.tb.state = .lost) = decide (after = .lost)) (step : Int) :
    s.changeTb after step =
      { s with
        tb := { s.tb with state := after }
        port := s.port.offer (.timeState s.tb.state after s.tb.nodeTime step) } := by
  rw [State.changeTb_locked h, if_neg (not_not.mpr lost)]

/-! ### Pulses (R2 to R6) -/

theorem exec_ppsPulse_narrow {w : Nat} (h : w < 1000) : exec (.ppsPulse w) s = .next s := congrArg _ (if_pos h)

theorem exec_ppsPulse_wide {w : Nat} (h : 1000 ≤ w) : exec (.ppsPulse w) s = .next s.takePulse.serve :=
  congrArg _ (if_neg (by omega))

/-- The node with no record armed. -/
def State.disarmed (s : State) : State := s.setTb { s.tb with armed := none }

/-- A pulse with no record armed, or at the range end, disarms alone. -/
theorem State.takePulse_ignored (h : s.tb.armed = none ∨ s.tb.held = true) :
    s.takePulse = s.disarmed := by
  unfold State.takePulse State.disarmed
  simp only
  split
  · rfl
  · rw [if_pos]
    exact h.resolve_left (by simp [*])

/-- A pulse with a record armed meets the time base with the record disarmed. -/
theorem State.takePulse_armed {a : ArmedRecord} (held : s.tb.held = false) (armed : s.tb.armed = some a) :
    s.takePulse = s.disarmed.pulseWith a := by
  unfold State.takePulse State.disarmed
  simp [armed, held]

theorem ArmedRecord.fits_of {a : ArmedRecord} (low : 0 ≤ a.gnss) (high : a.gnss ≤ 86399999000) : a.fits = true := by
  simp [ArmedRecord.fits, low, high]

theorem ArmedRecord.not_fits {a : ArmedRecord} (h : a.gnss < 0 ∨ 86399999000 < a.gnss) : a.fits = false := by
  simp only [ArmedRecord.fits, Bool.and_eq_false_iff, decide_eq_false_iff_not]
  omega

/-- A record in range locks an UNSET time base at its value. -/
theorem State.pulseWith_unset {a : ArmedRecord} (h : s.tb.state = .unset) (fits : a.fits = true) :
    s.pulseWith a = (s.setToPulse a).changeTb .locked 0 := by
  simp only [State.pulseWith, h, fits, if_true]

/-- In LOCKED a pulse is absorbed or does nothing. -/
theorem State.pulseWith_locked {a : ArmedRecord} (h : s.tb.state = .locked) :
    s.pulseWith a = if s.lockedAccepts a then s.slewPulse a else s := by
  simp only [State.pulseWith, h]

/-- A record in range re-locks the time base in HOLDOVER and in LOST. -/
theorem State.pulseWith_relock {a : ArmedRecord} (h : s.tb.state = .holdover ∨ s.tb.state = .lost)
    (fits : a.fits = true) : s.pulseWith a = s.relock a := by
  rcases h with h | h <;> simp only [State.pulseWith, h, fits, if_true]

/-- A record out of range does nothing in UNSET and in LOST. -/
theorem State.pulseWith_unfit {a : ArmedRecord} (h : s.tb.state = .unset ∨ s.tb.state = .lost) (fits : a.fits = false) :
    s.pulseWith a = s := by
  rcases h with h | h <;> simp [State.pulseWith, h, fits]

/-- A record out of range in HOLDOVER loses the time. -/
theorem State.pulseWith_holdover_unfit {a : ArmedRecord} (h : s.tb.state = .holdover) (fits : a.fits = false) :
    s.pulseWith a = s.changeTb .lost 0 := by
  simp [State.pulseWith, h, fits]

/-- The three conditions of a pulse in LOCKED, as the statement writes them. -/
theorem State.lockedAccepts_iff {a : ArmedRecord} {p : Pulse} (h : s.tb.lastPulse = some p) :
    s.lockedAccepts a = true ↔ a.second = p.second + 1 ∧ (0 ≤ a.gnss ∧ a.gnss ≤ 86399999000)
      ∧ p.time + 950 ≤ s.tb.nodeTime ∧ s.tb.nodeTime ≤ p.time + 1050 := by
  simp [State.lockedAccepts, h, ArmedRecord.fits, and_assoc]

/-- Settles O7: a pulse in UNSET and one in LOCKED. -/
theorem pulseLocks : Obligations.PulseLocks := by
  refine ⟨fun s a w wide unset held armed low high => ?_, fun s a p w wide locked held armed last => ?_⟩
  · rw [exec_ppsPulse_wide wide, State.takePulse_armed held armed,
      State.pulseWith_unset (s := s.disarmed) unset (ArmedRecord.fits_of low high), State.changeTb_plain (by simp) (by
        simp [State.setToPulse, State.disarmed, unset])]
    simp only [State.setToPulse, State.disarmed, State.setTb, unset]
    rfl
  · rw [exec_ppsPulse_wide wide, State.takePulse_armed held armed, State.pulseWith_locked (s := s.disarmed) locked]
    by_cases accepted : a.second = p.second + 1 ∧ (0 ≤ a.gnss ∧ a.gnss ≤ 86399999000)
        ∧ p.time + 950 ≤ s.tb.nodeTime ∧ s.tb.nodeTime ≤ p.time + 1050
    · rw [if_pos ((State.lockedAccepts_iff (s := s.disarmed) last).mpr accepted), if_pos accepted]
      rfl
    · rw [if_neg (mt (State.lockedAccepts_iff (s := s.disarmed) last).mp accepted), if_neg accepted]
      rfl

/-- Settles O8: pulses too narrow, met by no record, or by one out of range. -/
theorem pulseNotAccepted : Obligations.PulseNotAccepted := by
  refine ⟨fun s w narrow => exec_ppsPulse_narrow narrow, fun s w wide ignored => ?_,
    fun s a w wide held armed out => ⟨fun stays => ?_, fun holdover => ?_⟩⟩
  · rw [exec_ppsPulse_wide wide, State.takePulse_ignored ignored]
    rfl
  · rw [exec_ppsPulse_wide wide, State.takePulse_armed held armed,
      State.pulseWith_unfit (s := s.disarmed) stays (ArmedRecord.not_fits out)]
    rfl
  · rw [exec_ppsPulse_wide wide, State.takePulse_armed held armed,
      State.pulseWith_holdover_unfit (s := s.disarmed) holdover (ArmedRecord.not_fits out), State.changeTb_suspect (by simp) (by
        simp [State.disarmed, holdover])]
    simp only [State.disarmed, State.setTb, holdover]

/-- A re-lock within 50 ms is a slew and a change of state (R6). -/
theorem State.relock_slew {a : ArmedRecord} (h : (a.gnss - s.tb.nodeTime).natAbs ≤ 50) :
    s.relock a = (s.slewPulse a).changeTb .locked 0 := if_pos h

/-- A re-lock beyond 50 ms sets node time and is delivered as a time step (R6, R10). -/
theorem State.relock_step {a : ArmedRecord} (h : 50 < (a.gnss - s.tb.nodeTime).natAbs) :
    s.relock a
      = ((s.setToPulse a).retimeBoundary.changeTb .locked (a.gnss - s.tb.nodeTime)).deliverStep := if_neg (by
  simp only [State.pulseDiff]; omega)

/-- Settles O9: of the two states that re-lock, LOST alone is left by a departure that R49 marks. -/
theorem relockBySlew : Obligations.RelockBySlew := by
  intro s a w wide state held armed low high near
  rw [exec_ppsPulse_wide wide, State.takePulse_armed held armed,
    State.pulseWith_relock (s := s.disarmed) state (ArmedRecord.fits_of low high), State.relock_slew (s := s.disarmed) near]
  rcases state with state | state
  · rw [State.changeTb_plain (by simp) (by simp [State.slewPulse, State.disarmed, state]), if_neg (by simp [state])]
    rfl
  · rw [State.changeTb_suspect (by simp) (by simp [State.slewPulse, State.disarmed, state])]
    by_cases idle : s.ctl.state = .idle
    · rw [if_pos (by exact idle), if_neg (by simp [idle])]
      rfl
    · rw [if_neg (by exact idle), if_pos ⟨state, idle⟩]
      rfl

/-! ### The expiries of the time base (R7 to R9) -/

/-- Settles O11: each expiry is due under its premises, and is a change of state. -/
theorem timeExpiries : Obligations.TimeExpiries := by
  intro s
  refine ⟨fun p locked last due => ?_, fun p holdover last due => ?_, fun state held reached => ?_,
    fun lost held reached => ?_⟩
  · have due : s.holdoverDue = true := by
      simpa [State.holdoverDue, TimeBase.holdoverAt, locked, Option.any_eq_true] using ⟨p, last, due⟩
    show Host.Outcome.next (if s.holdoverDue then (s.changeTb .holdover 0).serve else s) = _
    rw [if_pos due, State.changeTb_plain (by simp) (by simp [locked]), locked]
  · have due : s.lossDue = true := by
      simpa [State.lossDue, TimeBase.lossAt, holdover, Option.any_eq_true] using ⟨p, last, due⟩
    show Host.Outcome.next (if s.lossDue then (s.changeTb .lost 0).serve else s) = _
    rw [if_pos due, State.changeTb_suspect (by simp) (by simp [holdover]), holdover]
  · have not_lost : s.tb.state ≠ .lost := by rcases state with h | h <;> simp [h]
    have due : s.tb.rangeEndDue = true := by
      rcases state with h | h <;> simp [TimeBase.rangeEndDue, h, held, rangeEnd_eq, reached]
    show Host.Outcome.next (if s.tb.rangeEndDue then s.takeRangeEnd.serve else s) = _
    rw [if_pos due, State.takeRangeEnd, if_neg not_lost, State.changeTb_suspect (by simp) (by simp [not_lost])]
    simp only [State.setTb, rangeEnd_eq]
  · have due : s.tb.rangeEndDue = true := by
      simp [TimeBase.rangeEndDue, lost, held, rangeEnd_eq, reached]
    show Host.Outcome.next (if s.tb.rangeEndDue then s.takeRangeEnd.serve else s) = _
    rw [if_pos due, State.takeRangeEnd, if_pos lost, rangeEnd_eq]
    rfl

end Sys2Proof.Machine
end

