-- ==== Sys2Proof/Proofs/Setup.lean ====
section
/-! PROOF. O44 to O46: SETUP with its fields in their ranges, RUN with its refusals in order, and RESTART. -/

namespace Sys2Proof.Machine

/-! ### Fields of a payload (R196) -/

theorem leNat_lt (bs : List Byte) : leNat bs < 256 ^ bs.length := by
  induction bs with
  | nil => simp [leNat]
  | cons b bs ih =>
    have : b.toNat < 256 := b.isLt
    rw [leNat, List.length_cons, Nat.pow_succ]
    omega

theorem field_length_le (bs : List Byte) (off size : Nat) : (field bs off size).length ≤ size := by
  simp [field]

theorem uAt_lt (bs : List Byte) (off size : Nat) : uAt bs off size < 256 ^ size :=
  (leNat_lt _).trans_le (Nat.pow_le_pow_right (by decide) (field_length_le bs off size))

theorem sAt_bounds (bs : List Byte) (off size : Nat) :
    -(256 ^ size : Nat) ≤ 2 * sAt bs off size ∧ 2 * sAt bs off size < (256 ^ size : Nat) := by
  have low := leNat_lt (field bs off size)
  have wide := Nat.pow_le_pow_right (n := 256) (by decide) (field_length_le bs off size)
  unfold sAt leInt
  split <;> omega

theorem uAt_head (n : Byte) (p : List Byte) : uAt (n :: p) 0 1 = n.toNat := by
  simp [uAt, field, leNat]

/-! ### The codes of a part's fields (R197) -/

theorem Role.ofCode_isSome (c : Nat) : (Role.ofCode c).isSome = true ↔ c ≤ 1 := by
  rcases c with _ | _ | c <;> simp [Role.ofCode]

theorem TriggerSource.ofCode_isSome (c : Nat) : (TriggerSource.ofCode c).isSome = true ↔ c ≤ 2 := by
  rcases c with _ | _ | _ | c <;> simp [TriggerSource.ofCode]

theorem TideMode.ofCode_isSome (c : Nat) : (TideMode.ofCode c).isSome = true ↔ c ≤ 1 := by
  rcases c with _ | _ | c <;> simp [TideMode.ofCode]

theorem markOf_isSome (c : Nat) : (markOf c).isSome = true ↔ c ≤ 1 := by
  rcases c with _ | _ | c <;> simp [markOf]

theorem inRange_iff (lo hi x : Int) : inRange lo hi x = true ↔ lo ≤ x ∧ x ≤ hi := by simp [inRange]

/-! ### The first field out of range (R188) -/

/-- Checks, one for each of a list of statements. -/
def Decides (checks : List Bool) (fields : List Prop) : Prop := List.Forall₂ (fun b f => b = true ↔ f) checks fields

theorem firstBad_eq (m : Nat) (l : List Bool) : firstBad m l = (l.findIdx? (!·)).map (· + m) := by
  induction l generalizing m with
  | nil => rfl
  | cons ok l ih =>
    cases ok
    · simp [firstBad, List.findIdx?_cons]
    · rw [firstBad, if_pos rfl, ih, List.findIdx?_cons]
      cases l.findIdx? (!·) <;> simp [Nat.add_comm, Nat.add_left_comm]

/-- The checks of numbered fields find the first that is out of range, or none. -/
theorem firstBad_of_decides {field : Nat → Prop} {count : Nat} {l : List Bool}
    (h : Decides l ((List.range' 1 count).map field)) :
    (∀ k, FirstOut field count k → firstBad 1 l = some k)
      ∧ ((∀ k, 1 ≤ k → k ≤ count → field k) → firstBad 1 l = none) := by
  have len : l.length = count := by simpa using h.length_eq
  have at_ : ∀ i (hi : i < l.length), l[i] = true ↔ field (1 + i) := fun i hi => by
    simpa using h.get hi (by simpa [len] using hi)
  simp only [firstBad_eq]
  refine ⟨fun k ⟨low, high, out, before⟩ => ?_, fun good => ?_⟩
  · obtain ⟨i, rfl⟩ := Nat.exists_eq_add_of_le low
    have hi : i < l.length := by omega
    have : l.findIdx? (!·) = some i := by
      refine List.findIdx?_eq_some_iff_getElem.mpr ⟨hi, ?_, fun j hj => ?_⟩
      · simpa using mt (at_ i hi).mp out
      · simpa using (at_ j (hj.trans hi)).mpr (before _ (by omega) (by omega))
    rw [this]
    simp [Nat.add_comm]
  · have : l.findIdx? (!·) = none := by
      refine List.findIdx?_eq_none_iff.mpr fun b hb => ?_
      obtain ⟨i, hi, rfl⟩ := List.getElem_of_mem hb
      simpa using (at_ i hi).mpr (good _ (by omega) (by omega))
    rw [this]
    rfl

/-- What a part's checks make of it: it is stored, or its first bad field is named. -/
theorem checkFields_store {α : Type} (codes ranges : List Bool) (a : α) (put : α → Image) :
    (firstBad 1 (List.zipWith (· && ·) codes ranges) = none →
        (checkFields codes ranges a).store put = .ok (put a))
      ∧ ∀ k, firstBad 1 (List.zipWith (· && ·) codes ranges) = some k →
        (checkFields codes ranges a).store put = .bad k := by
  unfold checkFields Checked.store
  exact ⟨fun h => by simp only [h], fun k h => by simp only [h]⟩

/-- What SETUP makes of part `n`: its fields are checked in their order against their ranges, and it is stored or the first bad
one is named. -/
def PartChecked (img : Image) (n : Nat) (p : List Byte) : Prop :=
  (∀ k, FirstOut (SetupField n p) (setupFields n) k → storePart img n p = .bad k)
    ∧ ((∀ k, 1 ≤ k → k ≤ setupFields n → SetupField n p k) → ∃ img', storePart img n p = .ok img')

theorem partChecked_of {α : Type} {img : Image} {n : Nat} {p : List Byte} {codes ranges : List Bool} {a : α}
    {put : α → Image} (stored : storePart img n p = (checkFields codes ranges a).store put)
    (checks : Decides (List.zipWith (· && ·) codes ranges) ((List.range' 1 (setupFields n)).map (SetupField n p))) :
    PartChecked img n p := by
  obtain ⟨out, good⟩ := firstBad_of_decides checks
  obtain ⟨ok, bad⟩ := checkFields_store codes ranges a put
  exact ⟨fun k hk => by rw [stored, bad k (out k hk)], fun h => ⟨_, by rw [stored, ok (good h)]⟩⟩

theorem partChecked (img : Image) (p : List Byte) : ∀ n, 1 ≤ n → PartChecked img n p
  | 1, _ => partChecked_of (n := 1) rfl (by
      simp [Decides, setupFields, Identity.ranges, List.range', SetupField, Role.ofCode_isSome,
        TriggerSource.ofCode_isSome, inRange_iff])
  | 2, _ => partChecked_of (n := 2) rfl (by
      have epoch := uAt_lt p 0 4
      simp [Decides, setupFields, Schedule.ranges, List.range', SetupField, inRange_iff]
      omega)
  | 3, _ => partChecked_of (n := 3) rfl (by
      have count := uAt_lt p 7 1
      simp [Decides, setupFields, Sampling.ranges, List.range', SetupField, inRange_iff]
      omega)
  | 4, _ => partChecked_of (n := 4) rfl (by
      have scale := uAt_lt p 0 4
      have offset := sAt_bounds p 4 4
      have ox := sAt_bounds p 8 2
      have oy := sAt_bounds p 10 2
      have tempRef := sAt_bounds p 18 4
      simp [Decides, setupFields, Instrument.ranges, List.range', SetupField, inRange_iff]
      omega)
  | 5, _ => partChecked_of (n := 5) rfl (by
      simp [Decides, setupFields, TideConfig.ranges, List.range', SetupField, TideMode.ofCode_isSome, inRange_iff])
  | 6, _ => partChecked_of (n := 6) rfl (by
      have silence := uAt_lt p 8 1
      simp [Decides, setupFields, BaseConfig.ranges, List.range', SetupField, inRange_iff]
      omega)
  | 7, _ => partChecked_of (n := 7) rfl (by
      simp [Decides, setupFields, DriftConfig.ranges, List.range', SetupField, markOf_isSome, inRange_iff])
  | 8, _ => partChecked_of (n := 8) rfl (by
      simp [Decides, setupFields, HomeConfig.ranges, List.range', SetupField, inRange_iff])
  | n + 9, _ => partChecked_of (n := n + 9) rfl (by
      simp [Decides, setupFields, Constituent.ranges, List.range', SetupField, inRange_iff])

/-! ### SETUP (R188, R190) -/

variable {s : State}

/-- A SETUP that passes R175's checks: its handler's effect and its answer. -/
theorem exec_setup_taken {t : State} {q n : Byte} {p : List Byte} {r : Reply} (node : s.node = .startup)
    (owed : s.port.owed = false) (length : payloadLengthOk 0x02 (n :: p) = true)
    (effect : s.hunting.takeSetup (n :: p) = (t.hunting, r)) :
    exec (.setup q (n :: p)) s = .next (t.replied 0x02#8 q r) := by
  rw [← State.hunting_replied]
  exact congrArg _ (State.request_taken owed length (by simp [startupOnly, node]) effect rfl)

theorem State.takeSetup_badPart {n : Byte} (h : n.toNat = 0 ∨ 20 < n.toNat) (p : List Byte) :
    s.takeSetup (n :: p) = (s, .range 0 1) := by
  unfold State.takeSetup
  simp only [uAt_head]
  rw [if_neg (by simp; omega)]
  rfl

theorem State.takeSetup_part {n : Byte} (low : 1 ≤ n.toNat) (high : n.toNat ≤ 20) (p : List Byte) :
    s.takeSetup (n :: p) = s.loadPart n.toNat p := by
  unfold State.takeSetup
  simp only [uAt_head]
  rw [if_pos (by simp [low, high])]
  rfl

theorem State.loadPart_bad {n k : Nat} {p : List Byte} (h : storePart s.image n p = .bad k) :
    s.loadPart n p = (s, .range n k) := by
  simp only [State.loadPart, h]

/-- A part stored that brings no change of epoch outside UNSET. -/
theorem State.loadPart_ok {n : Nat} {p : List Byte} {img : Image} (h : storePart s.image n p = .ok img)
    (epoch : n ≠ 2 ∨ s.image.schedule = none ∨ s.tb.state = .unset
      ∨ s.image.schedule.map Schedule.epoch = img.schedule.map Schedule.epoch) :
    s.loadPart n p = ({ s with image := img }, .ok (leBytes 1 n ++ leBytes 4 img.heldSet)) := by
  have kept : n = 2 → ({ s with image := img } : State).epochLoaded (s.image.schedule.map Schedule.epoch)
      ({ s with image := img } : State).schedule.epoch = { s with image := img } := by
    intro two
    unfold State.epochLoaded
    cases held : s.image.schedule with
    | none => rfl
    | some c =>
      refine if_pos ?_
      rcases epoch with other | absent | unset | same
      · exact absurd two other
      · simp [held] at absent
      · simp [unset]
      · rw [held, Option.map_some, eq_comm, Option.map_eq_some_iff] at same
        obtain ⟨c', held', same⟩ := same
        simp [State.schedule, held', same]
  unfold State.loadPart
  simp only [h]
  split
  · rw [kept ‹_›]
  · rfl

/-- A part stored that brings another epoch outside UNSET (R14). -/
theorem State.loadPart_epoch {p : List Byte} {img : Image} {c : Schedule} (h : storePart s.image 2 p = .ok img)
    (held : s.image.schedule = some c) (locked : s.tb.state ≠ .unset)
    (other : some c.epoch ≠ img.schedule.map Schedule.epoch) :
    s.loadPart 2 p
      = (({ s with image := img } : State).unsetTb, .ok (leBytes 1 2 ++ leBytes 4 img.heldSet)) := by
  have kept : ({ s with image := img } : State).epochLoaded (s.image.schedule.map Schedule.epoch)
      ({ s with image := img } : State).schedule.epoch = ({ s with image := img } : State).unsetTb := by
    obtain ⟨c', -, rfl⟩ := Checked.store_ok h
    have other : c.epoch ≠ c'.epoch := fun same => other (by simp [same])
    rw [held, Option.map_some]
    unfold State.epochLoaded
    exact if_neg (by simp [State.schedule, other, locked])
  unfold State.loadPart
  simp only [h, if_true, kept]

/-- The time base returned to UNSET with the controller in IDLE. -/
theorem State.unsetTb_idle (idle : s.ctl.state = .idle) :
    s.unsetTb =
      { s with
        tb := { s.tb with state := .unset, nodeTime := 0, lastPulse := none, armed := none, slew := none, held := false }
        link := { s.link with lastBurst := none }
        port := s.port.offer (.timeState s.tb.state .unset 0 0) } := by
  have suspect : s.ctl.suspect = s.ctl := if_pos idle
  unfold State.unsetTb
  rw [State.changeTb_eq]
  simp only [State.setTb_ctl, suspect, ite_self]
  rfl

/-- Settles O44: the part number, the first bad field (`partChecked`), and what a part stored does to the time base. -/
theorem setupTaken : Obligations.SetupTaken := by
  intro s q n p node owed length
  refine ⟨fun outside => ?_, fun low high => ⟨fun k bad => ?_, fun k out => ?_, fun good => ?_, fun img stored plain => ?_,
    fun img stored two held locked other idle => ?_⟩⟩
  · exact exec_setup_taken node owed length (State.takeSetup_badPart outside p)
  · exact exec_setup_taken node owed length (by rw [State.takeSetup_part low high, State.loadPart_bad (by exact bad)])
  · have bad := (partChecked s.image p n.toNat low).1 k out
    exact exec_setup_taken node owed length (by rw [State.takeSetup_part low high, State.loadPart_bad (by exact bad)])
  · exact (partChecked s.image p n.toNat low).2 good
  · exact exec_setup_taken node owed length (by
      rw [State.takeSetup_part low high, State.loadPart_ok (by exact stored) (by exact plain)]
      rfl)
  · obtain ⟨c, held⟩ := Option.ne_none_iff_exists'.mp held
    rw [two] at stored
    refine exec_setup_taken node owed length ?_
    rw [State.takeSetup_part low high, two, State.loadPart_epoch (by exact stored) (by exact held) (by exact locked)
      (by rwa [held] at other), State.unsetTb_idle (by exact idle)]
    simp only [State.hunting, State.setPort, Port.offer_rx]

/-! ### RUN (R191, R192) -/

/-- A RUN that passes R175's checks: its handler's effect and its answer. -/
theorem exec_run_taken {t : State} {q : Byte} {r : Reply} (node : s.node = .startup)
    (owed : s.port.owed = false) (effect : s.hunting.takeRun = (t.hunting, r)) :
    exec (.run q []) s = .next (t.replied 0x03#8 q r) := by
  rw [← State.hunting_replied]
  exact congrArg _ (State.request_taken owed rfl (by simp [startupOnly, node]) effect rfl)

theorem exec_run_refused {q : Byte} {r : Reply} (node : s.node = .startup) (owed : s.port.owed = false)
    (refusal : s.runRefusal = some r) : exec (.run q []) s = .next (s.replied 0x03#8 q r) := by
  have refusal : s.hunting.runRefusal = some r := refusal
  exact exec_run_taken node owed (by simp only [State.takeRun, refusal])

theorem maskBelow_eq_false {m : BitVec 32} {n : Nat} : maskBelow m n = false ↔ 2 ^ n ≤ m.toNat := by
  simp [maskBelow]

theorem maskBelow_eq_true {m : BitVec 32} {n : Nat} : maskBelow m n = true ↔ m.toNat < 2 ^ n := by
  simp [maskBelow]

/-- The refusals that follow the parts' presence, in their order (R191). -/
theorem State.runRefusal_eq (parts : s.image.firstMissing 1 8 = none)
    (constituents : s.image.firstMissing 9 s.tide.count = none) :
    s.runRefusal =
      if s.schedule.txMask = 0#32 || !maskBelow s.schedule.txMask s.schedule.slots then some (.config 1 1)
      else if !maskBelow s.schedule.rxMask s.schedule.slots then some (.config 1 2)
      else if s.sampling.blockLength < s.sampling.minAccepted then some (.config 1 3)
      else if s.tb.state = .unset || s.tb.held then some (.noTime s.tb.state)
      else none := by
  simp only [State.runRefusal, parts, constituents]

/-- Settles O45: each refusal of R191 after those before it, and what `State.beginRun` leaves. -/
theorem runTaken : Obligations.RunTaken := by
  intro s q node owed
  refine ⟨fun n missing => ?_, fun parts => ⟨fun n missing => ?_, fun constituents => ?_⟩⟩
  · exact exec_run_refused node owed (by simp only [State.runRefusal, missing])
  · exact exec_run_refused node owed (by simp only [State.runRefusal, parts, missing])
  · have refusal := State.runRefusal_eq parts constituents
    refine ⟨fun bad => ?_, fun some_slot txBelow => ?_⟩
    · refine exec_run_refused node owed (refusal.trans (if_pos ?_))
      simpa [maskBelow_eq_false] using bad
    rw [if_neg (by simp [some_slot, maskBelow_eq_true.mpr txBelow])] at refusal
    refine ⟨fun bad => ?_, fun rxBelow => ?_⟩
    · refine exec_run_refused node owed (refusal.trans (if_pos ?_))
      simpa [maskBelow_eq_false] using bad
    rw [if_neg (by simp [maskBelow_eq_true.mpr rxBelow])] at refusal
    refine ⟨fun bad => exec_run_refused node owed (refusal.trans (if_pos bad)), fun blocks => ?_⟩
    rw [if_neg (by omega)] at refusal
    refine ⟨fun bad => exec_run_refused node owed (refusal.trans (if_pos (by simpa using bad))), ?_⟩
    intro locked held n slot start l hn hslot hstart hl
    rw [if_neg (by simp [locked, held])] at refusal
    subst hn hslot hstart hl
    have refusal : s.hunting.runRefusal = none := refusal
    exact exec_run_taken node owed (by
      simp only [State.takeRun, refusal]
      rfl)

/-! ### RESTART (R193) -/

/-- Settles O46: RESTART's handler is `State.restart`. -/
theorem restartTaken : Obligations.RestartTaken := by
  intro s q node owed
  exact congrArg _ (State.request_taken (t := s.hunting.restart) owed rfl (by simp [runningOnly, node]) rfl rfl)

end Sys2Proof.Machine
end

