-- ==== Sys2Proof/Proofs/SettledLoops.lean ====
section
/-! PROOF. What one event passes to the loop table (R135, R146 to R149), as one equation in the statements' terms: the copies and
the CLOSING loops formed anew (`LoopTable.passed`), the freezing test made once (`LoopTable.frozenUp`), and what both do to each
record of the log. -/

namespace Sys2Proof.Machine

/-! ### A record against the loop table -/

/-- A record with its drift term from the table `t` (R139, R147). -/
def Record.reformedBy (t : LoopTable) (moved : Bool) (r : Record) : Record :=
  { r with values := r.values.map fun x => { x with d := t.driftOf moved r x } }

/-- Whether a record hangs on one of the loops as a member or as its closing tie (R149). -/
def Record.hangsOn (ls : List Loop) (r : Record) : Bool :=
  ls.any fun l => l.members.contains r.number || l.closingTie.any fun c => c.occ = r.number

/-- A record with the drift-frozen mark that the freezing of the loops `ls` gives (R149). -/
def Record.markedBy (ls : List Loop) (r : Record) : Record :=
  { r with values := r.values.map fun x => { x with driftFrozen := x.driftFrozen || r.hangsOn ls } }

/-- A loop as its freezing leaves it (R148). -/
def Loop.frozen (l : Loop) : Loop := { l with state := .frozen }

theorem Record.reformedBy_still (t : LoopTable) : Record.reformedBy t false = id := by
  funext r
  have same : (fun x : Values => { x with d := t.driftOf false r x }) = id := by
    funext x
    simp [LoopTable.driftOf]
  simp [reformedBy, same]

theorem Record.markedBy_nil : Record.markedBy [] = id := by
  funext r
  have same : (fun x : Values => { x with driftFrozen := x.driftFrozen || r.hangsOn [] }) = id := by
    funext x
    simp [hangsOn]
  simp only [markedBy, same, Option.map_id, id]

theorem Record.hangsOn_append (ls ms : List Loop) (r : Record) :
    r.hangsOn (ls ++ ms) = (r.hangsOn ls || r.hangsOn ms) := List.any_append

theorem Record.markedBy_markedBy (ls ms : List Loop) (r : Record) :
    (r.markedBy ls).markedBy ms = r.markedBy (ls ++ ms) := by
  simp only [markedBy, hangsOn_append, Option.map_map, Function.comp_def, Bool.or_assoc]
  rfl

/-! ### The passing of the ties' changes -/

theorem LoopTable.slots_follow (t : LoopTable) (log : List Record) :
    (t.follow log).slots = t.slots.map (Loop.copied log) := by
  simp only [LoopTable.slots, LoopTable.follow, List.map_append, Option.toList_map]
  rfl

theorem Loop.tieValues_copied (log : List Record) (l : Loop) :
    (l.copied log).tieValues = l.tieValues ↔ ∀ k ∈ l.opening :: l.closingTie.toList, (k.copied log).v = k.v := by
  unfold Loop.tieValues Loop.copied
  cases l.closingTie <;> simp

/-- The model compares the tie values of the slots; the statements ask for one that has moved. -/
theorem LoopTable.moved_eq_false (t : LoopTable) (log : List Record) :
    t.moved log = false ↔ (t.follow log).slots.map Loop.tieValues = t.slots.map Loop.tieValues := by
  rw [t.slots_follow, List.map_map, List.map_inj_left]
  simp only [Function.comp, Loop.tieValues_copied, LoopTable.moved, List.any_eq_false, decide_eq_true_eq, ne_eq,
    not_not, List.any_eq_true, not_exists, not_and]

/-- Changes of base terms passed to the loop table, and the drift terms that follow (R135, R146, R147). -/
theorem Work.passTies_eq (cfg : DriftConfig) (w : Work) :
    w.passTies cfg =
      { w with
        log := w.log.map (Record.reformedBy (w.loops.passed cfg w.log) (w.loops.moved w.log))
        loops := w.loops.passed cfg w.log } := by
  have follow : w.loops.follow w.log =
      { w.loops with
        closing := w.loops.closing.map (Loop.copied w.log), openLoop := w.loops.openLoop.map (Loop.copied w.log) } := rfl
  unfold Work.passTies LoopTable.passed
  simp only
  cases moved : w.loops.moved w.log with
  | false =>
    rw [if_pos ((w.loops.moved_eq_false w.log).mp moved), if_neg Bool.false_ne_true]
    simp only [Record.reformedBy_still, List.map_id, follow]
  | true =>
    rw [if_neg fun same => by simp [(w.loops.moved_eq_false w.log).mpr same] at moved, if_pos rfl, LoopTable.cascade_eq]
    simp only [Work.reformAll, follow]
    congr 1
    exact List.map_congr_left fun r _ => LoopTable.reformD_eq _ r

/-! ### The freezing of loops -/

/-- One CLOSING loop frozen marks what hangs on it. -/
theorem Work.freezeDrift_loop (w : Work) (l : Loop) :
    (w.freezeDrift (l.members ++ (l.closingTie.map Tie.occ).toList)).log = w.log.map (Record.markedBy [l]) := by
  refine List.map_congr_left fun r _ => ?_
  have hangs : (l.members ++ (l.closingTie.map Tie.occ).toList).contains r.number = r.hangsOn [l] := by
    cases h : l.closingTie <;> simp [Record.hangsOn, h, @eq_comm _ r.number]
  rw [hangs]
  cases h : r.hangsOn [l] with
  | true => simp only [if_true, Record.freezeDrift, Record.markedBy, h, Bool.or_true]
  | false =>
    have same : (fun x : Values => { x with driftFrozen := x.driftFrozen || false }) = id := by
      funext x
      simp
    simp only [Bool.false_eq_true, if_false, Record.markedBy, h, same, Option.map_id, id]

theorem LoopTable.frozenUp_unsettled {t : LoopTable} (h : t.closing.takeWhile Loop.settled = []) : t.frozenUp = t := by
  simp only [LoopTable.frozenUp, h, List.getLast?_nil]

/-- The table with its oldest CLOSING loop `l` frozen, the others `rest` (R148). -/
def LoopTable.frozeOldest (t : LoopTable) (l : Loop) (rest : List Loop) : LoopTable :=
  { t with
    closing := rest, lastFrozen := some l
    openLoop := t.openLoop.map fun o =>
      { o with rate := ({ t with closing := rest, lastFrozen := some l } : LoopTable).priorRate o.number } }

theorem LoopTable.frozenUp_cons {t : LoopTable} {l : Loop} {rest : List Loop} (closing : t.closing = l :: rest)
    (settled : l.settled = true) : t.frozenUp = (t.frozeOldest l.frozen rest).frozenUp := by
  cases h : rest.takeWhile Loop.settled with
  | nil =>
    rw [LoopTable.frozenUp_unsettled (t := t.frozeOldest l.frozen rest) h]
    have drop : rest.dropWhile Loop.settled = rest := by
      simpa [h] using List.takeWhile_append_dropWhile (p := Loop.settled) (l := rest)
    simp only [LoopTable.frozenUp, closing, List.takeWhile_cons, settled, if_true, h, List.getLast?_singleton,
      List.dropWhile_cons, drop]
    rfl
  | cons m ms =>
    simp only [LoopTable.frozenUp, closing, List.takeWhile_cons, settled, if_true, h,
      List.dropWhile_cons, LoopTable.frozeOldest, List.getLast?_cons, Option.map_map]
    rfl

theorem Work.freezeOldest_eq {w : Work} {l : Loop} {rest : List Loop} (closing : w.loops.closing = l :: rest) :
    w.freezeOldest false =
      { w with
        log := w.log.map (Record.markedBy [l])
        loops := w.loops.frozeOldest l.frozen rest, gone := w.gone ++ [l.frozen] } := by
  have log := w.freezeDrift_loop l
  simp only [Work.freezeOldest, closing, LoopTable.rateBefore_eq, Bool.or_false]
  simp only [Work.freezeDrift] at log ⊢
  rw [log]
  rfl

/-- The freezing test (R148, R149): the CLOSING loops from the oldest to the first that does not qualify. -/
theorem freezeReady_eq (n : Nat) (w : Work) (h : w.loops.closing.length ≤ n) :
    freezeReady n w =
      { w with
        log := w.log.map (Record.markedBy (w.loops.closing.takeWhile Loop.settled))
        loops := w.loops.frozenUp
        gone := w.gone ++ (w.loops.closing.takeWhile Loop.settled).map Loop.frozen } := by
  have still : ∀ w : Work, w.loops.closing.takeWhile Loop.settled = [] →
      w = { w with
        log := w.log.map (Record.markedBy (w.loops.closing.takeWhile Loop.settled))
        loops := w.loops.frozenUp
        gone := w.gone ++ (w.loops.closing.takeWhile Loop.settled).map Loop.frozen } := by
    intro w none
    simp only [none, LoopTable.frozenUp_unsettled none, List.map_nil, List.append_nil]
    rw [Record.markedBy_nil, List.map_id]
  induction n generalizing w with
  | zero => exact still w (by rw [List.length_eq_zero_iff.mp (Nat.le_zero.mp h)]; rfl)
  | succ n ih =>
    unfold freezeReady
    split
    · rename_i closing
      exact still w (by rw [closing]; rfl)
    · rename_i l rest closing
      split
      · rename_i settled
        rw [Loop.tiesFinal_eq] at settled
        rw [ih _ (by simp [Work.freezeOldest_eq closing, LoopTable.frozeOldest, closing] at h ⊢; omega), Work.freezeOldest_eq closing,
          LoopTable.frozenUp_cons closing settled]
        simp only [LoopTable.frozeOldest, closing, List.takeWhile_cons, settled, if_true, List.map_map, List.map_cons,
          List.append_assoc, List.singleton_append]
        congr 1
        exact List.map_congr_left fun r _ => Record.markedBy_markedBy _ _ r
      · rename_i unsettled
        refine still w ?_
        rw [closing, List.takeWhile_cons, if_neg (by rwa [Loop.tiesFinal_eq] at unsettled)]

/-! ### The two together -/

/-- What an event's work `w` passes to each record (R147, R149): a drift term and a drift-frozen mark. -/
def Work.settled (cfg : DriftConfig) (w : Work) (r : Record) : Record :=
  (r.reformedBy (w.loops.passed cfg w.log) (w.loops.moved w.log)).markedBy
    ((w.loops.passed cfg w.log).closing.takeWhile Loop.settled)

/-- What one event passes to the loop table (R135, R146 to R149). -/
theorem Work.settleLoops_eq (cfg : DriftConfig) (w : Work) :
    w.settleLoops cfg =
      { log := w.log.map (w.settled cfg), waiting := w.waiting
        loops := (w.loops.passed cfg w.log).frozenUp
        gone := w.gone ++ ((w.loops.passed cfg w.log).closing.takeWhile Loop.settled).map Loop.frozen } := by
  simp only [Work.settleLoops]
  rw [Work.passTies_eq, freezeReady_eq _ _ (Nat.le_refl _), List.map_map]
  rfl

/-! ### What the passing reads of the log -/

/-- What a tie's copy takes of its record (R146). -/
def Record.tieKey (r : Record) : Nat × Option (Int × Bool) :=
  (r.number, r.values.map fun x => (x.g + x.cTilt + x.cTemp - x.tModel - x.term.r, x.term.final))

theorem Tie.copied_eq (log : List Record) (k : Tie) :
    k.copied log =
      match ((log.map Record.tieKey).find? fun y => y.1 = k.occ).bind Prod.snd with
      | none => k
      | some y => { k with v := y.1, final := y.2 } := by
  have number : (fun y : Nat × Option (Int × Bool) => decide (y.1 = k.occ)) ∘ Record.tieKey
      = fun r => decide (r.number = k.occ) := rfl
  rw [List.find?_map, number]
  unfold Tie.copied
  cases log.find? fun r => r.number = k.occ with
  | none => rfl
  | some r => cases values : r.values <;> simp [Record.tieKey, values]

variable {log log' : List Record}

theorem Tie.copied_congr (h : log.map Record.tieKey = log'.map Record.tieKey) : Tie.copied log = Tie.copied log' := by
  funext k
  rw [Tie.copied_eq, Tie.copied_eq, h]

theorem Loop.copied_congr (h : log.map Record.tieKey = log'.map Record.tieKey) : Loop.copied log = Loop.copied log' := by
  funext l
  simp only [Loop.copied, Tie.copied_congr h]

theorem LoopTable.moved_congr (t : LoopTable) (h : log.map Record.tieKey = log'.map Record.tieKey) :
    t.moved log = t.moved log' := by
  unfold LoopTable.moved
  rw [Tie.copied_congr h]

theorem LoopTable.passed_congr (cfg : DriftConfig) (t : LoopTable) (h : log.map Record.tieKey = log'.map Record.tieKey) :
    t.passed cfg log = t.passed cfg log' := by
  unfold LoopTable.passed
  rw [t.moved_congr h, Loop.copied_congr h]

theorem Work.settled_tieKey (cfg : DriftConfig) (w : Work) (r : Record) : (w.settled cfg r).tieKey = r.tieKey := by
  unfold Record.tieKey Work.settled Record.markedBy Record.reformedBy
  cases r.values <;> rfl

end Sys2Proof.Machine
end

