-- ==== Sys2Proof/Proofs/EventRecords.lean ====
section
/-! PROOF. What one event of the reduction engine leaves of a record (R156, R165 to R167): its base term and its flags changed first
(`Record.Retermed`), then its drift place by the loop table (`Work.settled`), then the closing of the event (`Record.close`). -/

namespace Sys2Proof.Machine

/-! ### Records by number -/

theorem findRecord_of_mem {log : List Record} (nodup : (log.map Record.number).Nodup) {r : Record} (h : r ∈ log) :
    findRecord r.number log = some r := by
  unfold findRecord
  induction log with
  | nil => cases h
  | cons a log ih =>
    obtain ⟨fresh, nodup⟩ := List.nodup_cons.mp nodup
    rcases List.mem_cons.mp h with rfl | h
    · simp
    · have other : a.number ≠ r.number := fun same => fresh (same ▸ List.mem_map_of_mem h)
      rw [List.find?_cons_of_neg (by simpa using other), ih nodup h]

theorem findRecord_none {log : List Record} {n : Nat} (h : ∀ r ∈ log, r.number ≠ n) : findRecord n log = none :=
  List.find?_eq_none.mpr fun r hr => by simpa using h r hr

theorem mem_of_findRecord {log : List Record} {n : Nat} {r : Record} (h : findRecord n log = some r) :
    r ∈ log ∧ r.number = n :=
  ⟨List.mem_of_find?_eq_some h, by simpa using List.find?_some h⟩

theorem eq_of_number {log : List Record} (nodup : (log.map Record.number).Nodup) {r r' : Record} (h : r ∈ log) (h' : r' ∈ log)
    (same : r.number = r'.number) : r = r' :=
  List.inj_on_of_nodup_map nodup h h' same

/-! ### Base terms changed -/

/-- A record `r'` that differs from `r` in its flags and, while it is REDUCED, in its base term, whose source and expiry stay
(R128, R132, R134, R157, R164). -/
def Record.Retermed (r r' : Record) : Prop :=
  ∃ (f : BaseTerm → BaseTerm) (g : RecordFlags), r' = { r.mapTerm f with flags := g }
    ∧ ∀ x ∈ r.values, (f x.term).source = x.term.source ∧ (f x.term).expiry = x.term.expiry
      ∧ (r.state ≠ .reduced → f x.term = x.term)

namespace Record.Retermed

variable {r r' r'' : Record}

theorem refl (r : Record) : r.Retermed r := by
  refine ⟨id, r.flags, ?_, fun x _ => ⟨rfl, rfl, fun _ => rfl⟩⟩
  obtain ⟨_, _, _, _, _, _, _, _, _, _, values, _, _, _, _⟩ := r
  cases values <;> rfl

theorem trans (h : r.Retermed r') (h' : r'.Retermed r'') : r.Retermed r'' := by
  obtain ⟨f, g, rfl, kept⟩ := h
  obtain ⟨f', g', rfl, kept'⟩ := h'
  refine ⟨f' ∘ f, g', ?_, fun x hx => ?_⟩
  · simp only [Record.mapTerm, Option.map_map, Function.comp_def]
  · obtain ⟨source, expiry, still⟩ := kept x hx
    obtain ⟨source', expiry', still'⟩ := kept' { x with term := f x.term } (by
      have some : r.values = some x := hx
      simp [Record.mapTerm, some])
    exact ⟨source'.trans source, expiry'.trans expiry, fun state => (still' state).trans (still state)⟩

/-- A change of the flags alone. -/
theorem flags (r : Record) (g : RecordFlags) : r.Retermed { r with flags := g } := by
  refine ⟨id, g, ?_, fun _ _ => ⟨rfl, rfl, fun _ => rfl⟩⟩
  simp only [Record.mapTerm, id, Option.map_id']

/-- A change of a REDUCED record's base term, and maybe of its flags. -/
theorem mapTerm (h : r.state = .reduced) (f : BaseTerm → BaseTerm) (g : RecordFlags)
    (kept : ∀ m, (f m).source = m.source ∧ (f m).expiry = m.expiry) : r.Retermed { r.mapTerm f with flags := g } :=
  ⟨f, g, rfl, fun _ _ => ⟨(kept _).1, (kept _).2, fun other => absurd h other⟩⟩

theorem number (h : r.Retermed r') : r'.number = r.number := by obtain ⟨f, g, rfl, -⟩ := h; rfl

theorem header (h : r.Retermed r') : r'.header = r.header := by obtain ⟨f, g, rfl, -⟩ := h; rfl

theorem state (h : r.Retermed r') : r'.state = r.state := by obtain ⟨f, g, rfl, -⟩ := h; rfl

theorem revisions (h : r.Retermed r') : r'.revisions = r.revisions := by obtain ⟨f, g, rfl, -⟩ := h; rfl

theorem values_none (h : r.Retermed r') (bare : r.values = none) : r'.values = none := by
  obtain ⟨f, g, rfl, -⟩ := h
  simp [Record.mapTerm, bare]

/-- The values of the two, but for the base term. -/
theorem values_some (h : r.Retermed r') {x : Values} (hx : r.values = some x) :
    ∃ m, r'.values = some { x with term := m } ∧ m.source = x.term.source ∧ m.expiry = x.term.expiry
      ∧ (r.state ≠ .reduced → m = x.term) := by
  obtain ⟨f, g, rfl, kept⟩ := h
  exact ⟨f x.term, by simp [Record.mapTerm, hx], kept x hx⟩

end Record.Retermed

/-! ### The closing of an event -/

theorem Record.close_number (o : Option Record) (r : Record) : (r.close o).number = r.number := by
  unfold Record.close
  split
  · rfl
  · split <;> rfl

theorem Record.close_flags (o : Option Record) (r : Record) : (r.close o).flags = r.flags := by
  unfold Record.close
  split
  · rfl
  · split <;> rfl

theorem Record.close_other {r : Record} (o : Option Record) (h : r.state ≠ .reduced) : r.close o = r := by
  unfold Record.close
  split
  · rfl
  · rw [if_neg h]

theorem Record.close_none {r : Record} (o : Option Record) (h : r.values = none) : r.close o = r := by
  simp only [Record.close, h]

theorem Record.close_reduced {r : Record} (o : Option Record) (h : r.state = .reduced) {x : Values} (hx : r.values = some x) :
    r.close o =
      { r with
        values := some x.reform, state := x.stateAfter
        revisions := if o.any (fun o => o.revised x x.stateAfter) then min 255 (r.revisions + 1) else r.revisions } := by
  simp only [Record.close, hx, if_pos h]

/-- The closing of an event changes V and g_red of the values alone. -/
theorem Record.close_values (o : Option Record) (r : Record) :
    (r.close o).values = r.values ∨ ∃ x, r.values = some x ∧ (r.close o).values = some x.reform := by
  cases hx : r.values with
  | none => exact .inl (by rw [Record.close_none o hx, hx])
  | some x =>
    by_cases h : r.state = .reduced
    · exact .inr ⟨x, rfl, by rw [Record.close_reduced o h hx]⟩
    · exact .inl (by rw [Record.close_other o h, hx])

theorem Record.close_terms (o : Option Record) (r : Record) :
    (r.close o).values.map Values.term = r.values.map Values.term := by
  rcases r.close_values o with same | ⟨x, hx, formed⟩
  · rw [same]
  · rw [hx, formed]; rfl

theorem Record.close_tieKey (o : Option Record) (r : Record) : (r.close o).tieKey = r.tieKey := by
  unfold Record.tieKey
  rw [Record.close_number]
  rcases r.close_values o with same | ⟨x, hx, formed⟩
  · rw [same]
  · rw [hx, formed]; rfl

theorem Record.close_written (o : Option Record) (r : Record) : (r.close o).written = r.written := by
  cases hx : r.values with
  | none => rw [Record.close_none o hx]
  | some x =>
    by_cases h : r.state = .reduced
    · simp only [Record.close_reduced o h hx, Record.written, hx]; rfl
    · rw [Record.close_other o h]

/-! ### A record over an event -/

/-- What an event may change of a record that stood before it, up to the event's closing: its flags, its base term while it is
REDUCED, and its drift place while the drift-frozen mark is clear (R149, R156, R157). -/
structure Record.Changed (o r : Record) : Prop where
  fixed : r = { o with flags := r.flags, values := r.values }
  bare : o.values = none → r.values = none
  values : ∀ x, o.values = some x → ∃ m d frozen, r.values = some { x with term := m, d := d, driftFrozen := frozen }
    ∧ m.source = x.term.source ∧ m.expiry = x.term.expiry ∧ (o.state ≠ .reduced → m = x.term)
    ∧ (x.driftFrozen = true → frozen = true ∧ d = x.d)

namespace Record.Changed

variable {o r r' : Record}

theorem refl (r : Record) : r.Changed r :=
  ⟨rfl, id, fun x hx => ⟨x.term, x.d, x.driftFrozen, hx, rfl, rfl, fun _ => rfl, fun mark => ⟨mark, rfl⟩⟩⟩

theorem state (h : o.Changed r) : r.state = o.state := by rw [h.fixed]

theorem number (h : o.Changed r) : r.number = o.number := by rw [h.fixed]

theorem header (h : o.Changed r) : r.header = o.header := by rw [h.fixed]

theorem trans (h : o.Changed r) (h' : r.Changed r') : o.Changed r' := by
  refine ⟨?_, h'.bare ∘ h.bare, fun x hx => ?_⟩
  · conv_lhs => rw [h'.fixed, h.fixed]
  · obtain ⟨m, d, frozen, values, source, expiry, still, stays⟩ := h.values x hx
    obtain ⟨m', d', frozen', values', source', expiry', still', stays'⟩ := h'.values _ values
    refine ⟨m', d', frozen', values', source'.trans source, expiry'.trans expiry, fun other => ?_, fun mark => ?_⟩
    · exact (still' (h.state.symm ▸ other)).trans (still other)
    · obtain ⟨frozen, d⟩ := stays mark
      obtain ⟨frozen', d'⟩ := stays' frozen
      exact ⟨frozen', d'.trans d⟩

theorem of_retermed (h : o.Retermed r) : o.Changed r := by
  refine ⟨?_, h.values_none, fun x hx => ?_⟩
  · obtain ⟨f, g, rfl, -⟩ := h
    rfl
  · obtain ⟨m, values, source, expiry, still⟩ := h.values_some hx
    exact ⟨m, x.d, x.driftFrozen, values, source, expiry, still, fun mark => ⟨mark, rfl⟩⟩

/-- A change of the flags alone. -/
theorem flags (r : Record) (g : RecordFlags) : r.Changed { r with flags := g } := of_retermed (.flags r g)

/-- A change of the drift place that a set drift-frozen mark forbids. -/
theorem drift (r : Record) {d : Values → Int} {frozen : Values → Bool}
    (stays : ∀ x, r.values = some x → x.driftFrozen = true → frozen x = true ∧ d x = x.d) :
    r.Changed { r with values := r.values.map fun x => { x with d := d x, driftFrozen := frozen x } } := by
  refine ⟨rfl, fun bare => by simp [bare], fun x hx => ?_⟩
  exact ⟨x.term, d x, frozen x, by simp [hx], rfl, rfl, fun _ => rfl, stays x hx⟩

theorem written (h : o.Changed r) : r.written = o.written := by
  have values : r.values.map (fun x => { x with
      term := { x.term with outcome := .model, final := true, bracket := none, r := 0 }
      d := 0, driftFrozen := true, v := 0, gRed := 0 })
      = o.values.map (fun x => { x with
      term := { x.term with outcome := .model, final := true, bracket := none, r := 0 }
      d := 0, driftFrozen := true, v := 0, gRed := 0 }) := by
    cases hx : o.values with
    | none => rw [h.bare hx]
    | some x =>
      obtain ⟨m, d, frozen, values, source, expiry, -⟩ := h.values x hx
      simp [values, source, expiry]
  unfold Record.written
  rw [values, h.fixed]

/-- A record that is not REDUCED keeps all but its flags. -/
theorem other (h : o.Changed r) (sound : RecordSound o) (state : o.state ≠ .reduced) : r = { o with flags := r.flags } := by
  have values : r.values = o.values := by
    cases hx : o.values with
    | none => exact h.bare hx
    | some x =>
      obtain ⟨m, d, frozen, values, -, -, still, stays⟩ := h.values x hx
      have mark : x.driftFrozen = true := by
        cases other : o.state with
        | aborted => simp [RecordSound, other, hx] at sound
        | reduced => exact absurd other state
        | sealed =>
          simp only [RecordSound, other] at sound
          exact (sound x hx).2
      obtain ⟨rfl, rfl⟩ := stays mark
      rw [values, still state]
      congr 1
      cases x
      cases mark
      rfl
  have fixed := h.fixed
  rwa [values] at fixed

end Record.Changed

/-- Whether an event revised a record (R167). -/
theorem Record.revised_iff {o : Record} {x : Values} (hx : o.values = some x) (y : Values) (state : RecState) :
    o.revised y state = true ↔ ¬(y.term.r = x.term.r ∧ y.d = x.d ∧ state = o.state) := by
  simp only [Record.revised, hx, Bool.or_eq_true, decide_eq_true_eq, not_and_or, or_assoc]
  exact or_congr (not_congr eq_comm) (or_congr (not_congr eq_comm) (not_congr eq_comm))

/-- What an event leaves of a record that stood before it (R75, R157, R165 to R167). -/
theorem Record.Changed.closed {o r : Record} (h : o.Changed r) (sound : RecordSound o) : o.Closed (r.close (some o)) := by
  unfold Record.Closed
  split
  · rename_i reduced
    intro x hx
    have hx : o.values = some x := hx
    obtain ⟨m, d, frozen, values, -, -, -, stays⟩ := h.values x hx
    have revisions : r.revisions = o.revisions := by rw [h.fixed]
    rw [Record.close_reduced _ (h.state.trans reduced) values]
    refine ⟨_, rfl, rfl, rfl, stays, rfl, ?_⟩
    simp only [Option.any_some, Record.revised_iff hx, ite_not, revisions]
    rfl
  · rename_i other
    rw [Record.close_other _ (h.state ▸ other), h.other sound other]

end Sys2Proof.Machine
end

