-- ==== Sys2Proof/Proofs/EventTerms.lean ====
section
/-! PROOF. The base-term work of one event (R128 to R134, R162 to R164): each of its operations changes base terms and flags of
REDUCED records alone, leaves the loops to what follows, and keeps the pending list to REDUCED records. -/

namespace Sys2Proof.Machine

/-! ### Work on base terms -/

/-- Every record of this number is REDUCED. -/
def Work.Open (w : Work) (n : Nat) : Prop := ∀ r ∈ w.log, r.number = n → r.state = .reduced

/-- What base-term work relies on: an aborted record holds no values, and pending entries are for REDUCED records (R162, R165). -/
structure Work.Ready (w : Work) : Prop where
  aborted : ∀ r ∈ w.log, r.state = .aborted → r.values = none
  pending : ∀ e ∈ w.waiting, w.Open e.occ

/-- Work that has changed base terms and flags alone. -/
structure Work.Reterms (w w' : Work) : Prop where
  log : ∃ φ : Record → Record, w'.log = w.log.map φ ∧ ∀ r ∈ w.log, r.Retermed (φ r)
  loops : w'.loops = w.loops
  gone : w'.gone = w.gone
  waiting : ∀ e ∈ w'.waiting, e ∈ w.waiting ∨ w.Open e.occ

/-- The parts of the engine at the start of an event with a sound log. -/
theorem LogSound.ready {s : State} (h : LogSound s) : s.eng.work.Ready := by
  obtain ⟨increasing, -, -, sound, -, -, pending⟩ := h
  have nodup : (s.eng.log.map Record.number).Nodup :=
    List.pairwise_map.mpr (increasing.imp fun h => Nat.ne_of_lt h)
  refine ⟨fun r hr aborted => ?_, fun e he r hr same => ?_⟩
  · have := sound r hr
    simpa only [RecordSound, aborted] using this
  · obtain ⟨r', hr', same', reduced, -⟩ := pending e he
    have : r = r' := eq_of_number nodup hr hr' (same.trans same'.symm)
    rwa [this]

namespace Work.Reterms

variable {w w' w'' : Work}

theorem refl (w : Work) : w.Reterms w :=
  ⟨⟨id, (List.map_id _).symm, fun r _ => .refl r⟩, rfl, rfl, fun _ he => .inl he⟩

theorem isOpen (h : w.Reterms w') {n : Nat} (open_ : w.Open n) : w'.Open n := by
  obtain ⟨φ, log, retermed⟩ := h.log
  intro r' hr' same
  rw [log] at hr'
  obtain ⟨r, hr, rfl⟩ := List.mem_map.mp hr'
  rw [(retermed r hr).state]
  exact open_ r hr ((retermed r hr).number.symm.trans same)

theorem open_of (h : w.Reterms w') {n : Nat} (open_ : w'.Open n) : w.Open n := by
  obtain ⟨φ, log, retermed⟩ := h.log
  intro r hr same
  rw [← (retermed r hr).state]
  exact open_ (φ r) (log ▸ List.mem_map_of_mem hr) ((retermed r hr).number.trans same)

theorem ready (h : w.Reterms w') (ready : w.Ready) : w'.Ready := by
  obtain ⟨φ, log, retermed⟩ := h.log
  refine ⟨fun r' hr' aborted => ?_, fun e he => ?_⟩
  · rw [log] at hr'
    obtain ⟨r, hr, rfl⟩ := List.mem_map.mp hr'
    exact (retermed r hr).values_none (ready.aborted r hr ((retermed r hr).state.symm.trans aborted))
  · exact h.isOpen ((h.waiting e he).elim (ready.pending e) id)

theorem trans (h : w.Reterms w') (h' : w'.Reterms w'') : w.Reterms w'' := by
  obtain ⟨φ, log, retermed⟩ := h.log
  obtain ⟨φ', log', retermed'⟩ := h'.log
  refine ⟨⟨φ' ∘ φ, by rw [log', log, List.map_map], fun r hr => ?_⟩, h'.loops.trans h.loops, h'.gone.trans h.gone, ?_⟩
  · exact (retermed r hr).trans (retermed' _ (log ▸ List.mem_map_of_mem hr))
  · intro e he
    rcases h'.waiting e he with he | open_
    · exact h.waiting e he
    · exact .inr (h.open_of open_)

/-- A chain of steps over occupations that are REDUCED. -/
theorem foldl {f : Work → Nat → Work} (step : ∀ (w : Work) n, w.Ready → w.Open n → w.Reterms (f w n)) (ns : List Nat)
    {w : Work} (ready : w.Ready) (open_ : ∀ n ∈ ns, w.Open n) : w.Reterms (ns.foldl f w) := by
  induction ns generalizing w with
  | nil => exact refl w
  | cons n ns ih =>
    have first := step w n ready (open_ n List.mem_cons_self)
    exact first.trans (ih (first.ready ready) fun m hm => first.isOpen (open_ m (List.mem_cons_of_mem _ hm)))

/-! ### The operations -/

/-- Entries that leave the pending list. -/
theorem filter (w : Work) (p : PendingEntry → Bool) : w.Reterms { w with waiting := w.waiting.filter p } :=
  ⟨(refl w).log, rfl, rfl, fun _ he => .inl (List.mem_filter.mp he).1⟩

/-- Records changed one by one. -/
theorem map {f : Record → Record} (h : ∀ r ∈ w.log, r.Retermed (f r)) : w.Reterms { w with log := w.log.map f } :=
  ⟨⟨f, rfl, h⟩, rfl, rfl, fun _ he => .inl he⟩

theorem modify {n : Nat} {f : Record → Record} (h : ∀ r ∈ w.log, r.number = n → r.Retermed (f r)) :
    w.Reterms (w.modify n f) := by
  refine map fun r hr => ?_
  split
  · exact h r hr ‹_›
  · exact .refl r

theorem makeFinal {n : Nat} (open_ : w.Open n) (flag : RecordFlags → RecordFlags) : w.Reterms (w.makeFinal flag n) := by
  have terms : w.Reterms (w.modify n fun r => { r.mapTerm BaseTerm.makeFinal with flags := flag r.flags }) :=
    modify fun r hr same => .mapTerm (open_ r hr same) _ _ fun m => by unfold BaseTerm.makeFinal; split <;> exact ⟨rfl, rfl⟩
  exact terms.trans (filter _ _)

theorem mem_insertBy {α : Type} (before : α → α → Bool) (x y : α) (l : List α) : y ∈ insertBy before x l ↔ y = x ∨ y ∈ l := by
  induction l with
  | nil => simp [insertBy]
  | cons a l ih =>
    unfold insertBy
    split
    · simp only [List.mem_cons, ih, or_left_comm]
    · simp

theorem insert {e : PendingEntry} (open_ : w.Open e.occ) :
    w.Reterms { w with waiting := insertBy PendingEntry.older e w.waiting } := by
  refine ⟨(refl w).log, rfl, rfl, fun y hy => ?_⟩
  rcases (mem_insertBy ..).mp hy with rfl | hy
  · exact .inr open_
  · exact .inl hy

theorem enter {e : PendingEntry} (ready : w.Ready) (open_ : w.Open e.occ) : w.Reterms (w.enter e) := by
  unfold Work.enter
  split
  · exact insert open_
  · split
    · exact refl w
    · rename_i oldest _ waiting
      split
      · exact makeFinal open_ _
      · have forced := makeFinal (ready.pending oldest (waiting ▸ List.mem_cons_self)) flagForced
        exact forced.trans (insert (forced.isOpen open_))

theorem reevaluate (s : State) {n : Nat} (open_ : w.Open n) : w.Reterms (Machine.reevaluate s w n) := by
  unfold Machine.reevaluate
  split
  · exact refl w
  · split
    · exact refl w
    · simp only
      have taken : ∀ y : Selection, w.Reterms (w.modify n fun r => r.mapTerm fun t => t.take y) :=
        fun y => modify fun r hr same => .mapTerm (open_ r hr same) (fun t => t.take y) r.flags fun _ => ⟨rfl, rfl⟩
      split
      · exact (taken _).trans (filter _ _)
      · exact taken _

theorem reevaluateAll (s : State) (ready : w.Ready) : w.Reterms (Machine.reevaluateAll s w) := by
  refine foldl (fun w n _ open_ => reevaluate s open_) _ ready fun n hn => ?_
  obtain ⟨e, he, rfl⟩ := List.mem_map.mp hn
  exact ready.pending e he

theorem expireOne (s : State) {n : Nat} (open_ : w.Open n) : w.Reterms (Machine.expireOne s w n) := by
  unfold Machine.expireOne
  have again := reevaluate s open_
  split
  · simp only
    split
    · exact again.trans (makeFinal (again.isOpen open_) _)
    · exact again
  · exact refl w

theorem settleEntry {n : Nat} (ready : w.Ready) (open_ : w.Open n) : w.Reterms (Machine.settleEntry w n) := by
  unfold Machine.settleEntry
  split
  · exact refl w
  · split
    · exact refl w
    · split
      · exact filter _ _
      · split
        · exact refl w
        · exact enter ready open_

theorem leaveWhenFinal (w : Work) (n : Nat) : w.Reterms (Machine.leaveWhenFinal w n) := by
  unfold Machine.leaveWhenFinal
  split
  · exact refl w
  · split
    · exact filter _ _
    · exact refl w

/-! ### Revisions from the bases (R132 to R134) -/

theorem BaseTerm.revise_kept (t : BaseTerm) (mid fromSeq : Nat) (step : Int) (epoch : Nat) :
    (t.revise mid fromSeq step epoch).source = t.source ∧ (t.revise mid fromSeq step epoch).expiry = t.expiry := by
  unfold BaseTerm.revise
  split <;> exact ⟨rfl, rfl⟩

/-- A record that is neither sealed nor, with values, aborted is REDUCED. -/
theorem reduced_of {r : Record} {x : Values} (aborted : r.state = .aborted → r.values = none) (values : r.values = some x)
    (sealed : r.state ≠ .sealed) : r.state = .reduced := by
  cases state : r.state with
  | aborted => rw [aborted state] at values; cases values
  | reduced => rfl
  | sealed => exact absurd state sealed

theorem revise {r : Record} (aborted : r.state = .aborted → r.values = none) (peer series fromSeq : Nat) (step : Int)
    (epoch : Nat) (fresh : List Nat) : r.Retermed (r.revise peer series fromSeq step epoch fresh) := by
  unfold Record.revise
  split
  · exact .refl r
  · rename_i x values
    split
    · exact .refl r
    · split
      · exact .refl r
      · split
        · split
          · exact .flags r _
          · exact .refl r
        · rename_i sealed
          split
          · exact .refl r
          · refine ⟨fun t => t.revise x.mid fromSeq step epoch, r.flags, ?_, fun y hy => ?_⟩
            · simp only [Record.mapTerm, values, Option.map_some]
            · have kept := BaseTerm.revise_kept y.term x.mid fromSeq step epoch
              exact ⟨kept.1, kept.2, fun other => absurd (reduced_of aborted values sealed) other⟩

theorem lossTerm_kept (s : State) (h : Header) (mid : Nat) (t : BaseTerm) :
    (lossTerm s h mid t).source = t.source ∧ (lossTerm s h mid t).expiry = t.expiry := by
  unfold lossTerm
  split <;> exact ⟨rfl, rfl⟩

theorem lose (s : State) {r : Record} (aborted : r.state = .aborted → r.values = none) (peer series : Nat) :
    r.Retermed (r.lose s peer series) := by
  unfold Record.lose
  split
  · exact .refl r
  · split
    · exact .flags r _
    · rename_i sealed
      split
      · exact .refl r
      · rename_i x values
        refine ⟨lossTerm s r.header x.mid, { r.flags with baseInvalidated := r.flags.baseInvalidated || x.term.expiry ≤ s.tb.nodeTime },
          ?_, fun y hy => ?_⟩
        · simp only [Record.mapTerm, values, Option.map_some]
        · have kept := lossTerm_kept s r.header x.mid y.term
          exact ⟨kept.1, kept.2, fun other => absurd (reduced_of aborted values sealed) other⟩

/-- A coherence loss re-selects REDUCED records alone. -/
theorem open_of_reached (ready : w.Ready) (nodup : (w.log.map Record.number).Nodup) {peer series n : Nat}
    (h : n ∈ reachedByLoss w peer series) : w.Open n := by
  obtain ⟨r, hr, rfl⟩ := List.mem_map.mp h
  obtain ⟨hr, reached⟩ := List.mem_filter.mp hr
  simp only [Bool.and_eq_true, decide_eq_true_eq] at reached
  obtain ⟨sealed, bracket⟩ := reached
  intro r' hr' same
  obtain rfl := eq_of_number nodup hr' hr same
  cases values : r'.values with
  | none => simp [Record.bracketOn, values] at bracket
  | some x => exact reduced_of (ready.aborted r' hr) values sealed

theorem numbers (h : w.Reterms w') : w'.log.map Record.number = w.log.map Record.number := by
  obtain ⟨φ, log, retermed⟩ := h.log
  rw [log, List.map_map]
  exact List.map_congr_left fun r hr => (retermed r hr).number

theorem coherenceLoss (s : State) (ready : w.Ready) (nodup : (w.log.map Record.number).Nodup) (peer series : Nat) :
    w.Reterms (Machine.coherenceLoss s w peer series) := by
  have lost : w.Reterms { w with log := w.log.map fun r => r.lose s peer series } :=
    map fun r hr => lose s (ready.aborted r hr) peer series
  have reached : ∀ n ∈ reachedByLoss w peer series, w.Open n := fun n hn => open_of_reached ready nodup hn
  have left := lost.trans (foldl (fun w n _ _ => leaveWhenFinal w n) (reachedByLoss w peer series) (lost.ready ready)
    fun n hn => lost.isOpen (reached n hn))
  exact left.trans (foldl (fun w n ready open_ => settleEntry ready open_) _ (left.ready ready)
    fun n hn => left.isOpen (reached n hn))

theorem applyChange (s : State) (ready : w.Ready) (nodup : (w.log.map Record.number).Nodup) (fresh : List Nat)
    (c : FoldChange) : w.Reterms (Machine.applyChange s (w, fresh) c).1 := by
  unfold Machine.applyChange
  split
  · exact map fun r hr => revise (ready.aborted r hr) ..
  · exact coherenceLoss s ready nodup ..
  · exact refl w

theorem takeReport (s : State) (ready : w.Ready) (nodup : (w.log.map Record.number).Nodup) (report : List FoldChange) :
    w.Reterms (Machine.takeReport s report w) := by
  have changes : ∀ (l : List FoldChange) (w : Work) (fresh : List Nat), w.Ready → (w.log.map Record.number).Nodup →
      w.Reterms (l.foldl (Machine.applyChange s) (w, fresh)).1 := by
    intro l
    induction l with
    | nil => exact fun w _ _ _ => refl w
    | cons c l ih =>
      intro w fresh ready nodup
      have first := applyChange s ready nodup fresh c
      exact first.trans (ih _ _ (first.ready ready) (first.numbers ▸ nodup))
  have all := changes report w [] ready nodup
  unfold Machine.takeReport
  simp only
  split
  · exact all
  · exact all.trans (reevaluateAll s (all.ready ready))

end Work.Reterms

end Sys2Proof.Machine
end

