-- ==== Sys2Proof/Proofs/EventPassed.lean ====
section
/-! PROOF. The end of an event of the reduction engine: the log as it is closed (R166), what the statements say of it
(`LoopsPassed`), and the LOOP and RESULT notices (`Told`, R150, R168). -/

namespace Sys2Proof.Machine

/-! ### The log closed -/

/-- The log closed over records that stood before the event. -/
theorem closeLog_map {before log : List Record} (nodup : (before.map Record.number).Nodup) (ψ : Record → Record)
    (stood : ∀ r ∈ log, r ∈ before) (number : ∀ r ∈ log, (ψ r).number = r.number) :
    closeLog before (log.map ψ) = log.map fun r => (ψ r).close (some r) := by
  simp only [closeLog, List.map_map]
  refine List.map_congr_left fun r hr => ?_
  simp only [Function.comp, number r hr, findRecord_of_mem nodup (stood r hr)]

theorem closeLog_tieKey (before log : List Record) : (closeLog before log).map Record.tieKey = log.map Record.tieKey := by
  simp only [closeLog, List.map_map]
  exact List.map_congr_left fun r _ => Record.close_tieKey _ r

theorem LogSound.nodup {s : State} (h : LogSound s) : (s.eng.log.map Record.number).Nodup :=
  List.pairwise_map.mpr (h.1.imp fun h => Nat.ne_of_lt h)

theorem LogSound.sound {s : State} (h : LogSound s) : ∀ r ∈ s.eng.log, RecordSound r := h.2.2.2.1

theorem Work.settled_number (cfg : DriftConfig) (w : Work) (r : Record) : (w.settled cfg r).number = r.number := rfl

theorem Work.settled_flags (cfg : DriftConfig) (w : Work) (r : Record) : (w.settled cfg r).flags = r.flags := rfl

theorem Work.settled_terms (cfg : DriftConfig) (w : Work) (r : Record) :
    (w.settled cfg r).values.map Values.term = r.values.map Values.term := by
  unfold Work.settled Record.markedBy Record.reformedBy
  cases r.values <;> rfl

theorem Work.settled_values (cfg : DriftConfig) (w : Work) {r : Record} {x : Values} (hx : r.values = some x) :
    (w.settled cfg r).values = some { x with
      d := (w.loops.passed cfg w.log).driftOf (w.loops.moved w.log) r x
      driftFrozen := x.driftFrozen || r.hangsOn ((w.loops.passed cfg w.log).closing.takeWhile Loop.settled) } := by
  simp only [Work.settled, Record.markedBy, Record.reformedBy, hx, Option.map_some]
  rfl

/-- A set drift-frozen mark keeps D (R149). -/
theorem LoopTable.driftOf_frozen (t : LoopTable) (moved : Bool) (r : Record) {x : Values} (h : x.driftFrozen = true) :
    t.driftOf moved r x = x.d := by
  simp [LoopTable.driftOf, h]

theorem Record.Changed.reformedBy (t : LoopTable) (moved : Bool) (r : Record) : r.Changed (r.reformedBy t moved) :=
  .drift r (frozen := Values.driftFrozen) fun _ _ mark => ⟨mark, t.driftOf_frozen moved r mark⟩

theorem Record.Changed.markedBy (ls : List Loop) (r : Record) : r.Changed (r.markedBy ls) :=
  .drift r (d := Values.d) fun _ _ mark => ⟨by simp [mark], rfl⟩

theorem Work.settled_changed (cfg : DriftConfig) (w : Work) (r : Record) : r.Changed (w.settled cfg r) :=
  (Record.Changed.reformedBy ..).trans (Record.Changed.markedBy ..)

/-- The log at the end of an event that settled the loops after base-term work `w` and wrote no record. -/
theorem closeLog_settled {s : State} (sound : LogSound s) {w : Work} (terms : s.eng.work.Reterms w) (cfg : DriftConfig) :
    ∃ φ : Record → Record, w.log = s.eng.log.map φ ∧ (∀ r ∈ s.eng.log, r.Retermed (φ r))
      ∧ closeLog s.eng.log (w.settleLoops cfg).log = s.eng.log.map fun r => (w.settled cfg (φ r)).close (some r) := by
  obtain ⟨φ, log, retermed⟩ := terms.log
  refine ⟨φ, log, retermed, ?_⟩
  have log : w.log = s.eng.log.map φ := log
  rw [Work.settleLoops_eq, log, List.map_map]
  exact closeLog_map sound.nodup _ (fun _ => id) fun r hr => (retermed r hr).number

/-- What the closing leaves of a REDUCED record's values. -/
theorem Record.close_formed {r : Record} (o : Option Record) (state : r.state = .reduced) {x : Values} (hx : r.values = some x) :
    (r.close o).values = some x.reform := by
  rw [Record.close_reduced o state hx]

/-- An event that settles the loops after base-term work passes its changes on as R135 and R146 to R149 ask. -/
theorem loopsPassed_of {s t : State} (sound : LogSound s) {w : Work} (terms : s.eng.work.Reterms w)
    (log : t.eng.log = closeLog s.eng.log (w.settleLoops s.driftCfg).log)
    (loops : t.eng.loops = (w.settleLoops s.driftCfg).loops) : LoopsPassed s t := by
  obtain ⟨φ, wlog, retermed, closed⟩ := closeLog_settled sound terms s.driftCfg
  have same : w.loops = s.eng.loops := terms.loops
  have keys : w.log.map Record.tieKey = t.eng.log.map Record.tieKey := by
    rw [log, closeLog_tieKey, Work.settleLoops_eq, List.map_map]
    exact (List.map_congr_left fun r _ => w.settled_tieKey _ r).symm
  have passed : s.eng.loops.passed s.driftCfg t.eng.log = w.loops.passed s.driftCfg w.log := by
    rw [same]
    exact (LoopTable.passed_congr _ _ keys).symm
  have moved : s.eng.loops.moved t.eng.log = w.loops.moved w.log := by
    rw [same]
    exact (LoopTable.moved_congr _ keys).symm
  have changed : ∀ r ∈ s.eng.log, r.Changed (w.settled s.driftCfg (φ r)) := fun r hr =>
    (Record.Changed.of_retermed (retermed r hr)).trans (Work.settled_changed _ _ _)
  unfold LoopsPassed
  rw [passed, moved]
  refine ⟨by rw [loops, Work.settleLoops_eq], ?_, fun r hr => ?_⟩
  · rw [log, closed, List.map_map]
    exact List.map_congr_left fun r hr => (Record.close_written _ _).trans (changed r hr).written
  · refine ⟨(w.settled s.driftCfg (φ r)).close (some r), by rw [log, closed]; exact List.mem_map_of_mem hr,
      (Record.close_number _ _).trans (changed r hr).number, (changed r hr).closed (sound.sound r hr), fun reduced x hx => ?_⟩
    obtain ⟨m, values, -⟩ := (retermed r hr).values_some hx
    have state := (retermed r hr).state.trans reduced
    refine ⟨_, Record.close_formed (some r) (by exact state) (w.settled_values s.driftCfg values), ?_, ?_⟩
    · simp only [Values.reform, LoopTable.driftOf, (retermed r hr).header]
    · simp only [Values.reform, Record.hangsOn, (retermed r hr).number]

end Sys2Proof.Machine
end

