-- ==== Sys2Proof/Proofs/EventNotices.lean ====
section
/-! PROOF. The LOOP and RESULT notices of one event (R150, R166, R168): which loops left their slots in it and which stand in them,
by number (`Work.Tells`), and from that what the statements say (`Told`). -/

namespace Sys2Proof.Machine

/-! ### Sorting by a number -/

theorem insertBy_perm {α : Type} (before : α → α → Bool) (x : α) (l : List α) : (insertBy before x l).Perm (x :: l) := by
  induction l with
  | nil => exact .refl _
  | cons y l ih =>
    unfold insertBy
    split
    · exact (ih.cons y).trans (.swap x y l)
    · exact .refl _

theorem sortBy_perm {α : Type} (before : α → α → Bool) (l : List α) : (sortBy before l).Perm l := by
  induction l with
  | nil => exact .refl _
  | cons x l ih => exact (insertBy_perm before x _).trans (ih.cons x)

theorem insertBy_sorted {α : Type} (key : α → Nat) (x : α) {l : List α} (h : l.Pairwise fun a b => key a ≤ key b) :
    (insertBy (fun a b => key a < key b) x l).Pairwise fun a b => key a ≤ key b := by
  induction l with
  | nil => exact List.pairwise_singleton ..
  | cons y l ih =>
    obtain ⟨first, rest⟩ := List.pairwise_cons.mp h
    unfold insertBy
    split
    · rename_i before
      have before : key y < key x := of_decide_eq_true before
      refine List.pairwise_cons.mpr ⟨fun z hz => ?_, ih rest⟩
      rcases List.mem_cons.mp ((insertBy_perm ..).mem_iff.mp hz) with rfl | hz
      · exact before.le
      · exact first z hz
    · rename_i after
      have after : key x ≤ key y := Nat.le_of_not_lt fun lt => after (decide_eq_true lt)
      refine List.pairwise_cons.mpr ⟨fun z hz => ?_, h⟩
      rcases List.mem_cons.mp hz with rfl | hz
      · exact after
      · exact after.trans (first z hz)

theorem sortBy_sorted {α : Type} (key : α → Nat) (l : List α) :
    (sortBy (fun a b => key a < key b) l).Pairwise fun a b => key a ≤ key b := by
  induction l with
  | nil => exact List.Pairwise.nil
  | cons x l ih => exact insertBy_sorted key x ih

/-- Sorted elements with distinct keys increase. -/
theorem sortBy_increasing {α : Type} (key : α → Nat) {l : List α} (h : (l.map key).Nodup) :
    (sortBy (fun a b => key a < key b) l).Pairwise fun a b => key a < key b := by
  have nodup : ((sortBy (fun a b => key a < key b) l).map key).Nodup := ((sortBy_perm _ l).map key).nodup_iff.mpr h
  exact ((sortBy_sorted key l).and (List.pairwise_map.mp nodup)).imp fun ⟨le, ne⟩ => lt_of_le_of_ne le ne

/-! ### What passing and freezing leave of the loops' identity -/

/-- What the passing of changes leaves of a loop: its number, its members and the occupations of its ties. -/
def Loop.shape (l : Loop) : Nat × List Nat × (Nat × Nat) × Option Nat :=
  (l.number, l.members, (l.opening.occ, l.opening.pointId), l.closingTie.map Tie.occ)

theorem Tie.copied_occ (log : List Record) (k : Tie) : (k.copied log).occ = k.occ ∧ (k.copied log).pointId = k.pointId := by
  unfold Tie.copied
  split <;> exact ⟨rfl, rfl⟩

theorem Loop.copied_shape (log : List Record) (l : Loop) : (l.copied log).shape = l.shape := by
  obtain ⟨occ, point⟩ := Tie.copied_occ log l.opening
  simp only [Loop.shape, Loop.copied, occ, point, Option.map_map]
  congr 3
  cases l.closingTie with
  | none => rfl
  | some k => exact congrArg some (Tie.copied_occ log k).1

theorem Loop.closedBy_shape (cfg : DriftConfig) (before : Int) (l : Loop) (tie : Tie) :
    (l.closedBy cfg before tie).shape = ({ l with closingTie := some tie } : Loop).shape := by
  unfold Loop.closedBy
  split <;> rfl

theorem formedAnew_shape (cfg : DriftConfig) (older : Option Loop) (before : Int) (q : List Loop) :
    (formedAnew cfg older before q).map Loop.shape = q.map Loop.shape := by
  induction q generalizing older before with
  | nil => rfl
  | cons l q ih =>
    simp only [formedAnew, List.map_cons, ih, List.cons.injEq, and_true]
    cases h : l.closingTie with
    | none => simp only [Loop.shape, h]
    | some c =>
      have closed := Loop.closedBy_shape cfg before { l with dO := l.anchored older } c
      simp only [Loop.shape, Option.map_some, Prod.mk.injEq] at closed ⊢
      simpa [h] using closed

theorem LoopTable.passed_closing (cfg : DriftConfig) (t : LoopTable) (log : List Record) :
    (t.passed cfg log).closing.map Loop.shape = t.closing.map Loop.shape := by
  have copied : (t.closing.map (Loop.copied log)).map Loop.shape = t.closing.map Loop.shape := by
    rw [List.map_map]
    exact List.map_congr_left fun l _ => l.copied_shape log
  unfold LoopTable.passed
  simp only
  split
  · exact (formedAnew_shape ..).trans copied
  · exact copied

theorem LoopTable.passed_openLoop (cfg : DriftConfig) (t : LoopTable) (log : List Record) :
    (t.passed cfg log).openLoop.map Loop.shape = t.openLoop.map Loop.shape := by
  have copied : (t.openLoop.map (Loop.copied log)).map Loop.shape = t.openLoop.map Loop.shape := by
    rw [Option.map_map]
    cases t.openLoop with
    | none => rfl
    | some l => exact congrArg some (l.copied_shape log)
  unfold LoopTable.passed
  simp only
  split
  · refine Eq.trans ?_ copied
    rw [Option.map_map]
    rfl
  · exact copied

theorem LoopTable.passed_rest (cfg : DriftConfig) (t : LoopTable) (log : List Record) :
    (t.passed cfg log).lastFrozen = t.lastFrozen ∧ (t.passed cfg log).counter = t.counter
      ∧ (t.passed cfg log).carry = t.carry := by
  unfold LoopTable.passed
  simp only
  split <;> exact ⟨rfl, rfl, rfl⟩

theorem LoopTable.frozenUp_closing (t : LoopTable) : t.frozenUp.closing = t.closing.dropWhile Loop.settled := by
  cases h : (t.closing.takeWhile Loop.settled).getLast? with
  | none =>
    have none : t.closing.takeWhile Loop.settled = [] := List.getLast?_eq_none_iff.mp h
    rw [LoopTable.frozenUp_unsettled none]
    simpa [none] using (List.takeWhile_append_dropWhile (p := Loop.settled) (l := t.closing)).symm
  | some l => simp only [LoopTable.frozenUp, h]

theorem LoopTable.frozenUp_openLoop (t : LoopTable) : t.frozenUp.openLoop.map Loop.shape = t.openLoop.map Loop.shape := by
  unfold LoopTable.frozenUp
  split
  · rfl
  · simp only [Option.map_map]
    rfl

theorem LoopTable.frozenUp_rest (t : LoopTable) : t.frozenUp.counter = t.counter ∧ t.frozenUp.carry = t.carry
    ∧ t.frozenUp.lastFrozen = ((t.closing.takeWhile Loop.settled).getLast?.map Loop.frozen).or t.lastFrozen := by
  unfold LoopTable.frozenUp
  split <;> rename_i h <;> rw [h] <;> exact ⟨rfl, rfl, rfl⟩

theorem numbers_of_shapes {ls ms : List Loop} (h : ls.map Loop.shape = ms.map Loop.shape) :
    ls.map Loop.number = ms.map Loop.number := by
  have number : Loop.number = Prod.fst ∘ Loop.shape := rfl
  rw [number, ← List.map_map, h, List.map_map]

theorem LoopTable.slots_shape {t u : LoopTable} (closing : u.closing.map Loop.shape = t.closing.map Loop.shape)
    (openLoop : u.openLoop.map Loop.shape = t.openLoop.map Loop.shape) : u.slots.map Loop.shape = t.slots.map Loop.shape := by
  simp only [LoopTable.slots, List.map_append, ← Option.toList_map, closing, openLoop]

/-! ### The loops that an event leaves -/

/-- What an event on loop table `t` has made of its loops: those that left their slots are of `t` and FROZEN or ABANDONED, every loop
of `t` has left or stands, no number occurs twice, and a last frozen loop that `t` held has left. -/
structure Work.Tells (t : LoopTable) (w : Work) : Prop where
  nodup : ((w.gone ++ w.loops.slots).map Loop.number).Nodup
  gone : ∀ g ∈ w.gone, (∃ o ∈ t.slots, o.number = g.number) ∧ (g.state = .frozen ∨ g.state = .abandoned)
  kept : ∀ o ∈ t.slots, ∃ l ∈ w.gone ++ w.loops.slots, l.number = o.number
  last : ∀ l ∈ w.loops.lastFrozen, l ∈ w.gone ∨ ∀ o ∈ t.slots, o.number ≠ l.number
  closing : ∀ l ∈ w.loops.closing, ∃ o ∈ t.slots, o.number = l.number

theorem LoopsSound.increasing {s : State} (h : LoopsSound s) :
    s.eng.loops.slots.Pairwise (fun a b => a.number < b.number) ∧
      ∀ l ∈ s.eng.loops.lastFrozen, ∀ o ∈ s.eng.loops.slots, l.number < o.number := by
  obtain ⟨-, -, -, -, -, pairwise⟩ := h
  rw [List.append_assoc, List.pairwise_append] at pairwise
  obtain ⟨-, slots, before⟩ := pairwise
  exact ⟨slots, fun l hl o ho => before l (Option.mem_toList.mpr hl) o ho⟩

theorem LoopsSound.nodup {s : State} (h : LoopsSound s) : (s.eng.loops.slots.map Loop.number).Nodup :=
  List.pairwise_map.mpr (h.increasing.1.imp fun h => Nat.ne_of_lt h)

theorem LoopsSound.slot_state {s : State} (h : LoopsSound s) :
    ∀ o ∈ s.eng.loops.slots, o.state = .opened ∨ o.state = .closing := by
  obtain ⟨-, -, opened, closing, -, -⟩ := h
  intro o ho
  rcases List.mem_append.mp ho with ho | ho
  · exact .inr (closing o ho).1
  · exact .inl (opened o (Option.mem_toList.mp ho)).1

theorem Work.tells_start {s : State} (h : LoopsSound s) {w : Work} (loops : w.loops = s.eng.loops) (gone : w.gone = []) :
    w.Tells s.eng.loops := by
  refine ⟨?_, ?_, fun o ho => ⟨o, ?_, rfl⟩, fun l hl => .inr fun o ho => ?_, fun l hl => ⟨l, ?_, rfl⟩⟩
  · rw [gone, loops]
    exact h.nodup
  · simp [gone]
  · rwa [gone, loops]
  · rw [loops] at hl
    exact Nat.ne_of_gt (h.increasing.2 l hl o ho)
  · rw [loops] at hl
    exact List.mem_append_left _ hl

theorem Work.Tells.settleLoops {t : LoopTable} {w : Work} (h : w.Tells t) (cfg : DriftConfig) : (w.settleLoops cfg).Tells t := by
  rw [Work.settleLoops_eq]
  generalize hp : w.loops.passed cfg w.log = p
  have closingShape : p.closing.map Loop.shape = w.loops.closing.map Loop.shape := hp ▸ w.loops.passed_closing cfg w.log
  have slotsShape : p.slots.map Loop.shape = w.loops.slots.map Loop.shape :=
    LoopTable.slots_shape closingShape (hp ▸ w.loops.passed_openLoop cfg w.log)
  have last : p.lastFrozen = w.loops.lastFrozen := hp ▸ (w.loops.passed_rest cfg w.log).1
  have split := List.takeWhile_append_dropWhile (p := Loop.settled) (l := p.closing)
  have numbers : ((w.gone ++ (p.closing.takeWhile Loop.settled).map Loop.frozen) ++ p.frozenUp.slots).map Loop.number
      = (w.gone ++ w.loops.slots).map Loop.number := by
    have openNumbers : p.frozenUp.openLoop.toList.map Loop.number = p.openLoop.toList.map Loop.number :=
      numbers_of_shapes (by simp only [← Option.toList_map, LoopTable.frozenUp_openLoop])
    have frozen : ((p.closing.takeWhile Loop.settled).map Loop.frozen).map Loop.number
        = (p.closing.takeWhile Loop.settled).map Loop.number := by rw [List.map_map]; rfl
    rw [List.map_append, List.map_append, List.map_append, ← numbers_of_shapes slotsShape, frozen]
    simp only [LoopTable.slots, List.map_append, LoopTable.frozenUp_closing, openNumbers, List.append_assoc]
    rw [← List.append_assoc (List.map Loop.number (p.closing.takeWhile Loop.settled)), ← List.map_append, split]
  have ofTable : ∀ l ∈ p.closing, ∃ o ∈ t.slots, o.number = l.number := by
    intro l hl
    have mem : l.number ∈ w.loops.closing.map Loop.number :=
      numbers_of_shapes closingShape ▸ List.mem_map_of_mem hl
    obtain ⟨m, hm, same⟩ := List.mem_map.mp mem
    obtain ⟨o, ho, number⟩ := h.closing m hm
    exact ⟨o, ho, number.trans same⟩
  have taken : ∀ l ∈ p.closing.takeWhile Loop.settled, l ∈ p.closing := fun l hl =>
    List.takeWhile_subset _ hl
  refine ⟨numbers ▸ h.nodup, fun g hg => ?_, fun o ho => ?_, fun l hl => ?_, fun l hl => ?_⟩
  · rcases List.mem_append.mp hg with hg | hg
    · exact h.gone g hg
    · obtain ⟨l, hl, rfl⟩ := List.mem_map.mp hg
      exact ⟨ofTable l (taken l hl), .inl rfl⟩
  · obtain ⟨l, hl, same⟩ := h.kept o ho
    have mem := List.mem_map_of_mem (f := Loop.number) hl
    rw [← numbers] at mem
    obtain ⟨m, hm, number⟩ := List.mem_map.mp mem
    exact ⟨m, hm, number.trans same⟩
  · simp only [(LoopTable.frozenUp_rest p).2.2, last] at hl
    cases newest : (p.closing.takeWhile Loop.settled).getLast? with
    | none =>
      rw [newest] at hl
      exact (h.last l hl).imp_left (List.mem_append_left _)
    | some m =>
      rw [newest] at hl
      cases hl
      exact .inl (List.mem_append_right _ (List.mem_map_of_mem (List.mem_of_getLast? newest)))
  · rw [LoopTable.frozenUp_closing] at hl
    exact ofTable l (List.dropWhile_subset _ hl)

/-! ### The notices -/

theorem Record.resultNotice_eq {before : List Record} (nodup : (before.map Record.number).Nodup) (r : Record) :
    r.resultNotice (findRecord r.number before) = r.resultDue before := by
  unfold Record.resultNotice Record.resultDue
  cases values : r.values with
  | none => rfl
  | some x =>
    simp only
    have any : before.any (fun o => o.number = r.number && o.values.any fun y => o.listed y = r.listed x)
        = (findRecord r.number before).any fun o => o.values.any fun y => o.listed y = r.listed x := by
      cases found : findRecord r.number before with
      | none =>
        have none := List.find?_eq_none.mp found
        simp only [Option.any_none, List.any_eq_false]
        intro o ho both
        exact none o ho (Bool.and_eq_true_iff.mp both).1
      | some o =>
        obtain ⟨ho, number⟩ := mem_of_findRecord found
        rw [Bool.eq_iff_iff, List.any_eq_true, Option.any_some]
        refine ⟨fun ⟨o', ho', both⟩ => ?_, fun listed => ⟨o, ho, by simp [number, listed]⟩⟩
        obtain ⟨number', listed⟩ := Bool.and_eq_true_iff.mp both
        rwa [eq_of_number nodup ho ho' (number.trans (of_decide_eq_true number').symm)]
    rw [any]
    cases findRecord r.number before with
    | none => rfl
    | some o => cases h : o.values <;> simp [h] <;> rfl

theorem resultNotices_eq {before : List Record} (nodup : (before.map Record.number).Nodup) (log : List Record) :
    resultNotices before log = log.filterMap (Record.resultDue before) := by
  unfold resultNotices
  exact List.filterMap_congr fun r _ => Record.resultNotice_eq nodup r

/-- Whether a loop is told of: its state, rate or anchor offset is not what the table `t` held (R150). -/
def LoopTable.toldOf (t : LoopTable) (l : Loop) : Bool :=
  match t.find l.number with
  | some o => o.state ≠ l.state || o.rate ≠ l.rate || o.dO ≠ l.dO
  | none => true

/-- The loops that an event tells of, in increasing number. -/
def Work.told (t : LoopTable) (w : Work) : List Loop :=
  (sortBy (fun a b : Loop => a.number < b.number) (w.gone ++ w.loops.slots)).filter t.toldOf

theorem loopNotices_eq (b a : Work) : loopNotices b a = ((a.told b.loops).map Loop.items).map NoticeBody.loop := by
  rw [List.map_map]
  rfl

theorem LoopTable.find_of_mem {t : LoopTable} (nodup : (t.slots.map Loop.number).Nodup) {o : Loop} (h : o ∈ t.slots) :
    t.find o.number = some o := by
  cases found : t.find o.number with
  | none => exact absurd (List.find?_eq_none.mp found o h) (by simp)
  | some o' =>
    have number : o'.number = o.number := by simpa using List.find?_some found
    rw [List.inj_on_of_nodup_map nodup (List.mem_of_find?_eq_some found) h number]

theorem LoopTable.toldOf_of_mem {t : LoopTable} (nodup : (t.slots.map Loop.number).Nodup) {o l : Loop} (h : o ∈ t.slots)
    (same : o.number = l.number) : t.toldOf l = true ↔ ¬(o.state = l.state ∧ o.rate = l.rate ∧ o.dO = l.dO) := by
  unfold LoopTable.toldOf
  rw [← same, LoopTable.find_of_mem nodup h]
  simp only [Bool.or_eq_true, decide_eq_true_eq, not_and_or, or_assoc, ne_eq]

theorem Work.mem_told {t : LoopTable} {w : Work} {l : Loop} :
    l ∈ w.told t ↔ l ∈ w.gone ++ w.loops.slots ∧ t.toldOf l = true := by
  unfold Work.told
  rw [List.mem_filter, (sortBy_perm _ _).mem_iff]

/-- A loop that left its slot is told of. -/
theorem Work.Tells.told_of_gone {s : State} (loops : LoopsSound s) {w : Work} (h : w.Tells s.eng.loops) {g : Loop}
    (hg : g ∈ w.gone) : g ∈ w.told s.eng.loops := by
  obtain ⟨⟨o, ho, same⟩, left⟩ := h.gone g hg
  refine Work.mem_told.mpr ⟨List.mem_append_left _ hg, (LoopTable.toldOf_of_mem loops.nodup ho same).mpr fun ⟨state, _⟩ => ?_⟩
  rcases loops.slot_state o ho with stood | stood <;> rcases left with left | left <;> rw [stood, left] at state <;> cases state

/-- The notices of one event (R150, R166, R168). -/
theorem told_of {s t : State} (sound : LogSound s) (loops : LoopsSound s) {w : Work} (tells : w.Tells s.eng.loops)
    (after : t.eng.loops = w.loops) (p : Port) :
    Told s t p ((loopNotices s.eng.work w ++ resultNotices s.eng.log t.eng.log).foldl Port.offer p) := by
  have stands : s.eng.work.loops = s.eng.loops := rfl
  rw [loopNotices_eq, resultNotices_eq sound.nodup, stands]
  refine ⟨(w.told s.eng.loops).map Loop.items, rfl, ?_, ?_, ?_, ?_, ?_⟩
  · exact List.pairwise_map.mpr ((sortBy_increasing Loop.number tells.nodup).filter _)
  · intro b hb
    obtain ⟨l, hl, rfl⟩ := List.mem_map.mp hb
    rcases List.mem_append.mp (Work.mem_told.mp hl).1 with gone | stand
    · obtain ⟨⟨o, ho, same⟩, -⟩ := tells.gone l gone
      exact ⟨o, List.mem_append_left _ ho, same⟩
    · exact ⟨l, List.mem_append_right _ (after ▸ stand), rfl⟩
  · intro l hl
    rw [after] at hl
    have mem : l ∈ w.gone ++ w.loops.slots := List.mem_append_right _ hl
    split
    · rename_i unchanged
      obtain ⟨o, ho, same⟩ := List.any_eq_true.mp unchanged
      simp only [Bool.and_eq_true, decide_eq_true_eq, and_assoc] at same
      obtain ⟨number, same⟩ := same
      intro b hb number'
      obtain ⟨m, hm, rfl⟩ := List.mem_map.mp hb
      obtain ⟨mem', told⟩ := Work.mem_told.mp hm
      have : m = l := List.inj_on_of_nodup_map tells.nodup mem' mem number'
      subst this
      exact (LoopTable.toldOf_of_mem loops.nodup ho number).mp told same
    · rename_i changed
      refine List.mem_map_of_mem (Work.mem_told.mpr ⟨mem, ?_⟩)
      by_cases stood : ∃ o ∈ s.eng.loops.slots, o.number = l.number
      · obtain ⟨o, ho, same⟩ := stood
        refine (LoopTable.toldOf_of_mem loops.nodup ho same).mpr fun equal => changed (List.any_eq_true.mpr ⟨o, ho, ?_⟩)
        simp only [same, equal, decide_true, Bool.and_self]
      · have none : s.eng.loops.find l.number = none :=
          List.find?_eq_none.mpr fun o ho same => stood ⟨o, ho, of_decide_eq_true same⟩
        simp only [LoopTable.toldOf, none]
  · intro l hl left
    obtain ⟨g, hg, same⟩ := tells.kept l hl
    rcases List.mem_append.mp hg with gone | stand
    · exact ⟨g.items, List.mem_map_of_mem (tells.told_of_gone loops gone), same, (tells.gone g gone).2⟩
    · exact absurd same (left g (after ▸ stand))
  · intro l hl ⟨o, ho, same⟩
    rcases tells.last l (after ▸ hl) with gone | other
    · exact List.mem_map_of_mem (tells.told_of_gone loops gone)
    · exact absurd same (other o ho)

end Sys2Proof.Machine
end

