-- ==== Sys2Proof/Proofs/CycleEnds.lean ====
section
/-! PROOF. The store's work at a cycle-end event (R93, R100, R107, R114) in the statements' terms: the silence counting of the whole
table (`PeerEntry.counted`), then the fold record by record (`foldInto`). -/

namespace Sys2Proof.Machine

/-! ### Notices against the flags -/

theorem Port.offer_changed (p : Port) (c : BitVec 32) (b : NoticeBody) :
    ({ p with changed := c } : Port).offer b = { p.offer b with changed := c } := by
  have append : ({ p with changed := c } : Port).append b = { p.append b with changed := c } := by
    simp only [Port.append]
    split <;> rfl
  unfold Port.offer
  cases b with
  | result x =>
    simp only
    split
    · rfl
    · exact append
  | _ => exact append

theorem Port.offer_kept (p : Port) (b : NoticeBody) :
    (p.offer b).changed = p.changed ∧ (p.offer b).latched.seriesMalformed = p.latched.seriesMalformed
      ∧ (p.offer b).latched.seriesReset = p.latched.seriesReset := by
  have append : (p.append b).changed = p.changed ∧ (p.append b).latched.seriesMalformed = p.latched.seriesMalformed
      ∧ (p.append b).latched.seriesReset = p.latched.seriesReset := by
    unfold Port.append
    simp only
    split <;> exact ⟨rfl, rfl, rfl⟩
  unfold Port.offer
  cases b with
  | result x =>
    simp only
    split
    · exact ⟨rfl, rfl, rfl⟩
    · exact append
  | _ => exact append

/-- Notices leave the state-changed flags and the flags of the series as they are. -/
theorem Port.offers_kept (bs : List NoticeBody) (p : Port) :
    (bs.foldl Port.offer p).changed = p.changed
      ∧ (bs.foldl Port.offer p).latched.seriesMalformed = p.latched.seriesMalformed
      ∧ (bs.foldl Port.offer p).latched.seriesReset = p.latched.seriesReset := by
  induction bs generalizing p with
  | nil => exact ⟨rfl, rfl, rfl⟩
  | cons b bs ih =>
    obtain ⟨changed, malformed, reset⟩ := ih (p.offer b)
    obtain ⟨changed', malformed', reset'⟩ := p.offer_kept b
    exact ⟨changed.trans changed', malformed.trans malformed', reset.trans reset'⟩

/-! ### The silence counting (R100) -/

theorem PeerEntry.counted_id (limit : Nat) (e : PeerEntry) : (e.counted limit).id = e.id := by
  unfold PeerEntry.counted
  split
  · split <;> rfl
  · rfl

/-- Counting makes a state SILENT or leaves it. -/
theorem PeerEntry.counted_state {limit : Nat} {e : PeerEntry} (h : e.state ≠ (e.counted limit).state) :
    (e.counted limit).state = .silent := by
  unfold PeerEntry.counted at h ⊢
  split
  · rename_i known
    rw [if_pos known] at h
    split
    · rename_i heard
      rw [if_pos heard] at h
      exact absurd rfl h
    · rename_i unheard
      rw [if_neg unheard] at h
      simp only at h ⊢
      split
      · rfl
      · rename_i stays
        rw [if_neg stays] at h
        exact absurd rfl h
  · rename_i other
    rw [if_neg other] at h
    exact absurd rfl h

theorem PeerEntry.counted_changes (limit : Nat) (e : PeerEntry) :
    e.state ≠ (e.counted limit).state ↔ e.state = .live ∧ (e.counted limit).state = .silent := by
  refine ⟨fun h => ?_, fun ⟨live, silent⟩ => by rw [live, silent]; decide⟩
  have silent := PeerEntry.counted_state h
  refine ⟨?_, silent⟩
  by_contra other
  refine h ?_
  unfold PeerEntry.counted
  split
  · split
    · rfl
    · simp [other]
  · rfl

theorem PeerEntry.counted_kept (limit : Nat) (e : PeerEntry) :
    (e.counted limit).ring = e.ring ∧ (e.counted limit).noRing = e.noRing := by
  unfold PeerEntry.counted
  split
  · split <;> exact ⟨rfl, rfl⟩
  · exact ⟨rfl, rfl⟩

theorem PeerTable.replace_mid {t : PeerTable} {x y : List PeerEntry} {e e' : PeerEntry} (entries : t.entries = x ++ e :: y)
    (same : e'.id = e.id) (nodup : (t.entries.map PeerEntry.id).Nodup) :
    t.replace e' = { t with entries := x ++ e' :: y } := by
  rw [entries, List.map_append, List.map_cons, List.nodup_middle, List.nodup_cons, ← List.map_append] at nodup
  have others : ∀ z : List PeerEntry, (∀ d ∈ z, d ∈ x ++ y) → z.map (fun d => if d.id = e'.id then e' else d) = z := by
    intro z hz
    refine (List.map_congr_left fun d hd => ?_).trans (List.map_id _)
    have other : d.id ≠ e'.id := fun h => nodup.1 ((h.trans same) ▸ List.mem_map_of_mem (hz d hd))
    exact if_neg other
  unfold PeerTable.replace
  simp only [entries, List.map_append, List.map_cons, same, if_true]
  rw [← same, others x fun d hd => List.mem_append_left _ hd, others y fun d hd => List.mem_append_right _ hd]

/-- The PEER_STATE notice of an entry that becomes SILENT at node time `now` (R101). -/
def PeerEntry.silentNotice (now : Nat) (e : PeerEntry) : NoticeBody :=
  .peerState e.id (some e.state) .silent now e.ring e.noRing

theorem Port.offers_changed {α : Type} (f : α → NoticeBody) (l : List α) (p : Port) (c : BitVec 32) :
    l.foldl (fun p e => p.offer (f e)) { p with changed := c } = { l.foldl (fun p e => p.offer (f e)) p with changed := c } := by
  induction l generalizing p with
  | nil => rfl
  | cons e l ih => rw [List.foldl_cons, Port.offer_changed, ih, List.foldl_cons]

/-- Whether the silence counting changes an entry's state. -/
def PeerEntry.falls (limit : Nat) (e : PeerEntry) : Bool := e.state ≠ (e.counted limit).state

/-- The port after the silence counting of these entries (R100, R101). -/
def Port.silenced (limit now : Nat) (es : List PeerEntry) (p : Port) : Port :=
  { (es.filter (PeerEntry.falls limit)).foldl (fun p e => p.offer (e.silentNotice now)) p with
    changed := (es.filter (PeerEntry.falls limit)).foldl (fun m e => addToSet m e.id) p.changed }

theorem Port.silenced_cons (limit now : Nat) (e : PeerEntry) (es : List PeerEntry) (p : Port) :
    p.silenced limit now (e :: es) =
      (if e.falls limit then ({ p with changed := addToSet p.changed e.id } : Port).offer (e.silentNotice now)
        else p).silenced limit now es := by
  unfold Port.silenced
  cases falls : e.falls limit with
  | false => simp only [List.filter_cons, falls, Bool.false_eq_true, if_false]
  | true =>
    simp only [List.filter_cons, falls, if_true, List.foldl_cons, Port.offer_changed, Port.offers_changed]

theorem countOne_counted (s : State) (r : List FoldChange) (e : PeerEntry) :
    countOne (s, r) e =
      ((s.setPeers (s.peers.replace (e.counted s.baseTerm.silenceLimit))).setPort
          (if e.falls s.baseTerm.silenceLimit then
            ({ s.port with changed := addToSet s.port.changed e.id } : Port).offer (e.silentNotice s.tb.nodeTime)
          else s.port),
        if e.falls s.baseTerm.silenceLimit then r ++ [.entryState e.id] else r) := by
  unfold countOne
  simp only [PeerEntry.countSilence_eq]
  by_cases same : (e.counted s.baseTerm.silenceLimit).state = e.state
  · have stays : e.falls s.baseTerm.silenceLimit = false := by simp [PeerEntry.falls, same]
    simp only [if_pos same, stays, Bool.false_eq_true, if_false]
    rfl
  · have falls : e.falls s.baseTerm.silenceLimit = true := by simp [PeerEntry.falls, Ne.symm same]
    have silent := PeerEntry.counted_state (Ne.symm same)
    obtain ⟨ring, noRing⟩ := PeerEntry.counted_kept s.baseTerm.silenceLimit e
    rw [if_neg same]
    simp only [falls, if_true, State.peerChanged, PeerEntry.silentNotice, silent, ring, noRing,
      PeerEntry.counted_id]
    rfl

/-- The silence counting of the entries `rest`, those before them counted already. -/
theorem foldl_countOne (s : State) (rest done : List PeerEntry) (p : Port) (r : List FoldChange)
    (nodup : ((done ++ rest).map PeerEntry.id).Nodup) :
    rest.foldl countOne
        ((s.setPeers { s.peers with entries := done.map (PeerEntry.counted s.baseTerm.silenceLimit) ++ rest }).setPort p, r)
      = ((s.setPeers { s.peers with entries := (done ++ rest).map (PeerEntry.counted s.baseTerm.silenceLimit) }).setPort
          (p.silenced s.baseTerm.silenceLimit s.tb.nodeTime rest),
        r ++ (rest.filter (PeerEntry.falls s.baseTerm.silenceLimit)).map fun e => .entryState e.id) := by
  induction rest generalizing done p r with
  | nil => simp [Port.silenced]
  | cons e rest ih =>
    have ids : (done.map (PeerEntry.counted s.baseTerm.silenceLimit) ++ e :: rest).map PeerEntry.id
        = (done ++ e :: rest).map PeerEntry.id := by
      simp only [List.map_append, List.map_map]
      congr 1
      exact List.map_congr_left fun d _ => d.counted_id _
    have replaced := PeerTable.replace_mid (t := { s.peers with
      entries := done.map (PeerEntry.counted s.baseTerm.silenceLimit) ++ e :: rest }) rfl (e.counted_id s.baseTerm.silenceLimit)
      (ids ▸ nodup)
    have step := ih (done ++ [e]) (if e.falls s.baseTerm.silenceLimit then
      ({ p with changed := addToSet p.changed e.id } : Port).offer (e.silentNotice s.tb.nodeTime) else p)
      (if e.falls s.baseTerm.silenceLimit then r ++ [.entryState e.id] else r) (by simpa using nodup)
    simp only [List.map_append, List.append_assoc, List.map_cons, List.map_nil, List.cons_append, List.nil_append] at step
    rw [List.foldl_cons, countOne_counted]
    simp only [State.setPort_peers, State.setPeers_peers, State.setPort_baseTerm', State.setPeers_baseTerm', replaced,
      State.setPort_port, State.setPort_tb, State.setPeers_tb]
    refine Eq.trans step ?_
    rw [Port.silenced_cons, List.map_append, List.map_cons]
    cases falls : e.falls s.baseTerm.silenceLimit <;> simp [falls]

/-- The silence counting of a cycle end (R100). -/
theorem State.countSilence_eq (s : State) (nodup : (s.peers.entries.map PeerEntry.id).Nodup) :
    s.countSilence =
      ((s.setPeers { s.peers with entries := s.peers.entries.map (PeerEntry.counted s.baseTerm.silenceLimit) }).setPort
          (s.port.silenced s.baseTerm.silenceLimit s.tb.nodeTime s.peers.entries),
        s.silenced.map fun e => .entryState e.id) :=
  foldl_countOne s s.peers.entries [] s.port [] nodup

/-! ### The fold of the inbound queue (R107 to R113) -/

theorem Folding.seriesCheck_id (f : Folding) (series epoch : Nat) : (f.seriesCheck series epoch).1.entry.id = f.entry.id := by
  unfold Folding.seriesCheck
  split
  · rfl
  · split
    · rfl
    · split <;> rfl

theorem Folding.place_id (f : Folding) (x : Sample) : (f.place x).entry.id = f.entry.id := by
  unfold Folding.place
  repeat' split
  all_goals rfl

theorem Folding.takeObs_id (f : Folding) (o : Obs) : (f.takeObs o).entry.id = f.entry.id := by
  unfold Folding.takeObs
  simp only
  split
  · exact place_id ..
  · split
    · exact place_id ..
    · split
      · split
        · split
          · rfl
          · split <;> exact place_id ..
        · rfl
      · rfl

theorem Folding.takeRev_id (f : Folding) (r : Rev) : (f.takeRev r).entry.id = f.entry.id := by
  unfold Folding.takeRev
  simp only
  split
  · rfl
  · split <;> rfl

/-- A record folded leaves its entry's node id. -/
theorem Folding.take_id (f : Folding) (x : PeerRecord) : (f.take x).entry.id = f.entry.id := by
  unfold Folding.take
  cases x with
  | obs o =>
    simp only
    split
    · rfl
    · split
      · exact (takeObs_id ..).trans (seriesCheck_id ..)
      · exact seriesCheck_id ..
  | rev r =>
    simp only
    split
    · rfl
    · split
      · exact (takeRev_id ..).trans (seriesCheck_id ..)
      · exact seriesCheck_id ..

/-- The port with the flags of the series so. -/
def Port.withSeries (p : Port) (malformed reset : Bool) : Port :=
  { p with latched := { p.latched with seriesMalformed := malformed, seriesReset := reset } }

/-- The fold of one record is `foldInto`. -/
theorem foldRecord_eq (s : State) (r : List FoldChange) (malformed reset : Bool) (x : Nat × PeerRecord) :
    foldRecord (s.setPort (s.port.withSeries malformed reset), r) x =
      ((s.setPeers (foldInto (s.peers, malformed, reset, r) x).1).setPort
          (s.port.withSeries (foldInto (s.peers, malformed, reset, r) x).2.1 (foldInto (s.peers, malformed, reset, r) x).2.2.1),
        (foldInto (s.peers, malformed, reset, r) x).2.2.2) := by
  unfold foldRecord foldInto
  simp only [State.setPort_peers, PeerTable.find]
  cases found : s.peers.entries.find? fun e => decide (e.id = x.1) with
  | none => rfl
  | some e =>
    have id : e.id = x.1 := by simpa using List.find?_some found
    have known : (decide (e.state = .dropped) || decide (e.state = .unheard)) = true ↔ e.state = .dropped ∨ e.state = .unheard := by
      simp
    simp only [known]
    by_cases deaf : e.state = .dropped ∨ e.state = .unheard
    · simp only [if_pos deaf, PeerTable.replace, id]
      rfl
    · simp only [if_neg deaf]
      cases e.ring with
      | none =>
        simp only [PeerTable.replace, id]
        rfl
      | some n =>
        simp only [State.putFolding, PeerTable.replace, Folding.take_id, id]
        cases (Folding.take { entry := e, samples := (s.peers.rings.get n).samples } x.2).malformed <;>
          cases (Folding.take { entry := e, samples := (s.peers.rings.get n).samples } x.2).reset <;>
          cases malformed <;> cases reset <;> rfl

theorem foldl_foldRecord (records : List (Nat × PeerRecord)) (s : State) (r : List FoldChange) (malformed reset : Bool) :
    records.foldl foldRecord (s.setPort (s.port.withSeries malformed reset), r) =
      ((s.setPeers (records.foldl foldInto (s.peers, malformed, reset, r)).1).setPort
          (s.port.withSeries (records.foldl foldInto (s.peers, malformed, reset, r)).2.1
            (records.foldl foldInto (s.peers, malformed, reset, r)).2.2.1),
        (records.foldl foldInto (s.peers, malformed, reset, r)).2.2.2) := by
  induction records generalizing s r malformed reset with
  | nil => rfl
  | cons x records ih =>
    rw [List.foldl_cons, foldRecord_eq, List.foldl_cons]
    exact ih (s.setPeers (foldInto (s.peers, malformed, reset, r) x).1) _ _ _

/-- The port at the engine's event of a cycle end (R101, R107). -/
def State.foldedPort (s : State) : Port :=
  (s.port.silenced s.baseTerm.silenceLimit s.tb.nodeTime s.peers.entries).withSeries s.cycleEnded.2.1 s.cycleEnded.2.2.1

/-- The store's work at a cycle end (R100, R107, R114), whatever the link. -/
theorem State.foldAll_eq (s : State) (nodup : (s.peers.entries.map PeerEntry.id).Nodup) (l : PeerLink) :
    (s.setLink l).foldAll s.link.inq
      = (((s.setLink l).setPeers s.cycleEnded.1).setPort s.foldedPort, s.cycleEnded.2.2.2) := by
  obtain ⟨-, malformed, reset⟩ := Port.offers_kept ((s.peers.entries.filter
    (PeerEntry.falls s.baseTerm.silenceLimit)).map (PeerEntry.silentNotice s.tb.nodeTime)) s.port
  rw [List.foldl_map] at malformed reset
  have flags : s.port.silenced s.baseTerm.silenceLimit s.tb.nodeTime s.peers.entries
      = (s.port.silenced s.baseTerm.silenceLimit s.tb.nodeTime s.peers.entries).withSeries s.port.latched.seriesMalformed
        s.port.latched.seriesReset := by
    unfold Port.withSeries
    rw [← malformed, ← reset]
    rfl
  have counted := State.countSilence_eq (s.setLink l) nodup
  unfold State.foldAll State.foldedPort
  rw [counted]
  simp only [State.setLink_port, State.setLink_tb, State.setLink_baseTerm', State.setLink_peers]
  rw [flags]
  exact foldl_foldRecord s.link.inq (((s.setLink l).setPeers { s.peers with
    entries := s.peers.entries.map (PeerEntry.counted s.baseTerm.silenceLimit) }).setPort
      (s.port.silenced s.baseTerm.silenceLimit s.tb.nodeTime s.peers.entries)) _ _ _

end Sys2Proof.Machine
end

