-- ==== Sys2Proof/Proofs/Reselection.lean ====
section
/-! PROOF. The selections of one event (R128, R129, R132 to R134) as equations: every pending occupation re-evaluated, a fold report
with and without a coherence loss; and the event that changes nothing. -/

namespace Sys2Proof.Machine

/-! ### Selections -/

/-- A selection reads the peer table, the rings and the image alone (R125 to R127). -/
theorem select_congr {s t : State} (peers : t.peers = s.peers) (image : t.image = s.image) : select t = select s := by
  unfold select candidates tryBracket tryHold State.baseTerm
  rw [peers, image]

/-- A record with the selection of its own (R128, R129). -/
def Record.reselected (s : State) (r : Record) : Record :=
  { r with values := r.values.map fun x => { x with term := x.term.selected (select s r.header x.mid) } }

/-- Whether the selection of occupation `n` is final. -/
def Work.finals (s : State) (w : Work) (n : Nat) : Bool :=
  (findRecord n w.log).any fun r => r.values.any fun x => (select s r.header x.mid).final

theorem Record.reselected_reselected (s : State) (r : Record) : (r.reselected s).reselected s = r.reselected s := by
  simp only [Record.reselected, Option.map_map]
  rfl

theorem findRecord_map (n : Nat) {log : List Record} {φ : Record → Record} (number : ∀ r ∈ log, (φ r).number = r.number) :
    findRecord n (log.map φ) = (findRecord n log).map φ := by
  unfold findRecord
  induction log with
  | nil => rfl
  | cons r log ih =>
    have first := number r List.mem_cons_self
    have rest := ih fun r hr => number r (List.mem_cons_of_mem _ hr)
    by_cases h : r.number = n
    · simp [first, h]
    · rw [List.map_cons, List.find?_cons_of_neg (by simpa [first] using h), rest, List.find?_cons_of_neg (by simpa using h)]

/-- What a record's selection reads of it stays. -/
def Record.SameCase (r r' : Record) : Prop :=
  r'.number = r.number ∧ r'.header = r.header ∧ r'.values.map Values.mid = r.values.map Values.mid

theorem Record.sameCase_reselected (s : State) (r : Record) : r.SameCase (r.reselected s) := by
  refine ⟨rfl, rfl, ?_⟩
  simp only [Record.reselected, Option.map_map]
  rfl

theorem Record.SameCase.selections {r r' : Record} (h : r.SameCase r') (s : State) :
    (r'.values.any fun x => (select s r'.header x.mid).final) = r.values.any fun x => (select s r.header x.mid).final := by
  obtain ⟨-, header, mid⟩ := h
  have any : ∀ (q : Record), (q.values.any fun x => (select s r.header x.mid).final)
      = (q.values.map Values.mid).any fun mid => (select s r.header mid).final := fun q => by
    cases q.values <;> rfl
  rw [header, any r', any r, mid]

theorem Work.finals_map (s : State) (w : Work) {log : List Record} {φ : Record → Record} (h : log = w.log.map φ)
    (same : ∀ r ∈ w.log, r.SameCase (φ r)) (waiting : List PendingEntry) (n : Nat) :
    ({ w with log := log, waiting := waiting } : Work).finals s n = w.finals s n := by
  unfold Work.finals
  subst h
  rw [findRecord_map n fun r hr => (same r hr).1]
  cases found : findRecord n w.log with
  | none => rfl
  | some r => exact (same r (mem_of_findRecord found).1).selections s

/-- One pending occupation re-evaluated (R129). -/
theorem reevaluate_eq (s : State) {w : Work} (nodup : (w.log.map Record.number).Nodup) (n : Nat) :
    reevaluate s w n =
      { w with
        log := w.log.map fun r => if r.number = n then r.reselected s else r
        waiting := w.waiting.filter fun e => !(e.occ = n && w.finals s n) } := by
  have stay : ∀ p : PendingEntry → Bool, (∀ e, p e = true) → w.waiting.filter p = w.waiting := fun p hp =>
    List.filter_eq_self.mpr fun e _ => hp e
  unfold reevaluate Work.finals
  cases found : findRecord n w.log with
  | none =>
    have absent : ∀ r ∈ w.log, ¬r.number = n := fun r hr => by simpa using List.find?_eq_none.mp found r hr
    have log : (w.log.map fun r => if r.number = n then r.reselected s else r) = w.log :=
      (List.map_congr_left fun r hr => if_neg (absent r hr)).trans (List.map_id _)
    simp only [log, Option.any_none, Bool.and_false, Bool.not_false, stay _ fun _ => rfl]
  | some r =>
    obtain ⟨hr, number⟩ := mem_of_findRecord found
    have unique : ∀ r' ∈ w.log, r'.number = n → r' = r := fun r' hr' same => eq_of_number nodup hr' hr (same.trans number.symm)
    simp only [Option.any_some]
    cases values : r.values with
    | none =>
      have log : (w.log.map fun r => if r.number = n then r.reselected s else r) = w.log := by
        refine (List.map_congr_left fun r' hr' => ?_).trans (List.map_id _)
        split
        · rename_i same
          rw [unique r' hr' same]
          simp only [Record.reselected, values, Option.map_none, id]
          rw [← values]
        · rfl
      simp only [log, Option.any_none, Bool.and_false, Bool.not_false, stay _ fun _ => rfl]
    | some x =>
      have log : (w.modify n fun r' => r'.mapTerm fun t => t.take (select s r.header x.mid)).log
          = w.log.map fun r => if r.number = n then r.reselected s else r := by
        refine List.map_congr_left fun r' hr' => ?_
        split
        · rename_i same
          rw [unique r' hr' same]
          simp only [Record.mapTerm, Record.reselected, values, Option.map_some, BaseTerm.take_eq]
        · rfl
      have whole : (w.modify n fun r' => r'.mapTerm fun t => t.take (select s r.header x.mid))
          = { w with log := w.log.map fun r => if r.number = n then r.reselected s else r } := by
        rw [← log]
        rfl
      simp only [Option.any_some, whole]
      cases (select s r.header x.mid).final with
      | false => simp only [Bool.and_false, Bool.not_false, stay _ fun _ => rfl, Bool.false_eq_true, if_false]
      | true =>
        simp only [Bool.and_true, if_true, Work.leave]
        congr 1
        exact List.filter_congr fun e _ => by simp

theorem foldl_reevaluate (s : State) (ns : List Nat) {w : Work} (nodup : (w.log.map Record.number).Nodup) :
    ns.foldl (reevaluate s) w =
      { w with
        log := w.log.map fun r => if r.number ∈ ns then r.reselected s else r
        waiting := w.waiting.filter fun e => !(decide (e.occ ∈ ns) && w.finals s e.occ) } := by
  induction ns generalizing w with
  | nil => simp
  | cons n ns ih =>
    have same : ∀ r ∈ w.log, r.SameCase (if r.number = n then r.reselected s else r) := by
      intro r _
      split
      · exact r.sameCase_reselected s
      · exact ⟨rfl, rfl, rfl⟩
    have numbers : ((w.log.map fun r => if r.number = n then r.reselected s else r).map Record.number)
        = w.log.map Record.number := by
      rw [List.map_map]
      exact List.map_congr_left fun r hr => (same r hr).1
    rw [List.foldl_cons, reevaluate_eq s nodup, ih (numbers ▸ nodup)]
    simp only [Work.finals_map s w rfl same, List.map_map, List.filter_filter]
    congr 1
    · refine List.map_congr_left fun r _ => ?_
      simp only [Function.comp]
      by_cases first : r.number = n
      · subst first
        have number : (r.reselected s).number = r.number := rfl
        simp only [if_true, number, List.mem_cons, true_or, Record.reselected_reselected, ite_self]
      · simp only [first, if_false, List.mem_cons, false_or]
    · refine List.filter_congr fun e _ => ?_
      by_cases first : e.occ = n
      · subst first
        cases w.finals s e.occ <;> simp
      · simp [first]

/-- Every pending occupation re-evaluated (R129). -/
theorem reevaluateAll_eq (s : State) {w : Work} (nodup : (w.log.map Record.number).Nodup) :
    reevaluateAll s w =
      { w with
        log := w.log.map fun r => if r.number ∈ w.waiting.map PendingEntry.occ then r.reselected s else r
        waiting := w.waiting.filter fun e => !w.finals s e.occ } := by
  unfold reevaluateAll
  rw [foldl_reevaluate s _ nodup]
  congr 1
  exact List.filter_congr fun e he => by simp [List.mem_map_of_mem (f := PendingEntry.occ) he]

/-! ### An event that changes nothing -/

theorem LoopTable.passed_still (cfg : DriftConfig) {t : LoopTable} {log : List Record}
    (h : ∀ l ∈ t.slots, ∀ k ∈ l.opening :: l.closingTie.toList, k.copied log = k) :
    t.passed cfg log = t ∧ t.moved log = false := by
  have moved : t.moved log = false := by
    simp only [LoopTable.moved, List.any_eq_false, List.any_eq_true, decide_eq_true_eq, not_exists, not_and, not_not]
    intro l hl k hk
    rw [h l hl k hk]
  have copied : ∀ l ∈ t.slots, l.copied log = l := by
    intro l hl
    have opening := h l hl l.opening List.mem_cons_self
    have closing : l.closingTie.map (Tie.copied log) = l.closingTie := by
      cases hc : l.closingTie with
      | none => rfl
      | some c => exact congrArg some (h l hl c (by simp [hc]))
    simp only [Loop.copied, opening, closing]
  refine ⟨?_, moved⟩
  have closing : t.closing.map (Loop.copied log) = t.closing :=
    (List.map_congr_left fun l hl => copied l (List.mem_append_left _ hl)).trans (List.map_id _)
  have openLoop : t.openLoop.map (Loop.copied log) = t.openLoop := by
    cases ho : t.openLoop with
    | none => rfl
    | some l => exact congrArg some (copied l (List.mem_append_right _ (by simp [ho])))
  simp only [LoopTable.passed, moved, closing, openLoop, Bool.false_eq_true, if_false]

/-- Ties in step with the log stay as they are, and no CLOSING loop is ready to be frozen (R146, R148). -/
theorem TiesInStep.settled {s : State} (h : TiesInStep s) (cfg : DriftConfig) :
    s.eng.loops.passed cfg s.eng.log = s.eng.loops ∧ s.eng.loops.moved s.eng.log = false
      ∧ s.eng.loops.closing.takeWhile Loop.settled = [] := by
  obtain ⟨inStep, unsettled⟩ := h
  have still := LoopTable.passed_still cfg (t := s.eng.loops) (log := s.eng.log) fun l hl k hk => by
    unfold Tie.copied
    split
    · rfl
    · rename_i x found
      obtain ⟨r, found, values⟩ := Option.bind_eq_some_iff.mp found
      obtain ⟨hr, number⟩ := mem_of_findRecord found
      obtain ⟨v, final⟩ := inStep l hl k hk r hr number x values
      cases k
      simp only [Tie.mk.injEq, true_and]
      exact ⟨v.symm, final.symm⟩
  refine ⟨still.1, still.2, ?_⟩
  cases closing : s.eng.loops.closing with
  | nil => rfl
  | cons l rest =>
    obtain ⟨k, hk, provisional⟩ := unsettled l (by simp [closing])
    have open_ : l.settled = false := by
      unfold Loop.settled
      rcases List.mem_cons.mp hk with rfl | hk
      · simp [provisional]
      · cases hc : l.closingTie with
        | none => simp
        | some c =>
          obtain rfl : k = c := by simpa [hc] using hk
          simp [provisional]
    rw [List.takeWhile_cons, if_neg (by simp [open_])]

theorem Record.close_self {r : Record} (formed : ∀ x ∈ r.values, x.v = x.g + x.cTilt + x.cTemp - x.tModel - x.term.r
    ∧ x.gRed = x.v - x.d ∧ (r.state = .reduced → ¬(x.term.final = true ∧ x.driftFrozen = true))) : r.close (some r) = r := by
  cases values : r.values with
  | none => exact Record.close_none _ values
  | some x =>
    by_cases reduced : r.state = .reduced
    · obtain ⟨v, gRed, unsealed⟩ := formed x values
      have before : x.beforeDrift = x.v := v.symm
      have reform : x.reform = x := by
        unfold Values.reform
        rw [before, ← gRed]
      have state : x.stateAfter = .reduced := if_neg (by simpa [Values.sealable] using unsealed reduced)
      have revised : r.revised x x.stateAfter = false := by
        simp [Record.revised, values, state, reduced]
      rw [Record.close_reduced _ reduced values, reform, Option.any_some, revised, state]
      obtain ⟨⟩ := r
      simp_all
    · exact Record.close_other _ reduced

/-- An event that settles the loops with nothing changed before (R114, R135, R146). -/
theorem State.event_still {s : State} (nodup : (s.eng.log.map Record.number).Nodup) (formed : RecordsFormed s)
    (drift : DriftSound s) (cfg : DriftConfig) :
    s.eng.work.settleLoops cfg = s.eng.work ∧ closeLog s.eng.log s.eng.log = s.eng.log := by
  obtain ⟨-, -, -, ties⟩ := drift
  obtain ⟨passed, moved, none⟩ := ties.settled cfg
  refine ⟨?_, ?_⟩
  · rw [Work.settleLoops_eq]
    have passed : s.eng.work.loops.passed cfg s.eng.work.log = s.eng.loops := passed
    have moved : s.eng.work.loops.moved s.eng.work.log = false := moved
    have settled : s.eng.work.settled cfg = id := by
      funext r
      simp only [Work.settled, passed, moved, none, Record.markedBy_nil, Record.reformedBy_still, id]
    simp only [settled, List.map_id, passed, none, List.map_nil, List.append_nil, LoopTable.frozenUp_unsettled none]
    rfl
  · have closed := closeLog_map nodup id (fun _ => id) fun r (_ : r ∈ s.eng.log) => rfl
    rw [List.map_id] at closed
    exact closed.trans ((List.map_congr_left fun r hr => Record.close_self (formed r hr)).trans (List.map_id _))

end Sys2Proof.Machine
end

