-- ==== Sys2Proof/Proofs/Reports.lean ====
section
/-! PROOF. A fold report at the reduction engine (R129, R132 to R134): without a coherence loss it is what `Reselected` says, and with
one coherence loss and no REV what `LossTaken` says. -/

namespace Sys2Proof.Machine

/-! ### The log after an event, record by record -/

/-- The record that an event leaves of record `r` of the log before it, whose base-term work makes `r'` of it. -/
theorem mem_closed {s t : State} (sound : LogSound s) {w : Work} {φ : Record → Record} (log : w.log = s.eng.log.map φ)
    (number : ∀ r ∈ s.eng.log, (φ r).number = r.number) {cfg : DriftConfig}
    (after : t.eng.log = closeLog s.eng.log (w.settleLoops cfg).log) {r : Record} (hr : r ∈ s.eng.log) :
    (w.settled cfg (φ r)).close (some r) ∈ t.eng.log := by
  have closed := closeLog_map sound.nodup (fun r => w.settled cfg (φ r)) (fun _ => id) number
  rw [after, Work.settleLoops_eq, log, List.map_map]
  exact closed ▸ List.mem_map_of_mem hr

/-- What the end of an event leaves of a record that its base-term work has made `r`: number, state of another, flags, base term. -/
theorem closed_kept (w : Work) (cfg : DriftConfig) (o : Option Record) (r : Record) :
    ((w.settled cfg r).close o).number = r.number ∧ ((w.settled cfg r).close o).flags = r.flags
      ∧ ((w.settled cfg r).close o).values.map Values.term = r.values.map Values.term :=
  ⟨Record.close_number _ _, Record.close_flags _ _, (Record.close_terms _ _).trans (w.settled_terms cfg r)⟩

/-- The values of a REDUCED record at the end of an event. -/
theorem closed_formed (w : Work) (cfg : DriftConfig) (o : Option Record) {r : Record} (state : r.state = .reduced) {x : Values}
    (hx : r.values = some x) : ∃ x' ∈ ((w.settled cfg r).close o).values, x'.term = x.term
      ∧ x'.v = x'.g + x'.cTilt + x'.cTemp - x'.tModel - x'.term.r ∧ x'.gRed = x'.v - x'.d :=
  ⟨_, Record.close_formed o (by exact state) (w.settled_values cfg hx), rfl, rfl, rfl⟩

/-! ### REVs (R132, R133) -/

/-- One change of a fold report without a coherence loss, at a record. -/
def Record.changedBy (r : Record) : FoldChange → Record
  | .rev peer series fromSeq step epoch => r.revise peer series fromSeq step epoch []
  | _ => r

theorem foldl_applyChange (s : State) (report : List FoldChange) (h : ∀ c ∈ report, c.isLoss = false) (w : Work) :
    (report.foldl (applyChange s) (w, [])).1 = { w with log := w.log.map fun r => report.foldl Record.changedBy r } := by
  have pair : report.foldl (applyChange s) (w, [])
      = ({ w with log := w.log.map fun r => report.foldl Record.changedBy r }, []) := by
    induction report generalizing w with
    | nil => simp
    | cons c report ih =>
      have first : applyChange s (w, []) c = ({ w with log := w.log.map fun r => r.changedBy c }, []) := by
        have noLoss := h c List.mem_cons_self
        cases c with
        | rev peer series fromSeq step epoch => rfl
        | loss peer series epoch => cases noLoss
        | _ => simp [applyChange, Record.changedBy]
      rw [List.foldl_cons, first, ih (fun c hc => h c (List.mem_cons_of_mem _ hc))]
      simp only [List.map_map]
      rfl
  rw [pair]

theorem BaseTerm.revise_eq (m : BaseTerm) (mid peer series fromSeq : Nat) (step : Int) (epoch : Nat)
    (h : ∀ k ∈ m.bracket, k.peer = peer ∧ k.series = series) :
    m.revise mid fromSeq step epoch = m.revised mid (.rev peer series fromSeq step epoch) := by
  unfold BaseTerm.revise BaseTerm.revised
  cases bracket : m.bracket with
  | none => rfl
  | some k =>
    have time : (k.a.revise fromSeq step).time = k.a.time := by
      unfold Stored.revise
      split <;> rfl
    simp only [if_pos (h k bracket)]
    cases k.b with
    | none => rfl
    | some b =>
      simp only [Bracket.value, Option.map_some, time]
      rfl

theorem BaseTerm.revised_off (m : BaseTerm) (mid peer series fromSeq : Nat) (step : Int) (epoch : Nat)
    (h : ∀ k ∈ m.bracket, ¬(k.peer = peer ∧ k.series = series)) : m.revised mid (.rev peer series fromSeq step epoch) = m := by
  unfold BaseTerm.revised
  cases bracket : m.bracket with
  | none => rfl
  | some k => exact if_neg (h k bracket)

/-- A change of a fold report at a record that is not sealed: its base term is revised. -/
theorem Record.changedBy_unsealed {r : Record} (state : r.state ≠ .sealed) (c : FoldChange) :
    r.changedBy c = { r with values := r.values.map fun x => { x with term := x.term.revised x.mid c } } := by
  have same : ∀ x : Values, r.values = some x → x.term.revised x.mid c = x.term →
      r = { r with values := r.values.map fun x => { x with term := x.term.revised x.mid c } } := by
    intro x values still
    rw [values, Option.map_some, still, ← values]
  cases values : r.values with
  | none =>
    have bare : { r with values := none } = r := by rw [← values]
    rw [Option.map_none, bare]
    cases c <;> simp only [Record.changedBy, Record.revise, values]
  | some x =>
    rw [← values]
    cases c with
    | rev peer series fromSeq step epoch =>
      cases bracket : x.term.bracket with
      | none =>
        have off : r.changedBy (.rev peer series fromSeq step epoch) = r := by
          simp only [Record.changedBy, Record.revise, values, bracket]
        exact off.trans (same x values (BaseTerm.revised_off _ _ _ _ _ _ _ (by simp [bracket])))
      | some k =>
        by_cases on : k.peer = peer ∧ k.series = series
        · have on' : k.on peer series = true := by simpa [Bracket.on] using on
          have term := BaseTerm.revise_eq x.term x.mid peer series fromSeq step epoch (by simpa [bracket] using on)
          simp only [Record.changedBy, Record.revise, values, bracket, on', Bool.not_true, Bool.false_eq_true, if_false,
            if_neg state, List.contains_nil, Option.map_some, term]
        · have on' : k.on peer series = false := by simpa [Bracket.on] using on
          have off : r.changedBy (.rev peer series fromSeq step epoch) = r := by
            simp only [Record.changedBy, Record.revise, values, bracket, on', Bool.not_false, if_true]
          exact off.trans (same x values (BaseTerm.revised_off _ _ _ _ _ _ _ (by simpa [bracket] using on)))
    | _ => exact same x values rfl

theorem foldl_changedBy_unsealed (report : List FoldChange) {r : Record} (state : r.state ≠ .sealed) :
    report.foldl Record.changedBy r =
      { r with values := r.values.map fun x => { x with term := report.foldl (BaseTerm.revised x.mid) x.term } } := by
  induction report generalizing r with
  | nil => cases h : r.values <;> simp [← h]
  | cons c report ih =>
    rw [List.foldl_cons, Record.changedBy_unsealed state, ih (by exact state)]
    simp only [Option.map_map]
    rfl

/-- A change of a fold report at a sealed record: one that reaches it flags it. -/
theorem Record.changedBy_sealed {r : Record} (state : r.state = .sealed) (c : FoldChange) :
    r.changedBy c = { r with flags := { r.flags with
      amendedAfterSeal := r.flags.amendedAfterSeal || r.values.any fun x => x.term.bracket.any fun k => k.reachedBy c } } := by
  have still : (r.values.any fun x => x.term.bracket.any fun k => k.reachedBy c) = false → r.changedBy c = r →
      r.changedBy c = { r with flags := { r.flags with
        amendedAfterSeal := r.flags.amendedAfterSeal || r.values.any fun x => x.term.bracket.any fun k => k.reachedBy c } } := by
    intro none same
    rw [none, Bool.or_false, same]
  cases c with
  | rev peer series fromSeq step epoch =>
    cases values : r.values with
    | none =>
      rw [← values]
      exact still (by rw [values]; rfl) (by simp only [Record.changedBy, Record.revise, values])
    | some x =>
      rw [← values]
      cases bracket : x.term.bracket with
      | none =>
        exact still (by simp [values, bracket]) (by simp only [Record.changedBy, Record.revise, values, bracket])
      | some k =>
        have any : (r.values.any fun x => x.term.bracket.any fun k => k.reachedBy (.rev peer series fromSeq step epoch))
            = (k.on peer series && k.reaches fromSeq) := by
          rw [values, Option.any_some, bracket]
          rfl
        have change : r.changedBy (.rev peer series fromSeq step epoch)
            = if !k.on peer series then r
              else if k.reaches fromSeq then { r with flags := { r.flags with amendedAfterSeal := true } } else r := by
          simp only [Record.changedBy, Record.revise, values, bracket, if_pos state]
        rw [any, change]
        cases k.on peer series <;> cases k.reaches fromSeq <;> simp
  | _ => exact still (by cases r.values <;> simp [Bracket.reachedBy]) rfl

theorem foldl_changedBy_sealed (report : List FoldChange) {r : Record} (state : r.state = .sealed) :
    report.foldl Record.changedBy r = { r with flags := { r.flags with
      amendedAfterSeal := r.flags.amendedAfterSeal
        || r.values.any fun x => x.term.bracket.any fun k => report.any k.reachedBy } } := by
  induction report generalizing r with
  | nil =>
    have none : (r.values.any fun x => x.term.bracket.any fun k => ([] : List FoldChange).any k.reachedBy) = false := by
      cases r.values <;> simp
    rw [none, Bool.or_false]
    rfl
  | cons c report ih =>
    rw [List.foldl_cons, Record.changedBy_sealed state, ih (by exact state)]
    simp only [Bool.or_assoc]
    congr 4
    cases r.values with
    | none => rfl
    | some x =>
      cases h : x.term.bracket with
      | none => simp [h]
      | some k => simp [h]

theorem Record.changedBy_sameCase (report : List FoldChange) (r : Record) : r.SameCase (report.foldl Record.changedBy r) := by
  by_cases sealed : r.state = .sealed
  · rw [foldl_changedBy_sealed report sealed]
    exact ⟨rfl, rfl, rfl⟩
  · rw [foldl_changedBy_unsealed report sealed]
    refine ⟨rfl, rfl, ?_⟩
    simp only [Option.map_map]
    rfl

theorem BaseTerm.revised_kept (mid : Nat) (report : List FoldChange) (m : BaseTerm) :
    (report.foldl (BaseTerm.revised mid) m).source = m.source ∧ (report.foldl (BaseTerm.revised mid) m).expiry = m.expiry := by
  induction report generalizing m with
  | nil => exact ⟨rfl, rfl⟩
  | cons c report ih =>
    have first : (m.revised mid c).source = m.source ∧ (m.revised mid c).expiry = m.expiry := by
      unfold BaseTerm.revised
      split
      · split
        · exact ⟨rfl, rfl⟩
        · split <;> exact ⟨rfl, rfl⟩
      · exact ⟨rfl, rfl⟩
    exact ⟨(ih _).1.trans first.1, (ih _).2.trans first.2⟩

/-- A fold report without a coherence loss, taken (R129, R132, R133). -/
theorem reselected_of {s t : State} (sound : LogSound s) {report : List FoldChange} (some_ : report ≠ [])
    (noLoss : ∀ c ∈ report, c.isLoss = false) {cfg : DriftConfig}
    (log : t.eng.log = closeLog s.eng.log ((takeReport t report s.eng.work).settleLoops cfg).log)
    (waiting : t.eng.waiting = ((takeReport t report s.eng.work).settleLoops cfg).waiting) : Reselected s t report := by
  have nodup := sound.nodup
  have pending : s.eng.work.Ready := sound.ready
  have same : ∀ r ∈ s.eng.log, r.SameCase (report.foldl Record.changedBy r) := fun r _ => r.changedBy_sameCase report
  have numbers : (s.eng.log.map fun r => report.foldl Record.changedBy r).map Record.number = s.eng.log.map Record.number := by
    rw [List.map_map]
    exact List.map_congr_left fun r hr => (same r hr).1
  have taken : takeReport t report s.eng.work =
      { s.eng.work with
        log := s.eng.log.map fun r => if r.number ∈ s.eng.waiting.map PendingEntry.occ
          then (report.foldl Record.changedBy r).reselected t else report.foldl Record.changedBy r
        waiting := s.eng.waiting.filter fun e => !s.eng.work.finals t e.occ } := by
    have nonempty : ¬report.isEmpty = true := by simpa using some_
    simp only [takeReport, if_neg nonempty, foldl_applyChange t report noLoss]
    rw [reevaluateAll_eq t (by exact numbers ▸ nodup)]
    congr 1
    · refine (List.map_map ..).trans (List.map_congr_left fun r hr => ?_)
      simp only [Function.comp, (same r hr).1]
      rfl
    · exact List.filter_congr fun e _ => by rw [Work.finals_map t s.eng.work rfl same]
  have member : ∀ r ∈ s.eng.log, _ ∈ t.eng.log := fun r hr => mem_closed sound (w := takeReport t report s.eng.work)
    (φ := fun r => if r.number ∈ s.eng.waiting.map PendingEntry.occ
      then (report.foldl Record.changedBy r).reselected t else report.foldl Record.changedBy r) (by rw [taken])
    (fun r hr => by split <;> exact (same r hr).1) log hr
  have waiting : t.eng.waiting = s.eng.waiting.filter fun e => !s.eng.work.finals t e.occ := by
    rw [waiting, Work.settleLoops_eq, taken]
  refine ⟨fun e he r hr number x hx y hy => ?_, fun r hr idle => ?_, fun e he => ?_⟩
  · have values : r.values = some x := hx
    have here : r.number ∈ s.eng.waiting.map PendingEntry.occ := number ▸ List.mem_map_of_mem he
    have reduced : r.state = .reduced := pending.pending e he r hr number
    have unsealed : r.state ≠ .sealed := by rw [reduced]; decide
    refine ⟨⟨_, member r hr, ?_⟩, ?_⟩
    · simp only [if_pos here]
      obtain ⟨number', flags, -⟩ := closed_kept (takeReport t report s.eng.work) cfg (some r)
        ((report.foldl Record.changedBy r).reselected t)
      have revised := foldl_changedBy_unsealed report unsealed
      refine ⟨number'.trans ((same r hr).1.trans number), flags.trans (by rw [revised]; rfl), ?_⟩
      obtain ⟨x', hx', term, formed⟩ := closed_formed (takeReport t report s.eng.work) cfg (some r)
        (r := (report.foldl Record.changedBy r).reselected t) (by rw [revised]; exact reduced)
        (by rw [revised]; simp only [Record.reselected, values, Option.map_some]; rfl)
      obtain ⟨source, expiry⟩ := BaseTerm.revised_kept x.mid report x.term
      have term' : x'.term = x.term.selected y := by
        rw [term, hy]
        simp only [BaseTerm.selected, source, expiry]
      refine ⟨x', hx', term', ?_, formed.2⟩
      have r : x'.term.r = y.r := by rw [term']; rfl
      rw [formed.1, r]
    · have final : s.eng.work.finals t e.occ = y.final := by
        have found : findRecord e.occ s.eng.work.log = some r := number ▸ findRecord_of_mem nodup hr
        simp only [Work.finals, found, Option.any_some, values, hy]
      rw [waiting, List.mem_filter, final]
      simp [he]
  · have absent : r.number ∉ s.eng.waiting.map PendingEntry.occ := fun mem => by
      obtain ⟨e, he, same⟩ := List.mem_map.mp mem
      exact idle e he same
    have kept := closed_kept (takeReport t report s.eng.work) cfg (some r) (report.foldl Record.changedBy r)
    refine ⟨_, member r hr, ?_⟩
    simp only [if_neg absent]
    refine ⟨kept.1.trans (same r hr).1, fun sealed => ?_, fun unsealed => ?_⟩
    · have flagged := foldl_changedBy_sealed report sealed
      have changed := (Record.Changed.flags r _).trans (flagged ▸ Work.settled_changed cfg (takeReport t report s.eng.work)
        (report.foldl Record.changedBy r))
      have state : (Work.settled cfg (takeReport t report s.eng.work) (report.foldl Record.changedBy r)).state ≠ .reduced := by
        rw [flagged]
        show r.state ≠ .reduced
        rw [sealed]
        decide
      rw [Record.close_other _ state]
      have other := (changed.other (sound.sound r hr) (by rw [sealed]; decide))
      rw [← flagged] at other
      refine ⟨by rw [other], by rw [other]; exact sealed, by rw [Work.settled_flags, flagged]⟩
    · have revised := foldl_changedBy_unsealed report unsealed
      refine ⟨kept.2.1.trans (by rw [revised]), kept.2.2.trans ?_⟩
      rw [revised, Option.map_map]
      rfl
  · rw [waiting] at he
    exact (List.mem_filter.mp he).1

end Sys2Proof.Machine
end

