-- ==== Sys2Proof/Proofs/Losses.lean ====
section
/-! PROOF. A coherence loss at the reduction engine while the pending list has room (R134): the records that it reaches, and the
pending list after the re-selected terms have left and entered it. -/

namespace Sys2Proof.Machine

/-! ### The pending list after a coherence loss -/

/-- Whether occupation `n` has a record in the log whose base term is final. -/
def isFinal (log : List Record) (n : Nat) : Prop := ∃ r x, findRecord n log = some r ∧ r.values = some x ∧ x.term.final = true

/-- Whether occupation `n` has a record in the log whose base term is provisional, and `e` is its pending entry (R162). -/
def OwnEntry (log : List Record) (n : Nat) (e : PendingEntry) : Prop :=
  ∃ r x, findRecord n log = some r ∧ r.values = some x ∧ x.term.final = false ∧ e = ⟨n, x.mid, x.term.expiry⟩

/-- What the re-selected occupations `ns` make of the pending list `a`: others stay, final ones leave, and provisional ones are in it
with an entry of their own or the one that they had. -/
structure Entered (log : List Record) (ns : List Nat) (a b : List PendingEntry) : Prop where
  sub : ∀ e ∈ b, e ∈ a ∨ ∃ n ∈ ns, OwnEntry log n e
  other : ∀ e ∈ a, e.occ ∉ ns → e ∈ b
  final : ∀ n ∈ ns, isFinal log n → ∀ e ∈ b, e.occ ≠ n
  provisional : ∀ n ∈ ns, (∃ e, OwnEntry log n e) → ∃ e ∈ b, e.occ = n

theorem OwnEntry.occ {log : List Record} {n : Nat} {e : PendingEntry} (h : OwnEntry log n e) : e.occ = n := by
  obtain ⟨_, _, _, _, _, rfl⟩ := h
  rfl

theorem OwnEntry.not_final {log : List Record} {n : Nat} {e : PendingEntry} (h : OwnEntry log n e) : ¬isFinal log n := by
  rintro ⟨r, x, found, values, final⟩
  obtain ⟨r', x', found', values', provisional, -⟩ := h
  rw [found] at found'
  cases found'
  rw [values] at values'
  cases values'
  rw [final] at provisional
  cases provisional

theorem Entered.nil (log : List Record) (a : List PendingEntry) : Entered log [] a a :=
  ⟨fun _ he => .inl he, fun _ he _ => he, by simp, by simp⟩

theorem Entered.cons {log : List Record} {n : Nat} {ns : List Nat} {a b c : List PendingEntry} (h : Entered log [n] a b)
    (h' : Entered log ns b c) : Entered log (n :: ns) a c := by
  have single : ∀ m ∈ [n], m = n := fun m hm => List.mem_singleton.mp hm
  refine ⟨fun e he => ?_, fun e he out => ?_, fun m hm final => ?_, fun m hm own => ?_⟩
  · rcases h'.sub e he with he | ⟨m, hm, own⟩
    · rcases h.sub e he with he | ⟨m, hm, own⟩
      · exact .inl he
      · exact .inr ⟨m, single m hm ▸ List.mem_cons_self, own⟩
    · exact .inr ⟨m, List.mem_cons_of_mem _ hm, own⟩
  · have ⟨first, rest⟩ := not_or.mp (mt List.mem_cons.mpr out)
    exact h'.other e (h.other e he fun mem => first (single _ mem)) rest
  · by_cases later : m ∈ ns
    · exact h'.final m later final
    · obtain rfl := (List.mem_cons.mp hm).resolve_right later
      intro e he same
      rcases h'.sub e he with he | ⟨k, hk, own⟩
      · exact h.final m List.mem_cons_self final e he same
      · exact later ((own.occ.symm.trans same) ▸ hk)
  · by_cases later : m ∈ ns
    · exact h'.provisional m later own
    · obtain rfl := (List.mem_cons.mp hm).resolve_right later
      obtain ⟨e, he, same⟩ := h.provisional m List.mem_cons_self own
      exact ⟨e, h'.other e he (same ▸ later), same⟩

/-- One re-selected occupation at a pending list with room (R134, R162). -/
theorem settleEntry_entered (w : Work) (n : Nat) (room : w.waiting.length < 32) :
    (settleEntry w n).log = w.log ∧ (settleEntry w n).waiting.length ≤ w.waiting.length + 1
      ∧ Entered w.log [n] w.waiting (settleEntry w n).waiting := by
  have absent : findRecord n w.log = none ∨ (∃ r, findRecord n w.log = some r ∧ r.values = none) →
      Entered w.log [n] w.waiting w.waiting := by
    intro bare
    have none : ∀ r x, findRecord n w.log = some r → r.values = some x → False := by
      intro r x found values
      rcases bare with bare | ⟨r', found', bare⟩
      · rw [bare] at found; cases found
      · rw [found] at found'; cases found'; rw [bare] at values; cases values
    refine ⟨fun e he => .inl he, fun e he _ => he, fun m hm final => ?_, fun m hm own => ?_⟩
    · obtain rfl := List.mem_singleton.mp hm
      obtain ⟨r, x, found, values, -⟩ := final
      exact (none r x found values).elim
    · obtain rfl := List.mem_singleton.mp hm
      obtain ⟨e, r, x, found, values, -⟩ := own
      exact (none r x found values).elim
  unfold settleEntry
  split
  · rename_i found
    exact ⟨rfl, Nat.le_succ _, absent (.inl found)⟩
  · rename_i r found
    split
    · rename_i values
      exact ⟨rfl, Nat.le_succ _, absent (.inr ⟨r, found, values⟩)⟩
    · rename_i x values
      split
      · rename_i final
        have isFinal : isFinal w.log n := ⟨r, x, found, values, final⟩
        refine ⟨rfl, (List.length_filter_le _ _).trans (Nat.le_succ _), fun e he => .inl (List.mem_filter.mp he).1, fun e he out => ?_,
          fun m hm _ e he => ?_, fun m hm own => ?_⟩
        · exact List.mem_filter.mpr ⟨he, by simpa using out⟩
        · obtain rfl := List.mem_singleton.mp hm
          simpa using (List.mem_filter.mp he).2
        · obtain rfl := List.mem_singleton.mp hm
          obtain ⟨e, own⟩ := own
          exact (own.not_final isFinal).elim
      · rename_i provisional
        have own : OwnEntry w.log n ⟨n, x.mid, x.term.expiry⟩ := ⟨r, x, found, values, by simpa using provisional, rfl⟩
        have notFinal : ∀ m ∈ [n], isFinal w.log m → False := fun m hm final => own.not_final (List.mem_singleton.mp hm ▸ final)
        split
        · rename_i held
          obtain ⟨e, he, same⟩ := List.any_eq_true.mp held
          exact ⟨rfl, Nat.le_succ _, fun e he => .inl he, fun e he _ => he, fun m hm final => (notFinal m hm final).elim,
            fun m hm _ => ⟨e, he, (of_decide_eq_true same).trans (List.mem_singleton.mp hm).symm⟩⟩
        · have entered : w.enter ⟨n, x.mid, x.term.expiry⟩
              = { w with waiting := insertBy PendingEntry.older ⟨n, x.mid, x.term.expiry⟩ w.waiting } := if_pos room
          rw [entered]
          refine ⟨rfl, ((insertBy_perm ..).length_eq).le, fun e he => ?_, fun e he _ => ?_, fun m hm final => (notFinal m hm final).elim,
            fun m hm _ => ⟨_, (insertBy_perm ..).mem_iff.mpr List.mem_cons_self, (List.mem_singleton.mp hm).symm⟩⟩
          · rcases List.mem_cons.mp ((insertBy_perm ..).mem_iff.mp he) with rfl | he
            · exact .inr ⟨n, List.mem_cons_self, own⟩
            · exact .inl he
          · exact (insertBy_perm ..).mem_iff.mpr (List.mem_cons_of_mem _ he)

theorem foldl_settleEntry (ns : List Nat) (w : Work) (room : w.waiting.length + ns.length ≤ 32) :
    (ns.foldl settleEntry w).log = w.log ∧ Entered w.log ns w.waiting (ns.foldl settleEntry w).waiting := by
  induction ns generalizing w with
  | nil => exact ⟨rfl, .nil ..⟩
  | cons n ns ih =>
    rw [List.length_cons] at room
    obtain ⟨log, length, entered⟩ := settleEntry_entered w n (by omega)
    obtain ⟨log', entered'⟩ := ih (settleEntry w n) (by omega)
    exact ⟨log'.trans log, entered.cons (log ▸ entered')⟩

theorem foldl_leaveWhenFinal (ns : List Nat) (w : Work) :
    ∃ p : PendingEntry → Bool, ns.foldl leaveWhenFinal w = { w with waiting := w.waiting.filter p }
      ∧ ∀ e, e.occ ∉ ns → p e = true := by
  induction ns generalizing w with
  | nil => exact ⟨fun _ => true, by simp, fun _ _ => rfl⟩
  | cons n ns ih =>
    have first : ∃ p : PendingEntry → Bool, leaveWhenFinal w n = { w with waiting := w.waiting.filter p }
        ∧ ∀ e, e.occ ≠ n → p e = true := by
      unfold leaveWhenFinal
      split
      · exact ⟨fun _ => true, by simp, fun _ _ => rfl⟩
      · split
        · exact ⟨_, rfl, fun e other => by simpa using other⟩
        · exact ⟨fun _ => true, by simp, fun _ _ => rfl⟩
    obtain ⟨p, left, stays⟩ := first
    obtain ⟨q, left', stays'⟩ := ih (leaveWhenFinal w n)
    refine ⟨fun e => q e && p e, ?_, fun e out => ?_⟩
    · rw [List.foldl_cons, left', left, List.filter_filter]
    · have ⟨first, rest⟩ := not_or.mp (mt List.mem_cons.mpr out)
      simp [stays e first, stays' e rest]

/-- A coherence loss while the pending list has room for every record that it reaches (R134). -/
theorem coherenceLoss_entered (s : State) (w : Work) (peer series : Nat)
    (room : w.waiting.length + (reachedByLoss w peer series).length ≤ 32) :
    (coherenceLoss s w peer series).log = w.log.map (fun r => r.lose s peer series)
      ∧ Entered (w.log.map fun r => r.lose s peer series) (reachedByLoss w peer series) w.waiting
        (coherenceLoss s w peer series).waiting := by
  obtain ⟨p, left, stays⟩ := foldl_leaveWhenFinal (reachedByLoss w peer series)
    { w with log := w.log.map fun r => r.lose s peer series }
  obtain ⟨log, entered⟩ := foldl_settleEntry (reachedByLoss w peer series)
    { w with log := w.log.map fun r => r.lose s peer series, waiting := w.waiting.filter p } (by
      have := List.length_filter_le p w.waiting
      simp only
      omega)
  simp only [coherenceLoss, left]
  refine ⟨log, fun e he => ?_, fun e he out => ?_, entered.final, entered.provisional⟩
  · exact (entered.sub e he).imp_left fun he => (List.mem_filter.mp he).1
  · exact entered.other e (List.mem_filter.mpr ⟨he, stays e out⟩) out

/-! ### The report (R129, R134) -/

theorem foldl_applyChange_acts (s : State) (report : List FoldChange) (wf : Work × List Nat) :
    report.foldl (applyChange s) wf = (report.filter FoldChange.acts).foldl (applyChange s) wf := by
  induction report generalizing wf with
  | nil => rfl
  | cons c report ih =>
    rw [List.foldl_cons, ih, List.filter_cons]
    cases c <;> rfl

theorem Record.lose_off {s : State} {r : Record} {peer series : Nat} (h : r.bracketOn peer series = false) :
    r.lose s peer series = r := by
  simp [Record.lose, h]

theorem Record.lose_sealed {s : State} {r : Record} {peer series : Nat} (on : r.bracketOn peer series = true)
    (state : r.state = .sealed) : r.lose s peer series = { r with flags := { r.flags with amendedAfterSeal := true } } := by
  simp [Record.lose, on, state]

theorem Record.lose_open {s : State} {r : Record} {peer series : Nat} (on : r.bracketOn peer series = true)
    (state : r.state ≠ .sealed) {x : Values} (values : r.values = some x) :
    r.lose s peer series =
      { r with
        values := some { x with term := lossTerm s r.header x.mid x.term }
        flags := { r.flags with baseInvalidated := r.flags.baseInvalidated || x.term.expiry ≤ s.tb.nodeTime } } := by
  simp [Record.lose, on, state, values]

theorem Record.lose_sameCase (s : State) (r : Record) (peer series : Nat) : r.SameCase (r.lose s peer series) := by
  unfold Record.lose
  split
  · exact ⟨rfl, rfl, rfl⟩
  · split
    · exact ⟨rfl, rfl, rfl⟩
    · split
      · exact ⟨rfl, rfl, rfl⟩
      · rename_i values
        exact ⟨rfl, rfl, by rw [values]; rfl⟩

theorem Record.bracketOn_eq (r : Record) (peer series : Nat) :
    r.bracketOn peer series = r.values.any fun x => x.term.bracket.any fun k => k.peer = peer && k.series = series := by
  unfold Record.bracketOn
  cases r.values <;> rfl

/-- A record without values, or one that is not REDUCED, at the end of an event that changed its flags alone. -/
theorem closed_flags {s : State} (sound : LogSound s) {r : Record} (hr : r ∈ s.eng.log) (w : Work) (cfg : DriftConfig)
    {g : RecordFlags} (bare : r.values = none ∨ r.state ≠ .reduced) :
    (w.settled cfg { r with flags := g }).close (some r) = { r with flags := g } := by
  rcases bare with bare | state
  · have settled : w.settled cfg { r with flags := g } = { r with flags := g } := by
      simp only [Work.settled, Record.markedBy, Record.reformedBy, bare, Option.map_none]
    rw [settled, Record.close_none _ (by exact bare)]
  · rw [Record.close_other _ (by exact state)]
    exact ((Record.Changed.flags r g).trans (Work.settled_changed cfg w _)).other (sound.sound r hr) state

/-- A fold report whose one acting change is a coherence loss, taken while the pending list has room (R129, R134). -/
theorem lossTaken_of {s t : State} (sound : LogSound s) {report : List FoldChange} {peer series epoch : Nat}
    (acts : report.filter FoldChange.acts = [.loss peer series epoch])
    (room : s.eng.waiting.length + (s.eng.log.filter fun r : Record => r.state ≠ RecState.sealed
      && r.values.any fun x => x.term.bracket.any fun k => k.peer = peer && k.series = series).length ≤ 32)
    {cfg : DriftConfig} {u : State} (now : u.tb.nodeTime = s.tb.nodeTime) (selects : select u = select t)
    (log : t.eng.log = closeLog s.eng.log ((takeReport u report s.eng.work).settleLoops cfg).log)
    (waiting : t.eng.waiting = ((takeReport u report s.eng.work).settleLoops cfg).waiting) : LossTaken s t peer series := by
  have nodup := sound.nodup
  have pending : s.eng.work.Ready := sound.ready
  set reached := reachedByLoss s.eng.work peer series with reachedDef
  have reachedLength : s.eng.work.waiting.length + reached.length ≤ 32 := by
    simp only [reachedDef, reachedByLoss, List.length_map, Record.bracketOn_eq]
    exact room
  obtain ⟨lostLog, entered⟩ := coherenceLoss_entered u s.eng.work peer series reachedLength
  set lost := coherenceLoss u s.eng.work peer series
  have same : ∀ r ∈ s.eng.log, r.SameCase (r.lose u peer series) := fun r _ => r.lose_sameCase u peer series
  have numbers : lost.log.map Record.number = s.eng.log.map Record.number := by
    rw [lostLog, List.map_map]
    exact List.map_congr_left fun r hr => (same r hr).1
  have finals : ∀ n, lost.finals u n = s.eng.work.finals u n := fun n =>
    Work.finals_map u s.eng.work lostLog same lost.waiting n
  have taken : takeReport u report s.eng.work =
      { lost with
        log := s.eng.log.map fun r => if r.number ∈ lost.waiting.map PendingEntry.occ
          then (r.lose u peer series).reselected u else r.lose u peer series
        waiting := lost.waiting.filter fun e => !s.eng.work.finals u e.occ } := by
    have nonempty : ¬report.isEmpty = true := fun empty => by
      rw [List.isEmpty_iff.mp empty] at acts
      cases acts
    have changed : (report.foldl (applyChange u) (s.eng.work, [])).1 = lost := by
      rw [foldl_applyChange_acts, acts]
      rfl
    simp only [takeReport, if_neg nonempty, changed]
    rw [reevaluateAll_eq u (numbers ▸ nodup)]
    congr 1
    · rw [lostLog]
      refine (List.map_map ..).trans (List.map_congr_left fun r hr => ?_)
      simp only [Function.comp, (same r hr).1]
    · exact List.filter_congr fun e _ => by rw [finals]
  have waiting : t.eng.waiting = lost.waiting.filter fun e => !s.eng.work.finals u e.occ := by
    rw [waiting, Work.settleLoops_eq, taken]
  have found : ∀ r ∈ s.eng.log, findRecord r.number (s.eng.log.map fun r => r.lose u peer series) = some (r.lose u peer series) :=
    fun r hr => by rw [findRecord_map _ fun r hr => (same r hr).1, findRecord_of_mem nodup hr]; rfl
  have reachedIff : ∀ r ∈ s.eng.log, r.number ∈ reached ↔ r.state ≠ .sealed ∧ r.bracketOn peer series = true := by
    intro r hr
    rw [reachedDef, reachedByLoss, List.mem_map]
    refine ⟨fun ⟨r', hr', number⟩ => ?_, fun h => ⟨r, List.mem_filter.mpr ⟨hr, by simpa using h⟩, rfl⟩⟩
    obtain ⟨hr', on⟩ := List.mem_filter.mp hr'
    obtain rfl := eq_of_number nodup hr' hr number
    simpa using on
  have finalsOf : ∀ r ∈ s.eng.log, ∀ x, r.values = some x → s.eng.work.finals u r.number = (select t r.header x.mid).final := by
    intro r hr x values
    have here : findRecord r.number s.eng.work.log = some r := findRecord_of_mem nodup hr
    simp only [Work.finals, here, Option.any_some, values, selects]
  intro r hr
  have member := mem_closed sound (w := takeReport u report s.eng.work)
    (φ := fun r => if r.number ∈ lost.waiting.map PendingEntry.occ
      then (r.lose u peer series).reselected u else r.lose u peer series) (by rw [taken])
    (fun r hr => by split <;> exact (same r hr).1) log hr
  have number := (same r hr).1
  have staysOut : ∀ e ∈ lost.waiting, e.occ = r.number → r.number ∉ reached → e ∈ s.eng.waiting := by
    intro e he occ out
    rcases entered.sub e he with he | ⟨n, hn, own⟩
    · exact he
    · exact absurd ((own.occ.symm.trans occ) ▸ hn) out
  have awaited : (∃ e ∈ t.eng.waiting, e.occ = r.number)
      ↔ (∃ e ∈ lost.waiting, e.occ = r.number) ∧ s.eng.work.finals u r.number = false := by
    rw [waiting]
    refine ⟨fun ⟨e, he, occ⟩ => ?_, fun ⟨⟨e, he, occ⟩, provisional⟩ => ⟨e, List.mem_filter.mpr ⟨he, by simp [occ, provisional]⟩, occ⟩⟩
    obtain ⟨he, provisional⟩ := List.mem_filter.mp he
    exact ⟨⟨e, he, occ⟩, by simpa [occ] using provisional⟩
  have here : r.number ∈ lost.waiting.map PendingEntry.occ ↔ ∃ e ∈ lost.waiting, e.occ = r.number := List.mem_map
  have kept : ∀ q : Record, _ := closed_kept (takeReport u report s.eng.work) cfg (some r)
  cases values : r.values with
  | none =>
    have off : r.lose u peer series = { r with flags := r.flags } := Record.lose_off (by simp [Record.bracketOn, values])
    have again : ({ r with flags := r.flags } : Record).reselected u = { r with flags := r.flags } := by
      obtain ⟨⟩ := r
      simp only [Record.reselected] at values ⊢
      rw [values]
      rfl
    rw [off, again, ite_self, closed_flags sound hr _ _ (.inl values)] at member
    exact ⟨r, member, rfl, rfl⟩
  | some x =>
    have on : (x.term.bracket.any fun k => k.peer = peer && k.series = series) = r.bracketOn peer series := by
      rw [Record.bracketOn_eq, values, Option.any_some]
    simp only [on]
    cases bracket : r.bracketOn peer series with
    | false =>
      have out : r.number ∉ reached := fun mem => by
        have := ((reachedIff r hr).mp mem).2
        rw [bracket] at this
        cases this
      have off : r.lose u peer series = r := Record.lose_off bracket
      rw [off] at member
      refine ⟨_, member, ?_⟩
      simp only [Bool.false_eq_true, if_false]
      by_cases held : s.eng.waiting.any (fun e => e.occ = r.number) = true
      · obtain ⟨e, he, occ⟩ := List.any_eq_true.mp held
        have occ : e.occ = r.number := of_decide_eq_true occ
        have stays : ∃ e ∈ lost.waiting, e.occ = r.number := ⟨e, entered.other e he (occ ▸ out), occ⟩
        rw [if_pos (here.mpr stays), if_pos held, awaited, finalsOf r hr x values]
        obtain ⟨number, flags, terms⟩ := kept (r.reselected u)
        refine ⟨number, flags, terms.trans ?_, by simp [stays]⟩
        simp only [Record.reselected, values, Option.map_some, selects]
      · have absent : ¬r.number ∈ lost.waiting.map PendingEntry.occ := fun mem => by
          obtain ⟨e, he, occ⟩ := here.mp mem
          exact held (List.any_eq_true.mpr ⟨e, staysOut e he occ out, by simp [occ]⟩)
        rw [if_neg absent, if_neg held]
        obtain ⟨number, flags, terms⟩ := kept r
        exact ⟨number, flags, terms.trans (by rw [values]; rfl)⟩
    | true =>
      simp only [if_true]
      by_cases sealed : r.state = .sealed
      · have out : r.number ∉ reached := fun mem => ((reachedIff r hr).mp mem).1 sealed
        have absent : ¬r.number ∈ lost.waiting.map PendingEntry.occ := fun mem => by
          obtain ⟨e, he, occ⟩ := here.mp mem
          have reduced := pending.pending e (staysOut e he occ out) r hr occ.symm
          rw [sealed] at reduced
          cases reduced
        rw [if_neg absent, Record.lose_sealed bracket sealed, closed_flags sound hr _ _ (.inr (by rw [sealed]; decide))] at member
        refine ⟨_, member, rfl, ?_⟩
        rw [if_pos sealed, values]
      · have mem : r.number ∈ reached := (reachedIff r hr).mpr ⟨sealed, bracket⟩
        have lose := Record.lose_open (s := u) bracket sealed values
        have lostHere := found r hr
        simp only [if_neg sealed]
        by_cases expired : x.term.expiry ≤ s.tb.nodeTime
        · have term : lossTerm u r.header x.mid x.term
              = { x.term with outcome := .modelFallback, final := true, bracket := none, r := 0 } := if_pos (now ▸ expired)
          have final : isFinal (s.eng.log.map fun r => r.lose u peer series) r.number :=
            ⟨_, _, lostHere, by rw [lose], by rw [term]⟩
          have left := entered.final r.number mem final
          have absent : ¬r.number ∈ lost.waiting.map PendingEntry.occ := fun mem => by
            obtain ⟨e, he, occ⟩ := here.mp mem
            exact left e he occ
          rw [if_neg absent] at member
          obtain ⟨number', flags, terms⟩ := kept (r.lose u peer series)
          simp only [if_pos expired]
          refine ⟨_, member, number'.trans number, flags.trans ?_, terms.trans ?_, fun e he => ?_⟩
          · rw [lose, now]
            simp [expired]
          · rw [lose, term]
            rfl
          · rw [waiting] at he
            exact left e (List.mem_filter.mp he).1
        · have term : lossTerm u r.header x.mid x.term = x.term.selected (select u r.header x.mid) :=
            if_neg (now ▸ expired)
          have flags : (r.lose u peer series).flags = r.flags := by
            rw [lose, now]
            simp [expired]
          have terms : (r.lose u peer series).values.map Values.term = some (x.term.selected (select t r.header x.mid)) := by
            rw [lose, term, selects]
            rfl
          have terms' : ((r.lose u peer series).reselected u).values.map Values.term
              = some (x.term.selected (select t r.header x.mid)) := by
            rw [lose, term, selects]
            simp only [Record.reselected, Option.map_some, selects]
            rfl
          simp only [if_neg expired, awaited, finalsOf r hr x values]
          refine ⟨_, member, ?_, ?_, ?_, ?_, ?_⟩
          · split <;> exact (kept _).1.trans number
          · split <;> exact (kept _).2.1.trans flags
          · split
            · exact (kept _).2.2.trans terms'
            · exact (kept _).2.2.trans terms
          · refine ⟨fun h => h.2, fun provisional => ⟨?_, provisional⟩⟩
            exact entered.provisional r.number mem ⟨_, _, _, lostHere, by rw [lose], by rw [term, selects]; exact provisional, rfl⟩
          · intro e he occ
            rw [waiting] at he
            rcases entered.sub e (List.mem_filter.mp he).1 with he | ⟨n, hn, own⟩
            · exact .inl he
            · obtain rfl : n = r.number := own.occ.symm.trans occ
              obtain ⟨q, y, here', values', -, rfl⟩ := own
              have lostHere : findRecord r.number (s.eng.work.log.map fun r => r.lose u peer series) = _ := lostHere
              rw [lostHere] at here'
              cases here'
              rw [lose] at values'
              cases values'
              right
              rw [term]
              rfl

end Sys2Proof.Machine
end

