-- ==== Sys2Proof/Proofs/SlotBoundary.lean ====
section
/-! PROOF. SLOT_BOUNDARY (R12, R76, R77, R89, R93): the link's new slot, and the cycle-end event at the reduction engine from the fold
report to the notices. -/

namespace Sys2Proof.Machine

variable {s t : State}

/-! ### A fold report at the engine -/

theorem takeReport_congr {u : State} (selects : select u = select t) (now : u.tb.nodeTime = t.tb.nodeTime)
    (report : List FoldChange) : takeReport u report = takeReport t report := by
  have lose : ∀ (r : Record) peer series, r.lose u peer series = r.lose t peer series := by
    intro r peer series
    simp only [Record.lose, lossTerm, selects, now]
  have change : applyChange u = applyChange t := by
    funext wf c
    cases c <;> simp only [applyChange, coherenceLoss, lose]
  have again : reevaluateAll u = reevaluateAll t := by
    funext w
    have one : reevaluate u = reevaluate t := by
      funext w n
      simp only [reevaluate, selects]
    simp only [reevaluateAll, one]
  funext w
  simp only [takeReport, change, again]

theorem LogSound.report_terms (sound : LogSound s) (t : State) (report : List FoldChange) :
    s.eng.work.Reterms (takeReport t report s.eng.work) :=
  .takeReport t sound.ready sound.nodup report

/-- What the state `t` holds of the engine after state `v`, whose engine is that of `s`, has taken a fold report. -/
structure TookReport (s v t : State) (report : List FoldChange) : Prop where
  eng : v.eng = s.eng
  image : v.image = s.image
  now : v.tb.nodeTime = s.tb.nodeTime
  after : t.eng = (v.foldEvent report).eng
  peers : t.peers = v.peers
  image' : t.image = s.image
  now' : t.tb.nodeTime = s.tb.nodeTime

namespace TookReport

variable {v : State} {report : List FoldChange} (h : TookReport s v t report)

include h

theorem selects : select v = select t := select_congr (h.peers.symm) (h.image.trans h.image'.symm)

theorem taken : takeReport v report = takeReport t report := takeReport_congr h.selects (h.now.trans h.now'.symm) report

theorem driftCfg : v.driftCfg = s.driftCfg := by unfold State.driftCfg; rw [h.image]

theorem engine : t.eng = { s.eng with
    log := closeLog s.eng.log ((takeReport t report s.eng.work).settleLoops s.driftCfg).log
    waiting := ((takeReport t report s.eng.work).settleLoops s.driftCfg).waiting
    loops := ((takeReport t report s.eng.work).settleLoops s.driftCfg).loops } := by
  have after := h.after
  unfold State.foldEvent at after
  rw [State.engineEvent_eq, h.eng, h.taken, h.driftCfg] at after
  exact after

theorem frame : t.eng = { s.eng with log := t.eng.log, waiting := t.eng.waiting, loops := t.eng.loops } := by
  rw [h.engine]

theorem log : t.eng.log = closeLog s.eng.log ((takeReport t report s.eng.work).settleLoops s.driftCfg).log := by rw [h.engine]

theorem waiting : t.eng.waiting = ((takeReport t report s.eng.work).settleLoops s.driftCfg).waiting := by rw [h.engine]

theorem loops : t.eng.loops = ((takeReport t report s.eng.work).settleLoops s.driftCfg).loops := by rw [h.engine]

theorem passed (sound : LogSound s) : LoopsPassed s t := loopsPassed_of sound (sound.report_terms t report) h.log h.loops

theorem numbers (sound : LogSound s) : t.eng.log.map Record.number = s.eng.log.map Record.number := by
  have written := (h.passed sound).2.1
  have number : Record.number = Record.number ∘ Record.written := rfl
  rw [number, ← List.map_map, written, List.map_map]

theorem port : (v.foldEvent report).port
    = (loopNotices s.eng.work ((takeReport t report s.eng.work).settleLoops s.driftCfg)
        ++ resultNotices s.eng.log t.eng.log).foldl Port.offer v.port := by
  rw [h.log]
  unfold State.foldEvent
  rw [State.engineEvent_eq, h.eng, h.taken, h.driftCfg]
  rfl

theorem told (sound : LogSound s) (loops : LoopsSound s) : Told s t v.port (v.foldEvent report).port := by
  rw [h.port]
  have terms := sound.report_terms t report
  exact told_of sound loops ((Work.tells_start loops terms.loops terms.gone).settleLoops s.driftCfg) h.loops v.port

/-- A report that lists nothing changes nothing (R114). -/
theorem still (sound : LogSound s) (formed : RecordsFormed s) (drift : DriftSound s) (none : report = []) : t.eng = s.eng := by
  obtain ⟨work, log⟩ := State.event_still sound.nodup formed drift s.driftCfg
  have taken : takeReport t report s.eng.work = s.eng.work := by
    rw [none]
    rfl
  have engine := h.engine
  rw [taken, work] at engine
  refine engine.trans ?_
  have log : closeLog s.eng.log s.eng.work.log = s.eng.log := log
  rw [log]
  rfl

end TookReport

/-! ### The cycle end and the slot -/

/-- The state at the engine's event of a cycle end (R93, R100, R107). -/
def State.folded (s : State) : State :=
  ((s.setLink { s.link with inq := [] }).setPeers s.cycleEnded.1).setPort s.foldedPort

theorem State.cycleEnd_eq (nodup : (s.peers.entries.map PeerEntry.id).Nodup) :
    s.cycleEnd = s.folded.foldEvent s.cycleEnded.2.2.2 := by
  unfold State.cycleEnd
  rw [State.foldAll_eq s nodup]
  rfl

theorem State.foldEvent_link (s : State) (report : List FoldChange) :
    (s.foldEvent report).link = s.link ∧ (s.foldEvent report).osc = s.osc := by
  unfold State.foldEvent
  rw [State.engineEvent_eq]
  simp only [State.setPort_link, State.setEng_link, State.setPort_osc, State.setEng_osc, and_self]

theorem PeerLink.adoptMask_eq (l : PeerLink) :
    l.adoptMask = { l with rxMask := l.waitingMask.or l.rxMask, waitingMask := none } := by
  unfold PeerLink.adoptMask
  obtain ⟨_, _, _, _, _, _, _, _, waiting, _, _, _, _, _⟩ := l
  cases waiting <;> rfl

/-- A cycle start at the link (R77, R93): the inbound queue handed over, the reception set aside, a waiting receive mask adopted. -/
theorem State.cycleStart_eq (nodup : (s.peers.entries.map PeerEntry.id).Nodup) :
    s.cycleStart = (s.folded.foldEvent s.cycleEnded.2.2.2).setLink
      { s.link with
        inq := [], closed := s.link.heldBack s.osc, rxMask := s.link.waitingMask.or s.link.rxMask, waitingMask := none } := by
  obtain ⟨link, osc⟩ := s.folded.foldEvent_link s.cycleEnded.2.2.2
  unfold State.cycleStart
  simp only [State.cycleEnd_eq nodup]
  rw [link, osc, PeerLink.setAside_eq, PeerLink.adoptMask_eq]
  rfl

/-- The time base with the next boundary armed (R12). -/
def State.armedNext (s : State) (x : Nat) : State := s.setTb { s.tb with nextBoundary := some (s.schedule.nextBoundary x) }

theorem exec_slotBoundary {x : Nat} (running : s.node = .running) (held : s.tb.held = false)
    (next : s.tb.nextBoundary = some x) (due : x ≤ s.tb.nodeTime) (below : x < 86400000000) :
    exec .slotBoundary s = .next ((s.armedNext x).takeBoundary x).serve := by
  have reached : s.boundaryDue = true := by
    rw [← rangeEnd_eq] at below
    simp only [State.boundaryDue, TimeBase.boundaryDue, running, held, next, Option.any_some, due, below, decide_true, Bool.not_false,
      Bool.and_self]
  have delivered : s.deliverBoundary = (s.armedNext x).takeBoundary x := by
    simp only [State.deliverBoundary, next]
    rfl
  exact congrArg _ ((if_pos reached).trans (by rw [delivered]))

/-- A fold report taken replaces the engine and the port. -/
theorem State.foldEvent_frame (s : State) (report : List FoldChange) :
    ∃ e p, s.foldEvent report = (s.setEng e).setPort p := ⟨_, _, s.engineEvent_eq _⟩

theorem State.takeBoundary_within {x : Nat} (slot : (s.schedule.slotOf x).2 ≠ 0) :
    s.takeBoundary x = s.setLink (s.link.enterSlot s.schedule x) := by
  unfold State.takeBoundary
  simp only [if_neg slot]

theorem State.folded_schedule (s : State) : s.folded.schedule = s.schedule := by
  simp only [State.folded, State.setPort_schedule', State.setPeers_schedule', State.setLink_schedule']

theorem State.armedNext_schedule (s : State) (x : Nat) : (s.armedNext x).schedule = s.schedule := by
  simp only [State.armedNext, State.setTb_schedule']

theorem State.folded_setLink (s : State) (e : Engine) (p : Port) (l : PeerLink) :
    ((s.folded.setEng e).setPort p).setLink l = (((s.setPeers s.cycleEnded.1).setEng e).setPort p).setLink l := rfl

theorem State.armedNext_cycleEnded (s : State) (x : Nat) : (s.armedNext x).cycleEnded = s.cycleEnded := rfl

/-- A slot boundary that begins a cycle: the fold report taken, and the link in slot 0. -/
theorem State.takeBoundary_cycle {x : Nat} (nodup : (s.peers.entries.map PeerEntry.id).Nodup)
    (slot : (s.schedule.slotOf x).2 = 0) :
    ∃ e p, (s.armedNext x).folded.foldEvent s.cycleEnded.2.2.2 = ((s.armedNext x).folded.setEng e).setPort p
      ∧ (s.armedNext x).takeBoundary x = ((((s.armedNext x).setPeers s.cycleEnded.1).setEng e).setPort p).setLink
        (PeerLink.enterSlot { s.link with
          inq := [], closed := s.link.heldBack s.osc, rxMask := s.link.waitingMask.or s.link.rxMask, waitingMask := none }
          s.schedule x) := by
  obtain ⟨e, p, frame⟩ := (s.armedNext x).folded.foldEvent_frame s.cycleEnded.2.2.2
  refine ⟨e, p, frame, ?_⟩
  have nodup : ((s.armedNext x).peers.entries.map PeerEntry.id).Nodup := nodup
  unfold State.takeBoundary
  simp only [slot, if_true, State.cycleStart_eq nodup, State.armedNext_cycleEnded, frame, State.setLink_link,
    State.setLink_setLink, State.setLink_schedule', State.setPort_schedule', State.setEng_schedule', State.folded_schedule, State.armedNext_schedule]
  exact State.folded_setLink (s.armedNext x) e p _

/-- The flags that the store's work of a cycle end latches (R101, R107). -/
theorem State.foldedPort_changed (s : State) : s.foldedPort.changed =
    (s.peers.entries.filter fun e : PeerEntry =>
      e.state = .live && (e.counted s.baseTerm.silenceLimit).state = .silent).foldl
        (fun m e => m ||| BitVec.ofNat 32 (if e.id < 32 then 2 ^ e.id else 0)) s.port.changed := by
  have falls : ∀ e : PeerEntry, e.falls s.baseTerm.silenceLimit
      = (e.state = .live && (e.counted s.baseTerm.silenceLimit).state = .silent : Bool) := by
    intro e
    rw [PeerEntry.falls, Bool.eq_iff_iff]
    simpa using e.counted_changes s.baseTerm.silenceLimit
  show (s.peers.entries.filter (PeerEntry.falls s.baseTerm.silenceLimit)).foldl (fun m e => addToSet m e.id) s.port.changed = _
  rw [List.filter_congr fun e _ => falls e]
  rfl

/-- Settles O12: within a cycle by the link's slot alone, and at a cycle start by the fold's report at the engine (`TookReport`). -/
theorem slotBoundaries : Obligations.SlotBoundaries := by
  refine ⟨fun s x slot running held next due below same inner => ?_, fun s x running held next due below first nodup => ?_⟩
  · rw [exec_slotBoundary running held next due below]
    subst same
    rw [State.takeBoundary_within (by exact inner)]
    rfl
  · obtain ⟨e, p, frame, taken⟩ := State.takeBoundary_cycle nodup first
    generalize tDef : ((s.armedNext x).takeBoundary x).serve = t
    rw [taken] at tDef
    generalize vDef : (s.armedNext x).folded = v at frame
    have eng : (v.foldEvent s.cycleEnded.2.2.2).eng = e := by rw [frame]; rfl
    have port : (v.foldEvent s.cycleEnded.2.2.2).port = p := by rw [frame]; rfl
    have served : t.port = p.serve s.osc := by rw [← tDef]; rfl
    have took : TookReport s v t s.cycleEnded.2.2.2 := by
      refine ⟨?_, ?_, ?_, ?_, ?_, ?_, ?_⟩
      · rw [← vDef]; rfl
      · rw [← vDef]; rfl
      · rw [← vDef]; rfl
      · simp [eng, ← tDef, State.serve]
      · simp [← vDef, ← tDef, State.serve, State.folded, State.armedNext_cycleEnded]
      · simp [← tDef, State.serve, State.armedNext]
      · simp [← tDef, State.serve, State.armedNext]
    have flags := Port.answered_serve p s.osc
    have offered := Port.offers_kept (loopNotices s.eng.work ((takeReport t s.cycleEnded.2.2.2 s.eng.work).settleLoops s.driftCfg)
      ++ resultNotices s.eng.log t.eng.log) v.port
    rw [← took.port, port] at offered
    obtain ⟨changed, malformed, reset⟩ := offered
    have folded : v.port = s.foldedPort := by rw [← vDef]; rfl
    have changed : t.port.changed = s.foldedPort.changed := by rw [served, flags.changed, changed, folded]
    rw [exec_slotBoundary running held next due below]
    refine ⟨t, by rw [← tDef, taken], by rw [← tDef]; rfl, by simp [← tDef, State.serve, State.armedNext],
      by simp [← tDef, State.serve, State.armedNext], by simp [← tDef, State.serve, State.armedNext],
      by simp [← tDef, State.serve, State.armedNext], by simp [← tDef, State.serve, State.armedNext], ?_,
      by simp [← tDef, State.serve],
      by rw [served, flags.latched, malformed, folded]; rfl,
      by rw [served, flags.latched, reset, folded]; rfl, took.frame, ?_, by rw [changed, State.foldedPort_changed], fun empty => ?_⟩
    · have slotOf : s.schedule.slotOf x = (x / (s.schedule.slots * s.schedule.slotLength), 0) := Prod.ext rfl first
      rw [← tDef]
      show PeerLink.enterSlot _ s.schedule x = _
      simp only [PeerLink.enterSlot, PeerLink.listensTo, slotOf]
      rfl
    · rintro report q rfl rfl sound
      refine ⟨took.passed sound, took.numbers sound, fun loops => ⟨p, served, ?_⟩, took.still sound,
        fun some_ noLoss => reselected_of sound some_ noLoss took.log took.waiting,
        fun peer series epoch acts room => lossTaken_of sound acts room took.now' rfl took.log took.waiting⟩
      have told := took.told sound loops
      rw [port, folded] at told
      rw [changed]
      exact told
    · rw [← tDef]
      show s.cycleEnded.1 = _
      simp only [State.cycleEnded, empty, List.foldl_nil]
      rfl

end Sys2Proof.Machine
end

