-- ==== Sys2Proof/Proofs/DriftPlaces.lean ====
section
/-! PROOF. The drift place of an occupation at its first reduction (R139 to R145, R152), case by case as the loop table decides it:
what it leaves of the log, the loop table and the loops that left their slots. -/

namespace Sys2Proof.Machine

/-! ### A record placed -/

/-- A record at its place among the loops, TIE_UNMATCHED latched if so (R139, R145). -/
def Record.seated (loopNo : Option Nat) (d : Int) (frozen unmatched : Bool) (r : Record) : Record :=
  { r.place loopNo d frozen with flags := { r.flags with tieUnmatched := r.flags.tieUnmatched || unmatched } }

theorem Record.seated_matched (loopNo : Option Nat) (d : Int) (frozen : Bool) (r : Record) :
    r.seated loopNo d frozen false = r.place loopNo d frozen := by
  unfold Record.seated
  rw [Bool.or_false]
  rfl

/-- A record at the abandonment of loop `l` (R141). -/
def Record.leftBy (l : Loop) (r : Record) : Record :=
  if l.members.contains r.number then { r.freezeDrift with flags := { r.flags with loopAbandoned := true } }
  else if r.number = l.opening.occ then r.freezeDrift
  else r

theorem Record.freezeDrift_changed (r : Record) : r.Changed r.freezeDrift :=
  .drift r (d := Values.d) (frozen := fun _ => true) fun _ _ _ => ⟨rfl, rfl⟩

theorem Record.leftBy_changed (l : Loop) (r : Record) : r.Changed (r.leftBy l) := by
  unfold Record.leftBy
  split
  · exact r.freezeDrift_changed.trans (.flags _ _)
  · split
    · exact r.freezeDrift_changed
    · exact .refl r

theorem Record.freezeDrift_terms (r : Record) : r.freezeDrift.values.map Values.term = r.values.map Values.term := by
  unfold Record.freezeDrift
  cases r.values <;> rfl

theorem Record.leftBy_kept (l : Loop) (r : Record) : (r.leftBy l).values.map Values.term = r.values.map Values.term
    ∧ (r.leftBy l).tieKey = r.tieKey
    ∧ (r.leftBy l).flags = { r.flags with loopAbandoned := r.flags.loopAbandoned || l.members.contains r.number } := by
  have key : r.freezeDrift.tieKey = r.tieKey := by
    unfold Record.tieKey Record.freezeDrift
    cases r.values <;> rfl
  unfold Record.leftBy
  cases member : l.members.contains r.number with
  | true => exact ⟨r.freezeDrift_terms, key, by rw [Bool.or_true]; rfl⟩
  | false =>
    rw [if_neg Bool.false_ne_true, Bool.or_false]
    split
    · exact ⟨r.freezeDrift_terms, key, rfl⟩
    · exact ⟨rfl, rfl, rfl⟩

/-! ### The placing, case by case -/

/-- The place of occupation `n` where it closes no loop: the loop table `loops`, and the seat of its record. -/
def Work.seat (w : Work) (n : Nat) (loops : LoopTable) (loopNo : Option Nat) (d : Int) (frozen unmatched : Bool) : Work :=
  { w with loops := loops }.modify n (Record.seated loopNo d frozen unmatched)

/-- An occupation as a tie would be held (R138). -/
def Record.asTie (r : Record) (x : Values) : Tie := ⟨r.number, r.header.pointId, x.mid, x.beforeDrift, x.term.final⟩

section

variable {cfg : DriftConfig} {w : Work} {r : Record} {x : Values}

theorem Work.modify_place (w : Work) (n : Nat) (loopNo : Option Nat) (d : Int) (frozen : Bool) :
    (w.modify n fun r => r.place loopNo d frozen) = w.seat n w.loops loopNo d frozen false := by
  simp only [Work.seat, ← Record.seated_matched]

theorem Work.placeDrift_on (found : findRecord r.number w.log = some r) (values : r.values = some x) (on : cfg.on = true) :
    w.placeDrift cfg r.number =
      if r.header.tie then w.placeTie cfg (r.asTie x) else w.placeNonTie r.number x.mid := by
  simp only [Work.placeDrift, found, values, on, Bool.not_true, Bool.false_eq_true, if_false]
  rfl

/-- Drift correction is off (R152). -/
theorem Work.placeDrift_off (found : findRecord r.number w.log = some r) (values : r.values = some x) (off : cfg.on = false) :
    w.placeDrift cfg r.number = w.seat r.number w.loops none 0 true false := by
  simp only [Work.placeDrift, found, values, off, Bool.not_false, if_true, Work.modify_place]

theorem Work.placeNoLoop_eq (w : Work) (n mid : Nat) : w.placeNoLoop n mid = w.seat n w.loops none (w.loops.carried mid) true false := by
  rw [Work.placeNoLoop, Work.modify_place, LoopTable.carryAt_eq]

theorem Work.openFresh_eq (w : Work) (tie : Tie) (unmatched : Bool) :
    w.openFresh tie unmatched = w.seat tie.occ (w.loops.opened tie (w.loops.carried tie.mid) false unmatched)
      (some (w.loops.counter + 1)) (w.loops.carried tie.mid) true unmatched := by
  unfold Work.openFresh
  simp only [LoopTable.carryAt_eq, LoopTable.openAt_eq]
  rfl

/-- A member joins the OPEN loop (R140). -/
theorem Work.placeNonTie_member {l : Loop} (open_ : w.loops.openLoop = some l) (room : l.members.length < 64) (n mid : Nat) :
    w.placeNonTie n mid = w.seat n { w.loops with openLoop := some { l with members := l.members ++ [n] } } (some l.number)
      (l.dO + roundDiv (l.rate * ((mid : Int) - l.opening.mid)) 1000000) false false := by
  simp only [Work.placeNonTie, open_, if_pos room, Work.modify_place]
  rfl

theorem Work.placeNonTie_full {l : Loop} (open_ : w.loops.openLoop = some l) (full : ¬l.members.length < 64) (n mid : Nat) :
    w.placeNonTie n mid = (w.abandon l).seat n (w.loops.abandoned l) none ((w.loops.abandoned l).carried mid) true false := by
  simp only [Work.placeNonTie, open_, if_neg full, Work.placeNoLoop_eq]
  rfl

theorem Work.placeNonTie_outside (none_ : w.loops.openLoop = none) (n mid : Nat) :
    w.placeNonTie n mid = w.seat n w.loops none (w.loops.carried mid) true false := by
  simp only [Work.placeNonTie, none_, Work.placeNoLoop_eq]

theorem Work.placeTie_first (none_ : w.loops.openLoop = none) (tie : Tie) :
    w.placeTie cfg tie = w.seat tie.occ (w.loops.opened tie (w.loops.carried tie.mid) false false) (some (w.loops.counter + 1))
      (w.loops.carried tie.mid) true false := by
  simp only [Work.placeTie, none_, Work.openFresh_eq]

theorem Work.placeTie_unmatched {l : Loop} {tie : Tie} (open_ : w.loops.openLoop = some l) (other : l.opening.pointId ≠ tie.pointId) :
    w.placeTie cfg tie = (w.abandon l).seat tie.occ
      ((w.loops.abandoned l).opened tie ((w.loops.abandoned l).carried tie.mid) false true) (some (w.loops.counter + 1))
      ((w.loops.abandoned l).carried tie.mid) true true := by
  simp only [Work.placeTie, open_, if_neg other, Work.openFresh_eq]
  rfl

end

/-! ### The closure (R143, R144, R148) -/

/-- The loops that a closure makes FROZEN for room (R144). -/
def LoopTable.crowded (t : LoopTable) : List Loop :=
  match t.closing with
  | l :: _ :: _ => [{ l with state := .frozen, flags := { l.flags with rateProvisional := true } }]
  | _ => []

/-- The table with the OPEN loop `l` closed at a tie and the joined loop open there, before the freezing test (R143, R144). -/
def LoopTable.joinedAt (cfg : DriftConfig) (t : LoopTable) (l : Loop) (tie : Tie) : LoopTable :=
  let c := l.closedBy cfg (t.forced.priorRate l.number) tie
  ({ t.forced with openLoop := none, closing := t.forced.closing ++ [c] } : LoopTable).opened tie
    (c.dO + roundDiv (c.rate * ((tie.mid : Int) - c.opening.mid)) 1000000) true false

theorem LoopTable.priorRate_last {t : LoopTable} {k : Nat} {l : Loop} {ls : List Loop}
    (last : t.lastFrozen.toList ++ t.closing = ls ++ [l]) (older : l.number < k) : t.priorRate k = l.rate := by
  simp [LoopTable.priorRate, last, List.filter_append, older]

theorem Loop.closedBy_number (cfg : DriftConfig) (before : Int) (l : Loop) (tie : Tie) :
    (l.closedBy cfg before tie).number = l.number := congrArg Prod.fst (l.closedBy_shape cfg before tie)

theorem LoopTable.forced_rest (t : LoopTable) : t.forced.counter = t.counter ∧ t.forced.carry = t.carry := by
  unfold LoopTable.forced
  split <;> exact ⟨rfl, rfl⟩

/-- The freezing test on the table that a closure leaves (R148). -/
theorem LoopTable.joinedAt_frozenUp {cfg : DriftConfig} {t : LoopTable} {l : Loop} (tie : Tie) (bound : l.number ≤ t.counter) :
    (t.joinedAt cfg l tie).frozenUp = t.closedAt cfg l tie := by
  generalize hc : l.closedBy cfg (t.forced.priorRate l.number) tie = c
  have older : c.number < t.counter + 1 := by
    rw [← hc, Loop.closedBy_number]
    omega
  have split := List.takeWhile_append_dropWhile (p := Loop.settled) (l := t.forced.closing ++ [c])
  have rate : ({ t.forced with openLoop := none, closing := t.forced.closing ++ [c] } : LoopTable).priorRate (t.counter + 1)
      = c.rate :=
    LoopTable.priorRate_last (l := c) (ls := t.forced.lastFrozen.toList ++ t.forced.closing) (List.append_assoc ..).symm older
  simp only [(t.forced_rest).1] at rate
  unfold LoopTable.joinedAt LoopTable.closedAt LoopTable.opened
  simp only [hc, (t.forced_rest).1, rate]
  cases newest : ((t.forced.closing ++ [c]).takeWhile Loop.settled).getLast? with
  | none =>
    have none_ := List.getLast?_eq_none_iff.mp newest
    have drop : (t.forced.closing ++ [c]).dropWhile Loop.settled = t.forced.closing ++ [c] := by simpa [none_] using split
    rw [LoopTable.frozenUp_unsettled (by exact none_), drop]
    simp only [Option.map_none, Option.none_or, (t.forced_rest).2]
  | some x =>
    simp only [LoopTable.frozenUp, newest, Option.map_some, Option.some_or, (t.forced_rest).2]
    congr 2
    congr 1
    cases rest : (t.forced.closing ++ [c]).dropWhile Loop.settled with
    | nil =>
      rw [rest, List.append_nil] at split
      rw [split, List.getLast?_append, List.getLast?_singleton, Option.some_or] at newest
      cases newest
      exact LoopTable.priorRate_last (l := { c with state := .frozen }) (ls := []) rfl older
    | cons a as =>
      obtain ⟨ls, last⟩ : ∃ ls, a :: as = ls ++ [c] := by
        have : (a :: as).getLast? = some c := by
          have whole := congrArg List.getLast? split
          rw [rest, List.getLast?_append, List.getLast?_append, List.getLast?_singleton, Option.some_or] at whole
          cases h : (a :: as).getLast? with
          | none => simp at h
          | some y => rw [h, Option.some_or] at whole; exact whole
        exact ⟨_, (List.dropLast_append_getLast? c this).symm⟩
      exact LoopTable.priorRate_last (l := c) (ls := { x with state := .frozen } :: ls) (by rw [last]; rfl) older

/-- Two CLOSING loops make room for a third (R144). -/
theorem Work.crowded_eq (w : Work) : ∃ o, (if 2 ≤ w.loops.closing.length then w.freezeOldest true else w) =
    { w with
      log := w.log.map (Record.markedBy w.loops.crowded)
      loops := { w.loops.forced with openLoop := o }, gone := w.gone ++ w.loops.crowded } := by
  obtain ⟨log, waiting, ⟨openLoop, closing, lastFrozen, carry, counter⟩, gone⟩ := w
  match closing with
  | [] => exact ⟨openLoop, by simp [LoopTable.crowded, LoopTable.forced, Record.markedBy_nil]⟩
  | [a] => exact ⟨openLoop, by simp [LoopTable.crowded, LoopTable.forced, Record.markedBy_nil]⟩
  | a :: b :: rest =>
    have marked := Work.freezeDrift_loop ⟨log, waiting, ⟨openLoop, a :: b :: rest, lastFrozen, carry, counter⟩, gone⟩ a
    simp only [Work.freezeDrift] at marked
    refine ⟨(Work.freezeOldest ⟨log, waiting, ⟨openLoop, a :: b :: rest, lastFrozen, carry, counter⟩, gone⟩ true).loops.openLoop,
      (if_pos (by simp)).trans ?_⟩
    simp only [Work.freezeOldest, Work.freezeDrift, Bool.or_true]
    rw [marked]
    rfl

theorem Work.close_eq (cfg : DriftConfig) (w : Work) (l : Loop) (tie : Tie) :
    w.close cfg l tie =
      { log := ((((w.log.map (Record.markedBy w.loops.crowded)).map fun r => if r.number = tie.occ then
            r.place (some (w.loops.counter + 1))
              ((l.closedBy cfg (w.loops.forced.priorRate l.number) tie).dO
                + roundDiv ((l.closedBy cfg (w.loops.forced.priorRate l.number) tie).rate
                  * ((tie.mid : Int) - (l.closedBy cfg (w.loops.forced.priorRate l.number) tie).opening.mid)) 1000000) false
            else r).map (Record.reformedBy (w.loops.joinedAt cfg l tie) true)).map
              (Record.markedBy ((w.loops.joinedAt cfg l tie).closing.takeWhile Loop.settled)))
        waiting := w.waiting
        loops := (w.loops.joinedAt cfg l tie).frozenUp
        gone := w.gone ++ w.loops.crowded ++ ((w.loops.joinedAt cfg l tie).closing.takeWhile Loop.settled).map Loop.frozen } := by
  obtain ⟨o, room⟩ := w.crowded_eq
  have prior : ({ w.loops.forced with openLoop := o } : LoopTable).rateBefore l.number = w.loops.forced.priorRate l.number :=
    LoopTable.rateBefore_eq ..
  generalize hc : l.closedBy cfg (w.loops.forced.priorRate l.number) tie = c
  have joined : LoopTable.openAt { w.loops.forced with openLoop := none, closing := w.loops.forced.closing ++ [c] } tie
      (c.line tie.mid) true false = w.loops.joinedAt cfg l tie := by
    simp only [LoopTable.openAt_eq, LoopTable.joinedAt, hc]
    rfl
  have counter : (w.loops.joinedAt cfg l tie).counter = w.loops.counter + 1 := congrArg (· + 1) (w.loops.forced_rest).1
  unfold Work.close
  simp only [room, prior, Loop.closedBy_eq, hc, joined]
  rw [freezeReady_eq _ _ (Nat.le_refl _)]
  have reform : (w.loops.joinedAt cfg l tie).reformD = Record.reformedBy (w.loops.joinedAt cfg l tie) true := by
    funext r
    exact LoopTable.reformD_eq _ r
  simp only [Work.reformAll, Work.modify, reform, counter]
  rfl

end Sys2Proof.Machine
end

