-- ==== Sys2Proof/Proofs/Placements.lean ====
section
/-! PROOF. The drift place of a first reduction as the statements ask it: the log with its one record placed and the others
as an abandonment or a freezing leaves them (`Work.Seats`), the place itself (`LoopPlacing`), and the loops told of (`Work.Tells`). -/

namespace Sys2Proof.Machine

/-! ### The log with one record placed -/

/-- A record at its place, with LOOP_ABANDONED when it is among the members given up (R139, R141, R145). -/
def Record.placedAs (loopNo : Option Nat) (d : Int) (frozen unmatched left : Bool) (r : Record) : Record :=
  { r.place loopNo d frozen with
    flags := { r.flags with
      tieUnmatched := r.flags.tieUnmatched || unmatched, loopAbandoned := r.flags.loopAbandoned || left } }

/-- What the placing of record `r` leaves of a record of another occupation, with `left` given up. -/
structure Record.Bystands (left : List Nat) (o o' : Record) : Prop where
  changed : o.Changed o'
  terms : o'.values.map Values.term = o.values.map Values.term
  flags : o'.flags = { o.flags with loopAbandoned := o.flags.loopAbandoned || left.contains o.number }

/-- The log and the pending list after the placing of record `r`. -/
structure Work.Seats (left : List Nat) (r : Record) (w w' : Work) (loopNo : Option Nat) (d : Int) (frozen unmatched : Bool) :
    Prop where
  log : ∃ χ : Record → Record, w'.log = w.log.map χ
    ∧ (∀ o ∈ w.log, o.number ≠ r.number → Record.Bystands left o (χ o))
    ∧ χ r = r.placedAs loopNo d frozen unmatched (left.contains r.number)
  waiting : w'.waiting = w.waiting

theorem Record.Bystands.refl (o : Record) : Record.Bystands [] o o :=
  ⟨.refl o, rfl, by simp only [List.contains_nil, Bool.or_false]⟩

theorem Record.Bystands.leftBy (l : Loop) (o : Record) : Record.Bystands l.members o (o.leftBy l) :=
  ⟨o.leftBy_changed l, (o.leftBy_kept l).1, (o.leftBy_kept l).2.2⟩

/-- A seat with no loop abandoned. -/
theorem Work.seat_seats (w : Work) (r : Record) (loops : LoopTable) (loopNo : Option Nat) (d : Int) (frozen unmatched : Bool) :
    w.Seats [] r (w.seat r.number loops loopNo d frozen unmatched) loopNo d frozen unmatched := by
  refine ⟨⟨fun o => if o.number = r.number then o.seated loopNo d frozen unmatched else o, rfl, fun o _ other => ?_, ?_⟩, rfl⟩
  · simp only [if_neg other]
    exact .refl o
  · simp only [if_true, Record.placedAs, List.contains_nil, Bool.or_false]
    rfl

/-- A seat after the abandonment of the OPEN loop. -/
theorem Work.seat_seats_left (w : Work) (l : Loop) (r : Record) (loops : LoopTable) (loopNo : Option Nat) (d : Int)
    (frozen unmatched : Bool) :
    w.Seats l.members r ((w.abandon l).seat r.number loops loopNo d frozen unmatched) loopNo d frozen unmatched := by
  have number : ∀ o : Record, (o.leftBy l).number = o.number := fun o => (o.leftBy_changed l).number
  refine ⟨⟨fun o => if o.number = r.number then (o.leftBy l).seated loopNo d frozen unmatched else o.leftBy l, ?_,
    fun o _ other => ?_, ?_⟩, rfl⟩
  · show ((w.log.map (Record.leftBy l)).map fun o => if o.number = r.number then o.seated loopNo d frozen unmatched else o) = _
    rw [List.map_map]
    exact List.map_congr_left fun o _ => by simp only [Function.comp, number]
  · simp only [if_neg other]
    exact .leftBy l o
  · have placed : (r.leftBy l).place loopNo d frozen = { r.place loopNo d frozen with flags := (r.leftBy l).flags } := by
      unfold Record.leftBy
      split
      · simp only [Record.place, Record.freezeDrift, Option.map_map]
        rfl
      · split
        · simp only [Record.place, Record.freezeDrift, Option.map_map]
          rfl
        · rfl
    simp only [if_true, Record.seated, placed, (r.leftBy_kept l).2.2, Record.placedAs]

/-- The seat that a closure gives. -/
theorem Work.close_seats (cfg : DriftConfig) (w : Work) (l : Loop) (tie : Tie) {r : Record} (same : r.number = tie.occ)
    (isTie : r.header.tie = true) :
    w.Seats [] r (w.close cfg l tie) (some (w.loops.counter + 1))
      (((w.loops.joinedAt cfg l tie).slots.find? fun o => some o.number = some (w.loops.counter + 1)).elim
        ((l.closedBy cfg (w.loops.forced.priorRate l.number) tie).dO
          + roundDiv ((l.closedBy cfg (w.loops.forced.priorRate l.number) tie).rate
            * ((tie.mid : Int) - (l.closedBy cfg (w.loops.forced.priorRate l.number) tie).opening.mid)) 1000000) Loop.dO)
      (r.hangsOn ((w.loops.joinedAt cfg l tie).closing.takeWhile Loop.settled)) false := by
  rw [Work.close_eq]
  generalize (l.closedBy cfg (w.loops.forced.priorRate l.number) tie).dO
    + roundDiv ((l.closedBy cfg (w.loops.forced.priorRate l.number) tie).rate
      * ((tie.mid : Int) - (l.closedBy cfg (w.loops.forced.priorRate l.number) tie).opening.mid)) 1000000 = δ
  generalize w.loops.joinedAt cfg l tie = T
  generalize w.loops.crowded = forced
  refine ⟨⟨_, by simp only [List.map_map]; rfl, fun o _ other => ?_, ?_⟩, rfl⟩
  · have off : (o.markedBy forced).number ≠ tie.occ := same ▸ other
    simp only [Function.comp, if_neg off]
    refine ⟨((Record.Changed.markedBy ..).trans (Record.Changed.reformedBy ..)).trans (Record.Changed.markedBy ..), ?_, ?_⟩
    · unfold Record.markedBy Record.reformedBy
      cases o.values <;> rfl
    · simp only [List.contains_nil, Bool.or_false]
      rfl
  · have on : (r.markedBy forced).number = tie.occ := same
    simp only [Function.comp, if_pos on]
    cases values : r.values with
    | none =>
      simp [Record.placedAs, Record.place, Record.markedBy, Record.reformedBy, values]
    | some x =>
      simp [Record.placedAs, Record.place, Record.markedBy, Record.reformedBy, values, LoopTable.driftOf, Record.hangsOn, isTie]
      cases T.slots.find? fun o => decide (o.number = w.loops.counter + 1) <;> simp

/-! ### The loops told of -/

/-- A step of an event at the loop table, with the loop numbers `extra` given out anew. -/
theorem Work.Tells.step {t : LoopTable} {w w' : Work} (h : w.Tells t) {extra : List Nat}
    (perm : ((w'.gone ++ w'.loops.slots).map Loop.number).Perm (extra ++ (w.gone ++ w.loops.slots).map Loop.number))
    (nodup : extra.Nodup) (fresh : ∀ k ∈ extra, ∀ l ∈ w.gone ++ w.loops.slots, l.number ≠ k)
    (sub : ∀ g ∈ w.gone, g ∈ w'.gone)
    (gone : ∀ g ∈ w'.gone, g ∈ w.gone ∨ ((∃ o ∈ t.slots, o.number = g.number) ∧ (g.state = .frozen ∨ g.state = .abandoned)))
    (last : ∀ l ∈ w'.loops.lastFrozen, l ∈ w'.gone ∨ l ∈ w.loops.lastFrozen)
    (closing : ∀ l ∈ w'.loops.closing, ∃ o ∈ t.slots, o.number = l.number) : w'.Tells t := by
  refine ⟨?_, fun g hg => (gone g hg).elim (h.gone g) id, fun o ho => ?_, fun l hl => ?_, closing⟩
  · rw [perm.nodup_iff, List.nodup_append]
    refine ⟨nodup, h.nodup, fun k hk n hn same => ?_⟩
    obtain ⟨l, hl, number⟩ := List.mem_map.mp hn
    exact fresh k hk l hl (number.trans same.symm)
  · obtain ⟨l, hl, same⟩ := h.kept o ho
    have mem : l.number ∈ (w'.gone ++ w'.loops.slots).map Loop.number :=
      perm.mem_iff.mpr (List.mem_append_right _ (List.mem_map_of_mem hl))
    obtain ⟨m, hm, number⟩ := List.mem_map.mp mem
    exact ⟨m, hm, number.trans same⟩
  · rcases last l hl with gone | held
    · exact .inl gone
    · exact (h.last l held).imp_left (sub l)

/-- What the placing relies on, besides, to tell of the loops: the OPEN loop stood before the event, and no loop of it has a number
above the counter. -/
structure Work.Stood (t : LoopTable) (w : Work) : Prop where
  opened : ∀ l ∈ w.loops.openLoop, ∃ o ∈ t.slots, o.number = l.number
  bound : ∀ o ∈ t.slots, o.number ≤ w.loops.counter

theorem Work.Tells.below {t : LoopTable} {w : Work} (h : w.Tells t) (stood : w.Stood t) :
    ∀ l ∈ w.gone ++ w.loops.slots, l.number ≤ w.loops.counter := by
  have of_table : ∀ l : Loop, (∃ o ∈ t.slots, o.number = l.number) → l.number ≤ w.loops.counter := by
    rintro l ⟨o, ho, same⟩
    exact same ▸ stood.bound o ho
  intro l hl
  rcases List.mem_append.mp hl with gone | slot
  · exact of_table l (h.gone l gone).1
  · rcases List.mem_append.mp slot with closing | open_
    · exact of_table l (h.closing l closing)
    · exact of_table l (stood.opened l (Option.mem_toList.mp open_))

/-- A seat that leaves the loop numbers as they are. -/
theorem Work.Tells.seat {t : LoopTable} {w : Work} (h : w.Tells t) {loops : LoopTable} (closing : loops.closing = w.loops.closing)
    (last : loops.lastFrozen = w.loops.lastFrozen) (openLoop : loops.openLoop.map Loop.number = w.loops.openLoop.map Loop.number)
    (n : Nat) (loopNo : Option Nat) (d : Int) (frozen unmatched : Bool) :
    (w.seat n loops loopNo d frozen unmatched).Tells t := by
  have numbers : loops.slots.map Loop.number = w.loops.slots.map Loop.number := by
    simp only [LoopTable.slots, closing, List.map_append, ← Option.toList_map, openLoop]
  refine h.step (extra := []) ?_ List.nodup_nil (by simp) (fun _ => id) (fun _ => .inl) (fun l hl => .inr (last ▸ hl))
    fun l hl => h.closing l (closing ▸ hl)
  show ((w.gone ++ loops.slots).map Loop.number).Perm _
  rw [List.map_append, numbers, ← List.map_append]
  exact .refl _

/-- A loop opened in the event (R142, R143, R145). -/
theorem Work.Tells.seat_opened {t : LoopTable} {w : Work} (h : w.Tells t) (stood : w.Stood t) (none_ : w.loops.openLoop = none)
    (tie : Tie) (dO : Int) (joined um : Bool) (n : Nat) (loopNo : Option Nat) (d : Int) (frozen unmatched : Bool) :
    (w.seat n (w.loops.opened tie dO joined um) loopNo d frozen unmatched).Tells t := by
  have below := h.below stood
  refine h.step (extra := [w.loops.counter + 1]) ?_ (List.nodup_singleton _) (fun k hk l hl same => ?_) (fun _ => id) (fun _ => .inl)
    (fun l hl => .inr hl) fun l hl => h.closing l hl
  · show ((w.gone ++ (w.loops.opened tie dO joined um).slots).map Loop.number).Perm _
    have slots : (w.loops.opened tie dO joined um).slots.map Loop.number = w.loops.closing.map Loop.number ++ [w.loops.counter + 1] := by
      simp [LoopTable.slots, LoopTable.opened]
    have slots' : w.loops.slots = w.loops.closing := by simp [LoopTable.slots, none_]
    rw [List.map_append, slots, ← List.append_assoc, ← List.map_append, slots']
    exact List.perm_append_comm
  · rw [List.mem_singleton.mp hk] at same
    have := below l hl
    omega

/-- The OPEN loop abandoned (R141). -/
theorem Work.Tells.abandon {t : LoopTable} {w : Work} (h : w.Tells t) (stood : w.Stood t) {l : Loop}
    (open_ : w.loops.openLoop = some l) : (w.abandon l).Tells t ∧ (w.abandon l).Stood t := by
  refine ⟨h.step (extra := []) ?_ List.nodup_nil (by simp) (fun g hg => List.mem_append_left _ hg) (fun g hg => ?_) (fun l hl => .inr hl)
    fun c hc => h.closing c hc, fun l hl => (by cases hl), stood.bound⟩
  · show (((w.gone ++ [{ l with state := .abandoned }]) ++ (w.loops.abandoned l).slots).map Loop.number).Perm _
    have slots : (w.loops.abandoned l).slots = w.loops.closing := by simp [LoopTable.slots, LoopTable.abandoned]
    have slots' : w.loops.slots = w.loops.closing ++ [l] := by simp [LoopTable.slots, open_]
    simp only [slots, slots', List.map_append, List.append_assoc, List.map_cons, List.map_nil, List.nil_append]
    exact List.Perm.append_left _ List.perm_append_comm
  · rcases List.mem_append.mp hg with hg | hg
    · exact .inl hg
    · rw [List.mem_singleton.mp hg]
      exact .inr ⟨stood.opened l open_, .inr rfl⟩

theorem LoopTable.crowded_numbers (t : LoopTable) :
    (t.crowded ++ t.forced.closing).map Loop.number = t.closing.map Loop.number
      ∧ (∀ g ∈ t.crowded, g.state = .frozen) ∧ (∀ l ∈ t.forced.lastFrozen, l ∈ t.crowded ∨ l ∈ t.lastFrozen)
      ∧ ∀ l ∈ t.forced.closing, l ∈ t.closing := by
  unfold LoopTable.crowded LoopTable.forced
  split
  · rename_i closing
    simp [closing]
    exact fun a ha => .inr (.inr ha)
  · simp

/-- The OPEN loop closed (R143, R144, R148). -/
theorem Work.Tells.close {t : LoopTable} {w : Work} (h : w.Tells t) (stood : w.Stood t) (cfg : DriftConfig) {l : Loop}
    (open_ : w.loops.openLoop = some l) (tie : Tie) : (w.close cfg l tie).Tells t := by
  have below := h.below stood
  rw [Work.close_eq]
  obtain ⟨numbers, crowded, last, forced⟩ := w.loops.crowded_numbers
  generalize hT : w.loops.joinedAt cfg l tie = T
  have closing : T.closing.map Loop.number = w.loops.forced.closing.map Loop.number ++ [l.number] := by
    rw [← hT]
    simp [LoopTable.joinedAt, LoopTable.opened, Loop.closedBy_number]
  have openNumber : T.openLoop.map Loop.number = some (w.loops.counter + 1) := by
    rw [← hT]
    simp [LoopTable.joinedAt, LoopTable.opened, (w.loops.forced_rest).1]
  have lastT : T.lastFrozen = w.loops.forced.lastFrozen := by
    rw [← hT]
    rfl
  have split := List.takeWhile_append_dropWhile (p := Loop.settled) (l := T.closing)
  have ofTable : ∀ c ∈ T.closing, ∃ o ∈ t.slots, o.number = c.number := by
    intro c hc
    have mem : c.number ∈ w.loops.forced.closing.map Loop.number ++ [l.number] := closing ▸ List.mem_map_of_mem hc
    rcases List.mem_append.mp mem with mem | mem
    · obtain ⟨m, hm, same⟩ := List.mem_map.mp mem
      obtain ⟨o, ho, number⟩ := h.closing m (forced m hm)
      exact ⟨o, ho, number.trans same⟩
    · rw [List.mem_singleton.mp mem]
      exact stood.opened l open_
  refine h.step (extra := [w.loops.counter + 1]) ?_ (List.nodup_singleton _) (fun k hk g hg same => ?_)
    (fun g hg => List.mem_append_left _ (List.mem_append_left _ hg)) (fun g hg => ?_) (fun g hg => ?_) fun c hc => ?_
  · have openNumbers : T.frozenUp.openLoop.toList.map Loop.number = [w.loops.counter + 1] := by
      have shape := T.frozenUp_openLoop
      cases ho : T.openLoop with
      | none => rw [ho] at openNumber; cases openNumber
      | some o =>
        rw [ho] at shape openNumber
        obtain ⟨o', ho', same⟩ := Option.map_eq_some_iff.mp shape
        have number : o'.number = o.number := congrArg Prod.fst same
        simp [ho', number, Option.some.inj openNumber]
    have frozen : ((T.closing.takeWhile Loop.settled).map Loop.frozen).map Loop.number
        = (T.closing.takeWhile Loop.settled).map Loop.number := by rw [List.map_map]; rfl
    have slots : w.loops.slots = w.loops.closing ++ [l] := by simp [LoopTable.slots, open_]
    show (((w.gone ++ w.loops.crowded ++ (T.closing.takeWhile Loop.settled).map Loop.frozen)
      ++ (T.frozenUp.closing ++ T.frozenUp.openLoop.toList)).map Loop.number).Perm _
    simp only [List.map_append, frozen, openNumbers, LoopTable.frozenUp_closing, slots, List.append_assoc]
    rw [← List.append_assoc (List.map Loop.number (T.closing.takeWhile Loop.settled)), ← List.map_append, split, closing,
      List.append_assoc, ← List.append_assoc (List.map Loop.number w.loops.crowded), ← List.map_append, numbers]
    simp only [← List.append_assoc, List.map_cons, List.map_nil]
    exact List.perm_append_comm
  · rw [List.mem_singleton.mp hk] at same
    have := below g hg
    omega
  · rcases List.mem_append.mp hg with hg | hg
    · rcases List.mem_append.mp hg with hg | hg
      · exact .inl hg
      · have mem : g.number ∈ w.loops.closing.map Loop.number := by
          rw [← numbers, List.map_append]
          exact List.mem_append_left _ (List.mem_map_of_mem hg)
        obtain ⟨m, hm, same⟩ := List.mem_map.mp mem
        obtain ⟨o, ho, number⟩ := h.closing m hm
        exact .inr ⟨⟨o, ho, number.trans same⟩, .inl (crowded g hg)⟩
    · obtain ⟨c, hc, rfl⟩ := List.mem_map.mp hg
      exact .inr ⟨ofTable c (List.takeWhile_subset _ hc), .inl rfl⟩
  · simp only [(T.frozenUp_rest).2.2, lastT] at hg
    cases newest : (T.closing.takeWhile Loop.settled).getLast? with
    | none =>
      rw [newest] at hg
      rcases last g hg with crowded | held
      · exact .inl (List.mem_append_left _ (List.mem_append_right _ crowded))
      · exact .inr held
    | some c =>
      rw [newest] at hg
      cases hg
      exact .inl (List.mem_append_right _ (List.mem_map_of_mem (List.mem_of_getLast? newest)))
  · rw [LoopTable.frozenUp_closing] at hc
    exact ofTable c (List.dropWhile_subset _ hc)

end Sys2Proof.Machine
end

