-- ==== Sys2Proof/Proofs/FirstPlaces.lean ====
section
/-! PROOF. The drift place of a first reduction (R139 to R145, R152): in every case of the loop table it is a seat, the place that
the statements describe (`LoopPlacing`), and one that the LOOP notices tell of. -/

namespace Sys2Proof.Machine

/-- What the placing of record `r` relies on: the loop numbers, `r` on no loop as a member or a closing tie, and the records of the
OPEN loop's members on its line alone, their drift not frozen. -/
structure Work.Seatable (w : Work) (r : Record) : Prop where
  bound : ∀ l ∈ w.loops.slots, l.number ≤ w.loops.counter
  nodup : (w.loops.slots.map Loop.number).Nodup
  fresh : r.hangsOn w.loops.slots = false
  members : ∀ l ∈ w.loops.openLoop, ∀ o ∈ w.log, o.number ∈ l.members →
    o.header.tie = false ∧ o.hangsOn w.loops.closing = false ∧ ∀ y ∈ o.values, y.driftFrozen = false ∧ y.loopNo = some l.number

/-- Work `w'` as the placing of record `r` with values `x` leaves work `w`. -/
structure Work.Places (cfg : DriftConfig) (r : Record) (x : Values) (w w' : Work) (loopNo : Option Nat) (d : Int)
    (frozen unmatched : Bool) : Prop where
  seats : w.Seats (w.loops.givenUp cfg r.header.pointId r.header.tie) r w' loopNo d frozen unmatched
  placing : w.Seatable r → ∀ y : Values, y.loopNo = loopNo → y.d = d → y.driftFrozen = frozen →
    LoopPlacing cfg w.loops w'.loops w'.log (r.asTie x) r.header.tie y unmatched
  tells : ∀ t, w.Tells t → w.Stood t → w'.Tells t

theorem LoopTable.mem_slots_open {t : LoopTable} {l : Loop} (open_ : t.openLoop = some l) : l ∈ t.slots :=
  List.mem_append_right _ (by simp [open_])

theorem Record.hangsOn_of_mem {r : Record} {ls : List Loop} (fresh : r.hangsOn ls = false) {l : Loop} (h : l ∈ ls) :
    r.number ∉ l.members ∧ ∀ c ∈ l.closingTie, c.occ ≠ r.number := by
  have none_ := List.any_eq_false.mp fresh l h
  simpa [Option.any_eq_false] using none_

section

variable {cfg : DriftConfig} {w : Work} {r : Record} {x : Values}

theorem LoopTable.givenUp_off (t : LoopTable) (pointId : Nat) (isTie : Bool) (off : cfg.on = false) :
    t.givenUp cfg pointId isTie = [] := by
  unfold LoopTable.givenUp
  split <;> simp [off]

theorem LoopTable.givenUp_none {t : LoopTable} (none_ : t.openLoop = none) (pointId : Nat) (isTie : Bool) :
    t.givenUp cfg pointId isTie = [] := by simp only [LoopTable.givenUp, none_]

theorem LoopTable.givenUp_open {t : LoopTable} {l : Loop} (open_ : t.openLoop = some l) (on : cfg.on = true) (pointId : Nat)
    (isTie : Bool) : t.givenUp cfg pointId isTie =
      if (if isTie then decide (l.opening.pointId ≠ pointId) else decide (64 ≤ l.members.length)) then l.members else [] := by
  simp only [LoopTable.givenUp, open_, on, Bool.true_and]

/-- Drift correction is off (R152). -/
theorem Work.places_off (off : cfg.on = false) :
    w.Places cfg r x (w.seat r.number w.loops none 0 true false) none 0 true false := by
  refine ⟨?_, fun _ y loopNo d frozen => ?_, fun t tells _ => tells.seat rfl rfl rfl ..⟩
  · rw [LoopTable.givenUp_off _ _ _ off]
    exact w.seat_seats ..
  · exact (if_pos off).mpr ⟨rfl, loopNo, d, frozen, rfl⟩

/-- With no loop open, outside any loop (R140). -/
theorem Work.places_outside (on : cfg.on = true) (isTie : r.header.tie = false) (none_ : w.loops.openLoop = none) :
    w.Places cfg r x (w.seat r.number w.loops none (w.loops.carried x.mid) true false) none (w.loops.carried x.mid) true false := by
  refine ⟨?_, fun _ y loopNo d frozen => ?_, fun t tells _ => tells.seat rfl rfl rfl ..⟩
  · rw [LoopTable.givenUp_none none_]
    exact w.seat_seats ..
  · unfold LoopPlacing
    simp only [on, none_, isTie, Bool.true_eq_false, Bool.false_eq_true, if_false]
    exact ⟨trivial, d, frozen, rfl, loopNo⟩

/-- With no loop open, a tie opens one (R142). -/
theorem Work.places_first (on : cfg.on = true) (isTie : r.header.tie = true) (none_ : w.loops.openLoop = none) :
    w.Places cfg r x (w.seat r.number (w.loops.opened (r.asTie x) (w.loops.carried x.mid) false false) (some (w.loops.counter + 1))
      (w.loops.carried x.mid) true false) (some (w.loops.counter + 1)) (w.loops.carried x.mid) true false := by
  refine ⟨?_, fun _ y loopNo d frozen => ?_, fun t tells stood => tells.seat_opened stood none_ ..⟩
  · rw [LoopTable.givenUp_none none_]
    exact w.seat_seats ..
  · unfold LoopPlacing
    simp only [on, none_, isTie, Bool.true_eq_false, if_false, if_true]
    exact ⟨trivial, d, frozen, rfl, loopNo⟩

variable {l : Loop}

/-- A member of the OPEN loop (R140). -/
theorem Work.places_member (on : cfg.on = true) (open_ : w.loops.openLoop = some l) (isTie : r.header.tie = false)
    (room : l.members.length < 64) :
    w.Places cfg r x (w.seat r.number { w.loops with openLoop := some { l with members := l.members ++ [r.number] } } (some l.number)
      (l.dO + roundDiv (l.rate * ((x.mid : Int) - l.opening.mid)) 1000000) false false) (some l.number)
      (l.dO + roundDiv (l.rate * ((x.mid : Int) - l.opening.mid)) 1000000) false false := by
  refine ⟨?_, fun _ y loopNo d frozen => ?_, fun t tells _ => ?_⟩
  · rw [LoopTable.givenUp_open open_ on, isTie, if_neg (by simpa using room)]
    exact w.seat_seats ..
  · unfold LoopPlacing
    simp only [on, open_, isTie, room, Bool.true_eq_false, if_false, and_self, if_true]
    exact ⟨rfl, loopNo, d, frozen, trivial⟩
  · refine tells.seat (loops := { w.loops with openLoop := some { l with members := l.members ++ [r.number] } }) rfl rfl ?_ ..
    simp [open_]

/-- The records of a loop abandoned, but for the record placed (R141). -/
theorem Work.left_members {w' : Work} {d : Int} {loopNo : Option Nat} {frozen unmatched : Bool} {loops : LoopTable}
    (seat : w' = (w.abandon l).seat r.number loops loopNo d frozen unmatched) (fresh : r.number ∉ l.members) :
    ∀ o ∈ w'.log, o.number ∈ l.members → o.flags.loopAbandoned = true ∧ ∀ y ∈ o.values, y.driftFrozen = true := by
  subst seat
  intro o' ho' member
  have ho' : o' ∈ (w.log.map (Record.leftBy l)).map fun o =>
      if o.number = r.number then o.seated loopNo d frozen unmatched else o := ho'
  obtain ⟨o₁, ho₁, rfl⟩ := List.mem_map.mp ho'
  obtain ⟨o, -, rfl⟩ := List.mem_map.mp ho₁
  have other : ¬(o.leftBy l).number = r.number := by
    intro same
    rw [if_pos same] at member
    exact fresh (same ▸ member)
  rw [if_neg other] at member ⊢
  rw [(o.leftBy_changed l).number] at member
  rw [Record.leftBy, if_pos (List.contains_iff_mem.mpr member)]
  refine ⟨rfl, fun y hy => ?_⟩
  obtain ⟨z, -, rfl⟩ := Option.map_eq_some_iff.mp hy
  rfl

/-- The 65th member has the OPEN loop abandoned, and is outside any loop (R140). -/
theorem Work.places_full (on : cfg.on = true) (open_ : w.loops.openLoop = some l) (isTie : r.header.tie = false)
    (full : ¬l.members.length < 64) :
    w.Places cfg r x ((w.abandon l).seat r.number (w.loops.abandoned l) none ((w.loops.abandoned l).carried x.mid) true false)
      none ((w.loops.abandoned l).carried x.mid) true false := by
  refine ⟨?_, fun seatable y loopNo d frozen => ?_, fun t tells stood => (tells.abandon stood open_).1.seat rfl rfl rfl ..⟩
  · rw [LoopTable.givenUp_open open_ on, isTie, if_pos (by simpa using full)]
    exact w.seat_seats_left ..
  · unfold LoopPlacing
    simp only [on, open_, isTie, full, Bool.true_eq_false, Bool.false_eq_true, if_false, and_false, false_and]
    exact ⟨d, frozen, trivial, ⟨rfl, loopNo⟩,
      Work.left_members rfl (Record.hangsOn_of_mem seatable.fresh (LoopTable.mem_slots_open open_)).1⟩

/-- An unmatched tie has the OPEN loop abandoned, and opens another (R145). -/
theorem Work.places_unmatched (on : cfg.on = true) (open_ : w.loops.openLoop = some l) (isTie : r.header.tie = true)
    (other : l.opening.pointId ≠ r.header.pointId) :
    w.Places cfg r x ((w.abandon l).seat r.number
        ((w.loops.abandoned l).opened (r.asTie x) ((w.loops.abandoned l).carried x.mid) false true) (some (w.loops.counter + 1))
        ((w.loops.abandoned l).carried x.mid) true true)
      (some (w.loops.counter + 1)) ((w.loops.abandoned l).carried x.mid) true true := by
  refine ⟨?_, fun seatable y loopNo d frozen => ?_, fun t tells stood => ?_⟩
  · rw [LoopTable.givenUp_open open_ on, isTie, if_pos (by simpa using other)]
    exact w.seat_seats_left ..
  · have point : ¬l.opening.pointId = (r.asTie x).pointId := other
    unfold LoopPlacing
    simp only [on, open_, isTie, point, Bool.true_eq_false, if_false, false_and, and_false, if_true, d]
    exact ⟨rfl, frozen, trivial, ⟨rfl, loopNo⟩,
      Work.left_members rfl (Record.hangsOn_of_mem seatable.fresh (LoopTable.mem_slots_open open_)).1⟩
  · obtain ⟨tells, stood⟩ := tells.abandon stood open_
    exact tells.seat_opened stood rfl ..

/-- The loops that a closure freezes for room are CLOSING ones but for their state and flags. -/
theorem Record.hangsOn_crowded {t : LoopTable} {o : Record} (h : o.hangsOn t.closing = false) : o.hangsOn t.crowded = false := by
  unfold LoopTable.crowded
  split
  · rename_i l _ _ closing
    rw [closing] at h
    have := List.any_eq_false.mp h l List.mem_cons_self
    simpa [Record.hangsOn] using this
  · rfl

theorem LoopTable.forced_slots (t : LoopTable) : ∀ l ∈ t.forced.closing, l ∈ t.closing := t.crowded_numbers.2.2.2

/-- The closed loop, and the joined loop, among the slots that a closure leaves. -/
theorem LoopTable.joinedAt_find (open_ : w.loops.openLoop = some l) (bound : ∀ l ∈ w.loops.slots, l.number ≤ w.loops.counter)
    (nodup : (w.loops.slots.map Loop.number).Nodup) (tie : Tie) :
    ((w.loops.joinedAt cfg l tie).slots.find? fun o => some o.number = some l.number)
        = some (l.closedBy cfg (w.loops.forced.priorRate l.number) tie)
      ∧ ((w.loops.joinedAt cfg l tie).slots.find? fun o => some o.number = some (w.loops.counter + 1))
        = (w.loops.joinedAt cfg l tie).openLoop := by
  have slots : w.loops.slots = w.loops.closing ++ [l] := by simp [LoopTable.slots, open_]
  rw [slots] at bound nodup
  have number := Loop.closedBy_number cfg (w.loops.forced.priorRate l.number) l tie
  have below := bound l (by simp)
  constructor
  · have older : ∀ o ∈ w.loops.forced.closing, o.number ≠ l.number := by
      intro o ho same
      rw [List.map_append, List.nodup_append] at nodup
      exact nodup.2.2 _ (List.mem_map_of_mem (w.loops.forced_slots o ho)) _ (by simp) same
    have none_ : (w.loops.forced.closing.find? fun o => o.number = l.number) = none :=
      List.find?_eq_none.mpr fun o ho => by simpa using older o ho
    simp [LoopTable.slots, LoopTable.joinedAt, LoopTable.opened, List.find?_append, none_, number]
  · have none_ : (w.loops.forced.closing.find? fun o => o.number = w.loops.counter + 1) = none :=
      List.find?_eq_none.mpr fun o ho => by
        have := bound o (List.mem_append_left _ (w.loops.forced_slots o ho))
        simp
        omega
    have other : ¬l.number = w.loops.counter + 1 := by omega
    simp [LoopTable.slots, LoopTable.joinedAt, LoopTable.opened, List.find?_append, none_, number, (w.loops.forced_rest).1, other]

/-- A record hanging on the last of the loops alone is marked when all of them freeze. -/
theorem Record.hangsOn_settled {ls : List Loop} {c : Loop} (apart : r.hangsOn ls = false) (last : r.hangsOn [c] = true) :
    r.hangsOn ((ls ++ [c]).takeWhile Loop.settled) = ((ls ++ [c]).dropWhile Loop.settled).isEmpty := by
  induction ls with
  | nil =>
    cases settled : c.settled <;> simp [settled, last]
    rfl
  | cons a ls ih =>
    have apart : r.hangsOn [a] = false ∧ r.hangsOn ls = false := by
      simpa [Record.hangsOn] using apart
    cases settled : a.settled with
    | false => simp [settled, Record.hangsOn]
    | true =>
      have cons : r.hangsOn (a :: (ls ++ [c]).takeWhile Loop.settled)
          = (r.hangsOn [a] || r.hangsOn ((ls ++ [c]).takeWhile Loop.settled)) := Record.hangsOn_append [a] _ r
      simp only [List.cons_append, List.takeWhile_cons, List.dropWhile_cons, settled, if_true, cons, apart.1, Bool.false_or,
        ih apart.2]

/-- The members of the loop that a closure closes lie on its line (R147). -/
theorem Work.closed_members (open_ : w.loops.openLoop = some l) (seatable : w.Seatable r) (tie : Tie) (same : tie.occ = r.number) :
    ∀ o ∈ (w.close cfg l tie).log, o.number ∈ l.members → ∀ y ∈ o.values,
      y.d = l.dO + roundDiv ((l.closedBy cfg (w.loops.forced.priorRate l.number) tie).rate
        * ((y.mid : Int) - l.opening.mid)) 1000000 := by
  have find := (LoopTable.joinedAt_find (cfg := cfg) open_ seatable.bound seatable.nodup tie).1
  have fresh := (Record.hangsOn_of_mem seatable.fresh (LoopTable.mem_slots_open open_)).1
  have kept : (l.closedBy cfg (w.loops.forced.priorRate l.number) tie).dO = l.dO
      ∧ (l.closedBy cfg (w.loops.forced.priorRate l.number) tie).opening = l.opening := by
    unfold Loop.closedBy
    split <;> exact ⟨rfl, rfl⟩
  rw [Work.close_eq]
  intro o' ho' member y hy
  simp only [List.map_map] at ho'
  obtain ⟨o, ho, rfl⟩ := List.mem_map.mp ho'
  have number : o.number ∈ l.members := by
    simp only [Function.comp] at member
    split at member <;> exact member
  have other : ¬(o.markedBy w.loops.crowded).number = tie.occ := fun eq => fresh ((same ▸ eq : o.number = r.number) ▸ number)
  obtain ⟨notTie, apart, clear⟩ := seatable.members l open_ o ho number
  have crowded := Record.hangsOn_crowded apart
  simp only [Function.comp, if_neg other] at hy
  cases values : o.values with
  | none => simp [Record.markedBy, Record.reformedBy, values] at hy
  | some x =>
    obtain ⟨unfrozen, loopNo⟩ := clear x values
    simp [Record.markedBy, Record.reformedBy, values] at hy
    rw [← hy]
    simp only [LoopTable.driftOf, unfrozen, crowded, loopNo, find, notTie, kept, Bool.not_true, Bool.or_false,
      Bool.false_eq_true, if_false]

/-- The OPEN loop closes at a tie at its own point (R143, R144, R148). -/
theorem Work.places_close (on : cfg.on = true) (open_ : w.loops.openLoop = some l) (isTie : r.header.tie = true)
    (point : l.opening.pointId = r.header.pointId) :
    ∃ loopNo d frozen unmatched, w.Places cfg r x (w.close cfg l (r.asTie x)) loopNo d frozen unmatched := by
  have seats := w.close_seats cfg l (r.asTie x) (r := r) rfl isTie
  have kept : w.loops.givenUp cfg r.header.pointId r.header.tie = [] := by
    rw [LoopTable.givenUp_open open_ on, isTie, if_neg (by simpa using point)]
  rw [← kept] at seats
  refine ⟨_, _, _, _, seats, fun seatable y loopNo d frozen => ?_, fun t tells stood => tells.close stood cfg open_ _⟩
  · have matched : l.opening.pointId = (r.asTie x).pointId := point
    have loops : (w.close cfg l (r.asTie x)).loops = w.loops.closedAt cfg l (r.asTie x) := by
      rw [Work.close_eq]
      exact LoopTable.joinedAt_frozenUp _ (seatable.bound l (LoopTable.mem_slots_open open_))
    rw [(LoopTable.joinedAt_find open_ seatable.bound seatable.nodup _).2] at d
    have hangs : r.hangsOn [l.closedBy cfg (w.loops.forced.priorRate l.number) (r.asTie x)] = true := by
      have closing : (l.closedBy cfg (w.loops.forced.priorRate l.number) (r.asTie x)).closingTie = some (r.asTie x) := by
        unfold Loop.closedBy
        split <;> rfl
      have own : (r.asTie x).occ = r.number := rfl
      simp [Record.hangsOn, closing, own]
    have apart : r.hangsOn w.loops.forced.closing = false :=
      List.any_eq_false.mpr fun o ho => List.any_eq_false.mp seatable.fresh o (List.mem_append_left _ (w.loops.forced_slots o ho))
    unfold LoopPlacing
    simp only [on, open_, isTie, matched, Bool.true_eq_false, if_false, false_and, and_self, if_true, loops]
    refine ⟨trivial, loopNo, ?_, ?_, trivial, Work.closed_members open_ seatable _ rfl⟩
    · rw [d]
      rfl
    · rw [frozen]
      exact Record.hangsOn_settled apart hangs

/-- The drift place of a first reduction. -/
theorem Work.placeDrift_places (found : findRecord r.number w.log = some r) (values : r.values = some x) :
    ∃ loopNo d frozen unmatched, w.Places cfg r x (w.placeDrift cfg r.number) loopNo d frozen unmatched := by
  cases on : cfg.on with
  | false =>
    rw [Work.placeDrift_off found values on]
    exact ⟨_, _, _, _, Work.places_off on⟩
  | true =>
    rw [Work.placeDrift_on found values on]
    cases isTie : r.header.tie with
    | false =>
      simp only [Bool.false_eq_true, if_false]
      cases open_ : w.loops.openLoop with
      | none =>
        rw [Work.placeNonTie_outside open_]
        exact ⟨_, _, _, _, Work.places_outside on isTie open_⟩
      | some l =>
        by_cases room : l.members.length < 64
        · rw [Work.placeNonTie_member open_ room]
          exact ⟨_, _, _, _, Work.places_member on open_ isTie room⟩
        · rw [Work.placeNonTie_full open_ room]
          exact ⟨_, _, _, _, Work.places_full on open_ isTie room⟩
    | true =>
      simp only [if_true]
      cases open_ : w.loops.openLoop with
      | none =>
        rw [Work.placeTie_first open_]
        exact ⟨_, _, _, _, Work.places_first on isTie open_⟩
      | some l =>
        by_cases point : l.opening.pointId = r.header.pointId
        · have close : w.placeTie cfg (r.asTie x) = w.close cfg l (r.asTie x) := by
            simp only [Work.placeTie, open_]
            exact if_pos point
          rw [close]
          exact Work.places_close on open_ isTie point
        · rw [Work.placeTie_unmatched open_ (by exact point)]
          exact ⟨_, _, _, _, Work.places_unmatched on open_ isTie point⟩

end

end Sys2Proof.Machine
end

