-- ==== Sys2Proof/Proofs/FirstEntries.lean ====
section
/-! PROOF. The pending list at a first reduction (R128, R162, R163): whether the occupation enters it, and which occupation a full
list forces. -/

namespace Sys2Proof.Machine

/-! ### The order of the pending list -/

theorem PendingEntry.older_iff (a b : PendingEntry) : a.older b = true ↔ a.mid < b.mid ∨ (a.mid = b.mid ∧ a.occ < b.occ) := by
  unfold PendingEntry.older
  split
  · rename_i same
    simp [same]
  · rename_i other
    simp [other]

theorem PendingEntry.older_trans {a b c : PendingEntry} (h : a.older b = true) (h' : b.older c = true) : a.older c = true := by
  rw [PendingEntry.older_iff] at *
  omega

/-- An entry older than the first of the list is older than all. -/
theorem PendingEntry.older_all {own head : PendingEntry} {tail : List PendingEntry}
    (sorted : (head :: tail).Pairwise fun a b => a.older b = true) :
    own.older head = true ↔ ∀ e ∈ head :: tail, own.mid < e.mid ∨ (own.mid = e.mid ∧ own.occ < e.occ) := by
  simp only [← PendingEntry.older_iff]
  refine ⟨fun first e he => ?_, fun all => all head List.mem_cons_self⟩
  rcases List.mem_cons.mp he with rfl | he
  · exact first
  · exact older_trans first ((List.pairwise_cons.mp sorted).1 e he)

/-! ### One occupation at the pending list -/

/-- A record whose provisional term a full pending list makes final (R163, R164). -/
def Record.forcedFinal (r : Record) : Record := { r.mapTerm BaseTerm.madeFinal with flags := { r.flags with forced := true } }

/-- The record of occupation `forced` made final. -/
def Record.forcedIf (forced : Option Nat) (r : Record) : Record := if forced = some r.number then r.forcedFinal else r

/-- What becomes of the pending list `waiting` when the occupation of entry `own`, whose term is final or not, is settled: the
occupation that is forced, and the list after (R128, R162, R163). -/
inductive PendingEntry.Enters (waiting : List PendingEntry) (own : PendingEntry) : Bool → Option Nat → List PendingEntry → Prop
  | final : Enters waiting own true none waiting
  | room (room : waiting.length < 32) {after : List PendingEntry} (mem : ∀ e, e ∈ after ↔ e = own ∨ e ∈ waiting) :
    Enters waiting own false none after
  | itself (full : ¬waiting.length < 32)
    (oldest : ∀ e ∈ waiting, own.mid < e.mid ∨ (own.mid = e.mid ∧ own.occ < e.occ)) :
    Enters waiting own false (some own.occ) waiting
  | displaced (full : ¬waiting.length < 32)
    (younger : ¬∀ e ∈ waiting, own.mid < e.mid ∨ (own.mid = e.mid ∧ own.occ < e.occ)) {head : PendingEntry}
    {tail after : List PendingEntry} (held : waiting = head :: tail) (mem : ∀ e, e ∈ after ↔ e = own ∨ e ∈ tail) :
    Enters waiting own false (some head.occ) after

theorem Work.makeFinal_eq (w : Work) (n : Nat) :
    w.makeFinal flagForced n =
      { w with log := w.log.map (Record.forcedIf (some n)), waiting := w.waiting.filter fun e => e.occ ≠ n } := by
  have term : BaseTerm.makeFinal = BaseTerm.madeFinal := funext BaseTerm.makeFinal_eq
  unfold Work.makeFinal Work.modify Work.leave Record.forcedIf Record.forcedFinal
  simp only [term, flagForced, Option.some.injEq, @eq_comm _ n]

theorem Work.forcedIf_none (log : List Record) : log.map (Record.forcedIf none) = log :=
  (List.map_congr_left fun r _ => if_neg (by simp)).trans (List.map_id _)

theorem Work.filter_fresh {waiting : List PendingEntry} {n : Nat} (fresh : ∀ e ∈ waiting, e.occ ≠ n) :
    (waiting.filter fun e => e.occ ≠ n) = waiting := List.filter_eq_self.mpr fun e he => decide_eq_true (fresh e he)

/-- An occupation that is not pending settled at the pending list. -/
theorem settleEntry_enters {w : Work} {r : Record} {x : Values} (found : findRecord r.number w.log = some r)
    (values : r.values = some x) (fresh : ∀ e ∈ w.waiting, e.occ ≠ r.number) (nodup : (w.waiting.map PendingEntry.occ).Nodup)
    (sorted : w.waiting.Pairwise fun a b => a.older b = true) :
    ∃ forced after, PendingEntry.Enters w.waiting ⟨r.number, x.mid, x.term.expiry⟩ x.term.final forced after
      ∧ settleEntry w r.number = { w with log := w.log.map (Record.forcedIf forced), waiting := after } := by
  have absent : (w.waiting.any fun e => e.occ = r.number) = false :=
    List.any_eq_false.mpr fun e he => by simpa using fresh e he
  simp only [settleEntry, found, values, absent, Bool.false_eq_true, if_false]
  cases final : x.term.final with
  | true =>
    refine ⟨none, w.waiting, .final, ?_⟩
    simp only [if_true, Work.leave, Work.filter_fresh fresh, Work.forcedIf_none]
  | false =>
    simp only [Bool.false_eq_true, if_false, Work.enter]
    split
    · rename_i room
      refine ⟨none, _, .room room fun e => ?_, by rw [Work.forcedIf_none]⟩
      rw [(insertBy_perm ..).mem_iff, List.mem_cons]
    · rename_i full
      split
      · rename_i empty
        exact absurd (by simp [empty]) full
      · rename_i head tail held
        have oldest := PendingEntry.older_all (own := ⟨r.number, x.mid, x.term.expiry⟩) (held ▸ sorted)
        rw [← held] at oldest
        split
        · rename_i first
          refine ⟨_, _, .itself full (oldest.mp first), ?_⟩
          rw [Work.makeFinal_eq, Work.filter_fresh fresh]
        · rename_i younger
          have left : (w.waiting.filter fun e => e.occ ≠ head.occ) = tail := by
            rw [held] at nodup ⊢
            obtain ⟨first, -⟩ := List.nodup_cons.mp nodup
            rw [List.filter_cons_of_neg (by simp)]
            exact Work.filter_fresh fun e he same => first (same ▸ List.mem_map_of_mem he)
          rw [Work.makeFinal_eq, left]
          refine ⟨_, _, .displaced full (mt oldest.mpr younger) held fun e => ?_, rfl⟩
          rw [(insertBy_perm ..).mem_iff, List.mem_cons]

namespace PendingEntry.Enters

variable {waiting after : List PendingEntry} {own : PendingEntry} {final : Bool} {forced : Option Nat}

/-- The occupation forced is the own one or one that was pending. -/
theorem forced_pending (h : Enters waiting own final forced after) {n : Nat} (some_ : forced = some n) :
    n = own.occ ∨ ∃ e ∈ waiting, e.occ = n := by
  cases h with
  | final => cases some_
  | room => cases some_
  | itself => exact .inl (Option.some.inj some_).symm
  | displaced _ _ held => exact .inr ⟨_, held ▸ List.mem_cons_self, Option.some.inj some_⟩

/-- An occupation forced that is not the own one is the oldest of a full list (R163). -/
theorem forced_other (h : Enters waiting own final forced after) {n : Nat} (some_ : forced = some n) (other : n ≠ own.occ) :
    ¬waiting.length < 32 ∧ final = false ∧ ∃ e ∈ waiting.head?, e.occ = n := by
  cases h with
  | final => cases some_
  | room => cases some_
  | itself => exact absurd (Option.some.inj some_).symm other
  | displaced full _ held => exact ⟨full, rfl, _, by simp [held], Option.some.inj some_⟩

/-- The occupation displaced, as the statements say it: the oldest of a full list, unless the own term is final after all. -/
theorem displaced_eq (h : Enters waiting own final forced after) (fresh : ∀ e ∈ waiting, e.occ ≠ own.occ) :
    (if waiting.length < 32 ∨ (final = true ∨ forced = some own.occ) then none else waiting.head?.map PendingEntry.occ)
      = if forced = some own.occ then none else forced := by
  cases h with
  | final => simp
  | room room => simp [room]
  | itself => simp
  | displaced full _ held =>
    rename_i head tail mem
    have other : head.occ ≠ own.occ := fresh head (held ▸ List.mem_cons_self)
    simp [other, held]
    simpa [held] using full

end PendingEntry.Enters

/-- A first base term, and the pending list after it (R124, R128, R162, R163). -/
theorem firstTerm_of {s : State} {h : Header} {flags : RecordFlags} {mid endTime : Nat} {n : Nat} {forced : Option Nat}
    {after : List PendingEntry} (fresh : ∀ e ∈ s.eng.waiting, e.occ ≠ n)
    (enters : PendingEntry.Enters s.eng.waiting ⟨n, mid, endTime + s.baseTerm.holdLimit * 1000⟩
      (firstTerm s h flags mid endTime).final forced after) :
    FirstTerm s h flags ⟨n, mid, endTime + s.baseTerm.holdLimit * 1000⟩ after
      (if forced = some n then (firstTerm s h flags mid endTime).madeFinal else firstTerm s h flags mid endTime)
      (flags.forced || decide (forced = some n)) := by
  have source : effectiveSource s h flags = .model ↔ s.tide.mode = .model ∨ h.tideRequest = .model ∨ flags.timeSuspect = true := by
    unfold effectiveSource
    split
    · simp [*]
    · split
      · simp [*]
      · split <;> simp [*]
  unfold FirstTerm
  by_cases model : s.tide.mode = .model ∨ h.tideRequest = .model ∨ flags.timeSuspect = true
  · simp only [if_pos model]
    have term : firstTerm s h flags mid endTime = { source := .model, outcome := .model, final := true, bracket := none, r := 0
                                                    expiry := endTime + s.baseTerm.holdLimit * 1000 } := by
      simp only [firstTerm, source.mpr model]
    rw [term] at enters ⊢
    cases enters with
    | final => simp
  · simp only [if_neg model]
    have base : effectiveSource s h flags = .base := by
      cases eq : effectiveSource s h flags with
      | model => exact absurd (source.mp eq) model
      | base => rfl
    have term : firstTerm s h flags mid endTime = { source := .base, outcome := (select s h mid).outcome, final := (select s h mid).final
                                                    bracket := (select s h mid).bracket, r := (select s h mid).r
                                                    expiry := endTime + s.baseTerm.holdLimit * 1000 } := by
      simp only [firstTerm, base, BaseTerm.take]
    rw [term] at enters ⊢
    simp only at enters
    cases final : (select s h mid).final with
    | true =>
      rw [final] at enters
      cases enters with
      | final => simp
    | false =>
      rw [final] at enters
      cases enters with
      | room room mem => simpa [room] using mem
      | itself full oldest =>
        rw [if_neg Bool.false_ne_true, if_neg full, if_pos oldest]
        simp [BaseTerm.madeFinal]
      | displaced full younger held mem =>
        rename_i head tail
        have other : head.occ ≠ n := fresh head (held ▸ List.mem_cons_self)
        rw [if_neg Bool.false_ne_true, if_neg full, if_neg younger]
        simpa [other, held] using mem

end Sys2Proof.Machine
end

