-- ==== Sys2Proof/Proofs/FirstReductions.lean ====
section
/-! PROOF. The first reduction of a rover occupation (R58, R155, R160): its record at the end of the log, the pending list, what a
forced entry passes to the loop table, and the drift place. -/

namespace Sys2Proof.Machine

/-! ### Records under what a first reduction does to them -/

/-- What a first reduction leaves of a record that stood in the log, with occupation `forced` made final and `left` given up. -/
structure Record.Joins (forced : Option Nat) (left : List Nat) (o o' : Record) : Prop where
  changed : o.Changed o'
  flags : o'.flags = { o.flags with
    forced := o.flags.forced || decide (forced = some o.number)
    loopAbandoned := o.flags.loopAbandoned || left.contains o.number }
  terms : o'.values.map Values.term =
    o.values.map fun x => if forced = some o.number then x.term.madeFinal else x.term

theorem Record.forcedIf_eq (forced : Option Nat) (r : Record) :
    r.forcedIf forced = { r with
      values := r.values.map fun x => { x with term := if forced = some r.number then x.term.madeFinal else x.term }
      flags := { r.flags with forced := r.flags.forced || decide (forced = some r.number) } } := by
  unfold Record.forcedIf
  by_cases h : forced = some r.number
  · simp only [if_pos h, decide_eq_true h, Bool.or_true]
    rfl
  · simp only [if_neg h, decide_eq_false h, Bool.or_false]
    have same : (fun x : Values => { x with term := x.term }) = id := rfl
    rw [same, Option.map_id, id]

theorem Record.forcedIf_retermed {forced : Option Nat} {r : Record} (h : forced = some r.number → r.state = .reduced) :
    r.Retermed (r.forcedIf forced) := by
  unfold Record.forcedIf
  split
  · rename_i own
    exact .mapTerm (h own) _ _ fun m => ⟨rfl, rfl⟩
  · exact .refl r

theorem Record.Joins.of_bystands {forced : Option Nat} {left : List Nat} {o r : Record} (cfg : DriftConfig) (w : Work)
    (open_ : forced = some o.number → o.state = .reduced) (h : Record.Bystands left (w.settled cfg (o.forcedIf forced)) r) :
    o.Joins forced left r := by
  have flags : (w.settled cfg (o.forcedIf forced)).flags = (o.forcedIf forced).flags := rfl
  have number : (w.settled cfg (o.forcedIf forced)).number = o.number := (Record.forcedIf_retermed open_).number
  refine ⟨((Record.Changed.of_retermed (Record.forcedIf_retermed open_)).trans (w.settled_changed cfg _)).trans h.changed, ?_, ?_⟩
  · rw [h.flags, flags, number, Record.forcedIf_eq]
  · rw [h.terms, w.settled_terms, Record.forcedIf_eq, Option.map_map]
    rfl

/-! ### The work of a first reduction -/

section

variable (s : State) (h : HandOff)

/-- The values of a rover's record as the first reduction fills it (R58, R160). -/
def HandOff.firstValues : Values :=
  let f := fixedTerms s.image h.sums
  { mid := f.mid, g := f.g, xMean := f.xMean, yMean := f.yMean, tMean := f.tMean, cTilt := f.cTilt, cTemp := f.cTemp
    tModel := f.tModel, term := firstTerm s h.header { h.flags with thermal := h.flags.thermal || f.thermal } f.mid h.endTime
    loopNo := none, d := 0, driftFrozen := false, v := 0, gRed := 0 }

theorem HandOff.reducedRecord_values : (h.reducedRecord s).values = some (h.firstValues s) := rfl

/-- The entry that the occupation would have in the pending list. -/
def HandOff.entry : PendingEntry := ⟨h.occ, (h.firstValues s).mid, (h.firstValues s).term.expiry⟩

/-- The work of a first reduction once the entry is settled: occupation `forced` made final, the pending list `after`. -/
def HandOff.entered (forced : Option Nat) (after : List PendingEntry) : Work :=
  { log := (evict s.eng.log ++ [h.reducedRecord s]).map (Record.forcedIf forced), waiting := after, loops := s.eng.loops, gone := [] }

/-- The record before its place is taken. -/
def HandOff.unplaced (forced : Option Nat) (after : List PendingEntry) : Record :=
  (h.entered s forced after).settled s.driftCfg ((h.reducedRecord s).forcedIf forced)

/-- The term that a first reduction leaves: forced final from a full pending list, or as it was selected. -/
def HandOff.ownTerm (forced : Option Nat) : BaseTerm :=
  if forced = some h.occ then (h.firstValues s).term.madeFinal else (h.firstValues s).term

/-- What the first reduction of a hand-off leaves, from the entry that it settles and the place that it takes. -/
structure FirstReduced (forced : Option Nat) (after : List PendingEntry) (loopNo : Option Nat) (d : Int) (frozen unmatched : Bool) :
    Prop where
  enters : (h.entry s).Enters s.eng.waiting (h.firstValues s).term.final forced after
  places : ∃ x, (h.unplaced s forced after).values = some x
    ∧ x = { h.firstValues s with term := h.ownTerm s forced, d := x.d, driftFrozen := x.driftFrozen }
    ∧ ((h.entered s forced after).settleLoops s.driftCfg).Places s.driftCfg (h.unplaced s forced after) x
        (firstReduction s h s.eng.work) loopNo d frozen unmatched

end

section

variable {s : State} {h : HandOff} {forced : Option Nat} {after : List PendingEntry}

theorem evict_sublist (log : List Record) : (evict log).Sublist log := by
  unfold evict
  split
  · exact .refl _
  · exact List.eraseP_sublist

theorem LogSound.pending_fresh (sound : LogSound s) (fresh : ∀ r ∈ s.eng.log, r.number < h.occ) :
    ∀ e ∈ s.eng.waiting, e.occ ≠ h.occ := by
  obtain ⟨-, -, -, -, -, -, pending⟩ := sound
  intro e he same
  obtain ⟨r, hr, number, -⟩ := pending e he
  have := fresh r hr
  omega

/-- No record of the log has the number of the occupation in progress (R155). -/
theorem LogSound.occupation_fresh (sound : LogSound s) (busy : s.ctl.state ≠ .idle) :
    ∀ r ∈ s.eng.log, r.number < s.ctl.occNumber := by
  obtain ⟨-, -, below, -⟩ := sound
  intro r hr
  have := below r hr
  rwa [if_neg busy] at this

theorem HandOff.unplaced_number (s : State) (h : HandOff) (forced : Option Nat) (after : List PendingEntry) :
    (h.unplaced s forced after).number = h.occ := by
  unfold HandOff.unplaced
  rw [Work.settled_number, Record.forcedIf_eq]
  rfl

theorem HandOff.unplaced_header (s : State) (h : HandOff) (forced : Option Nat) (after : List PendingEntry) :
    (h.unplaced s forced after).header = h.header := by
  unfold HandOff.unplaced Work.settled
  rw [Record.forcedIf_eq]
  rfl

/-- The log once the loops are settled, the occupation's own record at its end. -/
theorem HandOff.settled_log (s : State) (h : HandOff) (forced : Option Nat) (after : List PendingEntry) :
    ((h.entered s forced after).settleLoops s.driftCfg).log
      = ((evict s.eng.log).map fun o => (h.entered s forced after).settled s.driftCfg (o.forcedIf forced))
        ++ [h.unplaced s forced after] := by
  rw [Work.settleLoops_eq]
  show List.map _ (List.map _ (_ ++ [_])) = _
  rw [List.map_map, List.map_append]
  rfl

/-- A first reduction, step by step. -/
theorem firstReduced (sound : LogSound s) (fresh : ∀ r ∈ s.eng.log, r.number < h.occ) :
    ∃ forced after loopNo d frozen unmatched, FirstReduced s h forced after loopNo d frozen unmatched := by
  have freshEntries := sound.pending_fresh fresh
  obtain ⟨-, -, -, -, sorted, nodup, -⟩ := sound
  have absent : ∀ o ∈ evict s.eng.log, o.number ≠ h.occ := fun o ho => Nat.ne_of_lt (fresh o ((evict_sublist _).subset ho))
  have own : ∀ {l : List Record} {r : Record}, r.number = h.occ → (∀ o ∈ l, o.number ≠ h.occ) →
      findRecord h.occ (l ++ [r]) = some r := by
    intro l r number others
    have none_ : l.find? (fun r => r.number = h.occ) = none := findRecord_none others
    simp [findRecord, List.find?_append, none_, number]
  obtain ⟨forced, after, enters, settled⟩ := settleEntry_enters (w := { s.eng.work with log := evict s.eng.log ++ [h.reducedRecord s] })
    (own rfl absent) (h.reducedRecord_values s) freshEntries nodup sorted
  have number := h.unplaced_number s forced after
  have found : findRecord (h.unplaced s forced after).number ((h.entered s forced after).settleLoops s.driftCfg).log
      = some (h.unplaced s forced after) := by
    rw [HandOff.settled_log, number]
    refine own number fun o ho => ?_
    obtain ⟨r, hr, rfl⟩ := List.mem_map.mp ho
    rw [Work.settled_number, Record.forcedIf_eq]
    exact absent r hr
  have start : ((h.reducedRecord s).forcedIf forced).values = some { h.firstValues s with term := h.ownTerm s forced } := by
    rw [Record.forcedIf_eq]
    rfl
  have values := (h.entered s forced after).settled_values s.driftCfg start
  obtain ⟨loopNo, d, frozen, unmatched, places⟩ := Work.placeDrift_places (cfg := s.driftCfg) found values
  refine ⟨forced, after, loopNo, d, frozen, unmatched, enters, _, values, rfl, ?_⟩
  have whole : firstReduction s h s.eng.work
      = ((settleEntry { s.eng.work with log := evict s.eng.log ++ [h.reducedRecord s] } h.occ).settleLoops s.driftCfg).placeDrift
        s.driftCfg h.occ := rfl
  have entered : settleEntry { s.eng.work with log := evict s.eng.log ++ [h.reducedRecord s] } h.occ = h.entered s forced after := settled
  rw [whole, entered, ← number]
  exact places

end

end Sys2Proof.Machine
end

