-- ==== Sys2Proof/Proofs/JoinedLogs.lean ====
section
/-! PROOF. The log that a first reduction leaves (R141, R155, R157 to R167): the new record, and each record that stood before it. -/

namespace Sys2Proof.Machine

/-! ### What the passing leaves of the table's identity -/

theorem LoopTable.settled_openLoop (cfg : DriftConfig) (t : LoopTable) (log : List Record) :
    (t.passed cfg log).frozenUp.openLoop.map Loop.shape = t.openLoop.map Loop.shape :=
  (LoopTable.frozenUp_openLoop _).trans (t.passed_openLoop cfg log)

theorem LoopTable.givenUp_shape {t u : LoopTable} (h : u.openLoop.map Loop.shape = t.openLoop.map Loop.shape) (cfg : DriftConfig)
    (pointId : Nat) (isTie : Bool) : u.givenUp cfg pointId isTie = t.givenUp cfg pointId isTie := by
  unfold LoopTable.givenUp
  cases ho : t.openLoop with
  | none =>
    rw [ho] at h
    rw [Option.map_eq_none_iff.mp h]
  | some l =>
    rw [ho] at h
    obtain ⟨o, ho', same⟩ := Option.map_eq_some_iff.mp h
    simp only [Loop.shape, Prod.mk.injEq] at same
    obtain ⟨-, members, ⟨-, point⟩, -⟩ := same
    simp only [ho', members, point]

section

variable (s : State) (h : HandOff)

/-- The members of the OPEN loop that the hand-off's place gives up (R141, R145). -/
def HandOff.left : List Nat := s.eng.loops.givenUp s.driftCfg h.header.pointId h.header.tie

/-- The values of the hand-off's record at the end of its event. -/
def HandOff.ownValues (forced : Option Nat) (loopNo : Option Nat) (d : Int) (frozen : Bool) : Values :=
  ({ h.firstValues s with term := h.ownTerm s forced, loopNo := loopNo, d := d, driftFrozen := frozen } : Values).reform

/-- The hand-off's record at the end of its event. -/
def HandOff.ownRecord (forced : Option Nat) (loopNo : Option Nat) (d : Int) (frozen unmatched : Bool) : Record :=
  { h.reducedRecord s with
    values := some (h.ownValues s forced loopNo d frozen), state := (h.ownValues s forced loopNo d frozen).stateAfter
    flags := { h.flags with
      thermal := h.flags.thermal || (fixedTerms s.image h.sums).thermal
      forced := h.flags.forced || decide (forced = some h.occ)
      loopAbandoned := h.flags.loopAbandoned || (h.left s).contains h.occ
      tieUnmatched := h.flags.tieUnmatched || unmatched } }

end

namespace FirstReduced

variable {s : State} {h : HandOff} {forced : Option Nat} {after : List PendingEntry} {loopNo : Option Nat} {d : Int}
  {frozen unmatched : Bool}

theorem left_eq (s : State) (h : HandOff) (forced : Option Nat) (after : List PendingEntry) :
    ((h.entered s forced after).settleLoops s.driftCfg).loops.givenUp s.driftCfg
      (h.unplaced s forced after).header.pointId (h.unplaced s forced after).header.tie = h.left s := by
  rw [HandOff.unplaced_header, Work.settleLoops_eq]
  exact LoopTable.givenUp_shape (LoopTable.settled_openLoop ..) ..

/-- The placed record, closed. -/
theorem own_eq {x : Values} (values : (h.unplaced s forced after).values = some x)
    (own : x = { h.firstValues s with term := h.ownTerm s forced, d := x.d, driftFrozen := x.driftFrozen }) :
    ((h.unplaced s forced after).placedAs loopNo d frozen unmatched ((h.left s).contains h.occ)).close none
      = h.ownRecord s forced loopNo d frozen unmatched := by
  have fixed : h.unplaced s forced after = { (h.reducedRecord s).forcedIf forced with values := some x } := by
    rw [← values]
    rfl
  have placed : ((h.unplaced s forced after).placedAs loopNo d frozen unmatched ((h.left s).contains h.occ)).values
      = some { h.firstValues s with term := h.ownTerm s forced, loopNo := loopNo, d := d, driftFrozen := frozen } := by
    simp only [Record.placedAs, Record.place, values, Option.map_some]
    rw [own]
  have state : ((h.unplaced s forced after).placedAs loopNo d frozen unmatched ((h.left s).contains h.occ)).state = .reduced := by
    rw [fixed, Record.forcedIf_eq]
    rfl
  rw [Record.close_reduced _ state placed, fixed, Record.forcedIf_eq]
  rfl

/-- The log at the end of a first reduction. -/
theorem log (red : FirstReduced s h forced after loopNo d frozen unmatched) (sound : LogSound s)
    (fresh : ∀ r ∈ s.eng.log, r.number < h.occ) :
    ∃ ψ : Record → Record, closeLog s.eng.log (firstReduction s h s.eng.work).log
        = (evict s.eng.log).map (fun o => (ψ o).close (some o)) ++ [h.ownRecord s forced loopNo d frozen unmatched]
      ∧ ∀ o ∈ evict s.eng.log, o.Joins forced (h.left s) (ψ o) := by
  obtain ⟨enters, x, values, own, places⟩ := red
  obtain ⟨⟨χ, log, others, seated⟩, -⟩ := places.seats
  rw [left_eq] at others seated
  rw [HandOff.unplaced_number] at others seated
  rw [HandOff.settled_log] at log others
  have stood : ∀ o ∈ evict s.eng.log, o ∈ s.eng.log := fun o ho => (evict_sublist _).subset ho
  have joins : ∀ o ∈ evict s.eng.log,
      o.Joins forced (h.left s) (χ ((h.entered s forced after).settled s.driftCfg (o.forcedIf forced))) := by
    intro o ho
    have other : o.number ≠ h.occ := Nat.ne_of_lt (fresh o (stood o ho))
    refine .of_bystands s.driftCfg _ (fun some_ => ?_) (others _ (List.mem_append_left _ (List.mem_map_of_mem ho)) ?_)
    · obtain same | ⟨e, he, same⟩ := enters.forced_pending some_
      · exact absurd same other
      · exact sound.ready.pending e he o (stood o ho) same.symm
    · rw [Work.settled_number, Record.forcedIf_eq]
      exact other
  refine ⟨fun o => χ ((h.entered s forced after).settled s.driftCfg (o.forcedIf forced)), ?_, joins⟩
  have absent : findRecord h.occ s.eng.log = none := findRecord_none fun r hr => Nat.ne_of_lt (fresh r hr)
  have number : ((h.unplaced s forced after).placedAs loopNo d frozen unmatched ((h.left s).contains h.occ)).number = h.occ :=
    HandOff.unplaced_number s h forced after
  rw [log, List.map_append, List.map_map, List.map_singleton, seated, closeLog, List.map_append, List.map_singleton, number, absent,
    own_eq values own]
  refine congrArg (· ++ [_]) ?_
  exact closeLog_map sound.nodup _ stood fun o ho => (joins o ho).changed.number

theorem ownTerm_final (s : State) (h : HandOff) (forced : Option Nat) :
    (h.ownTerm s forced).final = true ↔ (h.firstValues s).term.final = true ∨ forced = some (h.entry s).occ := by
  unfold HandOff.ownTerm
  split
  · rename_i own
    simp [BaseTerm.madeFinal, own, HandOff.entry]
  · rename_i other
    have other : ¬forced = some (h.entry s).occ := other
    simp [other]

/-- What the statements say of the log after a first reduction. -/
theorem logJoined (red : FirstReduced s h forced after loopNo d frozen unmatched) (sound : LogSound s)
    (fresh : ∀ r ∈ s.eng.log, r.number < h.occ) {t : State}
    (tlog : t.eng.log = closeLog s.eng.log (firstReduction s h s.eng.work).log) :
    LogJoined s t (h.ownRecord s forced loopNo d frozen unmatched) := by
  obtain ⟨ψ, log, joins⟩ := red.log sound fresh
  refine ⟨?_, fun displaced abandoned hd ha o ho => ?_⟩
  · rw [tlog, log, List.map_append, List.map_map]
    refine congrArg (· ++ [_]) ?_
    exact List.map_congr_left fun o ho => (Record.close_written _ _).trans (joins o ho).changed.written
  · have stood := (evict_sublist _).subset ho
    have other : o.number ≠ h.occ := Nat.ne_of_lt (fresh o stood)
    have finals : (∀ x ∈ (h.ownRecord s forced loopNo d frozen unmatched).values, x.term.final = true)
        ↔ (h.firstValues s).term.final = true ∨ forced = some (h.entry s).occ := by
      rw [← ownTerm_final]
      simp [HandOff.ownRecord, HandOff.ownValues, Values.reform]
    have hd : displaced = if forced = some (h.entry s).occ then none else forced := by
      rw [hd, ← red.enters.displaced_eq (sound.pending_fresh fresh)]
      simp only [finals]
    have forcedIff : forced = some o.number ↔ displaced = some o.number := by
      rw [hd]
      split
      · rename_i own
        simp only [own, Option.some.injEq, reduceCtorEq, iff_false]
        exact fun same => other same.symm
      · rfl
    obtain ⟨changed, flags, terms⟩ := joins o ho
    refine ⟨(ψ o).close (some o), by rw [tlog, log]; exact List.mem_append_left _ (List.mem_map_of_mem ho),
      (Record.close_number _ _).trans changed.number, changed.closed (sound.sound o stood), ?_, ?_⟩
    · rw [Record.close_flags, flags, ha]
      simp only [forcedIff]
      rfl
    · rw [Record.close_terms, terms]
      simp only [forcedIff]

end FirstReduced

end Sys2Proof.Machine
end

