-- ==== Sys2Proof/Proofs/JoinedLoops.lean ====
section
/-! PROOF. The loop table that a first reduction leaves (R139 to R150): what a forced entry passes to it, the place taken in it, and
the loops told of. -/

namespace Sys2Proof.Machine

/-! ### The settled table's loops -/

theorem LoopTable.settled_closing (cfg : DriftConfig) (t : LoopTable) (log : List Record) :
    ((t.passed cfg log).frozenUp.closing.map Loop.shape).Sublist (t.closing.map Loop.shape) := by
  rw [LoopTable.frozenUp_closing, ← t.passed_closing cfg log]
  exact (List.dropWhile_sublist _).map _

theorem LoopTable.settled_slots (cfg : DriftConfig) (t : LoopTable) (log : List Record) :
    ((t.passed cfg log).frozenUp.slots.map Loop.shape).Sublist (t.slots.map Loop.shape) := by
  simp only [LoopTable.slots, List.map_append, ← Option.toList_map, LoopTable.settled_openLoop]
  exact (LoopTable.settled_closing ..).append_right _

theorem LoopTable.settled_counter (cfg : DriftConfig) (t : LoopTable) (log : List Record) :
    (t.passed cfg log).frozenUp.counter = t.counter ∧ (t.passed cfg log).frozenUp.carry = t.carry :=
  ⟨(LoopTable.frozenUp_rest _).1.trans (t.passed_rest cfg log).2.1, (LoopTable.frozenUp_rest _).2.1.trans (t.passed_rest cfg log).2.2⟩

theorem of_shapes {ls ms : List Loop} (h : (ls.map Loop.shape).Sublist (ms.map Loop.shape)) {l : Loop} (hl : l ∈ ls) :
    ∃ o ∈ ms, o.shape = l.shape := List.mem_map.mp (h.subset (List.mem_map_of_mem hl))

theorem Record.hangsOn_shapes {ls ms : List Loop} (h : (ls.map Loop.shape).Sublist (ms.map Loop.shape)) {r : Record}
    (apart : r.hangsOn ms = false) : r.hangsOn ls = false := by
  refine List.any_eq_false.mpr fun l hl => ?_
  obtain ⟨o, ho, same⟩ := of_shapes h hl
  have clear := List.any_eq_false.mp apart o ho
  simp only [Loop.shape, Prod.mk.injEq] at same
  obtain ⟨-, members, -, closing⟩ := same
  have tie : ∀ m : Loop, (m.closingTie.any fun c => c.occ = r.number) = (m.closingTie.map Tie.occ).any fun n => n = r.number := by
    intro m
    cases m.closingTie <;> rfl
  rw [tie, members, closing] at clear
  rwa [tie]

theorem Record.hangsOn_number {o r : Record} (h : r.number = o.number) (ls : List Loop) : r.hangsOn ls = o.hangsOn ls := by
  unfold Record.hangsOn
  rw [h]

/-! ### The occupation in progress is on no loop -/

section

variable {s : State}

/-- A member of the OPEN loop hangs on no CLOSING one (R138). -/
theorem LoopsSound.member_apart (loops : LoopsSound s) (drift : DriftSound s) (nodup : (s.eng.log.map Record.number).Nodup)
    {l : Loop} (open_ : s.eng.loops.openLoop = some l) {o : Record} (ho : o ∈ s.eng.log) (member : o.number ∈ l.members) :
    o.header.tie = false ∧ o.hangsOn s.eng.loops.closing = false
      ∧ ∀ x ∈ o.values, x.driftFrozen = false ∧ x.loopNo = some l.number := by
  obtain ⟨-, members, ties, -⟩ := drift
  have own : ∀ c ∈ s.eng.loops.slots, o.number ∈ c.members →
      o.header.tie = false ∧ ∃ x ∈ o.values, x.driftFrozen = false ∧ x.loopNo = some c.number := by
    intro c hc member
    obtain ⟨r, hr, same, -, notTie, held⟩ := members c hc o.number member
    obtain rfl := eq_of_number nodup hr ho same
    exact ⟨notTie, held⟩
  obtain ⟨notTie, x, hx, clear, loopNo⟩ := own l (LoopTable.mem_slots_open open_) member
  refine ⟨notTie, List.any_eq_false.mpr fun c hc => ?_, fun y hy => ?_⟩
  · have slot : c ∈ s.eng.loops.slots := List.mem_append_left _ hc
    simp only [Bool.or_eq_true, List.contains_iff_mem, not_or, Bool.not_eq_true]
    refine ⟨fun inside => ?_, ?_⟩
    · obtain ⟨-, y, hy, -, other⟩ := own c slot inside
      obtain rfl : x = y := Option.some.inj (hx.symm.trans hy)
      have number : l.number = c.number := Option.some.inj (loopNo.symm.trans other)
      have nodup := loops.nodup
      rw [LoopTable.slots, List.map_append, List.nodup_append] at nodup
      exact nodup.2.2 _ (List.mem_map_of_mem hc) _ (List.mem_map_of_mem (by simp [open_])) number.symm
    · cases closing : c.closingTie with
      | none => rfl
      | some k =>
        refine decide_eq_false fun same => ?_
        have tie := (ties c slot k (by simp [closing])).2.1 o ho same.symm
        rw [notTie] at tie
        cases tie
  · obtain rfl : x = y := Option.some.inj (hx.symm.trans hy)
    exact ⟨clear, loopNo⟩

/-- The occupation in progress is neither a member nor a tie of a loop (R138). -/
theorem DriftSound.occupation_fresh (drift : DriftSound s) (sound : LogSound s) (busy : s.ctl.state ≠ .idle) :
    ∀ l ∈ s.eng.loops.slots, s.ctl.occNumber ∉ l.members ∧ ∀ k ∈ l.opening :: l.closingTie.toList, k.occ < s.ctl.occNumber := by
  obtain ⟨-, members, ties, -⟩ := drift
  obtain ⟨-, -, below, -⟩ := sound
  intro l hl
  refine ⟨fun member => ?_, fun k hk => ?_⟩
  · obtain ⟨r, hr, same, -⟩ := members l hl _ member
    have := below r hr
    rw [if_neg busy] at this
    omega
  · have := (ties l hl k hk).1
    rwa [if_neg busy] at this

end

/-! ### The table after a first reduction -/

section

variable {s : State} {h : HandOff} {forced : Option Nat} {after : List PendingEntry}

theorem HandOff.settled_loops (s : State) (h : HandOff) (forced : Option Nat) (after : List PendingEntry) :
    ((h.entered s forced after).settleLoops s.driftCfg).loops
      = (s.eng.loops.passed s.driftCfg (h.entered s forced after).log).frozenUp := by
  rw [Work.settleLoops_eq]
  rfl

/-- What the placing of the hand-off's record relies on. -/
theorem HandOff.seatable (sound : LogSound s) (loops : LoopsSound s) (drift : DriftSound s) (busy : s.ctl.state ≠ .idle)
    (occ : h.occ = s.ctl.occNumber) (open_ : ∀ o ∈ s.eng.log, forced = some o.number → o.state = .reduced) :
    ((h.entered s forced after).settleLoops s.driftCfg).Seatable (h.unplaced s forced after) := by
  have fresh := drift.occupation_fresh sound busy
  have apart : (h.unplaced s forced after).hangsOn s.eng.loops.slots = false := by
    refine List.any_eq_false.mpr fun l hl => ?_
    obtain ⟨member, ties⟩ := fresh l hl
    rw [HandOff.unplaced_number, occ]
    simp only [Bool.or_eq_true, List.contains_iff_mem, member, false_or, Option.any_eq_true, decide_eq_true_eq, not_exists, not_and]
    intro k hk
    have := ties k (by simp [hk])
    omega
  refine ⟨?_, ?_, ?_, ?_⟩ <;> rw [HandOff.settled_loops]
  · intro l hl
    obtain ⟨o, ho, same⟩ := of_shapes (LoopTable.settled_slots ..) hl
    have number : o.number = l.number := congrArg Prod.fst same
    rw [(LoopTable.settled_counter ..).1, ← number]
    refine (loops.1 o ?_).2
    rw [List.append_assoc]
    exact List.mem_append_right _ ho
  · have number : Loop.number = Prod.fst ∘ Loop.shape := rfl
    have nodup := loops.nodup
    rw [number, ← List.map_map] at nodup ⊢
    exact nodup.sublist ((LoopTable.settled_slots ..).map _)
  · exact Record.hangsOn_shapes (LoopTable.settled_slots ..) apart
  · intro l hl o ho member
    have openShape := LoopTable.settled_openLoop s.driftCfg s.eng.loops (h.entered s forced after).log
    rw [show (s.eng.loops.passed s.driftCfg (h.entered s forced after).log).frozenUp.openLoop = some l from hl] at openShape
    obtain ⟨l₀, open₀, same⟩ := Option.map_eq_some_iff.mp openShape.symm
    simp only [Loop.shape, Prod.mk.injEq] at same
    obtain ⟨number, members, -⟩ := same
    rw [← members] at member
    rw [HandOff.settled_log] at ho
    rcases List.mem_append.mp ho with ho | ho
    · obtain ⟨o₀, ho₀, rfl⟩ := List.mem_map.mp ho
      have stood := (evict_sublist _).subset ho₀
      have retermed := Record.forcedIf_retermed (open_ o₀ stood)
      have changed := (Record.Changed.of_retermed retermed).trans ((h.entered s forced after).settled_changed s.driftCfg _)
      rw [changed.number] at member
      obtain ⟨notTie, apart, clear⟩ := loops.member_apart drift sound.nodup open₀ stood member
      refine ⟨changed.header ▸ notTie, ?_, fun y hy => ?_⟩
      · rw [Record.hangsOn_number changed.number]
        exact Record.hangsOn_shapes (LoopTable.settled_closing ..) apart
      · cases values : o₀.values with
        | none => rw [show _ = none from changed.bare values] at hy; cases hy
        | some x =>
          obtain ⟨m, values', -⟩ := retermed.values_some values
          have settled := (h.entered s forced after).settled_values s.driftCfg values'
          obtain rfl := Option.some.inj (settled.symm.trans hy)
          obtain ⟨unfrozen, loopNo⟩ := clear x values
          refine ⟨?_, number ▸ loopNo⟩
          have still : (o₀.forcedIf forced).hangsOn
              ((s.eng.loops.passed s.driftCfg (h.entered s forced after).log).closing.takeWhile Loop.settled) = false := by
            rw [Record.hangsOn_number retermed.number]
            refine Record.hangsOn_shapes ?_ apart
            rw [← s.eng.loops.passed_closing s.driftCfg (h.entered s forced after).log]
            exact (List.takeWhile_sublist _).map _
          simp only [unfrozen, Bool.false_or]
          exact still
    · rw [List.mem_singleton.mp ho, HandOff.unplaced_number, occ] at member
      exact absurd member (fresh l₀ (LoopTable.mem_slots_open open₀)).1

/-- The loops are told of up to the placing. -/
theorem HandOff.settled_tells (s : State) (h : HandOff) (forced : Option Nat) (after : List PendingEntry) (loops : LoopsSound s) :
    ((h.entered s forced after).settleLoops s.driftCfg).Tells s.eng.loops
      ∧ ((h.entered s forced after).settleLoops s.driftCfg).Stood s.eng.loops := by
  refine ⟨(Work.tells_start loops rfl rfl).settleLoops _, ?_, ?_⟩ <;> rw [HandOff.settled_loops]
  · intro l hl
    obtain ⟨o, ho, same⟩ := of_shapes (LoopTable.settled_slots ..) (LoopTable.mem_slots_open hl)
    exact ⟨o, ho, congrArg Prod.fst same⟩
  · intro o ho
    rw [(LoopTable.settled_counter ..).1]
    refine (loops.1 o ?_).2
    rw [List.append_assoc]
    exact List.mem_append_right _ ho

/-- With no tie forced, nothing is passed to the loop table (R135, R146). -/
theorem HandOff.settled_still (h : HandOff) (after : List PendingEntry) (drift : DriftSound s) (sound : LogSound s)
    (busy : s.ctl.state ≠ .idle) (occ : h.occ = s.ctl.occNumber)
    (noTie : ∀ l ∈ s.eng.loops.slots, ∀ k ∈ l.opening :: l.closingTie.toList, forced ≠ some k.occ) :
    ((h.entered s forced after).settleLoops s.driftCfg).loops = s.eng.loops := by
  have fresh := drift.occupation_fresh sound busy
  obtain ⟨-, -, -, ties⟩ := drift
  have still := LoopTable.passed_still s.driftCfg (t := s.eng.loops) (log := (h.entered s forced after).log) fun l hl k hk => by
    unfold Tie.copied
    split
    · rfl
    · rename_i x found
      obtain ⟨r, found, values⟩ := Option.bind_eq_some_iff.mp found
      obtain ⟨hr, number⟩ := mem_of_findRecord found
      obtain ⟨o, ho, rfl⟩ := List.mem_map.mp hr
      have same : (o.forcedIf forced).number = o.number := by rw [Record.forcedIf_eq]
      rw [same] at number
      have unforced : o.forcedIf forced = o := if_neg (number ▸ noTie l hl k hk)
      rw [unforced] at values
      rcases List.mem_append.mp ho with ho | ho
      · obtain ⟨v, final⟩ := ties.1 l hl k hk o ((evict_sublist _).subset ho) number x values
        cases k
        simp only [Tie.mk.injEq, true_and]
        exact ⟨v.symm, final.symm⟩
      · have below := (fresh l hl).2 k hk
        rw [List.mem_singleton.mp ho] at number
        have own : (h.reducedRecord s).number = h.occ := rfl
        omega
  rw [HandOff.settled_loops, still.1]
  exact LoopTable.frozenUp_unsettled (ties.settled s.driftCfg).2.2

end

end Sys2Proof.Machine
end

