-- ==== Sys2Proof/Proofs/ReducedEndings.lean ====
section
/-! PROOF. A reduced ending of the occupation in progress (R52, R58, R150, R159, R160, R168), as the statements describe it. -/

namespace Sys2Proof.Machine

/-! ### The place, against the log as the event closes it -/

/-- What a record shows of its drift place and its flags. -/
def Record.ShowsAs (r r' : Record) : Prop :=
  r'.number = r.number ∧ r'.flags = r.flags
    ∧ ∀ y' ∈ r'.values, ∃ y ∈ r.values, y'.d = y.d ∧ y'.mid = y.mid ∧ y'.driftFrozen = y.driftFrozen

theorem Record.close_showsAs (o : Option Record) (r : Record) : r.ShowsAs (r.close o) := by
  refine ⟨Record.close_number .., Record.close_flags .., fun y hy => ?_⟩
  rcases r.close_values o with same | ⟨x, values, formed⟩
  · exact ⟨y, same ▸ hy, rfl, rfl, rfl⟩
  · obtain rfl := Option.some.inj (formed.symm.trans hy)
    exact ⟨x, values, rfl, rfl, rfl⟩

theorem LoopPlacing.shows {cfg : DriftConfig} {t u : LoopTable} {log log' : List Record} {tie : Tie} {isTie : Bool} {x : Values}
    {unmatched : Bool} (h : LoopPlacing cfg t u log tie isTie x unmatched) (shows : ∀ r' ∈ log', ∃ r ∈ log, r.ShowsAs r') :
    LoopPlacing cfg t u log' tie isTie x unmatched := by
  unfold LoopPlacing at h ⊢
  split at h
  · rename_i off
    rwa [if_pos off]
  · rename_i on
    rw [if_neg on]
    cases open_ : t.openLoop with
    | none =>
      rw [open_] at h
      exact h
    | some l =>
      simp only [open_] at h ⊢
      split at h
      · rename_i member
        rwa [if_pos member]
      · rename_i other
        rw [if_neg other]
        split at h
        · rename_i close
          rw [if_pos close]
          obtain ⟨loops, loopNo, d, frozen, matched, members⟩ := h
          refine ⟨loops, loopNo, d, frozen, matched, fun r' hr' member y' hy' => ?_⟩
          obtain ⟨r, hr, number, -, values⟩ := shows r' hr'
          obtain ⟨y, hy, d, mid, -⟩ := values y' hy'
          rw [d, mid]
          exact members r hr (number ▸ member) y hy
        · rename_i left
          rw [if_neg left]
          obtain ⟨d, frozen, matched, place, members⟩ := h
          refine ⟨d, frozen, matched, place, fun r' hr' member => ?_⟩
          obtain ⟨r, hr, number, flags, values⟩ := shows r' hr'
          obtain ⟨abandoned, marks⟩ := members r hr (number ▸ member)
          refine ⟨flags ▸ abandoned, fun y' hy' => ?_⟩
          obtain ⟨y, hy, -, -, mark⟩ := values y' hy'
          rw [mark]
          exact marks y hy

theorem Record.Joins.tieKey {forced : Option Nat} {left : List Nat} {o o' : Record} (h : o.Joins forced left o') :
    o'.tieKey = (o.forcedIf forced).tieKey := by
  have number := h.changed.number
  rw [Record.forcedIf_eq]
  cases values : o.values with
  | none => simp [Record.tieKey, h.changed.bare values, number]
  | some x =>
    obtain ⟨m, d, frozen, values', -⟩ := h.changed.values x values
    have terms := h.terms
    rw [values', values] at terms
    have terms : m = if forced = some o.number then x.term.madeFinal else x.term := Option.some.inj terms
    simp [Record.tieKey, values', number, terms]

namespace FirstReduced

variable {s t : State} {h : HandOff} {forced : Option Nat} {after : List PendingEntry} {loopNo : Option Nat} {d : Int}
  {frozen unmatched : Bool}

theorem waiting (red : FirstReduced s h forced after loopNo d frozen unmatched) :
    (firstReduction s h s.eng.work).waiting = after := by
  obtain ⟨-, x, -, -, places⟩ := red
  rw [places.seats.waiting, Work.settleLoops_eq]
  rfl

/-- The notices of a first reduction. -/
theorem told (red : FirstReduced s h forced after loopNo d frozen unmatched) (sound : LogSound s) (loops : LoopsSound s)
    (tloops : t.eng.loops = (firstReduction s h s.eng.work).loops) (p : Port) :
    Told s t p ((loopNotices s.eng.work (firstReduction s h s.eng.work) ++ resultNotices s.eng.log t.eng.log).foldl Port.offer p) := by
  obtain ⟨-, x, -, -, places⟩ := red
  obtain ⟨tells, stood⟩ := h.settled_tells s forced after loops
  exact told_of sound loops (places.tells _ tells stood) tloops p

/-- No tie of a loop is forced while the list has room, the own term is final, or the oldest entry is no tie's. -/
theorem no_tie (red : FirstReduced s h forced after loopNo d frozen unmatched) (drift : DriftSound s) (sound : LogSound s)
    (busy : s.ctl.state ≠ .idle) (occ : h.occ = s.ctl.occNumber)
    (still : s.eng.waiting.length < 32 ∨ (h.ownTerm s forced).final = true ∨ (∀ e ∈ s.eng.waiting.head?, ∀ l ∈ s.eng.loops.slots,
      ∀ tie ∈ l.opening :: l.closingTie.toList, tie.occ ≠ e.occ)) :
    ∀ l ∈ s.eng.loops.slots, ∀ k ∈ l.opening :: l.closingTie.toList, forced ≠ some k.occ := by
  intro l hl k hk some_
  have below := (drift.occupation_fresh sound busy l hl).2 k hk
  have other : k.occ ≠ (h.entry s).occ := by
    have own : (h.entry s).occ = h.occ := rfl
    omega
  obtain ⟨full, provisional, e, he, same⟩ := red.enters.forced_other some_ other
  rcases still with room | final | head
  · exact full room
  · rw [FirstReduced.ownTerm_final, provisional, some_] at final
    exact other (Option.some.inj (final.resolve_left Bool.false_ne_true))
  · exact head e he l hl k hk same.symm

end FirstReduced

end Sys2Proof.Machine
end

