-- ==== Sys2Proof/Proofs/RoverEndings.lean ====
section
/-! PROOF. The ending that hands a rover's or a base's occupation to the reduction engine, assembled (`ReducedEnding`). -/

namespace Sys2Proof.Machine

namespace FirstReduced

variable {s t : State} {h : HandOff} {forced : Option Nat} {after : List PendingEntry} {loopNo : Option Nat} {d : Int}
  {frozen unmatched : Bool}

/-- The occupation in progress is in no loop given up. -/
theorem own_not_left (drift : DriftSound s) (sound : LogSound s) (busy : s.ctl.state ≠ .idle) (occ : h.occ = s.ctl.occNumber) :
    (h.left s).contains h.occ = false := by
  unfold HandOff.left LoopTable.givenUp
  split
  · rfl
  · rename_i l open_
    have fresh := (drift.occupation_fresh sound busy l (LoopTable.mem_slots_open open_)).1
    rw [← occ] at fresh
    generalize (s.driftCfg.on && _ : Bool) = given
    cases given with
    | false => rfl
    | true => simpa using fresh

/-- What the passing reads of the log is what the event leaves of it. -/
theorem tieKeys (red : FirstReduced s h forced after loopNo d frozen unmatched) (sound : LogSound s)
    (fresh : ∀ r ∈ s.eng.log, r.number < h.occ) :
    (closeLog s.eng.log (firstReduction s h s.eng.work).log).map Record.tieKey = (h.entered s forced after).log.map Record.tieKey := by
  obtain ⟨ψ, log, joins⟩ := red.log sound fresh
  have own : (h.ownRecord s forced loopNo d frozen unmatched).tieKey = ((h.reducedRecord s).forcedIf forced).tieKey := by
    rw [Record.forcedIf_eq]
    rfl
  rw [log]
  show List.map _ (_ ++ [_]) = List.map _ (List.map _ (_ ++ [_]))
  simp only [List.map_append, List.map_map, List.map_cons, List.map_nil, own]
  refine congrArg (· ++ [_]) (List.map_congr_left fun o ho => ?_)
  exact (Record.close_tieKey _ _).trans (joins o ho).tieKey

/-- The loop table and the drift place of a first reduction, as the statements ask. -/
theorem loopPlace (red : FirstReduced s h forced after loopNo d frozen unmatched) (sound : LogSound s) (loops : LoopsSound s)
    (drift : DriftSound s) (busy : s.ctl.state ≠ .idle) (occ : h.occ = s.ctl.occNumber)
    (tlog : t.eng.log = closeLog s.eng.log (firstReduction s h s.eng.work).log)
    (tloops : t.eng.loops = (firstReduction s h s.eng.work).loops) :
    ∃ u : LoopTable,
      (s.eng.waiting.length < 32 ∨ (h.ownTerm s forced).final = true
          ∨ (∀ e ∈ s.eng.waiting.head?, ∀ l ∈ s.eng.loops.slots, ∀ tie ∈ l.opening :: l.closingTie.toList, tie.occ ≠ e.occ) →
        u = s.eng.loops)
      ∧ u = (s.eng.loops.passed s.driftCfg t.eng.log).frozenUp
      ∧ u.counter = s.eng.loops.counter ∧ u.carry = s.eng.loops.carry
      ∧ (u.openLoop.map fun l : Loop => (l.number, l.members, l.opening.pointId))
        = (s.eng.loops.openLoop.map fun l : Loop => (l.number, l.members, l.opening.pointId))
      ∧ LoopPlacing s.driftCfg u t.eng.loops t.eng.log
          { occ := h.occ, pointId := h.header.pointId, mid := (h.ownValues s forced loopNo d frozen).mid
            v := (h.ownValues s forced loopNo d frozen).v, final := (h.ownValues s forced loopNo d frozen).term.final }
          h.header.tie (h.ownValues s forced loopNo d frozen) unmatched := by
  have fresh : ∀ r ∈ s.eng.log, r.number < h.occ := by
    rw [occ]
    exact sound.occupation_fresh busy
  have open_ : ∀ o ∈ s.eng.log, forced = some o.number → o.state = .reduced := by
    intro o ho some_
    obtain same | ⟨e, he, same⟩ := red.enters.forced_pending some_
    · exact absurd same (Nat.ne_of_lt (fresh o ho))
    · exact sound.ready.pending e he o ho same.symm
  have keys := red.tieKeys sound fresh
  rw [← tlog] at keys
  have passed := LoopTable.passed_congr s.driftCfg s.eng.loops keys
  have settled := h.settled_loops s forced after
  refine ⟨((h.entered s forced after).settleLoops s.driftCfg).loops, fun still => h.settled_still after drift sound busy occ
    (red.no_tie drift sound busy occ still), settled.trans (by rw [passed]), ?_, ?_, ?_, ?_⟩
  · rw [settled]
    exact (LoopTable.settled_counter ..).1
  · rw [settled]
    exact (LoopTable.settled_counter ..).2
  · have parts : (fun l : Loop => (l.number, l.members, l.opening.pointId))
        = (fun k : Nat × List Nat × (Nat × Nat) × Option Nat => (k.1, k.2.1, k.2.2.1.2)) ∘ Loop.shape := rfl
    rw [settled, parts, ← Option.map_map, ← Option.map_map, LoopTable.settled_openLoop]
  · obtain ⟨-, x, values, own, places⟩ := red
    have placing := places.placing (h.seatable sound loops drift busy occ open_) (h.ownValues s forced loopNo d frozen) rfl rfl rfl
    rw [tloops, tlog]
    have tie : (h.unplaced s forced after).asTie x
        = { occ := h.occ, pointId := h.header.pointId, mid := (h.ownValues s forced loopNo d frozen).mid
            v := (h.ownValues s forced loopNo d frozen).v, final := (h.ownValues s forced loopNo d frozen).term.final } := by
      simp only [Record.asTie, HandOff.unplaced_number, HandOff.unplaced_header]
      rw [own]
      rfl
    rw [tie, HandOff.unplaced_header] at placing
    refine placing.shows fun r' hr' => ?_
    obtain ⟨r, hr, rfl⟩ := List.mem_map.mp hr'
    exact ⟨r, hr, Record.close_showsAs ..⟩

end FirstReduced

/-! ### The ending -/

theorem firstReduction_congr {s t : State} (image : t.image = s.image) (peers : t.peers = s.peers) (h : HandOff) :
    firstReduction t h = firstReduction s h := by
  have term : firstTerm t = firstTerm s := by
    funext hd flags mid endTime
    unfold firstTerm effectiveSource State.tide State.baseTerm
    rw [image, select_congr peers image]
  funext w
  simp only [firstReduction, HandOff.reducedRecord, State.driftCfg, image, term]

/-- The engine that takes the hand-off of a reduced ending (R155, R157 to R160). -/
def State.handedOff (s : State) (h : HandOff) : Engine :=
  if s.isBase then { s.eng with log := evict s.eng.log ++ [h.bareRecord .sealed s.eng.firstObs s.eng.lastObs] }
  else
    { s.eng with
      log := closeLog s.eng.log (firstReduction s h s.eng.work).log
      waiting := (firstReduction s h s.eng.work).waiting
      loops := (firstReduction s h s.eng.work).loops }

/-- The notices that a rover's hand-off queues (R150, R168). -/
def State.handOffNotices (s : State) (h : HandOff) : List NoticeBody :=
  if s.isBase then []
  else loopNotices s.eng.work (firstReduction s h s.eng.work) ++ resultNotices s.eng.log (s.handedOff h).log

theorem State.handOff_none (s : State) {h : HandOff} (reduced : h.reason = none) :
    s.handOff h = (s.setEng (s.handedOff h)).setPort ((s.handOffNotices h).foldl Port.offer s.port) := by
  unfold State.handOff State.handOffNotices State.handedOff
  rw [reduced]
  cases s.isBase with
  | true => exact (State.setPort_self _).symm
  | false =>
    simp only [Bool.false_eq_true, if_false]
    rw [State.engineEvent_eq]

/-- What the ending of the occupation in progress hands off, for a reduced record (R52). -/
def State.endingHandOff (s : State) (flags : RecordFlags) (endTime : Nat) : HandOff :=
  { s.ctl with flags := flags : Controller }.handOff none endTime

theorem State.endingHandOff_bare (s : State) (flags : RecordFlags) (endTime : Nat) (firstObs lastObs : Option Nat) :
    (s.endingHandOff flags endTime).bareRecord .sealed firstObs lastObs = s.bare .sealed none flags endTime firstObs lastObs := by
  simp only [State.endingHandOff, Controller.handOff, HandOff.bareRecord, State.bare]

/-- A reduced ending (R52). -/
theorem State.endOccupation_reduced (s : State) (flag : RecordFlags → RecordFlags) (endTime : Nat) :
    s.endOccupation none flag endTime = { s with
      intake := s.intake.closed, ctl := s.idled
      eng := { s.handedOff (s.endingHandOff (flag s.ctl.flags) endTime) with gRef := none }
      port := (s.handOffNotices (s.endingHandOff (flag s.ctl.flags) endTime)).foldl Port.offer
        (s.port.offer (s.occEnd none (flag s.ctl.flags) endTime)) } := by
  generalize hh : s.endingHandOff (flag s.ctl.flags) endTime = h
  generalize hu : ((s.setIntake s.intake.closed).setCtl ({ s.ctl with flags := flag s.ctl.flags }.pulse s.osc)).offer
    (s.occEnd none (flag s.ctl.flags) endTime) = u
  have image : u.image = s.image := by rw [← hu]; rfl
  have peers : u.peers = s.peers := by rw [← hu]; rfl
  have eng : u.eng = s.eng := by rw [← hu]; rfl
  have port : u.port = s.port.offer (s.occEnd none (flag s.ctl.flags) endTime) := by rw [← hu]; rfl
  have role : u.isBase = s.isBase := by
    unfold State.isBase State.identity
    rw [image]
  have handed : u.handedOff h = s.handedOff h := by
    unfold State.handedOff
    rw [role, eng, firstReduction_congr image peers]
  have notices : u.handOffNotices h = s.handOffNotices h := by
    unfold State.handOffNotices
    rw [role, eng, handed, firstReduction_congr image peers]
  have ended : s.endOccupation none flag endTime
      = ((u.handOff h).setEng (u.handOff h).eng.endCycle).setCtl (u.handOff h).ctl.toIdle := by
    rw [← hu, ← hh, ← Intake.shut_eq_closed]
    rfl
  have ctl : u.ctl.toIdle = s.idled := by rw [← hu]; rfl
  rw [ended, u.handOff_none (by rw [← hh]; rfl), handed, notices, port]
  simp only [State.setPort_eng, State.setEng_eng, State.setPort_ctl, State.setEng_ctl, ctl]
  rw [← hu]
  simp only [State.setIntake, State.setCtl, State.setEng, State.setPort, State.offer, Engine.endCycle]

theorem firstTerm_expiry (s : State) (hd : Header) (flags : RecordFlags) (mid endTime : Nat) :
    (firstTerm s hd flags mid endTime).expiry = endTime + s.baseTerm.holdLimit * 1000 := by
  unfold firstTerm
  simp only
  split <;> rfl

/-- Settling the occupation in progress with a reduced ending is what the statements say (`ReducedEnding`). -/
theorem reducedEnding_of {s : State} (sound : LogSound s) (busy : s.ctl.state ≠ .idle) (flag : RecordFlags → RecordFlags)
    (endTime : Nat) : ReducedEnding s (s.endOccupation none flag endTime) (flag s.ctl.flags) endTime := by
  rw [State.endOccupation_reduced]
  generalize hh : s.endingHandOff (flag s.ctl.flags) endTime = h
  have occ : h.occ = s.ctl.occNumber := by rw [← hh]; rfl
  cases base : s.isBase with
  | true =>
    have handed : s.handedOff h = { s.eng with log := evict s.eng.log ++ [h.bareRecord .sealed s.eng.firstObs s.eng.lastObs] } :=
      if_pos base
    have notices : s.handOffNotices h = [] := if_pos base
    rw [handed, notices]
    refine ⟨rfl, rfl, rfl, rfl, rfl, ?_⟩
    rw [if_pos base, ← hh, State.endingHandOff_bare]
    simp only [List.foldl_nil, and_self]
  | false =>
    have rover : ¬s.isBase = true := by simp [base]
    have handed : s.handedOff h = { s.eng with
        log := closeLog s.eng.log (firstReduction s h s.eng.work).log
        waiting := (firstReduction s h s.eng.work).waiting
        loops := (firstReduction s h s.eng.work).loops } := if_neg rover
    have notices : s.handOffNotices h
        = loopNotices s.eng.work (firstReduction s h s.eng.work) ++ resultNotices s.eng.log (s.handedOff h).log := if_neg rover
    have fresh : ∀ r ∈ s.eng.log, r.number < h.occ := by
      rw [occ]
      exact sound.occupation_fresh busy
    obtain ⟨forced, after, loopNo, d, frozen, unmatched, red⟩ := firstReduced (h := h) sound fresh
    generalize ht : ({ s with
      intake := s.intake.closed, ctl := s.idled, eng := { s.handedOff h with gRef := none }
      port := (s.handOffNotices h).foldl Port.offer (s.port.offer (s.occEnd none (flag s.ctl.flags) endTime)) } : State) = t
    have eng : t.eng = { s.handedOff h with gRef := none } := by rw [← ht]
    have log : t.eng.log = closeLog s.eng.log (firstReduction s h s.eng.work).log := by rw [eng, handed]
    have loopTable : t.eng.loops = (firstReduction s h s.eng.work).loops := by rw [eng, handed]
    have waiting : t.eng.waiting = after := by
      rw [eng, handed]
      exact red.waiting
    have port : t.port = (s.handOffNotices h).foldl Port.offer (s.port.offer (s.occEnd none (flag s.ctl.flags) endTime)) := by rw [← ht]
    have flags : h.flags = flag s.ctl.flags := by rw [← hh]; rfl
    refine ⟨by rw [← ht], by rw [eng], by rw [eng, handed], by rw [eng, handed], by rw [eng, handed], ?_⟩
    rw [if_neg rover]
    obtain ⟨ψ, whole, -⟩ := red.log sound fresh
    refine ⟨h.ownRecord s forced loopNo d frozen unmatched, by rw [log, whole]; exact List.getLast?_concat, occ, by rw [← hh]; rfl, rfl,
      by rw [← hh]; rfl, by rw [← hh]; rfl, by rw [← hh]; rfl, by rw [← hh]; rfl, by rw [← hh]; rfl, by rw [← hh]; rfl, rfl,
      by rw [← hh]; rfl, h.ownValues s forced loopNo d frozen, rfl, ?_, by rw [← hh]; rfl, by rw [← hh]; rfl, by rw [← hh]; rfl,
      by rw [← hh]; rfl, by rw [← hh]; rfl, rfl, rfl, rfl, rfl, rfl, ?_, fun loops => ?_, fun _ => red.logJoined sound fresh log,
      fun loops drift => ⟨?_, ?_⟩⟩
    · simp [HandOff.ownRecord, Values.stateAfter, Values.sealable]
    · have expiry := firstTerm_expiry s h.header { h.flags with thermal := h.flags.thermal || (fixedTerms s.image h.sums).thermal }
        (h.firstValues s).mid h.endTime
      have endTime_ : h.endTime = endTime := by rw [← hh]; rfl
      have enters := red.enters
      have entry : h.entry s = ⟨h.occ, (h.firstValues s).mid, endTime + s.baseTerm.holdLimit * 1000⟩ := by
        rw [← endTime_, ← expiry]
        rfl
      rw [entry, ← endTime_] at enters
      have term := firstTerm_of (h := h.header)
        (flags := { h.flags with thermal := h.flags.thermal || (fixedTerms s.image h.sums).thermal })
        (sound.pending_fresh fresh) enters
      rw [waiting, ← flags, ← endTime_]
      exact term
    · rw [port, notices, ← show t.eng.log = (s.handedOff h).log by rw [eng]]
      exact red.told sound loops loopTable _
    · rw [← flags]
      show (_ || (h.left s).contains h.occ) = _
      rw [FirstReduced.own_not_left drift sound busy occ, Bool.or_false]
    · obtain ⟨u, still, passed, counter, carry, openLoop, placing⟩ := red.loopPlace sound loops drift busy occ log loopTable
      exact ⟨u, unmatched, still, passed, counter, carry, openLoop, by rw [← flags]; rfl, placing⟩

end Sys2Proof.Machine
end

