-- ==== Sys2Proof/Proofs/HoldExpiries.lean ====
section
/-! PROOF. Hold expiries taken together as one event (R130, R131, R164), as the statements describe it (`HoldsExpired`). -/

namespace Sys2Proof.Machine

/-! ### The expiries at the log and at the pending list -/

/-- The term that a hold expiry leaves (R130). -/
def BaseTerm.expired (m : BaseTerm) (y : Selection) : BaseTerm := if y.final then m.selected y else (m.selected y).madeFinal

/-- A record whose hold expiry has fallen (R130, R164). -/
def Record.expired (s : State) (r : Record) : Record :=
  { r with
    values := r.values.map fun x => { x with term := x.term.expired (select s r.header x.mid) }
    flags := { r.flags with
      holdExpired := r.flags.holdExpired || !(r.values.any fun x => (select s r.header x.mid).final) } }

theorem Record.expired_final {s : State} {r : Record} (h : (r.values.any fun x => (select s r.header x.mid).final) = true) :
    r.expired s = r.reselected s := by
  simp only [Record.expired, h, Bool.not_true, Bool.or_false, Record.reselected]
  cases values : r.values with
  | none => rfl
  | some x =>
    have final : (select s r.header x.mid).final = true := by simpa [values] using h
    simp only [Option.map_some, BaseTerm.expired, final, if_true]

theorem Record.expired_provisional {s : State} {r : Record}
    (h : (r.values.any fun x => (select s r.header x.mid).final) = false) :
    r.expired s = { (r.reselected s).mapTerm BaseTerm.makeFinal with flags := { r.flags with holdExpired := true } } := by
  simp only [Record.expired, h, Bool.not_false, Bool.or_true, Record.mapTerm, Record.reselected, Option.map_map]
  cases values : r.values with
  | none => rfl
  | some x =>
    have provisional : (select s r.header x.mid).final = false := by simpa [values] using h
    simp only [Option.map_some, Function.comp, BaseTerm.expired, provisional, Bool.false_eq_true, if_false, BaseTerm.makeFinal_eq]

/-- One pending occupation's hold expiry (R130). -/
theorem expireOne_eq (s : State) {w : Work} (nodup : (w.log.map Record.number).Nodup) {n : Nat}
    (pending : ∃ e ∈ w.waiting, e.occ = n) :
    expireOne s w n =
      { w with
        log := w.log.map fun r => if r.number = n then r.expired s else r
        waiting := w.waiting.filter fun e => e.occ ≠ n } := by
  obtain ⟨e, he, same⟩ := pending
  have held : (w.waiting.any fun e => e.occ = n) = true := List.any_eq_true.mpr ⟨e, he, by simpa using same⟩
  have finals : ∀ r ∈ w.log, r.number = n → w.finals s n = (r.values.any fun x => (select s r.header x.mid).final) := by
    intro r hr number
    have found : findRecord n w.log = some r := number ▸ findRecord_of_mem nodup hr
    simp only [Work.finals, found, Option.any_some]
  simp only [expireOne, held, if_true, reevaluate_eq s nodup]
  cases final : w.finals s n with
  | true =>
    have gone : ((w.waiting.filter fun e => !(e.occ = n && true)).any fun e => e.occ = n) = false := by
      simp
    rw [gone, if_neg Bool.false_ne_true]
    congr 1
    · refine List.map_congr_left fun r hr => ?_
      split
      · rename_i number
        exact (Record.expired_final ((finals r hr number).symm.trans final)).symm
      · rfl
    · exact List.filter_congr fun e _ => by simp
  | false =>
    have stays : (w.waiting.filter fun e => !(e.occ = n && false)) = w.waiting := by simp
    rw [stays, held, if_pos rfl]
    simp only [Work.makeFinal, Work.modify, Work.leave, List.map_map]
    congr 1
    refine List.map_congr_left fun r hr => ?_
    by_cases number : r.number = n
    · have number' : (r.reselected s).number = n := number
      simp only [Function.comp, if_pos number, if_pos number']
      rw [Record.expired_provisional ((finals r hr number).symm.trans final)]
      rfl
    · simp only [Function.comp, if_neg number]

theorem foldl_expireOne (s : State) (ns : List Nat) {w : Work} (nodup : (w.log.map Record.number).Nodup) (distinct : ns.Nodup)
    (pending : ∀ n ∈ ns, ∃ e ∈ w.waiting, e.occ = n) :
    ns.foldl (expireOne s) w =
      { w with
        log := w.log.map fun r => if r.number ∈ ns then r.expired s else r
        waiting := w.waiting.filter fun e => e.occ ∉ ns } := by
  induction ns generalizing w with
  | nil => simp
  | cons n ns ih =>
    obtain ⟨fresh, distinct⟩ := List.nodup_cons.mp distinct
    have numbers : ((w.log.map fun r => if r.number = n then r.expired s else r).map Record.number) = w.log.map Record.number := by
      rw [List.map_map]
      refine List.map_congr_left fun r _ => ?_
      simp only [Function.comp]
      split <;> rfl
    rw [List.foldl_cons, expireOne_eq s nodup (pending n List.mem_cons_self), ih (numbers ▸ nodup) distinct]
    · simp only [List.map_map, List.filter_filter]
      congr 1
      · refine List.map_congr_left fun r _ => ?_
        simp only [Function.comp]
        by_cases first : r.number = n
        · have number : (r.expired s).number = n := first
          simp [first, number, fresh]
        · simp [first]
      · exact List.filter_congr fun e _ => by simp [Bool.and_comm]
    · intro m hm
      obtain ⟨e, he, same⟩ := pending m (List.mem_cons_of_mem _ hm)
      have other : e.occ ≠ n := fun eq => fresh (eq ▸ same ▸ hm)
      exact ⟨e, List.mem_filter.mpr ⟨he, by simpa using other⟩, same⟩

/-! ### The event -/

/-- The pending occupations that are `due`. -/
def Engine.dueOccs (e : Engine) (due : PendingEntry → Bool) : List Nat := (e.waiting.filter due).map PendingEntry.occ

section

variable {s t : State} {due : PendingEntry → Bool}

theorem LogSound.dueOccs_nodup (sound : LogSound s) (due : PendingEntry → Bool) : (s.eng.dueOccs due).Nodup := by
  obtain ⟨-, -, -, -, -, nodup, -⟩ := sound
  exact nodup.sublist ((List.filter_sublist).map _)

theorem LogSound.mem_dueOccs (sound : LogSound s) {e : PendingEntry} (he : e ∈ s.eng.waiting) :
    e.occ ∈ s.eng.dueOccs due ↔ due e = true := by
  obtain ⟨-, -, -, -, -, nodup, -⟩ := sound
  refine ⟨fun mem => ?_, fun h => List.mem_map_of_mem (List.mem_filter.mpr ⟨he, h⟩)⟩
  obtain ⟨e', he', same⟩ := List.mem_map.mp mem
  obtain ⟨he', h⟩ := List.mem_filter.mp he'
  rwa [← List.inj_on_of_nodup_map nodup he' he same]

/-- The base-term work of the hold expiries. -/
theorem LogSound.expired_work (sound : LogSound s) (due : PendingEntry → Bool) :
    (s.eng.dueOccs due).foldl (expireOne s) s.eng.work =
      { s.eng.work with
        log := s.eng.log.map fun r => if r.number ∈ s.eng.dueOccs due then r.expired s else r
        waiting := s.eng.waiting.filter fun e => !due e } := by
  rw [foldl_expireOne s _ sound.nodup (sound.dueOccs_nodup due) fun n hn => ?_]
  · congr 1
    exact List.filter_congr fun e he => by simp [sound.mem_dueOccs he]
  · obtain ⟨e, he, same⟩ := List.mem_map.mp hn
    exact ⟨e, (List.mem_filter.mp he).1, same⟩

theorem LogSound.expired_terms (sound : LogSound s) (due : PendingEntry → Bool) :
    s.eng.work.Reterms ((s.eng.dueOccs due).foldl (expireOne s) s.eng.work) := by
  refine .foldl (fun w n _ open_ => .expireOne s open_) _ sound.ready fun n hn => ?_
  obtain ⟨e, he, rfl⟩ := List.mem_map.mp hn
  exact sound.ready.pending e (List.mem_filter.mp he).1

/-- The engine after the expiries of the entries that are `due`. -/
def State.expiredEngine (s : State) (due : PendingEntry → Bool) : Engine :=
  let w := ((s.eng.dueOccs due).foldl (expireOne s) s.eng.work).settleLoops s.driftCfg
  { s.eng with log := closeLog s.eng.log w.log, waiting := w.waiting, loops := w.loops }

theorem State.expireEvent_eq (s : State) (due : PendingEntry → Bool) :
    s.expireEvent (s.eng.dueOccs due) = (s.setEng (s.expiredEngine due)).setPort
      ((loopNotices s.eng.work (((s.eng.dueOccs due).foldl (expireOne s) s.eng.work).settleLoops s.driftCfg)
        ++ resultNotices s.eng.log (s.expiredEngine due).log).foldl Port.offer s.port) := s.engineEvent_eq _

theorem holdsExpired_of (sound : LogSound s) (eng : t.eng = s.expiredEngine due) : HoldsExpired s t due := by
  have log : t.eng.log = closeLog s.eng.log (((s.eng.dueOccs due).foldl (expireOne s) s.eng.work).settleLoops s.driftCfg).log := by
    rw [eng]
    rfl
  have loops : t.eng.loops = (((s.eng.dueOccs due).foldl (expireOne s) s.eng.work).settleLoops s.driftCfg).loops := by
    rw [eng]
    rfl
  have work := sound.expired_work due
  have member : ∀ r ∈ s.eng.log, _ ∈ t.eng.log := fun r hr =>
    mem_closed sound (φ := fun r => if r.number ∈ s.eng.dueOccs due then r.expired s else r) (by rw [work])
      (fun r _ => by split <;> rfl) log hr
  refine ⟨?_, loopsPassed_of sound (sound.expired_terms due) log loops, fun o ho idle => ?_, fun e he hdue => ?_⟩
  · rw [eng]
    show (Work.settleLoops _ _).waiting = _
    rw [Work.settleLoops_eq, work]
  · have absent : o.number ∉ s.eng.dueOccs due := fun mem => by
      obtain ⟨e, he, same⟩ := List.mem_map.mp mem
      obtain ⟨he, hdue⟩ := List.mem_filter.mp he
      exact idle e he hdue same
    refine ⟨_, member o ho, ?_⟩
    rw [if_neg absent]
    exact closed_kept ..
  · obtain ⟨r, hr, number, reduced, x, hx, -⟩ := sound.2.2.2.2.2.2 e he
    have values : r.values = some x := hx
    have here : r.number ∈ s.eng.dueOccs due := number ▸ (sound.mem_dueOccs he).mpr hdue
    have mem := member r hr
    rw [if_pos here] at mem
    obtain ⟨number', flags, -⟩ := closed_kept ((s.eng.dueOccs due).foldl (expireOne s) s.eng.work) s.driftCfg (some r) (r.expired s)
    obtain ⟨x', hx', term, formed⟩ := closed_formed ((s.eng.dueOccs due).foldl (expireOne s) s.eng.work) s.driftCfg (some r)
      (r := r.expired s) reduced (by simp only [Record.expired, values, Option.map_some]; rfl)
    refine ⟨r, hr, number, x, hx, _, mem, number'.trans number, x', hx', ?_⟩
    rintro y rfl
    refine ⟨flags.trans ?_, term, formed⟩
    simp only [Record.expired, values, Option.any_some]

theorem told_expired (sound : LogSound s) (loops : LoopsSound s) (eng : t.eng = s.expiredEngine due) (p : Port) :
    Told s t p ((loopNotices s.eng.work (((s.eng.dueOccs due).foldl (expireOne s) s.eng.work).settleLoops s.driftCfg)
      ++ resultNotices s.eng.log t.eng.log).foldl Port.offer p) := by
  have terms := sound.expired_terms due
  exact told_of sound loops ((Work.tells_start loops terms.loops terms.gone).settleLoops s.driftCfg) (by rw [eng]; rfl) p

end

end Sys2Proof.Machine
end

