-- ==== Sys2Proof/Proofs/Lapses.lean ====
section
/-! PROOF. Occupations whose hold expiry has passed, over the three deliveries of a time step in whatever order (R131, R134, R164): once
made final their base terms stay final, and until then they are pending (`Work.Lapsing`); and entries that join the pending list
meanwhile expire later (`Work.Late`). -/

namespace Sys2Proof.Machine

/-- What the pending list and a fold report read of a record: its number and its base term. -/
def Record.termKey (r : Record) : Nat × Option BaseTerm := (r.number, r.values.map Values.term)

/-- The base terms of the occupations `due` have expired by `now`, and each is final or pending with an expired entry; the records have
distinct numbers below `top`. -/
structure Work.Lapsing (now top : Nat) (due : Nat → Prop) (w : Work) : Prop where
  nodup : (w.log.map Record.number).Nodup
  below : ∀ n ∈ w.log.map Record.number, n < top
  expiry : ∀ r ∈ w.log, due r.number → ∀ x ∈ r.values, x.term.expiry ≤ now
  settled : ∀ r ∈ w.log, due r.number → ∀ x ∈ r.values, x.term.final = true ∨ ∃ e ∈ w.waiting, e.occ = r.number
  entries : ∀ e ∈ w.waiting, due e.occ → e.expiry ≤ now

/-- No pending entry has expired by `now`. -/
def Work.Late (now : Nat) (w : Work) : Prop := ∀ e ∈ w.waiting, now < e.expiry

/-- The base terms of the occupations `ns` that are provisional expire after `now`. -/
def Work.Fresh (now : Nat) (ns : List Nat) (w : Work) : Prop :=
  ∀ r ∈ w.log, r.number ∈ ns → ∀ x ∈ r.values, x.term.final = false → now < x.term.expiry

theorem exists_of_termKeys {log log' : List Record} (h : log'.map Record.termKey = log.map Record.termKey) {r' : Record}
    (hr' : r' ∈ log') : ∃ r ∈ log, r.number = r'.number ∧ ∀ x' ∈ r'.values, ∃ x ∈ r.values, x.term = x'.term := by
  obtain ⟨r, hr, same⟩ := List.mem_map.mp (h ▸ List.mem_map_of_mem hr' : r'.termKey ∈ log.map Record.termKey)
  obtain ⟨number, terms⟩ := Prod.mk.inj same
  refine ⟨r, hr, number, fun x' hx' => ?_⟩
  rw [show r'.values = some x' from hx'] at terms
  exact Option.map_eq_some_iff.mp terms

section

variable {now top : Nat} {due : Nat → Prop} {w w' : Work}

/-! ### What has lapsed -/

namespace Work.Lapsing

/-- Work that leaves the base terms and the pending list. -/
theorem congr (h : w.Lapsing now top due) (terms : w'.log.map Record.termKey = w.log.map Record.termKey)
    (waiting : w'.waiting = w.waiting) : w'.Lapsing now top due := by
  have number : Record.number = Prod.fst ∘ Record.termKey := rfl
  have numbers : w'.log.map Record.number = w.log.map Record.number := by
    rw [number, ← List.map_map, terms, List.map_map]
  refine ⟨numbers ▸ h.nodup, numbers ▸ h.below, fun r' hr' hdue x' hx' => ?_, fun r' hr' hdue x' hx' => ?_,
    by rw [waiting]; exact h.entries⟩
  · obtain ⟨r, hr, same, values⟩ := exists_of_termKeys terms hr'
    obtain ⟨x, hx, term⟩ := values x' hx'
    exact term ▸ h.expiry r hr (same ▸ hdue) x hx
  · obtain ⟨r, hr, same, values⟩ := exists_of_termKeys terms hr'
    obtain ⟨x, hx, term⟩ := values x' hx'
    rw [waiting, ← term, ← same]
    exact h.settled r hr (same ▸ hdue) x hx

/-- Terms changed one by one, what has lapsed staying final. -/
theorem map (h : w.Lapsing now top due) {f : Record → Record} (number : ∀ r ∈ w.log, (f r).number = r.number)
    (terms : ∀ r ∈ w.log, ∀ x' ∈ (f r).values, ∃ x ∈ r.values,
      x'.term.expiry = x.term.expiry ∧ (x.term.expiry ≤ now → x.term.final = true → x'.term.final = true)) :
    Work.Lapsing now top due { w with log := w.log.map f } := by
  have numbers : (w.log.map f).map Record.number = w.log.map Record.number := by
    rw [List.map_map]
    exact List.map_congr_left number
  refine ⟨numbers ▸ h.nodup, numbers ▸ h.below, fun r' hr' hdue x' hx' => ?_, fun r' hr' hdue x' hx' => ?_, h.entries⟩
  · obtain ⟨r, hr, rfl⟩ := List.mem_map.mp hr'
    obtain ⟨x, hx, same, -⟩ := terms r hr x' hx'
    exact same ▸ h.expiry r hr (number r hr ▸ hdue) x hx
  · obtain ⟨r, hr, rfl⟩ := List.mem_map.mp hr'
    obtain ⟨x, hx, -, stays⟩ := terms r hr x' hx'
    rw [number r hr] at hdue ⊢
    exact (h.settled r hr hdue x hx).imp_left (stays (h.expiry r hr hdue x hx))

/-- An occupation leaves the pending list once its terms are final. -/
theorem leave (h : w.Lapsing now top due) {n : Nat} (final : ∀ r ∈ w.log, r.number = n → ∀ x ∈ r.values, x.term.final = true) :
    (w.leave n).Lapsing now top due := by
  refine ⟨h.nodup, h.below, h.expiry, fun r hr hdue x hx => ?_, fun e he => h.entries e (List.mem_filter.mp he).1⟩
  by_cases same : r.number = n
  · exact .inl (final r hr same x hx)
  · refine (h.settled r hr hdue x hx).imp_right fun ⟨e, he, occ⟩ => ⟨e, List.mem_filter.mpr ⟨he, ?_⟩, occ⟩
    simpa [occ] using same

theorem mem_madeFinal {flag : RecordFlags → RecordFlags} {n : Nat} {r' : Record}
    (h : r' ∈ (w.modify n fun r => { r.mapTerm BaseTerm.makeFinal with flags := flag r.flags }).log) (same : r'.number = n) :
    ∀ x ∈ r'.values, x.term.final = true := by
  obtain ⟨r, -, rfl⟩ := List.mem_map.mp h
  intro x hx
  have number : r.number = n := by
    split at same <;> exact same
  rw [if_pos number] at hx
  obtain ⟨y, -, rfl⟩ := Option.map_eq_some_iff.mp hx
  rw [BaseTerm.makeFinal_eq]
  rfl

theorem makeFinal (h : w.Lapsing now top due) (flag : RecordFlags → RecordFlags) (n : Nat) : (w.makeFinal flag n).Lapsing now top due := by
  have terms := h.map (f := fun r => if r.number = n then { r.mapTerm BaseTerm.makeFinal with flags := flag r.flags } else r)
    (fun r _ => by split <;> rfl) fun r _ x' hx' => by
      split at hx'
      · obtain ⟨x, hx, rfl⟩ := Option.map_eq_some_iff.mp hx'
        refine ⟨x, hx, ?_⟩
        rw [BaseTerm.makeFinal_eq]
        exact ⟨rfl, fun _ _ => rfl⟩
      · exact ⟨x', hx', rfl, fun _ => id⟩
  exact leave terms fun r hr same => mem_madeFinal hr same

theorem insert (h : w.Lapsing now top due) {e : PendingEntry} (lapsed : due e.occ → e.expiry ≤ now) :
    Work.Lapsing now top due { w with waiting := insertBy PendingEntry.older e w.waiting } := by
  refine ⟨h.nodup, h.below, h.expiry, fun r hr hdue x hx => ?_, fun y hy => ?_⟩
  · exact (h.settled r hr hdue x hx).imp_right fun ⟨y, hy, occ⟩ => ⟨y, (insertBy_perm ..).mem_iff.mpr (List.mem_cons_of_mem _ hy), occ⟩
  · rcases List.mem_cons.mp ((insertBy_perm ..).mem_iff.mp hy) with rfl | hy
    · exact lapsed
    · exact h.entries y hy

theorem enter (h : w.Lapsing now top due) {e : PendingEntry} (lapsed : due e.occ → e.expiry ≤ now) : (w.enter e).Lapsing now top due := by
  unfold Work.enter
  split
  · exact h.insert lapsed
  · split
    · exact h
    · simp only
      split
      · exact h.makeFinal ..
      · exact (h.makeFinal ..).insert lapsed

/-- The one record of a number. -/
theorem unique (h : w.Lapsing now top due) {n : Nat} {r r' : Record} (found : findRecord n w.log = some r) (hr' : r' ∈ w.log)
    (same : r'.number = n) : r' = r := by
  obtain ⟨hr, number⟩ := mem_of_findRecord found
  exact eq_of_number h.nodup hr' hr (same.trans number.symm)

theorem settleEntry (h : w.Lapsing now top due) (n : Nat) : (Machine.settleEntry w n).Lapsing now top due := by
  unfold Machine.settleEntry
  split
  · exact h
  · rename_i r found
    split
    · exact h
    · rename_i x values
      split
      · rename_i final
        refine h.leave fun r' hr' same x' hx' => ?_
        rw [h.unique found hr' same, values] at hx'
        cases hx'
        exact final
      · split
        · exact h
        · obtain ⟨hr, rfl⟩ := mem_of_findRecord found
          exact h.enter fun hdue => h.expiry r hr hdue x values

theorem leaveWhenFinal (h : w.Lapsing now top due) (n : Nat) : (Machine.leaveWhenFinal w n).Lapsing now top due := by
  unfold Machine.leaveWhenFinal
  split
  · exact h
  · rename_i r found
    split
    · rename_i final
      refine h.leave fun r' hr' same x' hx' => ?_
      rw [h.unique found hr' same] at hx'
      have values : r.values = some x' := hx'
      simpa [values] using final
    · exact h

theorem foldl {α : Type} {f : Work → α → Work} (step : ∀ (w : Work) a, w.Lapsing now top due → (f w a).Lapsing now top due) (l : List α)
    {w : Work} (h : w.Lapsing now top due) : (l.foldl f w).Lapsing now top due := by
  induction l generalizing w with
  | nil => exact h
  | cons a l ih => exact ih (step w a h)

theorem reevaluateAll (s : State) (h : w.Lapsing now top due) : (Machine.reevaluateAll s w).Lapsing now top due := by
  rw [reevaluateAll_eq s h.nodup]
  have terms : ∀ r : Record, ∀ x' ∈ (r.reselected s).values, ∃ x ∈ r.values, x' = { x with
      term := x.term.selected (select s r.header x.mid) } := by
    intro r x' hx'
    obtain ⟨x, hx, rfl⟩ := Option.map_eq_some_iff.mp hx'
    exact ⟨x, hx, rfl⟩
  have numbers : (w.log.map fun r => if r.number ∈ w.waiting.map PendingEntry.occ then r.reselected s else r).map Record.number
      = w.log.map Record.number := by
    rw [List.map_map]
    refine List.map_congr_left fun r _ => ?_
    simp only [Function.comp]
    split <;> rfl
  refine ⟨numbers ▸ h.nodup, numbers ▸ h.below, fun r' hr' hdue x' hx' => ?_, fun r' hr' hdue x' hx' => ?_,
    fun e he => h.entries e (List.mem_filter.mp he).1⟩
  · obtain ⟨r, hr, rfl⟩ := List.mem_map.mp hr'
    by_cases pending : r.number ∈ w.waiting.map PendingEntry.occ
    · simp only [if_pos pending] at hx' hdue
      obtain ⟨x, hx, rfl⟩ := terms r x' hx'
      exact h.expiry r hr hdue x hx
    · simp only [if_neg pending] at hx' hdue
      exact h.expiry r hr hdue x' hx'
  · obtain ⟨r, hr, rfl⟩ := List.mem_map.mp hr'
    by_cases pending : r.number ∈ w.waiting.map PendingEntry.occ
    · simp only [if_pos pending] at hx' hdue ⊢
      obtain ⟨x, hx, rfl⟩ := terms r x' hx'
      have values : r.values = some x := hx
      have finals : w.finals s r.number = (select s r.header x.mid).final := by
        simp only [Work.finals, findRecord_of_mem h.nodup hr, Option.any_some, values]
      cases final : (select s r.header x.mid).final with
      | true => exact .inl final
      | false =>
        obtain ⟨e, he, occ⟩ := List.mem_map.mp pending
        exact .inr ⟨e, List.mem_filter.mpr ⟨he, by rw [occ, finals, final]; rfl⟩, occ⟩
    · simp only [if_neg pending] at hx' hdue ⊢
      refine .inl ((h.settled r hr hdue x' hx').resolve_right fun ⟨e, he, occ⟩ => pending ?_)
      exact occ ▸ List.mem_map_of_mem he

theorem expireOne (s : State) (h : w.Lapsing now top due) (n : Nat) : (Machine.expireOne s w n).Lapsing now top due := by
  by_cases pending : ∃ e ∈ w.waiting, e.occ = n
  · rw [expireOne_eq s h.nodup pending]
    have final : ∀ (m : BaseTerm) (y : Selection), (m.expired y).final = true := by
      intro m y
      unfold BaseTerm.expired
      split
      · assumption
      · rfl
    have expiry : ∀ (m : BaseTerm) (y : Selection), (m.expired y).expiry = m.expiry := by
      intro m y
      unfold BaseTerm.expired
      split <;> rfl
    have terms := h.map (f := fun r => if r.number = n then r.expired s else r) (fun r _ => by split <;> rfl) fun r _ x' hx' => by
      split at hx'
      · obtain ⟨x, hx, rfl⟩ := Option.map_eq_some_iff.mp hx'
        exact ⟨x, hx, expiry .., fun _ _ => final ..⟩
      · exact ⟨x', hx', rfl, fun _ => id⟩
    refine leave terms fun r' hr' same x' hx' => ?_
    obtain ⟨r, -, rfl⟩ := List.mem_map.mp hr'
    have number : r.number = n := by
      split at same <;> exact same
    rw [if_pos number] at hx'
    obtain ⟨x, -, rfl⟩ := Option.map_eq_some_iff.mp hx'
    exact final ..
  · have absent : (w.waiting.any fun e => e.occ = n) = false :=
      List.any_eq_false.mpr fun e he => by simpa using fun same => pending ⟨e, he, same⟩
    rw [Machine.expireOne, absent]
    exact h

theorem lose_terms (s : State) (r : Record) (peer series : Nat) : ∀ x' ∈ (r.lose s peer series).values, ∃ x ∈ r.values,
    x'.term.expiry = x.term.expiry ∧ (x.term.expiry ≤ s.tb.nodeTime → x.term.final = true → x'.term.final = true) := by
  have kept : ∀ x ∈ r.values, ∃ y ∈ r.values,
      x.term.expiry = y.term.expiry ∧ (y.term.expiry ≤ s.tb.nodeTime → y.term.final = true → x.term.final = true) :=
    fun x hx => ⟨x, hx, rfl, fun _ => id⟩
  unfold Record.lose
  split
  · exact kept
  · split
    · exact kept
    · split
      · exact kept
      · rename_i x values
        rintro x' ⟨⟩
        refine ⟨x, values, (Work.Reterms.lossTerm_kept ..).2, fun lapsed _ => ?_⟩
        simp only [lossTerm, if_pos lapsed]

/-- What a coherence loss leaves of what has lapsed: MODEL_FALLBACK, final (R134). -/
theorem lose {s : State} (h : w.Lapsing s.tb.nodeTime top due) (peer series : Nat) :
    Work.Lapsing s.tb.nodeTime top due { w with log := w.log.map fun r => r.lose s peer series } :=
  h.map (fun r _ => (r.lose_sameCase s peer series).1) fun r _ => lose_terms s r peer series

theorem coherenceLoss {s : State} (h : w.Lapsing s.tb.nodeTime top due) (peer series : Nat) :
    (Machine.coherenceLoss s w peer series).Lapsing s.tb.nodeTime top due :=
  foldl (fun _ n h => h.settleEntry n) _ (foldl (fun _ n h => h.leaveWhenFinal n) _ (h.lose peer series))

theorem revise (h : w.Lapsing now top due) (peer series fromSeq : Nat) (step : Int) (epoch : Nat) (fresh : List Nat) :
    Work.Lapsing now top due { w with log := w.log.map fun r => r.revise peer series fromSeq step epoch fresh } := by
  have number : ∀ r : Record, (r.revise peer series fromSeq step epoch fresh).number = r.number := by
    intro r
    unfold Record.revise
    repeat' split
    all_goals rfl
  refine h.map (fun r _ => number r) fun r _ => ?_
  have kept : ∀ x ∈ r.values, ∃ y ∈ r.values,
      x.term.expiry = y.term.expiry ∧ (y.term.expiry ≤ now → y.term.final = true → x.term.final = true) :=
    fun x hx => ⟨x, hx, rfl, fun _ => id⟩
  unfold Record.revise
  split
  · rename_i bare
    exact kept
  · rename_i x values
    split
    · exact kept
    · split
      · exact kept
      · split
        · split
          · exact kept
          · exact kept
        · split
          · exact kept
          · rintro x' ⟨⟩
            refine ⟨x, values, (Work.Reterms.BaseTerm.revise_kept ..).2, fun _ final => ?_⟩
            unfold BaseTerm.revise
            split <;> exact final

theorem applyChange {s : State} (h : w.Lapsing s.tb.nodeTime top due) (fresh : List Nat) (c : FoldChange) :
    (Machine.applyChange s (w, fresh) c).1.Lapsing s.tb.nodeTime top due := by
  unfold Machine.applyChange
  split
  · exact h.revise ..
  · exact h.coherenceLoss ..
  · exact h

theorem takeReport {s : State} (h : w.Lapsing s.tb.nodeTime top due) (report : List FoldChange) :
    (Machine.takeReport s report w).Lapsing s.tb.nodeTime top due := by
  have changes : ∀ (l : List FoldChange) (w : Work) (fresh : List Nat), w.Lapsing s.tb.nodeTime top due →
      (l.foldl (Machine.applyChange s) (w, fresh)).1.Lapsing s.tb.nodeTime top due := by
    intro l
    induction l with
    | nil => exact fun _ _ h => h
    | cons c l ih => exact fun w fresh h => ih _ _ (h.applyChange fresh c)
  have all := changes report w [] h
  unfold Machine.takeReport
  simp only
  split
  · exact all
  · exact all.reevaluateAll s

end Work.Lapsing

/-! ### What joins the pending list -/

namespace Work.Late

theorem filter (h : w.Late now) (p : PendingEntry → Bool) : Work.Late now { w with waiting := w.waiting.filter p } :=
  fun e he => h e (List.mem_filter.mp he).1

theorem insert (h : w.Late now) {e : PendingEntry} (late : now < e.expiry) :
    Work.Late now { w with waiting := insertBy PendingEntry.older e w.waiting } := by
  intro y hy
  rcases List.mem_cons.mp ((insertBy_perm ..).mem_iff.mp hy) with rfl | hy
  · exact late
  · exact h y hy

theorem makeFinal (h : w.Late now) (flag : RecordFlags → RecordFlags) (n : Nat) : (w.makeFinal flag n).Late now := h.filter _

theorem enter (h : w.Late now) {e : PendingEntry} (late : now < e.expiry) : (w.enter e).Late now := by
  unfold Work.enter
  split
  · exact h.insert late
  · split
    · exact h
    · simp only
      split
      · exact h.makeFinal _ _
      · exact (h.makeFinal _ _).insert late

theorem leaveWhenFinal (h : w.Late now) (n : Nat) : (Machine.leaveWhenFinal w n).Late now := by
  unfold Machine.leaveWhenFinal
  split
  · exact h
  · split
    · exact h.filter _
    · exact h

theorem leaveWhenFinal_log (w : Work) (n : Nat) : (Machine.leaveWhenFinal w n).log = w.log := by
  unfold Machine.leaveWhenFinal
  split
  · rfl
  · split <;> rfl

theorem makeFinal_fresh {ns : List Nat} (fresh : w.Fresh now ns) (flag : RecordFlags → RecordFlags) (n : Nat) :
    (w.makeFinal flag n).Fresh now ns := by
  intro r' hr' mem x' hx' provisional
  obtain ⟨r, hr, rfl⟩ := List.mem_map.mp hr'
  split at hx'
  · obtain ⟨x, -, rfl⟩ := Option.map_eq_some_iff.mp hx'
    rw [BaseTerm.makeFinal_eq] at provisional
    cases provisional
  · rename_i other
    simp only [if_neg other] at mem
    exact fresh r hr mem x' hx' provisional

theorem enter_fresh {ns : List Nat} (fresh : w.Fresh now ns) (e : PendingEntry) : (w.enter e).Fresh now ns := by
  unfold Work.enter
  split
  · exact fresh
  · split
    · exact fresh
    · simp only
      split
      · exact makeFinal_fresh fresh _ _
      · exact makeFinal_fresh fresh _ _

theorem settleEntry (h : w.Late now) {ns : List Nat} (fresh : w.Fresh now ns) {n : Nat} (hn : n ∈ ns) :
    (Machine.settleEntry w n).Late now ∧ (Machine.settleEntry w n).Fresh now ns := by
  unfold Machine.settleEntry
  split
  · exact ⟨h, fresh⟩
  · rename_i r found
    obtain ⟨hr, rfl⟩ := mem_of_findRecord found
    split
    · exact ⟨h, fresh⟩
    · rename_i x values
      split
      · exact ⟨h.filter _, fresh⟩
      · rename_i provisional
        split
        · exact ⟨h, fresh⟩
        · exact ⟨h.enter (fresh r hr hn x values (by simpa using provisional)), enter_fresh fresh _⟩

theorem coherenceLoss {s : State} (h : w.Late s.tb.nodeTime) (nodup : (w.log.map Record.number).Nodup) (peer series : Nat) :
    (Machine.coherenceLoss s w peer series).Late s.tb.nodeTime := by
  have fresh : Work.Fresh s.tb.nodeTime (reachedByLoss w peer series) { w with log := w.log.map fun r => r.lose s peer series } := by
    intro r' hr' mem x' hx' provisional
    obtain ⟨r, hr, rfl⟩ := List.mem_map.mp hr'
    rw [(r.lose_sameCase s peer series).1] at mem
    obtain ⟨q, hq, same⟩ := List.mem_map.mp mem
    obtain ⟨hq, on⟩ := List.mem_filter.mp hq
    obtain rfl := eq_of_number nodup hq hr same
    simp only [Bool.and_eq_true, decide_eq_true_eq] at on
    cases values : q.values with
    | none => simp [Record.bracketOn, values] at on
    | some x =>
      rw [Record.lose_open on.2 on.1 values] at hx'
      cases hx'
      have expiry := (Work.Reterms.lossTerm_kept s q.header x.mid x.term).2
      simp only [expiry]
      by_contra lapsed
      simp only [lossTerm, if_pos (Nat.le_of_not_lt lapsed)] at provisional
      cases provisional
  have left : ∀ (ns : List Nat) (w : Work), w.Late s.tb.nodeTime →
      (ns.foldl Machine.leaveWhenFinal w).Late s.tb.nodeTime ∧ (ns.foldl Machine.leaveWhenFinal w).log = w.log := by
    intro ns
    induction ns with
    | nil => exact fun _ h => ⟨h, rfl⟩
    | cons n ns ih => exact fun w h => ⟨(ih _ (h.leaveWhenFinal n)).1, (ih _ (h.leaveWhenFinal n)).2.trans (leaveWhenFinal_log w n)⟩
  have settled : ∀ (ns ms : List Nat) (w : Work), (∀ n ∈ ns, n ∈ ms) → w.Late s.tb.nodeTime → w.Fresh s.tb.nodeTime ms →
      (ns.foldl Machine.settleEntry w).Late s.tb.nodeTime := by
    intro ns ms
    induction ns with
    | nil => exact fun _ _ h _ => h
    | cons n ns ih =>
      intro w sub h fresh
      obtain ⟨h, fresh⟩ := h.settleEntry fresh (sub n List.mem_cons_self)
      exact ih _ (fun m hm => sub m (List.mem_cons_of_mem _ hm)) h fresh
  obtain ⟨late, log⟩ := left (reachedByLoss w peer series) { w with log := w.log.map fun r => r.lose s peer series } h
  exact settled _ _ _ (fun _ => id) late fun r hr => fresh r (log ▸ hr)

theorem takeReport {s : State} (h : w.Late s.tb.nodeTime) (lapsing : w.Lapsing s.tb.nodeTime top due) (report : List FoldChange) :
    (Machine.takeReport s report w).Late s.tb.nodeTime := by
  have changes : ∀ (l : List FoldChange) (w : Work) (fresh : List Nat), w.Lapsing s.tb.nodeTime top due → w.Late s.tb.nodeTime →
      (l.foldl (Machine.applyChange s) (w, fresh)).1.Late s.tb.nodeTime
        ∧ (l.foldl (Machine.applyChange s) (w, fresh)).1.Lapsing s.tb.nodeTime top due := by
    intro l
    induction l with
    | nil => exact fun _ _ lapsing h => ⟨h, lapsing⟩
    | cons c l ih =>
      intro w fresh lapsing h
      refine ih _ _ (lapsing.applyChange fresh c) ?_
      cases c with
      | loss peer series => exact h.coherenceLoss lapsing.nodup peer series
      | _ => exact h
  obtain ⟨late, lapsing⟩ := changes report w [] lapsing h
  unfold Machine.takeReport
  simp only
  split
  · exact late
  · rw [reevaluateAll_eq s lapsing.nodup]
    exact late.filter _

/-- The expiry of every entry that has expired leaves the others. -/
theorem of_expired {s : State} (lapsing : w.Lapsing now top due) {ns : List Nat} (all : ∀ e ∈ w.waiting, e.expiry ≤ now → e.occ ∈ ns) :
    (ns.foldl (Machine.expireOne s) w).Late now := by
  have gone : ∀ (ns : List Nat) (w : Work), w.Lapsing now top due → ∀ e ∈ (ns.foldl (Machine.expireOne s) w).waiting,
      e ∈ w.waiting ∧ e.occ ∉ ns := by
    intro ns
    induction ns with
    | nil => exact fun _ _ _ he => ⟨he, List.not_mem_nil⟩
    | cons n ns ih =>
      intro w lapsing e he
      obtain ⟨he, out⟩ := ih _ (lapsing.expireOne s n) e he
      by_cases pending : ∃ e ∈ w.waiting, e.occ = n
      · rw [expireOne_eq s lapsing.nodup pending] at he
        obtain ⟨he, other⟩ := List.mem_filter.mp he
        exact ⟨he, List.not_mem_cons_of_ne_of_not_mem (by simpa using other) out⟩
      · have absent : (w.waiting.any fun e => e.occ = n) = false :=
          List.any_eq_false.mpr fun e he => by simpa using fun same => pending ⟨e, he, same⟩
        rw [Machine.expireOne, absent] at he
        exact ⟨he, List.not_mem_cons_of_ne_of_not_mem (fun same => pending ⟨e, he, same⟩) out⟩
  intro e he
  obtain ⟨he, out⟩ := gone ns w lapsing e he
  exact Nat.lt_of_not_le fun lapsed => out (all e he lapsed)

end Work.Late

end

end Sys2Proof.Machine
end

