-- ==== Sys2Proof/Proofs/LapsedEvents.lean ====
section
/-! PROOF. What has lapsed and what is late (`Work.Lapsing`, `Work.Late`) through whole events of the reduction engine: hold expiries, a
fold report, a hand-off. -/

namespace Sys2Proof.Machine

/-! ### What leaves numbers, base terms and the pending list -/

theorem Work.settleLoops_termKeys (cfg : DriftConfig) (w : Work) :
    (w.settleLoops cfg).log.map Record.termKey = w.log.map Record.termKey ∧ (w.settleLoops cfg).waiting = w.waiting := by
  rw [Work.settleLoops_eq]
  refine ⟨?_, rfl⟩
  rw [List.map_map]
  exact List.map_congr_left fun r _ => Prod.ext (w.settled_number cfg r) (w.settled_terms cfg r)

theorem closeLog_termKeys (before log : List Record) : (closeLog before log).map Record.termKey = log.map Record.termKey := by
  simp only [closeLog, List.map_map]
  exact List.map_congr_left fun r _ => Prod.ext (Record.close_number _ r) (Record.close_terms _ r)

theorem Work.placeDrift_termKeys (cfg : DriftConfig) {w : Work} (nodup : (w.log.map Record.number).Nodup) (n : Nat) :
    (w.placeDrift cfg n).log.map Record.termKey = w.log.map Record.termKey ∧ (w.placeDrift cfg n).waiting = w.waiting := by
  cases found : findRecord n w.log with
  | none => simp only [Work.placeDrift, found, and_self]
  | some r =>
    obtain ⟨hr, rfl⟩ := mem_of_findRecord found
    cases values : r.values with
    | none => simp only [Work.placeDrift, found, values, and_self]
    | some x =>
      obtain ⟨loopNo, d, frozen, unmatched, places⟩ := Work.placeDrift_places (cfg := cfg) found values
      obtain ⟨⟨χ, log, others, own⟩, waiting⟩ := places.seats
      refine ⟨?_, waiting⟩
      rw [log, List.map_map]
      refine List.map_congr_left fun o ho => ?_
      by_cases same : o.number = r.number
      · obtain rfl := eq_of_number nodup ho hr same
        simp only [Function.comp, own, Record.termKey, Record.placedAs, Record.place, Option.map_map]
        rfl
      · exact Prod.ext (others o ho same).changed.number (others o ho same).terms

section

variable {now top : Nat} {due : Nat → Prop} {w : Work} {v : State}

theorem Work.Lapsing.settleLoops (h : w.Lapsing now top due) (cfg : DriftConfig) : (w.settleLoops cfg).Lapsing now top due :=
  h.congr (w.settleLoops_termKeys cfg).1 (w.settleLoops_termKeys cfg).2

theorem Work.Late.settleLoops (h : w.Late now) (cfg : DriftConfig) : (w.settleLoops cfg).Late now := by
  unfold Work.Late
  rw [(w.settleLoops_termKeys cfg).2]
  exact h

theorem Work.Lapsing.event {f : Work → Work} (h : (f v.eng.work).Lapsing now top due) : (v.engineEvent f).eng.work.Lapsing now top due := by
  rw [State.engineEvent_eq]
  exact h.congr (closeLog_termKeys ..) rfl

theorem Work.Late.event {f : Work → Work} (h : (f v.eng.work).Late now) : (v.engineEvent f).eng.work.Late now := by
  rw [State.engineEvent_eq]
  exact h

/-! ### The events -/

/-- Every entry that has expired falls (R131). -/
theorem Work.Lapsing.stepAtEngine (h : v.eng.work.Lapsing v.tb.nodeTime top due) :
    v.stepAtEngine.eng.work.Lapsing v.tb.nodeTime top due ∧ v.stepAtEngine.eng.work.Late v.tb.nodeTime := by
  unfold State.stepAtEngine
  split
  · rename_i none_
    refine ⟨h, fun e he => Nat.lt_of_not_le fun lapsed => ?_⟩
    have mem : e ∈ v.eng.waiting.filter fun e => e.expiry ≤ v.tb.nodeTime := List.mem_filter.mpr ⟨he, decide_eq_true lapsed⟩
    rw [List.map_eq_nil_iff.mp none_] at mem
    cases mem
  · refine ⟨.event ((Work.Lapsing.foldl (fun _ n h => h.expireOne v n) _ h).settleLoops _), .event (.settleLoops (.of_expired h
      fun e he lapsed => ?_) _)⟩
    exact List.mem_map_of_mem (List.mem_filter.mpr ⟨he, decide_eq_true lapsed⟩)

/-- A fold report is taken (R114). -/
theorem Work.Lapsing.foldEvent (h : v.eng.work.Lapsing v.tb.nodeTime top due) (report : List FoldChange) :
    (v.foldEvent report).eng.work.Lapsing v.tb.nodeTime top due := .event ((h.takeReport report).settleLoops _)

theorem Work.Late.foldEvent (h : v.eng.work.Late v.tb.nodeTime) (lapsing : v.eng.work.Lapsing v.tb.nodeTime top due)
    (report : List FoldChange) : (v.foldEvent report).eng.work.Late v.tb.nodeTime :=
  .event (.settleLoops (h.takeReport lapsing report) _)

/-- A record joins the log (R155, R161). -/
theorem Work.Lapsing.join {r : Record} (h : w.Lapsing now r.number due) (other : ¬due r.number) :
    Work.Lapsing now (r.number + 1) due { w with log := evict w.log ++ [r] } := by
  have stood : ∀ {o}, o ∈ evict w.log ++ [r] → due o.number → o ∈ w.log := by
    intro o ho hdue
    rcases List.mem_append.mp ho with ho | ho
    · exact (evict_sublist _).subset ho
    · exact absurd (List.mem_singleton.mp ho ▸ hdue) other
  have kept : ((evict w.log).map Record.number).Sublist (w.log.map Record.number) := (evict_sublist _).map _
  refine ⟨?_, ?_, fun o ho hdue => h.expiry o (stood ho hdue) hdue, fun o ho hdue => h.settled o (stood ho hdue) hdue, h.entries⟩
  · rw [List.map_append, List.map_singleton, List.nodup_append]
    refine ⟨h.nodup.sublist kept, List.nodup_singleton _, fun n hn m hm => ?_⟩
    rw [List.mem_singleton.mp hm]
    exact Nat.ne_of_lt (h.below n (kept.subset hn))
  · intro n hn
    rw [List.map_append, List.map_singleton] at hn
    rcases List.mem_append.mp hn with hn | hn
    · exact Nat.lt_succ_of_lt (h.below n (kept.subset hn))
    · exact List.mem_singleton.mp hn ▸ Nat.lt_succ_self _

section

variable {hd : HandOff}

/-- A rover's first reduction (R128, R160). -/
theorem Work.Lapsing.firstReduction (h : w.Lapsing now hd.occ due) (s : State) (other : ¬due hd.occ) :
    (firstReduction s hd w).Lapsing now (hd.occ + 1) due := by
  have settled := ((Work.Lapsing.join (r := hd.reducedRecord s) h other).settleEntry hd.occ).settleLoops s.driftCfg
  obtain ⟨terms, waiting⟩ := Work.placeDrift_termKeys s.driftCfg settled.nodup hd.occ
  exact settled.congr terms waiting

theorem Work.Late.firstReduction (h : w.Late now) (lapsing : w.Lapsing now hd.occ due) (s : State) (other : ¬due hd.occ)
    (late : now < hd.endTime + s.baseTerm.holdLimit * 1000) : (firstReduction s hd w).Late now := by
  have own : Work.Fresh now [hd.occ] { w with log := evict w.log ++ [hd.reducedRecord s] } := by
    intro r hr mem x hx _
    rcases List.mem_append.mp hr with hr | hr
    · have := lapsing.below _ (List.mem_map_of_mem ((evict_sublist _).subset hr))
      have := List.mem_singleton.mp mem
      omega
    · rw [List.mem_singleton.mp hr] at hx
      cases hx
      rw [firstTerm_expiry]
      exact late
  have entered := (Work.Late.settleEntry (w := { w with log := evict w.log ++ [hd.reducedRecord s] }) h own
    (List.mem_singleton.mpr rfl)).1.settleLoops s.driftCfg
  have settled := ((Work.Lapsing.join (r := hd.reducedRecord s) lapsing other).settleEntry hd.occ).settleLoops s.driftCfg
  intro e he
  exact entered e ((Work.placeDrift_termKeys s.driftCfg settled.nodup hd.occ).2 ▸ he)

/-- A hand-off of a reduced ending is taken (R155, R157). -/
theorem Work.Lapsing.handedOff (h : v.eng.work.Lapsing now hd.occ due) (other : ¬due hd.occ) :
    (v.handedOff hd).work.Lapsing now (hd.occ + 1) due := by
  unfold State.handedOff
  split
  · exact Work.Lapsing.join (r := hd.bareRecord .sealed v.eng.firstObs v.eng.lastObs) h other
  · refine (h.firstReduction v other).congr ?_ (by simp only [Engine.work])
    simp only [Engine.work]
    exact closeLog_termKeys _ _

theorem Work.Late.handedOff (h : v.eng.work.Late now) (lapsing : v.eng.work.Lapsing now hd.occ due) (other : ¬due hd.occ)
    (late : now < hd.endTime + v.baseTerm.holdLimit * 1000) : (v.handedOff hd).work.Late now := by
  unfold State.handedOff
  split
  · exact h
  · simp only [Work.Late, Engine.work]
    exact h.firstReduction lapsing v other late

end

end

end Sys2Proof.Machine
end

