-- ==== Sys2Proof/Proofs/StepDeliveries.lean ====
section
/-! PROOF. The three deliveries of a time step (R10, R49, R94, R131), each by the blocks that it changes and those that it reads. -/

namespace Sys2Proof.Machine

/-! ### At the controller (R49) -/

section

variable (v : State)

/-- Whether the step-wait expiry of an occupation in WAITING has been reached (R47, R49). -/
def State.stepReached : Bool := v.ctl.state = .waiting && v.ctl.stepWaitAt.any fun x => x ≤ v.tb.nodeTime

/-- Whether the settle expiry of an occupation in SETTLING has been reached (R41, R49). -/
def State.settleReached : Bool := v.ctl.state = .settling && v.ctl.settleAt.any fun x => x ≤ v.tb.nodeTime

/-- The occupation in progress marked (R49). -/
def State.suspected : State := v.setCtl v.ctl.suspect

/-- What the step-wait expiry hands off at a time step. -/
def State.stepHandOff : HandOff := v.suspected.endingHandOff (flagStepTimeout v.suspected.ctl.flags) v.tb.nodeTime

end

section

variable {v u : State}

theorem Controller.suspect_kept (c : Controller) : c.suspect.state = c.state ∧ c.suspect.stepWaitAt = c.stepWaitAt
    ∧ c.suspect.settleAt = c.settleAt ∧ c.suspect.active = c.active ∧ c.suspect.occNumber = c.occNumber := by
  unfold Controller.suspect
  split <;> exact ⟨rfl, rfl, rfl, rfl, rfl⟩

theorem State.stepAtController_eq (v : State) : v.stepAtController =
    if v.stepReached then v.suspected.stepTimeout else if v.settleReached then v.suspected.settle else v.suspected := by
  obtain ⟨state, stepWaitAt, settleAt, -⟩ := v.ctl.suspect_kept
  unfold State.stepAtController State.settleIfDue State.stepReached State.settleReached State.suspected
  simp only [State.setCtl_ctl, State.setCtl_tb, state, stepWaitAt, settleAt]
  rfl

/-- The engine after a time step at the controller. -/
theorem State.stepAtController_eng (v : State) :
    v.stepAtController.eng = if v.stepReached then { v.suspected.handedOff v.stepHandOff with gRef := none } else v.eng := by
  rw [State.stepAtController_eq]
  split
  · rw [State.stepTimeout, State.endOccupation_reduced]
    rfl
  · split <;> rfl

/-- The port after a time step at the controller. -/
theorem State.stepAtController_port (v : State) : v.stepAtController.port = if v.stepReached then
    (v.suspected.handOffNotices v.stepHandOff).foldl Port.offer
      (v.port.offer (v.suspected.occEnd none (flagStepTimeout v.suspected.ctl.flags) v.tb.nodeTime)) else v.port := by
  rw [State.stepAtController_eq]
  split
  · rw [State.stepTimeout, State.endOccupation_reduced]
    rfl
  · split <;> rfl

theorem State.stepAtController_link (v : State) : v.stepAtController.link = v.link ∧ v.stepAtController.peers = v.peers := by
  rw [State.stepAtController_eq]
  split
  · rw [State.stepTimeout, State.endOccupation_reduced]
    exact ⟨rfl, rfl⟩
  · split <;> exact ⟨rfl, rfl⟩

/-- The controller and the intake after a time step. -/
theorem State.stepAtController_ctl (v : State) :
    v.stepAtController.ctl = (if v.stepReached then v.suspected.idled
        else if v.settleReached then (v.suspected.opened (v.suspected.ctl.active.getD default).mode.continuation true).ctl
        else v.suspected.ctl)
      ∧ v.stepAtController.intake = (if v.stepReached then v.intake.closed
        else if v.settleReached then (v.suspected.opened (v.suspected.ctl.active.getD default).mode.continuation true).intake
        else v.intake) := by
  have mode : contModeOf (v.suspected.ctl.active.getD default) = (v.suspected.ctl.active.getD default).mode.continuation := by
    unfold contModeOf Mode.continuation
    cases (v.suspected.ctl.active.getD default).mode <;> rfl
  rw [State.stepAtController_eq]
  split
  · rw [State.stepTimeout, State.endOccupation_reduced]
    exact ⟨rfl, rfl⟩
  · split
    · unfold State.settle State.openIntake
      rw [mode]
      exact ⟨rfl, rfl⟩
    · exact ⟨rfl, rfl⟩

/-- What a time step at the controller reads for the controller and the intake. -/
theorem State.stepAtController_congr (ctl : u.ctl = v.ctl) (intake : u.intake = v.intake) (osc : u.osc = v.osc) (tb : u.tb = v.tb)
    (image : u.image = v.image) :
    u.stepAtController.ctl = v.stepAtController.ctl ∧ u.stepAtController.intake = v.stepAtController.intake := by
  have reached : u.stepReached = v.stepReached := by
    unfold State.stepReached
    rw [ctl, tb]
  have settle : u.settleReached = v.settleReached := by
    unfold State.settleReached
    rw [ctl, tb]
  have idled : u.suspected.idled = v.suspected.idled := by
    simp only [State.suspected, State.idled, State.setCtl_ctl, State.setCtl_osc, ctl, osc]
  have opened : ∀ m, (u.suspected.opened m true).ctl = (v.suspected.opened m true).ctl
      ∧ (u.suspected.opened m true).intake = (v.suspected.opened m true).intake := by
    intro m
    have sampling : u.suspected.sampling = v.suspected.sampling := by
      unfold State.sampling
      exact congrArg (fun i : Image => i.sampling.getD default) image
    unfold State.opened
    rw [sampling]
    simp only [State.suspected, State.setCtl_ctl, State.setCtl_osc, State.setCtl_intake, ctl, osc, intake]
    exact ⟨trivial, rfl⟩
  have active : u.suspected.ctl.active = v.suspected.ctl.active := by
    simp only [State.suspected, State.setCtl_ctl, ctl]
  rw [State.stepAtController_ctl u |>.1, State.stepAtController_ctl u |>.2, State.stepAtController_ctl v |>.1,
    State.stepAtController_ctl v |>.2, reached, settle, idled, active, (opened _).1, (opened _).2, intake]
  exact ⟨by simp only [State.suspected, State.setCtl_ctl, ctl], rfl⟩

theorem handedOff_congr {s t : State} (image : t.image = s.image) (peers : t.peers = s.peers) (eng : t.eng = s.eng) (h : HandOff) :
    t.handedOff h = s.handedOff h ∧ t.handOffNotices h = s.handOffNotices h := by
  have role : t.isBase = s.isBase := by
    unfold State.isBase State.identity
    rw [image]
  have handed : t.handedOff h = s.handedOff h := by
    unfold State.handedOff
    rw [role, eng, firstReduction_congr image peers]
  refine ⟨handed, ?_⟩
  unfold State.handOffNotices
  rw [role, eng, handed, firstReduction_congr image peers]

/-- What a time step at the controller reads for the engine and the port. -/
theorem State.stepAtController_engine (ctl : u.ctl = v.ctl) (tb : u.tb = v.tb) (image : u.image = v.image) (peers : u.peers = v.peers)
    (eng : u.eng = v.eng) (port : u.port = v.port) :
    u.stepAtController.eng = v.stepAtController.eng ∧ u.stepAtController.port = v.stepAtController.port := by
  have reached : u.stepReached = v.stepReached := by
    unfold State.stepReached
    rw [ctl, tb]
  have hand : u.stepHandOff = v.stepHandOff := by
    unfold State.stepHandOff State.endingHandOff State.suspected
    simp only [State.setCtl_ctl, ctl, tb]
  have occEnd : u.suspected.occEnd none (flagStepTimeout u.suspected.ctl.flags) u.tb.nodeTime
      = v.suspected.occEnd none (flagStepTimeout v.suspected.ctl.flags) v.tb.nodeTime := by
    unfold State.occEnd State.suspected
    simp only [State.setCtl_ctl, ctl, tb]
  obtain ⟨handed, notices⟩ := handedOff_congr (s := v.suspected) (t := u.suspected) image peers eng v.stepHandOff
  rw [State.stepAtController_eng, State.stepAtController_eng, State.stepAtController_port, State.stepAtController_port, reached, hand,
    handed, notices, eng, port, occEnd]
  exact ⟨rfl, rfl⟩

/-! ### At the engine (R131) -/

theorem State.stepAtEngine_frame (v : State) : ∃ e p, v.stepAtEngine = (v.setEng e).setPort p := by
  unfold State.stepAtEngine
  split
  · exact ⟨v.eng, v.port, rfl⟩
  · exact ⟨_, _, v.engineEvent_eq _⟩

/-- No entry has expired: nothing changes. -/
theorem State.stepAtEngine_calm (calm : v.eng.work.Late v.tb.nodeTime) : v.stepAtEngine = v := by
  have none_ : (v.eng.waiting.filter fun e => e.expiry ≤ v.tb.nodeTime) = [] :=
    List.filter_eq_nil_iff.mpr fun e he => by simpa using calm e he
  unfold State.stepAtEngine
  rw [none_]
  rfl

/-- Entries have expired: their expiries fall as one event. -/
theorem State.stepAtEngine_due (due : ∃ e ∈ v.eng.waiting, e.expiry ≤ v.tb.nodeTime) :
    v.stepAtEngine = v.expireEvent (v.eng.dueOccs fun e => e.expiry ≤ v.tb.nodeTime) := by
  have some_ : v.eng.dueOccs (fun e => e.expiry ≤ v.tb.nodeTime) ≠ [] := by
    obtain ⟨e, he, lapsed⟩ := due
    exact List.ne_nil_of_mem (List.mem_map_of_mem (List.mem_filter.mpr ⟨he, decide_eq_true lapsed⟩))
  unfold State.stepAtEngine
  split
  · rename_i none_
    exact absurd none_ some_
  · rfl

theorem expireOne_congr {s t : State} (selects : select t = select s) : expireOne t = expireOne s := by
  have one : reevaluate t = reevaluate s := by
    funext w n
    simp only [reevaluate, selects]
  funext w n
  simp only [expireOne, one]

/-- What a time step at the engine reads. -/
theorem State.stepAtEngine_congr (tb : u.tb = v.tb) (image : u.image = v.image) (peers : u.peers = v.peers) (eng : u.eng = v.eng)
    (port : u.port = v.port) : u.stepAtEngine.eng = v.stepAtEngine.eng ∧ u.stepAtEngine.port = v.stepAtEngine.port := by
  by_cases due : ∃ e ∈ v.eng.waiting, e.expiry ≤ v.tb.nodeTime
  · have expired : u.expiredEngine (fun e => e.expiry ≤ v.tb.nodeTime) = v.expiredEngine fun e => e.expiry ≤ v.tb.nodeTime := by
      simp only [State.expiredEngine, State.driftCfg, expireOne_congr (select_congr peers image), eng, image]
    have due' : ∃ e ∈ u.eng.waiting, e.expiry ≤ u.tb.nodeTime := by rwa [eng, tb]
    rw [State.stepAtEngine_due due, State.stepAtEngine_due due', State.expireEvent_eq, State.expireEvent_eq, tb, expired]
    simp only [State.setPort_eng, State.setEng_eng, State.setPort_port, State.driftCfg, expireOne_congr (select_congr peers image), eng,
      image, port, and_self]
  · have calm : v.eng.work.Late v.tb.nodeTime := fun e he => Nat.lt_of_not_le fun lapsed => due ⟨e, he, lapsed⟩
    have calm' : u.eng.work.Late u.tb.nodeTime := by rwa [eng, tb]
    rw [State.stepAtEngine_calm calm, State.stepAtEngine_calm calm', eng, port]
    exact ⟨rfl, rfl⟩

end

end Sys2Proof.Machine
end

