-- ==== Sys2Proof/Proofs/StepLink.lean ====
section
/-! PROOF. A time step at the link (R94): the slot that node time now lies in, and the cycle end when that is of another cycle. -/

namespace Sys2Proof.Machine

/-- The link after a time step to node time `now`, within the cycle in force or into another one (R77, R93, R94). -/
def PeerLink.stepped (l : PeerLink) (c : Schedule) (now osc : Nat) (stays : Bool) : PeerLink :=
  (if stays then l.abandonBurst
    else { l.abandonBurst with
      inq := [], closed := l.heldBack osc, rxMask := l.waitingMask.or l.rxMask, waitingMask := none }).joinSlot c now

/-- Whether node time lies in the cycle in force (R94). -/
def State.staysInCycle (v : State) : Bool := v.link.inForce.map Prod.fst = some (v.schedule.slotOf v.tb.nodeTime).1

section

variable {v u : State}

/-! ### What the cycle end reads -/

theorem foldInto_congr (records : List (Nat × PeerRecord)) (a b : PeerTable × Bool × Bool × List FoldChange) (peers : a.1 = b.1)
    (report : a.2.2.2 = b.2.2.2) :
    (records.foldl foldInto a).1 = (records.foldl foldInto b).1 ∧ (records.foldl foldInto a).2.2.2 = (records.foldl foldInto b).2.2.2 := by
  induction records generalizing a b with
  | nil => exact ⟨peers, report⟩
  | cons x records ih =>
    have first : (foldInto a x).1 = (foldInto b x).1 ∧ (foldInto a x).2.2.2 = (foldInto b x).2.2.2 := by
      unfold foldInto
      rw [peers]
      split
      · exact ⟨peers, report⟩
      · split
        · exact ⟨rfl, report⟩
        · exact ⟨rfl, by rw [report]⟩
    exact ih _ _ first.1 first.2

theorem State.cycleEnded_congr (peers : u.peers = v.peers) (inq : u.link.inq = v.link.inq) (image : u.image = v.image) :
    u.cycleEnded.1 = v.cycleEnded.1 ∧ u.cycleEnded.2.2.2 = v.cycleEnded.2.2.2 := by
  have baseTerm : u.baseTerm = v.baseTerm := by
    unfold State.baseTerm
    rw [image]
  unfold State.cycleEnded State.silenced
  rw [peers, inq, baseTerm]
  exact foldInto_congr _ _ _ rfl rfl

/-! ### The delivery -/

theorem State.stepAtLink_startup (h : v.node ≠ .running) : v.stepAtLink = v := if_neg h

theorem State.stepAtLink_stays (running : v.node = .running) (stays : v.staysInCycle = true) :
    v.stepAtLink = v.setLink (v.link.stepped v.schedule v.tb.nodeTime v.osc true) := by
  have same : (v.setLink v.link.abandonBurst).link.inForce.map Prod.fst
      = some ((v.setLink v.link.abandonBurst).schedule.slotOf (v.setLink v.link.abandonBurst).tb.nodeTime).1 := of_decide_eq_true stays
  unfold State.stepAtLink
  simp only [if_pos running, if_pos same]
  rfl

/-- The state that the cycle end of a time step meets. -/
def State.abandoned (v : State) : State := v.setLink v.link.abandonBurst

theorem State.stepAtLink_leaves (nodup : (v.peers.entries.map PeerEntry.id).Nodup) (running : v.node = .running)
    (leaves : v.staysInCycle = false) :
    v.stepAtLink = (v.abandoned.folded.foldEvent v.cycleEnded.2.2.2).setLink
      (v.link.stepped v.schedule v.tb.nodeTime v.osc false) := by
  have other : ¬((v.setLink v.link.abandonBurst).link.inForce.map Prod.fst
      = some ((v.setLink v.link.abandonBurst).schedule.slotOf (v.setLink v.link.abandonBurst).tb.nodeTime).1) := of_decide_eq_false leaves
  have started : v.stepAtLink = v.abandoned.cycleStart.setLink (v.abandoned.cycleStart.link.joinSlot v.abandoned.cycleStart.schedule
      v.abandoned.cycleStart.tb.nodeTime) := by
    unfold State.stepAtLink
    simp only [if_pos running, if_neg other, State.abandoned]
  have cycle := State.cycleStart_eq (s := v.abandoned) nodup
  have ended : v.abandoned.cycleEnded = v.cycleEnded := rfl
  obtain ⟨e, p, frame⟩ := v.abandoned.folded.foldEvent_frame v.cycleEnded.2.2.2
  rw [started, cycle, ended, frame]
  simp only [State.setLink_setLink, State.setLink_link, State.setLink_schedule', State.setPort_schedule', State.setEng_schedule',
    State.folded_schedule, State.setLink_tb, State.setPort_tb, State.setEng_tb]
  refine congrArg (State.setLink _) ?_
  simp only [State.abandoned, State.setLink_schedule', State.setLink_link, State.setLink_osc, PeerLink.stepped, Bool.false_eq_true, if_false]
  rfl

end

end Sys2Proof.Machine
end

