-- ==== Sys2Proof/Proofs/StepReads.lean ====
section
/-! PROOF. What has lapsed at a time step with a sound log (`Work.Lapsing`), and what the delivery to the link reads and changes. -/

namespace Sys2Proof.Machine

/-! ### What has lapsed, and the cycle in force -/

section

variable (v : State)

/-- The pending occupations whose terms have expired (R131, R134). -/
def State.lapsed (n : Nat) : Prop :=
  (∃ e ∈ v.eng.waiting, e.occ = n ∧ e.expiry ≤ v.tb.nodeTime)
    ∧ ∀ r ∈ v.eng.log, r.number = n → ∀ x ∈ r.values, x.term.expiry ≤ v.tb.nodeTime

/-- Above every occupation number in the log, once the occupation in progress may have been handed off (`c`) or before. -/
def State.numbersBelow (c : Bool) : Nat := if c ∨ v.ctl.state = .idle then v.ctl.occNumber + 1 else v.ctl.occNumber

/-- Whether the link stays within the cycle in force at a time step. -/
def State.stepStays : Bool := v.node = .startup || v.staysInCycle

end

section

variable {v u : State} {c : Bool}

theorem LogSound.lapsing (sound : LogSound v) : v.eng.work.Lapsing v.tb.nodeTime (v.numbersBelow false) v.lapsed := by
  obtain ⟨-, -, numbers, -, -, nodup, -⟩ := id sound
  refine ⟨sound.nodup, fun n hn => ?_, fun r hr lapsed => lapsed.2 r hr rfl, fun r _ lapsed x hx => ?_, fun e he lapsed => ?_⟩
  · obtain ⟨r, hr, rfl⟩ := List.mem_map.mp hn
    have bound := numbers r hr
    unfold State.numbersBelow
    by_cases idle : v.ctl.state = .idle
    · rw [if_pos idle] at bound
      rw [if_pos (.inr idle)]
      exact Nat.lt_succ_of_le bound
    · rw [if_neg idle] at bound
      rw [if_neg (by simpa using idle)]
      exact bound
  · obtain ⟨⟨e, he, occ, -⟩, -⟩ := lapsed
    exact .inr ⟨e, he, occ⟩
  · obtain ⟨⟨e', he', occ, lapsed⟩, -⟩ := lapsed
    rwa [← List.inj_on_of_nodup_map nodup he' he occ]

theorem LogSound.occupation_not_lapsed (sound : LogSound v) (busy : v.ctl.state ≠ .idle) : ¬v.lapsed v.ctl.occNumber := by
  rintro ⟨⟨e, he, occ, -⟩, -⟩
  obtain ⟨r, hr, number, -⟩ := sound.2.2.2.2.2.2 e he
  have := sound.occupation_fresh busy r hr
  omega

theorem Work.Lapsing.mono {now top top' : Nat} {due : Nat → Prop} {w : Work} (h : w.Lapsing now top due) (le : top ≤ top') :
    w.Lapsing now top' due :=
  ⟨h.nodup, fun n hn => Nat.lt_of_lt_of_le (h.below n hn) le, h.expiry, h.settled, h.entries⟩

theorem State.busy_of_stepReached (h : v.stepReached = true) : v.ctl.state ≠ .idle := by
  intro idle
  simp [State.stepReached, idle] at h

theorem State.waits_of_settleReached {v : State} (h : v.settleReached = true) : v.stepReached = false := by
  have settling : v.ctl.state = .settling := by
    simp only [State.settleReached, Bool.and_eq_true, decide_eq_true_eq] at h
    exact h.1
  simp [State.stepReached, settling]

theorem State.numbersBelow_le (v : State) : v.numbersBelow c ≤ v.numbersBelow true := by
  unfold State.numbersBelow
  split <;> simp

/-! ### What a time step at the link reads and changes -/

theorem State.stepStays_congr (node : u.node = v.node) (link : u.link = v.link) (tb : u.tb = v.tb) (image : u.image = v.image) :
    u.stepStays = v.stepStays ∧ u.staysInCycle = v.staysInCycle := by
  have schedule : u.schedule = v.schedule := by
    unfold State.schedule
    rw [image]
  have cycle : u.staysInCycle = v.staysInCycle := by
    unfold State.staysInCycle
    rw [link, tb, schedule]
  exact ⟨by unfold State.stepStays; rw [node, cycle], cycle⟩

theorem State.stepAtLink_keeps (stays : v.stepStays = true) :
    v.stepAtLink.eng = v.eng ∧ v.stepAtLink.port = v.port ∧ v.stepAtLink.peers = v.peers := by
  by_cases running : v.node = .running
  · have cycle : v.staysInCycle = true := by simpa [State.stepStays, running] using stays
    rw [State.stepAtLink_stays running cycle]
    exact ⟨rfl, rfl, rfl⟩
  · rw [State.stepAtLink_startup running]
    exact ⟨rfl, rfl, rfl⟩

theorem State.stepAtLink_peers (nodup : (v.peers.entries.map PeerEntry.id).Nodup) (running : v.node = .running) :
    v.stepAtLink.link = v.link.stepped v.schedule v.tb.nodeTime v.osc v.staysInCycle
      ∧ v.stepAtLink.peers = if v.staysInCycle then v.peers else v.cycleEnded.1 := by
  cases stays : v.staysInCycle with
  | true =>
    rw [State.stepAtLink_stays running stays]
    exact ⟨rfl, rfl⟩
  | false =>
    obtain ⟨e, p, frame⟩ := v.abandoned.folded.foldEvent_frame v.cycleEnded.2.2.2
    rw [State.stepAtLink_leaves nodup running stays, frame]
    exact ⟨rfl, rfl⟩

/-- What a time step at the link reads for the link and the peer table. -/
theorem State.stepAtLink_congr (nodup : (v.peers.entries.map PeerEntry.id).Nodup) (node : u.node = v.node) (link : u.link = v.link)
    (peers : u.peers = v.peers) (tb : u.tb = v.tb) (image : u.image = v.image) (osc : u.osc = v.osc) :
    u.stepAtLink.link = v.stepAtLink.link ∧ u.stepAtLink.peers = v.stepAtLink.peers := by
  by_cases running : v.node = .running
  · have schedule : u.schedule = v.schedule := by
      unfold State.schedule
      rw [image]
    obtain ⟨link_u, peers_u⟩ := State.stepAtLink_peers (v := u) (by rwa [peers]) (node.trans running)
    obtain ⟨link_v, peers_v⟩ := State.stepAtLink_peers nodup running
    rw [link_u, peers_u, link_v, peers_v, (State.stepStays_congr node link tb image).2, link, peers, tb, schedule, osc,
      (State.cycleEnded_congr peers (by rw [link]) image).1]
    exact ⟨rfl, rfl⟩
  · rw [State.stepAtLink_startup running, State.stepAtLink_startup (v := u) (by rwa [node])]
    exact ⟨link, peers⟩

/-- The engine after a time step at the link: the cycle end's event, in another cycle alone. -/
theorem State.stepAtLink_eng (nodup : (v.peers.entries.map PeerEntry.id).Nodup) :
    v.stepAtLink.eng = v.eng ∨ v.stepAtLink.eng = (v.abandoned.folded.foldEvent v.cycleEnded.2.2.2).eng := by
  by_cases stays : v.stepStays = true
  · exact .inl (State.stepAtLink_keeps stays).1
  · by_cases running : v.node = .running
    · have leaves : v.staysInCycle = false := by simpa [State.stepStays, running] using stays
      exact .inr (by rw [State.stepAtLink_leaves nodup running leaves, State.setLink_eng])
    · rw [State.stepAtLink_startup running]
      exact .inl rfl

/-- A cycle end whose fold report lists nothing leaves the engine (R114). -/
theorem State.foldEvent_still (sound : LogSound v) (formed : RecordsFormed v) (drift : DriftSound v) (eng : u.eng = v.eng) :
    (u.foldEvent []).eng = v.eng := by
  obtain ⟨work, log⟩ := State.event_still sound.nodup formed drift u.driftCfg
  have taken : (Machine.takeReport u [] u.eng.work).settleLoops u.driftCfg = v.eng.work := by
    rw [eng]
    exact work
  unfold State.foldEvent
  rw [State.engineEvent_eq, taken, eng]
  simp only [State.setPort_eng, State.setEng_eng, Engine.work, log]

end

end Sys2Proof.Machine
end

