-- ==== Sys2Proof/Proofs/StepStages.lean ====
section
/-! PROOF. The deliveries of a time step in any order (R10, log entry 3): what stands once some of the three have been made
(`State.Stage`), and that each takes it on. -/

namespace Sys2Proof.Machine

/-- What stands after the deliveries of a time step at `v` to the controller (`c`), the engine (`e`) and the link (`l`), each made or
not. -/
structure State.Stage (v u : State) (c e l : Bool) : Prop where
  within : v.Within u
  ctl : u.ctl = (if c then v.stepAtController else v).ctl ∧ u.intake = (if c then v.stepAtController else v).intake
  link : u.link = (if l then v.stepAtLink else v).link ∧ u.peers = (if l then v.stepAtLink else v).peers
  lapsing : u.eng.work.Lapsing v.tb.nodeTime (v.numbersBelow c) v.lapsed
  late : e = true ∨ v.eng.work.Late v.tb.nodeTime → u.eng.work.Late v.tb.nodeTime
  expired : v.stepReached = false → v.stepStays = true →
    u.eng = (if e then v.stepAtEngine else v).eng ∧ u.port = (if e then v.stepAtEngine else v).port
  ended : v.eng.work.Late v.tb.nodeTime → v.stepStays = true →
    u.eng = (if c then v.stepAtController else v).eng ∧ u.port = (if c then v.stepAtController else v).port
  still : v.stepReached = false → v.eng.work.Late v.tb.nodeTime → v.cycleEnded.2.2.2 = [] → RecordsFormed v → DriftSound v →
    u.eng = v.eng

namespace State.Stage

section

variable {v u : State} {c e l : Bool}

theorem start (sound : LogSound v) : v.Stage v false false false where
  within := .refl v
  ctl := ⟨rfl, rfl⟩
  link := ⟨rfl, rfl⟩
  lapsing := sound.lapsing
  late h := h.resolve_left Bool.false_ne_true
  expired _ _ := ⟨rfl, rfl⟩
  ended _ _ := ⟨rfl, rfl⟩
  still _ _ _ _ _ := rfl

/-- The controller is as it was until the delivery to it. -/
theorem atController (h : v.Stage u false e l) : u.ctl = v.ctl ∧ u.intake = v.intake ∧ u.stepReached = v.stepReached := by
  obtain ⟨ctl, intake⟩ := h.ctl
  simp only [Bool.false_eq_true, if_false] at ctl intake
  refine ⟨ctl, intake, ?_⟩
  unfold State.stepReached
  rw [ctl, h.within.tb]

/-- The peer table is as it was until the delivery to the link, and in the cycle in force after it too. -/
theorem peers (h : v.Stage u c e l) (stays : v.stepStays = true) : u.peers = v.peers := by
  have kept := (State.stepAtLink_keeps stays).2.2
  have link := h.link.2
  cases l
  · exact link
  · exact link.trans kept

theorem baseTerm (h : v.Stage u c e l) : u.baseTerm = v.baseTerm := by
  unfold State.baseTerm
  rw [h.within.image]

/-- The hand-off of the step-wait expiry. -/
theorem handsOff (h : v.Stage u false e l) (sound : LogSound v) (reached : u.stepReached = true) :
    v.numbersBelow false = u.stepHandOff.occ ∧ v.numbersBelow true = u.stepHandOff.occ + 1 ∧ ¬v.lapsed u.stepHandOff.occ := by
  obtain ⟨ctl, -, same⟩ := h.atController
  have busy := State.busy_of_stepReached (same ▸ reached)
  have occ : u.stepHandOff.occ = v.ctl.occNumber := by
    rw [← ctl]
    exact u.ctl.suspect_kept.2.2.2.2
  rw [occ]
  exact ⟨if_neg (by simpa using busy), if_pos (.inl rfl), sound.occupation_not_lapsed busy⟩

theorem controller_lapsing (h : v.Stage u false e l) (sound : LogSound v) :
    u.stepAtController.eng.work.Lapsing v.tb.nodeTime (v.numbersBelow true) v.lapsed := by
  have lapsing := h.lapsing
  rw [State.stepAtController_eng]
  split
  · rename_i reached
    obtain ⟨before, after, other⟩ := h.handsOff sound reached
    rw [before] at lapsing
    rw [after]
    exact Work.Lapsing.handedOff (v := u.suspected) lapsing other
  · exact lapsing.mono v.numbersBelow_le

theorem controller_late (h : v.Stage u false e l) (sound : LogSound v) (limit : 0 < v.baseTerm.holdLimit)
    (late : u.eng.work.Late v.tb.nodeTime) : u.stepAtController.eng.work.Late v.tb.nodeTime := by
  have lapsing := h.lapsing
  rw [State.stepAtController_eng]
  split
  · rename_i reached
    obtain ⟨before, -, other⟩ := h.handsOff sound reached
    rw [before] at lapsing
    have base : u.suspected.baseTerm = v.baseTerm := h.baseTerm
    have end_ : u.stepHandOff.endTime = v.tb.nodeTime := congrArg TimeBase.nodeTime h.within.tb
    refine Work.Late.handedOff (v := u.suspected) late lapsing other ?_
    rw [end_, base]
    omega
  · exact late

/-- The delivery to the controller (R49). -/
theorem controller (h : v.Stage u false e l) (sound : LogSound v) (limit : 0 < v.baseTerm.holdLimit) :
    v.Stage u.stepAtController true e l := by
  obtain ⟨ctl, intake, reached⟩ := h.atController
  have within := h.within
  refine ⟨within.trans (.stepAtController u), State.stepAtController_congr ctl intake within.osc within.tb within.image, ?_,
    h.controller_lapsing sound, fun late => h.controller_late sound limit (h.late late), fun waits stays => ?_, fun calm stays => ?_,
    fun waits calm none formed drift => ?_⟩
  · rw [u.stepAtController_link.1, u.stepAtController_link.2]
    exact h.link
  · rw [State.stepAtController_eng, State.stepAtController_port, reached, waits]
    exact h.expired waits stays
  · obtain ⟨eng, port⟩ := h.ended calm stays
    exact State.stepAtController_engine ctl within.tb within.image (h.peers stays) eng port
  · rw [State.stepAtController_eng, reached, waits]
    exact h.still waits calm none formed drift

/-- The delivery to the engine (R131). -/
theorem engine (h : v.Stage u c false l) : v.Stage u.stepAtEngine c true l := by
  have within := h.within
  have now : u.tb.nodeTime = v.tb.nodeTime := by rw [within.tb]
  have lapsing := h.lapsing
  rw [← now] at lapsing
  obtain ⟨lapsing, late⟩ := lapsing.stepAtEngine
  rw [now] at lapsing late
  have calmly : v.eng.work.Late v.tb.nodeTime → u.stepAtEngine = u := fun calm => by
    have calm := h.late (.inr calm)
    rw [← now] at calm
    exact State.stepAtEngine_calm calm
  obtain ⟨e, p, frame⟩ := u.stepAtEngine_frame
  refine ⟨within.trans (.stepAtEngine u), ?_, ?_, lapsing, fun _ => late, fun waits stays => ?_, fun calm stays => ?_,
    fun waits calm none formed drift => ?_⟩
  · rw [frame]
    exact h.ctl
  · rw [frame]
    exact h.link
  · obtain ⟨eng, port⟩ := h.expired waits stays
    exact State.stepAtEngine_congr within.tb within.image (h.peers stays) eng port
  · rw [calmly calm]
    exact h.ended calm stays
  · rw [calmly calm]
    exact h.still waits calm none formed drift

theorem link_lapsing (h : v.Stage u c e false) (nodup : (u.peers.entries.map PeerEntry.id).Nodup) :
    u.stepAtLink.eng.work.Lapsing v.tb.nodeTime (v.numbersBelow c) v.lapsed
      ∧ (u.eng.work.Late v.tb.nodeTime → u.stepAtLink.eng.work.Late v.tb.nodeTime) := by
  have now : u.abandoned.folded.tb.nodeTime = v.tb.nodeTime := congrArg TimeBase.nodeTime h.within.tb
  have lapsing : u.abandoned.folded.eng.work.Lapsing v.tb.nodeTime (v.numbersBelow c) v.lapsed := h.lapsing
  rcases State.stepAtLink_eng nodup with eng | eng
  · rw [eng]
    exact ⟨h.lapsing, id⟩
  · rw [eng, ← now]
    rw [← now] at lapsing
    exact ⟨lapsing.foldEvent _, fun late => Work.Late.foldEvent (v := u.abandoned.folded) late lapsing _⟩

/-- The delivery to the link (R94). -/
theorem atLink (h : v.Stage u c e false) (sound : LogSound v) (nodup : (v.peers.entries.map PeerEntry.id).Nodup) :
    v.Stage u.stepAtLink c e true := by
  have within := h.within
  obtain ⟨link, peers⟩ : u.link = v.link ∧ u.peers = v.peers := h.link
  have nodup' : (u.peers.entries.map PeerEntry.id).Nodup := by rwa [peers]
  obtain ⟨lapsing, late⟩ := h.link_lapsing nodup'
  have cycle := (State.stepStays_congr within.node link within.tb within.image).1
  have kept : v.stepStays = true → u.stepAtLink.eng = u.eng ∧ u.stepAtLink.port = u.port := fun stays =>
    ⟨(State.stepAtLink_keeps (cycle.trans stays)).1, (State.stepAtLink_keeps (cycle.trans stays)).2.1⟩
  obtain ⟨l', t', e', p', frame⟩ := u.stepAtLink_frame
  refine ⟨within.trans (.stepAtLink u), ?_, State.stepAtLink_congr nodup within.node link peers within.tb within.image within.osc, lapsing,
    fun before => late (h.late before), fun waits stays => ?_, fun calm stays => ?_, fun waits calm none formed drift => ?_⟩
  · rw [frame]
    exact h.ctl
  · rw [(kept stays).1, (kept stays).2]
    exact h.expired waits stays
  · rw [(kept stays).1, (kept stays).2]
    exact h.ended calm stays
  · have still := h.still waits calm none formed drift
    rcases State.stepAtLink_eng nodup' with eng | eng
    · exact eng.trans still
    · rw [eng, (State.cycleEnded_congr peers (by rw [link]) within.image).2, none]
      exact State.foldEvent_still sound formed drift still

end

end State.Stage

end Sys2Proof.Machine
end

