-- ==== Sys2Proof/Proofs/TimeSteps.lean ====
section
/-! PROOF. A re-lock beyond 50 ms up to its deliveries (R6, R10, R13), and what they leave of each block, whatever their order. -/

namespace Sys2Proof.Machine

/-! ### The deliveries in their free order (log entry 3) -/

/-- The arrangements of three events. -/
theorem perm_three {α : Type} {l : List α} {a b c : α} (h : l.Perm [a, b, c]) :
    l = [a, b, c] ∨ l = [b, a, c] ∨ l = [b, c, a] ∨ l = [a, c, b] ∨ l = [c, a, b] ∨ l = [c, b, a] := by
  simpa [List.permutations', List.permutations'Aux, or_assoc] using List.mem_permutations'.mpr h

theorem State.deliverStep_stage {s : State} (sound : LogSound s) (nodup : (s.peers.entries.map PeerEntry.id).Nodup)
    (limit : 0 < s.baseTerm.holdLimit) : s.drawn.Stage s.deliverStep true true true := by
  have sound : LogSound s.drawn := sound
  have nodup : (s.drawn.peers.entries.map PeerEntry.id).Nodup := nodup
  have start := State.Stage.start sound
  unfold State.deliverStep
  rcases perm_three (s.inFreeOrder_perm [State.stepAtController, State.stepAtEngine, State.stepAtLink]) with
    order | order | order | order | order | order
  all_goals rw [order]
  · exact ((start.controller sound limit).engine).atLink sound nodup
  · exact ((start.engine).controller sound limit).atLink sound nodup
  · exact ((start.engine).atLink sound nodup).controller sound limit
  · exact ((start.controller sound limit).atLink sound nodup).engine
  · exact ((start.atLink sound nodup).controller sound limit).engine
  · exact ((start.atLink sound nodup).engine).controller sound limit

/-! ### Up to the deliveries (R6, R11, R13) -/

section

variable (s : State) (a : ArmedRecord)

/-- The time base after a re-lock beyond 50 ms (R6, R13). -/
def State.relockedTb : TimeBase :=
  { s.tb with
    state := .locked, armed := none, lastPulse := some { second := a.second, time := a.gnss.toNat }
    slew := none, nodeTime := a.gnss.toNat
    nextBoundary := s.tb.nextBoundary.map fun _ => (a.gnss.toNat / s.schedule.slotLength + 1) * s.schedule.slotLength }

/-- The port with the notice of a re-lock beyond 50 ms (R11). -/
def State.relockedPort : Port :=
  s.port.offer (.timeState s.tb.state .locked a.gnss.toNat (a.gnss - s.tb.nodeTime))

/-- The state that the deliveries of a re-lock's time step meet; a departure from LOST has marked the controller (R49). -/
def State.stepMet (c : Controller) : State := { s with tb := s.relockedTb a, ctl := c, port := s.relockedPort a }

/-- The controller with the occupation in progress marked, as the statements write it. -/
def State.suspectedCtl : Controller :=
  if s.ctl.state = OccState.idle then s.ctl else { s.ctl with flags := { s.ctl.flags with timeSuspect := true } }

end

section

variable {s t : State} {a : ArmedRecord} {c : Controller}

theorem State.relock_delivers (state : s.tb.state = .holdover ∨ s.tb.state = .lost) (held : s.tb.held = false)
    (armed : s.tb.armed = some a) (low : 0 ≤ a.gnss) (high : a.gnss ≤ 86399999000) (far : 50 < (a.gnss - s.tb.nodeTime).natAbs) :
    ∃ c, (c = s.ctl ∨ c = s.suspectedCtl) ∧ s.takePulse = (s.stepMet a c).deliverStep := by
  have relock : s.takePulse = ((s.disarmed.setToPulse a).retimeBoundary.changeTb .locked (a.gnss - s.tb.nodeTime)).deliverStep := by
    rw [State.takePulse_armed held armed, State.pulseWith_relock (s := s.disarmed) state (ArmedRecord.fits_of low high)]
    exact State.relock_step (s := s.disarmed) far
  rcases state with state | state
  · refine ⟨s.ctl, .inl rfl, ?_⟩
    rw [relock, State.changeTb_plain (by simp) (by simp [State.retimeBoundary, State.setToPulse, State.disarmed, state])]
    rfl
  · refine ⟨s.suspectedCtl, .inr rfl, ?_⟩
    rw [relock, State.changeTb_suspect (by simp) (by simp [State.retimeBoundary, State.setToPulse, State.disarmed, state])]
    rfl

/-- The controller that the deliveries meet is marked or not. -/
theorem State.met_ctl (met : c = s.ctl ∨ c = s.suspectedCtl) : c.suspect = s.suspectedCtl ∧ c.state = s.ctl.state
    ∧ c.stepWaitAt = s.ctl.stepWaitAt ∧ c.settleAt = s.ctl.settleAt ∧ c.active = s.ctl.active ∧ c.occNumber = s.ctl.occNumber
    ∧ c.inForce = s.ctl.inForce := by
  rcases met with rfl | rfl
  · exact ⟨rfl, rfl, rfl, rfl, rfl, rfl, rfl⟩
  · unfold State.suspectedCtl Controller.suspect
    by_cases idle : s.ctl.state = .idle
    · simp only [if_pos idle, and_self]
    · simp only [if_neg idle, and_self]

theorem State.stepMet_sound (met : c = s.ctl ∨ c = s.suspectedCtl) (sound : LogSound s) : LogSound (s.stepMet a c) := by
  obtain ⟨-, state, -, -, -, occNumber, inForce⟩ := State.met_ctl met
  unfold LogSound State.stepMet
  simp only [state, occNumber, inForce]
  exact sound

theorem State.stepMet_driftSound (met : c = s.ctl ∨ c = s.suspectedCtl) (drift : DriftSound s) : DriftSound (s.stepMet a c) := by
  obtain ⟨-, state, -, -, -, occNumber, -⟩ := State.met_ctl met
  unfold DriftSound State.stepMet
  simp only [state, occNumber]
  exact drift

theorem State.stepMet_stepReached (met : c = s.ctl ∨ c = s.suspectedCtl) : (s.stepMet a c).drawn.stepReached
    = (s.ctl.state = .waiting && s.ctl.stepWaitAt.any fun x => x ≤ a.gnss.toNat) := by
  obtain ⟨-, state, stepWaitAt, -⟩ := State.met_ctl met
  rw [← state, ← stepWaitAt]
  rfl

theorem State.stepMet_settleReached (met : c = s.ctl ∨ c = s.suspectedCtl) : (s.stepMet a c).drawn.settleReached
    = (s.ctl.state = .settling && s.ctl.settleAt.any fun x => x ≤ a.gnss.toNat) := by
  obtain ⟨-, state, -, settleAt, -⟩ := State.met_ctl met
  rw [← state, ← settleAt]
  rfl

theorem State.stepMet_suspected (met : c = s.ctl ∨ c = s.suspectedCtl) :
    (s.stepMet a c).drawn.suspected = (s.stepMet a s.suspectedCtl).drawn := by
  rw [← (State.met_ctl met).1]
  rfl

theorem State.stepMet_cycleEnded : (s.stepMet a c).drawn.cycleEnded.1 = s.cycleEnded.1
    ∧ (s.stepMet a c).drawn.cycleEnded.2.2.2 = s.cycleEnded.2.2.2 := State.cycleEnded_congr rfl rfl rfl

/-- A state by the blocks that stay and those that do not. -/
theorem State.Within.eq_of {u : State} (h : s.Within u) {i : Intake} {c : Controller} {e : Engine} {l : PeerLink} {t : PeerTable}
    {p : Port} (intake : u.intake = i) (ctl : u.ctl = c) (eng : u.eng = e) (link : u.link = l) (peers : u.peers = t)
    (port : u.port = p) : u = { s with intake := i, ctl := c, eng := e, link := l, peers := t, port := p } := by
  obtain ⟨osc, free, node, image, period, tb, pending, -, -⟩ := h
  obtain ⟨⟩ := u
  simp only at osc free node image period tb pending intake ctl eng link peers port
  simp only [osc, free, node, image, period, tb, pending, intake, ctl, eng, link, peers, port]

end

end Sys2Proof.Machine
end

