-- ==== Sys2Proof/Proofs/RelockSteps.lean ====
section
/-! PROOF. O10: what a time step leaves of each block once all three deliveries are made. -/

namespace Sys2Proof.Machine

section

variable {s t : State} {a : ArmedRecord} {c : Controller} (met : c = s.ctl ∨ c = s.suspectedCtl)
  (h : (s.stepMet a c).drawn.Stage t true true true)

/-! ### The link and the peer table (R94) -/

include h

theorem State.Stage.stepped_link (running : s.node = .running) (nodup : (s.peers.entries.map PeerEntry.id).Nodup) :
    t.link = s.link.stepped s.schedule a.gnss.toNat s.osc (s.stepMet a c).drawn.staysInCycle
      ∧ t.peers = if (s.stepMet a c).drawn.staysInCycle then s.peers else s.cycleEnded.1 := by
  obtain ⟨link, peers⟩ := State.stepAtLink_peers (v := (s.stepMet a c).drawn) nodup running
  rw [State.stepMet_cycleEnded.1] at peers
  exact ⟨h.link.1.trans link, h.link.2.trans peers⟩

/-! ### The engine and the port (R49, R131) -/

/-- No entry has expired, within the cycle in force. -/
theorem State.Stage.stepped_calm (waits : (s.stepMet a c).drawn.stepReached = false) (calm : s.eng.work.Late a.gnss.toNat)
    (stays : (s.stepMet a c).drawn.stepStays = true) : t.eng = s.eng ∧ t.port = s.relockedPort a := by
  obtain ⟨eng, port⟩ := h.expired waits stays
  have calm : (s.stepMet a c).drawn.stepAtEngine = (s.stepMet a c).drawn := State.stepAtEngine_calm calm
  rw [if_pos rfl, calm] at eng port
  exact ⟨eng, port⟩

/-- Entries have expired, within the cycle in force. -/
theorem State.Stage.stepped_expired (waits : (s.stepMet a c).drawn.stepReached = false)
    (due : ∃ e ∈ s.eng.waiting, e.expiry ≤ a.gnss.toNat) (stays : (s.stepMet a c).drawn.stepStays = true) :
    t.eng = s.expiredEngine (fun e => e.expiry ≤ a.gnss.toNat)
      ∧ t.port = (loopNotices s.eng.work (((s.eng.dueOccs fun e => e.expiry ≤ a.gnss.toNat).foldl (expireOne s)
          s.eng.work).settleLoops s.driftCfg) ++ resultNotices s.eng.log t.eng.log).foldl Port.offer (s.relockedPort a) := by
  obtain ⟨eng, port⟩ := h.expired waits stays
  have event := State.stepAtEngine_due (v := (s.stepMet a c).drawn) due
  have one : expireOne (s.stepMet a c).drawn = expireOne s := expireOne_congr (select_congr rfl rfl)
  have engine : (s.stepMet a c).drawn.expiredEngine (fun e => e.expiry ≤ a.gnss.toNat)
      = s.expiredEngine fun e => e.expiry ≤ a.gnss.toNat := by
    simp only [State.expiredEngine, one]
    rfl
  rw [if_pos rfl, event, State.expireEvent_eq] at eng port
  rw [State.setPort_port] at port
  have eng : t.eng = s.expiredEngine fun e => e.expiry ≤ a.gnss.toNat := eng.trans engine
  refine ⟨eng, ?_⟩
  rw [eng, ← engine, ← one]
  exact port

/-- No pending entry whose expiry has passed is left (R131). -/
theorem State.Stage.stepped_late : t.eng.work.Late a.gnss.toNat := h.late (.inl rfl)

/-- What has lapsed is final (R131, R134). -/
theorem State.Stage.stepped_lapsed (sound : LogSound s) {e : PendingEntry} (he : e ∈ s.eng.waiting) (expired : e.expiry ≤ a.gnss.toNat)
    {r : Record} (hr : r ∈ s.eng.log) (number : r.number = e.occ) (terms : ∀ x ∈ r.values, x.term.expiry ≤ a.gnss.toNat) :
    ∀ r' ∈ t.eng.log, r'.number = e.occ → ∀ x' ∈ r'.values, x'.term.final = true := by
  have lapsed : (s.stepMet a c).drawn.lapsed e.occ := by
    refine ⟨⟨e, he, rfl, expired⟩, fun o ho same => ?_⟩
    rw [eq_of_number sound.nodup ho hr (same.trans number.symm)]
    exact terms
  intro r' hr' same x' hx'
  rw [← same] at lapsed
  refine (h.lapsing.settled r' hr' lapsed x' hx').resolve_right fun ⟨e', he', occ⟩ => ?_
  exact Nat.not_lt_of_le (h.lapsing.entries e' he' (occ ▸ lapsed)) (h.stepped_late e' he')

/-! ### The controller and the intake (R49) -/

include met

theorem State.Stage.stepped_idled (reached : (s.stepMet a c).drawn.stepReached = true) :
    t.ctl = (s.stepMet a s.suspectedCtl).idled ∧ t.intake = s.intake.closed := by
  obtain ⟨ctl, intake⟩ := State.stepAtController_ctl (s.stepMet a c).drawn
  rw [if_pos reached, State.stepMet_suspected met] at ctl
  rw [if_pos reached] at intake
  exact ⟨h.ctl.1.trans ctl, h.ctl.2.trans intake⟩

theorem State.Stage.stepped_opened (waits : (s.stepMet a c).drawn.stepReached = false)
    (settles : (s.stepMet a c).drawn.settleReached = true) :
    t.ctl = ((s.stepMet a s.suspectedCtl).opened (s.ctl.active.getD default).mode.continuation true).ctl
      ∧ t.intake = ((s.stepMet a s.suspectedCtl).opened (s.ctl.active.getD default).mode.continuation true).intake := by
  obtain ⟨ctl, intake⟩ := State.stepAtController_ctl (s.stepMet a c).drawn
  have active : (s.stepMet a s.suspectedCtl).drawn.ctl.active = s.ctl.active := (State.met_ctl (.inr rfl)).2.2.2.2.1
  rw [waits, settles, State.stepMet_suspected met, active] at ctl intake
  exact ⟨h.ctl.1.trans ctl, h.ctl.2.trans intake⟩

theorem State.Stage.stepped_marked (waits : (s.stepMet a c).drawn.stepReached = false)
    (settles : (s.stepMet a c).drawn.settleReached = false) : t.ctl = s.suspectedCtl ∧ t.intake = s.intake := by
  obtain ⟨ctl, intake⟩ := State.stepAtController_ctl (s.stepMet a c).drawn
  rw [waits, settles, State.stepMet_suspected met] at ctl
  rw [waits, settles] at intake
  exact ⟨h.ctl.1.trans ctl, h.ctl.2.trans intake⟩

/-- An occupation in progress is marked or has ended. -/
theorem State.Stage.stepped_suspect (busy : s.ctl.state ≠ .idle) : t.ctl.state = .idle ∨ t.ctl.flags.timeSuspect = true := by
  have marked : s.suspectedCtl.flags.timeSuspect = true := by
    unfold State.suspectedCtl
    rw [if_neg busy]
  cases reached : (s.stepMet a c).drawn.stepReached with
  | true => exact .inl (by rw [(h.stepped_idled met reached).1]; rfl)
  | false =>
    refine .inr ?_
    cases settles : (s.stepMet a c).drawn.settleReached with
    | true =>
      rw [(h.stepped_opened met reached settles).1]
      exact marked
    | false =>
      rw [(h.stepped_marked met reached settles).1]
      exact marked

/-- No entry has expired, and the fold report of a cycle end lists nothing. -/
theorem State.Stage.stepped_still (waits : (s.stepMet a c).drawn.stepReached = false) (calm : s.eng.work.Late a.gnss.toNat)
    (none : s.cycleEnded.2.2.2 = []) (formed : RecordsFormed s) (drift : DriftSound s) : t.eng = s.eng := by
  have drift : DriftSound (s.stepMet a c) := State.stepMet_driftSound met drift
  exact h.still waits calm (State.stepMet_cycleEnded.2.trans none) formed drift

/-- The step-wait expiry reached and no entry expired, within the cycle in force: a reduced ending. -/
theorem State.Stage.stepped_ended (reached : (s.stepMet a c).drawn.stepReached = true) (calm : s.eng.work.Late a.gnss.toNat)
    (stays : (s.stepMet a c).drawn.stepStays = true) :
    t = State.endOccupation { s.stepMet a s.suspectedCtl with link := t.link, free := t.free } none flagStepTimeout a.gnss.toNat := by
  obtain ⟨eng, port⟩ := h.ended calm stays
  obtain ⟨ctl, intake⟩ := h.stepped_idled met reached
  have free : t.free = s.free + 1 := h.within.free
  have suspected := State.stepMet_suspected (a := a) met
  rw [if_pos rfl, State.stepAtController_eng, if_pos reached, State.stepHandOff, suspected] at eng
  rw [if_pos rfl, State.stepAtController_port, if_pos reached, State.stepHandOff, suspected] at port
  obtain ⟨handed, notices⟩ := handedOff_congr (s := (s.stepMet a s.suspectedCtl).drawn)
    (t := { s.stepMet a s.suspectedCtl with link := t.link, free := t.free }) rfl rfl rfl
    ((s.stepMet a s.suspectedCtl).drawn.endingHandOff (flagStepTimeout s.suspectedCtl.flags) a.gnss.toNat)
  have eng := eng.trans (congrArg (fun e : Engine => { e with gRef := none }) handed.symm)
  have port := port.trans (congrArg (List.foldl Port.offer _) notices.symm)
  rw [State.endOccupation_reduced]
  refine (h.within.eq_of intake ctl eng rfl (h.peers stays) port).trans ?_
  rw [free]
  rfl

/-- In STARTUP, with no occupation in progress and nothing pending, only the time base and the port have changed. -/
theorem State.Stage.stepped_startup (startup : s.node = .startup) (idle : s.ctl.state = .idle) (none : s.eng.waiting = []) :
    t = { s with tb := s.relockedTb a, free := s.free + 1, port := s.relockedPort a } := by
  have waits : (s.stepMet a c).drawn.stepReached = false := by simp [State.stepMet_stepReached met, idle]
  have settles : (s.stepMet a c).drawn.settleReached = false := by simp [State.stepMet_settleReached met, idle]
  have stays : (s.stepMet a c).drawn.stepStays = true := by simp [State.stepStays, State.stepMet, State.drawn, startup]
  have calm : s.eng.work.Late a.gnss.toNat := by simp [Work.Late, Engine.work, none]
  have bare : s.suspectedCtl = s.ctl := if_pos idle
  obtain ⟨ctl, intake⟩ := h.stepped_marked met waits settles
  obtain ⟨eng, port⟩ := h.stepped_calm waits calm stays
  have link := h.link.1
  rw [if_pos rfl, State.stepAtLink_startup (v := (s.stepMet a c).drawn) (by simp [State.stepMet, State.drawn, startup])] at link
  exact h.within.eq_of intake (ctl.trans bare) eng link (h.peers stays) port

end

/-- Settles O10: the deliveries in their free order, and what they leave of each block. -/
theorem relockByStep : Obligations.RelockByStep := by
  intro s a w wide state held armed low high far limit sound nodup
  obtain ⟨c, met, delivers⟩ := State.relock_delivers state held armed low high far
  have sound' : LogSound (s.stepMet a c) := State.stepMet_sound met sound
  have h : (s.stepMet a c).drawn.Stage (s.stepMet a c).deliverStep true true true := State.deliverStep_stage sound' nodup limit
  rw [exec_ppsPulse_wide wide, delivers]
  generalize (s.stepMet a c).deliverStep = t at h
  have within := h.within
  have osc : t.osc = s.osc := within.osc
  have tb : t.tb = s.relockedTb a := within.tb
  have suspect := h.stepped_suspect met
  refine ⟨t.serve, rfl, tb, within.image, within.node, osc, within.pending, ?_, h.stepped_late, suspect, ?_,
    fun startup idle none => ?_, ?_, fun e he expired r hr number terms => ?_⟩
  · obtain ⟨bs, latched, changed, port⟩ := within.port
    refine ⟨bs, latched, changed, ?_⟩
    show t.port.serve t.osc = _
    rw [port, osc]
    rfl
  · rintro running cycle slot start stays listens mask rfl rfl rfl within_ rfl rfl
    obtain ⟨link, peers⟩ := h.stepped_link running nodup
    have same : (s.stepMet a c).drawn.staysInCycle = stays := by
      rw [within_]
      rfl
    rw [same] at link peers
    refine ⟨link.trans ?_, peers⟩
    cases stays <;> rfl
  · exact congrArg State.serve ((h.stepped_startup met startup idle none).trans (by rw [← tb]; rfl))
  · rintro u stepDue settleDue stays uDef rfl rfl rfl
    have uDef : u = s.stepMet a s.suspectedCtl := uDef.trans (by rw [show t.serve.tb = s.relockedTb a from tb]; rfl)
    subst uDef
    have served : t.serve.port = t.port.serve s.osc := congrArg t.port.serve osc
    have cycle : (s.stepMet a c).drawn.stepStays = (s.node = .startup
        || s.link.inForce.map Prod.fst = some (a.gnss.toNat / (s.schedule.slots * s.schedule.slotLength)) : Bool) := rfl
    rw [← State.stepMet_stepReached (a := a) met, ← State.stepMet_settleReached (a := a) met, ← cycle, served]
    refine ⟨fun waits idle => ?_, ?_, fun ends => ?_, fun waits calm => ⟨fun stays => ?_, fun none formed drift => ?_⟩,
      fun waits stays due => ?_, fun ends stays calm => ?_⟩
    · have marked := h.stepped_marked met waits idle
      exact marked
    · rintro settles v rfl
      have opened := h.stepped_opened met (State.waits_of_settleReached settles) settles
      exact opened
    · have idled := h.stepped_idled met ends
      exact idled
    · obtain ⟨eng, port⟩ := h.stepped_calm waits calm stays
      exact ⟨eng, congrArg (Port.serve · s.osc) port⟩
    · have still := h.stepped_still met waits calm none formed drift
      exact still
    · obtain ⟨eng, port⟩ := h.stepped_expired waits due stays
      refine ⟨holdsExpired_of sound eng, ?_, fun loops => ⟨t.port, rfl, ?_⟩⟩
      · rw [show t.serve.eng = s.expiredEngine _ from eng]
        rfl
      · rw [port]
        exact told_expired sound loops eng _
    · refine ⟨t.port, rfl, ?_⟩
      have busy : (s.stepMet a s.suspectedCtl).ctl.state ≠ .idle := by
        rw [show (s.stepMet a s.suspectedCtl).ctl.state = s.ctl.state from (State.met_ctl (.inr rfl)).2.1, ← (State.met_ctl met).2.1]
        exact State.busy_of_stepReached ends
      have sound : LogSound (s.stepMet a s.suspectedCtl) := State.stepMet_sound (.inr rfl) sound
      have ended := reducedEnding_of (s := { s.stepMet a s.suspectedCtl with link := t.link, free := t.free }) sound busy
        flagStepTimeout a.gnss.toNat
      rw [← h.stepped_ended met ends calm stays] at ended
      exact ended
  · exact h.stepped_lapsed sound he expired hr number terms

end Sys2Proof.Machine
end

