-- ==== Sys2Proof/Proofs/Arrivals.lean ====
section
/-! PROOF. Arrivals at the sensor intake (R17, R18, R24 to R27): one gated arrival, a run of missing ones, what a closed intake
makes of them, and a whole frame's arrivals on an open one. -/

namespace Sys2Proof.Machine

variable {smp : Sampling} {ins : Instrument} {osc stamp : Nat} {i : Intake} {rs : List BlockReport}

/-! ### One arrival -/

/-- A missing arrival is rejected as missing (R21, R24). -/
theorem Intake.accumulate_missing (ins : Instrument) (stamp : Nat) (i : Intake) :
    i.accumulate ins stamp .missing
      = { i with counter := i.counter - 1, rejects := { i.rejects with missing := i.rejects.missing + 1 } } := rfl

/-- A closed intake counts no arrival (R18). -/
theorem arrive_closed (closed : i.isOpen = false) (a : Arrival) : arrive smp ins stamp (i, rs) a = (i, rs) := by
  simp [arrive, closed]

theorem arrivals_closed (closed : i.isOpen = false) (l : List Arrival) : l.foldl (arrive smp ins stamp) (i, rs) = (i, rs) := by
  induction l with
  | nil => rfl
  | cons a l ih => rw [List.foldl_cons, arrive_closed closed, ih]

/-- An arrival that is not the block's last is gated and accumulated (R24). -/
theorem arrive_within (opened : i.isOpen = true) (a : Arrival) (more : (i.accumulate ins stamp a).counter ≠ 0) :
    arrive smp ins stamp (i, rs) a = (i.accumulate ins stamp a, rs) := by
  simp [arrive, opened, more]

/-- An arrival that is the block's last brings its report (R25). -/
theorem arrive_last (opened : i.isOpen = true) (a : Arrival) (last : (i.accumulate ins stamp a).counter = 0) :
    arrive smp ins stamp (i, rs) a
      = ((i.accumulate ins stamp a).afterBlock smp, rs ++ [(i.accumulate ins stamp a).report smp stamp]) := by
  simp [arrive, opened, last]

/-- The reports that arrivals bring stand behind those brought before. -/
theorem arrivals_reports (l : List Arrival) (w : Intake × List BlockReport) :
    l.foldl (arrive smp ins stamp) w
      = ((l.foldl (arrive smp ins stamp) (w.1, [])).1, w.2 ++ (l.foldl (arrive smp ins stamp) (w.1, [])).2) := by
  have one : ∀ (w : Intake × List BlockReport) a,
      arrive smp ins stamp w a = ((arrive smp ins stamp (w.1, []) a).1, w.2 ++ (arrive smp ins stamp (w.1, []) a).2) := by
    intro w a
    unfold arrive
    split
    · simp
    · simp only
      split <;> simp
  induction l generalizing w with
  | nil => simp
  | cons a l ih => rw [List.foldl_cons, List.foldl_cons, ih, one w a, ih (arrive smp ins stamp (w.1, []) a), List.append_assoc]

/-! ### The counts of a block -/

theorem Rejects.total_add (r : Rejects) (x : Reason) : (r.add x).total = r.total + 1 := by
  cases x <;> simp only [Rejects.add, Rejects.total] <;> omega

/-- Each arrival raises one of the five counts by one and lowers the arrival counter (R24). -/
theorem Intake.accumulate_counts (ins : Instrument) (stamp : Nat) (i : Intake) (a : Arrival) :
    (i.accumulate ins stamp a).sums.n + (i.accumulate ins stamp a).rejects.total = i.sums.n + i.rejects.total + 1
      ∧ (i.accumulate ins stamp a).counter = i.counter - 1 := by
  have rejected : ∀ r, gate ins i.shockRef a = some r → i.accumulate ins stamp a
      = { i with counter := i.counter - 1, rejects := i.rejects.add r } := by
    intro r h
    simp [Intake.accumulate, h]
  cases h : gate ins i.shockRef a with
  | some r =>
    rw [rejected r h]
    exact ⟨by rw [Rejects.total_add, Nat.add_assoc], rfl⟩
  | none =>
    cases a with
    | missing => cases h
    | own f =>
      have accepted : i.accumulate ins stamp (.own f)
          = { i with counter := i.counter - 1, sums := i.sums.add f stamp, shockRef := some f.counts } := by
        simp [Intake.accumulate, h]
      rw [accepted]
      exact ⟨by simp only [Sums.add]; omega, rfl⟩

theorem Intake.shut_closed (i : Intake) : i.shut.isOpen = false := by
  rw [Intake.shut_eq_closed]
  rfl

/-- The intake after a block end, as the statements write it: closed by a kept block under SINGLE_KEPT, and else loaded anew
(R25, R26). -/
theorem Intake.afterBlock_eq (smp : Sampling) (i : Intake) (opened : i.isOpen = true) :
    i.afterBlock smp =
      { i with
        sums := {}, rejects := {}
        isOpen := !(i.mode = ContMode.singleKept && smp.minAccepted ≤ i.sums.n)
        counter := if i.mode = ContMode.singleKept ∧ smp.minAccepted ≤ i.sums.n then 0 else smp.blockLength } := by
  unfold Intake.afterBlock Intake.shut
  by_cases kept : i.mode = ContMode.singleKept ∧ smp.minAccepted ≤ i.sums.n
  · simp [kept, opened]
  · have kept' : (decide (i.mode = ContMode.singleKept) && decide (smp.minAccepted ≤ i.sums.n)) = false := by simpa using kept
    simp only [kept', if_neg kept, opened, Bool.not_false]
    rfl

end Sys2Proof.Machine
end

