-- ==== Sys2Proof/Proofs/BlockSplits.lean ====
section
/-! PROOF. O54: every step keeps a block's arrivals split among N_b and the rejection counts. An event of a RUNNING node leaves the
intake as it is, counts arrivals, closes it, or opens it anew with B to come (`State.Divides`); in STARTUP it is closed. -/

namespace Sys2Proof.Machine

/-! ### The intake's own work -/

/-- The arrivals counted so far and those to come make `b`, while the intake is open (R24, R25). -/
def Intake.Divided (b : Nat) (i : Intake) : Prop :=
  i.isOpen = true → i.sums.n + i.rejects.total + i.counter = b ∧ 0 < i.counter

theorem blockSplit_iff (s : State) : BlockSplit s ↔ s.intake.Divided s.sampling.blockLength := Iff.rfl

theorem Intake.divided_closed {i : Intake} (closed : i.isOpen = false) (b : Nat) : i.Divided b := by
  intro opened
  simp [closed] at opened

/-- A block begins with B to come (R19, R25). -/
theorem Intake.divided_fresh {i : Intake} {b : Nat} (long : 0 < b) (counter : i.counter = b) (sums : i.sums = {})
    (rejects : i.rejects = {}) : i.Divided b := by
  intro _
  rw [sums, rejects, counter]
  exact ⟨Nat.zero_add b, long⟩

theorem Intake.divided_openFor (i : Intake) {b : Nat} (long : 0 < b) (mode : ContMode) (first : Bool) (osc : Nat) :
    (i.openFor b mode first osc).Divided b := divided_fresh long rfl rfl rfl

theorem Intake.divided_afterBlock {smp : Sampling} (long : 0 < smp.blockLength) (i : Intake) :
    (i.afterBlock smp).Divided smp.blockLength := by
  unfold Intake.afterBlock
  simp only
  split
  · exact divided_closed (Intake.shut_closed _) _
  · exact divided_fresh long rfl rfl rfl

theorem arrive_divided {smp : Sampling} {ins : Instrument} {stamp : Nat} (long : 0 < smp.blockLength)
    {w : Intake × List BlockReport} (h : w.1.Divided smp.blockLength) (a : Arrival) :
    (arrive smp ins stamp w a).1.Divided smp.blockLength := by
  obtain ⟨counts, counter⟩ := w.1.accumulate_counts ins stamp a
  unfold arrive
  split
  · exact h
  · rename_i opened
    obtain ⟨split, more⟩ := h (by simpa using opened)
    simp only
    split
    · exact Intake.divided_afterBlock long _
    · intro _
      simp only
      omega

theorem Intake.divided_takeFrame {smp : Sampling} {ins : Instrument} {osc stamp : Nat} (long : 0 < smp.blockLength) {i : Intake}
    (h : i.Divided smp.blockLength) (f : Frame) : (i.takeFrame smp ins osc stamp f).1.Divided smp.blockLength := by
  have fold : ∀ (l : List Arrival) (w : Intake × List BlockReport), w.1.Divided smp.blockLength →
      (l.foldl (arrive smp ins stamp) w).1.Divided smp.blockLength := by
    intro l
    induction l with
    | nil => exact fun _ hw => hw
    | cons a l ih => exact fun w hw => ih _ (arrive_divided long hw a)
  exact fold _ _ h

/-! ### Events -/

/-- An event that leaves the image as it is and, with a block length above 0, the blocks divided. -/
structure State.Divides (s t : State) : Prop where
  image : t.image = s.image
  split : 0 < s.sampling.blockLength → BlockSplit s → BlockSplit t

namespace State.Divides

variable {s t u : State}

theorem sampling (h : s.Divides t) : t.sampling = s.sampling := by
  unfold State.sampling
  rw [h.image]

theorem of_intake (image : t.image = s.image) (intake : t.intake = s.intake) : s.Divides t := by
  refine ⟨image, fun _ h => ?_⟩
  unfold BlockSplit State.sampling at h ⊢
  rwa [intake, image]

theorem of_closed (image : t.image = s.image) (closed : t.intake.isOpen = false) : s.Divides t :=
  ⟨image, fun _ _ => Intake.divided_closed closed _⟩

theorem refl (s : State) : s.Divides s := ⟨rfl, fun _ => id⟩

theorem trans (h : s.Divides t) (h' : t.Divides u) : s.Divides u :=
  ⟨h'.image.trans h.image, fun long hs => h'.split (by rw [h.sampling]; exact long) (h.split long hs)⟩

theorem foldl {α : Type} {f : State → α → State} (hf : ∀ (s : State) a, s.Divides (f s a)) (l : List α) (s : State) :
    s.Divides (l.foldl f s) := by
  induction l generalizing s with
  | nil => exact refl s
  | cons a l ih => exact (hf s a).trans (ih _)

theorem ite {c : Prop} [Decidable c] (h : c → s.Divides t) : s.Divides (if c then t else s) := by
  split
  · exact h ‹_›
  · exact refl s

theorem setTb (s : State) (x : TimeBase) : s.Divides (s.setTb x) := of_intake rfl rfl

theorem setCtl (s : State) (x : Controller) : s.Divides (s.setCtl x) := of_intake rfl rfl

theorem setEng (s : State) (x : Engine) : s.Divides (s.setEng x) := of_intake rfl rfl

theorem setLink (s : State) (x : PeerLink) : s.Divides (s.setLink x) := of_intake rfl rfl

theorem setPeers (s : State) (x : PeerTable) : s.Divides (s.setPeers x) := of_intake rfl rfl

theorem setPort (s : State) (x : Port) : s.Divides (s.setPort x) := of_intake rfl rfl

theorem setIntake (s : State) (x : Intake)
    (h : 0 < s.sampling.blockLength → s.intake.Divided s.sampling.blockLength → x.Divided s.sampling.blockLength) :
    s.Divides (s.setIntake x) := ⟨rfl, h⟩

theorem served (h : s.Divides t) : s.Divides t.serve := h.trans (setPort t _)

theorem replied (h : s.Replied t) : s.Divides t := by
  obtain ⟨p, rfl, -⟩ := h
  exact setPort s p

/-! ### The reduction engine, the peer table and the peer link leave the intake -/

theorem engineEvent (s : State) (f : Work → Work) : s.Divides (s.engineEvent f) := by
  rw [State.engineEvent_eq]
  exact of_intake rfl rfl

theorem queueRev (s : State) (r : Rev) : s.Divides (s.queueRev r) := by
  obtain ⟨p, h⟩ := s.queueRev_frame r
  rw [h]
  exact of_intake rfl rfl

theorem produceObs (s : State) (sums : Sums) : s.Divides (s.produceObs sums) := by
  obtain ⟨-, -, h⟩ := s.produceObs_frame sums
  rw [h]
  exact (setCtl s _).trans ((setEng _ _).trans ((setLink _ _).trans (setPort _ _)))

theorem reref (s : State) (fromSeq : Nat) (step : Int) : s.Divides (s.reref fromSeq step) :=
  ((setEng s _).trans (setLink _ _)).trans (queueRev _ _)

theorem cycleStart (s : State) : s.Divides s.cycleStart := by
  obtain ⟨t, e, p, h⟩ := s.cycleStart_frame
  rw [h]
  exact (setLink s _).trans ((setPeers _ _).trans ((setEng _ _).trans (setPort _ _)))

theorem takeBoundary (s : State) (x : Nat) : s.Divides (s.takeBoundary x) := by
  unfold State.takeBoundary
  simp only
  split
  · exact (cycleStart s).trans (setLink _ _)
  · exact setLink s _

theorem stepAtLink (s : State) : s.Divides s.stepAtLink := by
  obtain ⟨l, t, e, p, h⟩ := s.stepAtLink_frame
  rw [h]
  exact of_intake rfl rfl

theorem decideSlot (s : State) : s.Divides s.decideSlot := by
  unfold State.decideSlot
  simp only
  split
  · exact setLink s _
  · split
    · exact setLink s _
    · split <;> exact of_intake rfl rfl

theorem receiveHead (s : State) (bytes : List Byte) : s.Divides (s.receiveHead bytes) := by
  unfold State.receiveHead
  split
  · exact setLink s _
  · simp only
    rw [State.judgeHead_frame]
    exact of_intake rfl rfl

theorem enqueueInbound (s : State) (sender : Nat) (r : PeerRecord) : s.Divides (s.enqueueInbound sender r) := by
  unfold State.enqueueInbound
  split
  · exact setLink s _
  · exact setPort s _

theorem receiveRecord (s : State) (sender : Nat) (take : Bool) (toCome : Nat) (bytes : List Byte) :
    s.Divides (s.receiveRecord sender take toCome bytes) := by
  unfold State.receiveRecord
  simp only
  split
  · split
    · exact (setLink s _).trans (enqueueInbound ..)
    · exact setLink s _
  · exact setLink s _

theorem receive (n : Nat) (s : State) : s.Divides (State.receive n s) := by
  induction n generalizing s with
  | zero => exact refl s
  | succ n ih =>
    unfold State.receive
    simp only
    split
    · exact setLink s _
    · exact setLink s _
    · split
      · exact refl s
      · exact (setLink s _).trans ((receiveHead ..).trans (ih _))
    · split
      · exact refl s
      · exact (setLink s _).trans ((receiveRecord ..).trans (ih _))

theorem hear (s : State) (bytes : List Byte) : s.Divides (s.hear bytes) := (setLink s _).trans (receive _ _)

theorem peerBytes (s : State) (bytes : List Byte) : s.Divides (s.peerBytes bytes) := by
  unfold State.peerBytes
  split
  · exact hear ..
  · split
    · exact ((setLink s _).trans (hear _ bytes)).trans (setLink _ _)
    · exact hear ..

theorem peerChanged (s : State) (before : Option PeerState) (e : PeerEntry) : s.Divides (s.peerChanged before e) :=
  of_intake rfl rfl

theorem reselectEvent (s : State) : s.Divides s.reselectEvent := engineEvent s _

theorem finishEvent (s : State) : s.Divides s.finishEvent := engineEvent s _

theorem dropEntry (s : State) (e : PeerEntry) : s.Divides (s.dropEntry e) :=
  (setPeers s _).trans ((peerChanged _ _ _).trans (reselectEvent _))

theorem restoreEntry (s : State) (e : PeerEntry) : s.Divides (s.restoreEntry e) :=
  (setPeers s _).trans ((peerChanged _ _ _).trans (reselectEvent _))

/-! ### The occupation controller opens and closes it -/

theorem endOccupation (s : State) (reason : Option AbortReason) (flag : RecordFlags → RecordFlags) (endTime : Nat) :
    s.Divides (s.endOccupation reason flag endTime) := by
  obtain ⟨e, p, h⟩ := s.endOccupation_frame reason flag endTime
  rw [h]
  exact of_closed rfl (Intake.shut_closed _)

theorem openIntake (s : State) (mode : ContMode) (first : Bool) : s.Divides (s.openIntake mode first) :=
  ⟨rfl, fun long _ => Intake.divided_openFor _ long _ _ _⟩

theorem settleIfDue (s : State) : s.Divides s.settleIfDue := by
  unfold State.settleIfDue
  exact ite fun _ => openIntake ..

theorem beginOccupation (s : State) (h : Header) (k : Option Nat) : s.Divides (s.beginOccupation h k) :=
  (setCtl s _).trans (settleIfDue _)

theorem startTrigger (h : s.startTrigger = some t) : s.Divides t := by
  unfold State.startTrigger State.startRover at h
  split at h
  · cases h
    exact (setEng s _).trans (beginOccupation ..)
  · split at h
    · cases h
      exact (setCtl s _).trans (beginOccupation ..)
    · cases h

theorem endStopped (s : State) : s.Divides s.endStopped := by
  unfold State.endStopped
  split <;> exact endOccupation ..

theorem sensorLost (s : State) : s.Divides s.sensorLost := by
  unfold State.sensorLost
  split
  · exact refl s
  · split <;> exact endOccupation ..

theorem afterKept (s : State) (endTime : Nat) : s.Divides (s.afterKept endTime) := by
  unfold State.afterKept
  split
  · exact endOccupation ..
  · exact ite fun _ => setCtl s _

theorem countKept (s : State) (b : BlockReport) : s.Divides (s.countKept b) := by
  unfold State.countKept
  simp only
  split
  · exact (setCtl s _).trans (produceObs _ _)
  · exact setCtl s _

theorem endNoisy (s : State) (endTime : Nat) : s.Divides (s.endNoisy endTime) := by
  unfold State.endNoisy
  split <;> exact endOccupation ..

theorem countDiscarded (s : State) (b : BlockReport) : s.Divides (s.countDiscarded b) := by
  unfold State.countDiscarded
  simp only
  split
  · exact (setCtl s _).trans (endNoisy _ _)
  · exact setCtl s _

theorem takeReport (s : State) (b : BlockReport) : s.Divides (s.takeReport b) := by
  unfold State.takeReport
  split
  · exact refl s
  · split
    · exact (countKept s b).trans (afterKept _ _)
    · exact countDiscarded s b

theorem amendWith (s : State) (staged : Header) : s.Divides (s.amendWith staged) := by
  unfold State.amendWith
  simp only
  split
  · exact (setCtl s _).trans (settleIfDue _)
  · split
    · exact (setCtl s _).trans (endOccupation ..)
    · exact setCtl s _

theorem takeEdge (s : State) : s.Divides s.takeEdge := by
  unfold State.takeEdge
  split
  · cases h : s.startTrigger with
    | none => exact setPort s _
    | some t => exact startTrigger h
  · exact openIntake ..
  · exact refl s
  · exact refl s

/-! ### The sensor port counts its arrivals -/

theorem takeSensorFrame (s : State) (f : Frame) : s.Divides (s.takeSensorFrame f) :=
  (setIntake s _ fun long h => Intake.divided_takeFrame long h f).trans (foldl takeReport _ _)

theorem sensorBytes (s : State) (bytes : List Byte) : s.Divides (s.sensorBytes bytes) :=
  (setIntake s _ (by exact fun _ => id)).trans (foldl takeSensorFrame _ _)

theorem takeSilence (s : State) : s.Divides s.takeSilence := by
  have lost : ∀ x : Intake, x.isOpen = false → s.Divides (s.setIntake x).sensorLost := fun x closed =>
    (setIntake s x fun _ _ => Intake.divided_closed closed _).trans (sensorLost _)
  unfold State.takeSilence
  simp only
  split
  · exact lost _ (Intake.shut_closed _)
  · split
    · exact lost _ (Intake.shut_closed _)
    · exact setIntake s _ fun _ => id

/-! ### The time base and a time step's deliveries -/

theorem stepAtController (s : State) : s.Divides s.stepAtController := by
  unfold State.stepAtController
  simp only
  split
  · exact (setCtl s _).trans (endOccupation ..)
  · exact (setCtl s _).trans (settleIfDue _)

theorem stepAtEngine (s : State) : s.Divides s.stepAtEngine := by
  unfold State.stepAtEngine
  split
  · exact refl s
  · exact engineEvent ..

theorem deliverStep (s : State) : s.Divides s.deliverStep := by
  have each : ∀ f ∈ s.inFreeOrder [State.stepAtController, State.stepAtEngine, State.stepAtLink], ∀ u : State, u.Divides (f u) := by
    intro f hf
    rcases (by simpa using (s.inFreeOrder_perm _).mem_iff.mp hf) with rfl | rfl | rfl
    · exact stepAtController
    · exact stepAtEngine
    · exact stepAtLink
  have fold : ∀ fs : List (State → State), (∀ f ∈ fs, ∀ u : State, u.Divides (f u)) → ∀ u : State,
      u.Divides (fs.foldl (fun u f => f u) u) := by
    intro fs
    induction fs with
    | nil => exact fun _ u => refl u
    | cons f fs ih => exact fun h u => (h f (by simp) u).trans (ih (fun g hg => h g (by simp [hg])) _)
  exact trans (t := s.drawn) (of_intake rfl rfl) (fold _ each _)

theorem changeTb (s : State) (after : TbState) (step : Int) : s.Divides (s.changeTb after step) := by
  rw [State.changeTb_eq]
  exact of_intake rfl rfl

theorem relock (s : State) (a : ArmedRecord) : s.Divides (s.relock a) := by
  unfold State.relock
  simp only
  split
  · exact (setTb s _).trans (changeTb ..)
  · exact (setTb s _).trans ((setTb _ _).trans ((changeTb ..).trans (deliverStep _)))

theorem takePulse (s : State) : s.Divides s.takePulse := by
  have pulse : ∀ (u : State) a, u.Divides (u.pulseWith a) := by
    intro u a
    unfold State.pulseWith
    split
    · exact ite fun _ => (setTb u _).trans (changeTb ..)
    · exact ite fun _ => setTb u _
    · split
      · exact relock u a
      · exact changeTb ..
    · exact ite fun _ => relock u a
  unfold State.takePulse
  simp only
  split
  · exact setTb s _
  · split
    · exact setTb s _
    · exact (setTb s _).trans (pulse _ _)

theorem takeTimeRecord (s : State) (second : Nat) (valid : Bool) : s.Divides (s.takeTimeRecord second valid) := by
  unfold State.takeTimeRecord
  split
  · exact setTb s _
  · split
    · exact refl s
    · exact setTb s _

theorem takeRangeEnd (s : State) : s.Divides s.takeRangeEnd := by
  unfold State.takeRangeEnd
  simp only
  split
  · exact setTb s _
  · exact (setTb s _).trans (changeTb ..)

theorem deliverBoundary (s : State) : s.Divides s.deliverBoundary := by
  unfold State.deliverBoundary
  split
  · exact refl s
  · exact (setTb s _).trans (takeBoundary _ _)

theorem tick (s : State) : s.Divides s.tick := by
  unfold State.tick State.raiseDue
  split <;> exact of_intake rfl rfl

/-! ### Requests -/

theorem takeAmend (s : State) : s.Divides s.takeAmend.1 := by
  unfold State.takeAmend
  split
  · exact refl s
  · split
    · exact refl s
    · split
      · exact refl s
      · exact amendWith s _

theorem takeStage (payload : List Byte) (s : State) : s.Divides (s.takeStage payload).1 := by
  unfold State.takeStage
  split
  · exact refl s
  · split
    · exact refl s
    · exact setCtl s _

theorem takeCommit (s : State) : s.Divides s.takeCommit.1 := by
  unfold State.takeCommit
  split
  · exact refl s
  · split
    · exact refl s
    · exact setCtl s _

theorem takeStart (s : State) : s.Divides s.takeStart.1 := by
  unfold State.takeStart
  split
  · exact refl s
  · split
    · exact refl s
    · exact startTrigger ‹_›

theorem takeStep (s : State) : s.Divides s.takeStep.1 := by
  unfold State.takeStep
  split
  · exact refl s
  · split
    · exact openIntake ..
    · exact refl s

theorem takeStop (s : State) : s.Divides s.takeStop.1 := by
  unfold State.takeStop
  split
  · exact refl s
  · exact endStopped s

theorem takeQuiet (payload : List Byte) (s : State) : s.Divides (s.takeQuiet payload).1 := by
  unfold State.takeQuiet
  simp only
  split
  · exact refl s
  · exact setLink s _

theorem takeRxmask (payload : List Byte) (s : State) : s.Divides (s.takeRxmask payload).1 := by
  unfold State.takeRxmask
  simp only
  split
  · exact setLink s _
  · exact refl s

theorem takeDrop (payload : List Byte) (s : State) : s.Divides (s.takeDrop payload).1 := by
  unfold State.takeDrop
  simp only
  split
  · exact refl s
  · split
    · exact refl s
    · split
      · exact refl s
      · simp only
        exact dropEntry s _

theorem takeRestore (payload : List Byte) (s : State) : s.Divides (s.takeRestore payload).1 := by
  unfold State.takeRestore
  simp only
  split
  · exact refl s
  · split
    · exact refl s
    · split
      · simp only
        exact restoreEntry s _
      · exact refl s

theorem takeReref (payload : List Byte) (s : State) : s.Divides (s.takeReref payload).1 := by
  unfold State.takeReref
  simp only
  split
  · exact refl s
  · exact reref s _ _

theorem takeFinish (s : State) : s.Divides s.takeFinish.1 := by
  unfold State.takeFinish
  split
  · simp only
    exact finishEvent s
  · exact refl s

theorem restart (s : State) : s.Divides s.restart := of_closed rfl rfl

end State.Divides

/-! ### Every command -/

/-- While RUNNING the block length is one of part 3's, so above 0 (R189, R191). -/
theorem State.Complete.blockLength_pos {s : State} (hs : s.Complete) (image : ImageSound s) : 0 < s.sampling.blockLength := by
  obtain ⟨-, -, valid, -⟩ := (Image.valid_iff s.image).mp image
  have held : s.image.sampling.isSome = true := by
    have holds := List.find?_eq_none.mp hs.parts 3 (by decide)
    rwa [Bool.not_eq_true, Bool.not_eq_false'] at holds
  obtain ⟨x, hx⟩ := Option.isSome_iff_exists.mp held
  have ranges := valid x hx
  have long : 10 ≤ x.blockLength := by
    simp [Sampling.ranges, inRange] at ranges
    omega
  rw [State.sampling, hx]
  exact Nat.lt_of_lt_of_le (by decide) long

/-- The premises of O54: idle in STARTUP or complete while RUNNING, a valid image, and the blocks divided. -/
structure State.Blocks (s : State) : Prop where
  stands : s.Stands
  image : ImageSound s
  split : BlockSplit s

namespace State.Blocks

variable {s t : State}

/-- In STARTUP the intake is closed. -/
theorem closed (hs : s.Blocks) (node : s.node = .startup) : s.intake.isOpen = false := by
  rcases hs.stands with idle | complete
  · exact idle.intake.closed
  · simp [complete.node] at node

theorem divides (hs : s.Blocks) (node : s.node = .running) (h : s.Divides t) : BlockSplit t := by
  rcases hs.stands with idle | complete
  · simp [idle.node] at node
  · exact h.split (complete.blockLength_pos hs.image) hs.split

theorem replied (hs : s.Blocks) (h : s.Replied t) : t.Blocks where
  stands := hs.stands.replied h
  image := h.continues.keepsBasics.image hs.image
  split := by
    obtain ⟨p, rfl, -⟩ := h
    exact hs.split

/-- A request: refused, or its handler's effect on a node that admits it. -/
theorem request (hs : s.Blocks) {kind : Nat} {allowed : NodeState → Bool} {handler : State → State × Reply} {seq : Byte}
    {payload : List Byte} (h : ∀ u : State, u.Blocks → allowed u.node = true → BlockSplit (handler u).1) :
    BlockSplit (s.request kind allowed handler seq payload).serve := by
  rcases s.request_cases kind allowed handler seq payload with
    ⟨-, heq⟩ | ⟨-, -, heq⟩ | ⟨-, -, -, heq⟩ | ⟨-, -, node, heq⟩ <;> rw [heq]
  · exact hs.split
  · exact hs.split
  · exact hs.split
  · exact h s.hunting (hs.replied ⟨_, rfl, Port.answered_hunting s.port []⟩) node

/-- A request that RUNNING alone admits. -/
theorem request_runningOnly (hs : s.Blocks) {kind : Nat} {handler : State → State × Reply} {seq : Byte} {payload : List Byte}
    (h : ∀ u : State, u.Divides (handler u).1) : BlockSplit (s.request kind runningOnly handler seq payload).serve :=
  hs.request fun u hu node => hu.divides (by simpa [runningOnly] using node) (h u)

/-- SETUP is taken in STARTUP and leaves the intake closed. -/
theorem takeSetup (hs : s.Blocks) (node : s.node = .startup) (payload : List Byte) : BlockSplit (s.takeSetup payload).1 := by
  refine Intake.divided_closed ?_ _
  have closed := hs.closed node
  unfold State.takeSetup State.loadPart State.epochLoaded State.unsetTb
  simp only
  split
  · split
    · exact closed
    · split
      · split
        · exact closed
        · split
          · exact closed
          · rw [State.changeTb_eq]
            exact closed
      · exact closed
  · exact closed

theorem dispatch (hs : s.Blocks) (kind q : Byte) (p : List Byte) : BlockSplit (s.dispatch kind q p) := by
  unfold State.dispatch
  split
  case h_1 => exact hs.request fun _ hu _ => hu.split
  case h_2 => exact hs.request fun _ hu node => hu.takeSetup (by simpa [startupOnly] using node) p
  case h_3 =>
    refine hs.request fun u hu node => ?_
    exact Intake.divided_closed (by
      rw [show u.takeRun.1.intake = u.intake by unfold State.takeRun; split <;> rfl]
      exact hu.closed (by simpa [startupOnly] using node)) _
  case h_4 => exact hs.request_runningOnly State.Divides.restart
  case h_5 => exact hs.request_runningOnly (State.Divides.takeStage p)
  case h_6 => exact hs.request_runningOnly State.Divides.takeCommit
  case h_7 => exact hs.request_runningOnly State.Divides.takeAmend
  case h_8 => exact hs.request_runningOnly State.Divides.takeStart
  case h_9 => exact hs.request_runningOnly State.Divides.takeStep
  case h_10 => exact hs.request_runningOnly State.Divides.takeStop
  case h_11 => exact hs.request_runningOnly (State.Divides.takeQuiet p)
  case h_12 => exact hs.request_runningOnly (State.Divides.takeRxmask p)
  case h_13 => exact hs.request_runningOnly (State.Divides.takeDrop p)
  case h_14 => exact hs.request_runningOnly (State.Divides.takeRestore p)
  case h_15 => exact hs.request_runningOnly (State.Divides.takeReref p)
  case h_16 => exact hs.request_runningOnly State.Divides.takeFinish
  case h_17 => exact hs.request fun _ hu _ => hu.split
  case h_18 => exact hs.request fun _ hu _ => hu.split
  case h_19 => exact hs.request fun _ hu _ => hu.split
  case h_20 => exact hs.request fun _ hu _ => hu.split
  case h_21 => exact (hs.replied (doUnknown_replied ..)).split

theorem takeItem (hs : s.Blocks) (i : LoggerItem) : BlockSplit (s.takeItem i) := by
  unfold State.takeItem
  split
  · exact (hs.replied (answerOrBusy_replied ..)).split
  · split
    · exact hs.dispatch _ _ _
    · exact (hs.replied (answerOrBusy_replied ..)).split

theorem loggerBytes (hs : s.Blocks) (bytes : List Byte) : BlockSplit (s.loggerBytes bytes) := by
  rcases s.loggerBytes_cases bytes with h | ⟨i, p, h, -⟩
  · exact (hs.replied h).split
  · rw [h]
    exact hs.takeItem i

end State.Blocks

open State.Divides in
/-- The commands that are neither POWER_ON nor a frame or bytes at the logger port divide the blocks. -/
theorem exec_divides (s : State) : ∀ c : Instr, continuing c = true → Instr.request c = none →
    ∃ t, exec c s = .next t ∧ s.Divides t
  | .timeRecord _ second valid, _, _ => ⟨_, rfl, ite fun _ => takeTimeRecord s second valid⟩
  | .armedRecordExpiry, _, _ => ⟨_, rfl, ite fun _ => setTb s _⟩
  | .ppsPulse _, _, _ => ⟨_, rfl, by split; exact refl s; exact (takePulse s).served⟩
  | .holdoverExpiry, _, _ => ⟨_, rfl, ite fun _ => (changeTb s _ _).served⟩
  | .lossExpiry, _, _ => ⟨_, rfl, ite fun _ => (changeTb s _ _).served⟩
  | .rangeEnd, _, _ => ⟨_, rfl, ite fun _ => (takeRangeEnd s).served⟩
  | .slotBoundary, _, _ => ⟨_, rfl, ite fun _ => (deliverBoundary s).served⟩
  | .sampleFrame bytes, _, _ => ⟨_, rfl, (sensorBytes s bytes).served⟩
  | .sensorByteTimeout, _, _ => ⟨_, rfl, ite fun _ => setIntake s _ fun _ => id⟩
  | .silenceExpiry, _, _ => ⟨_, rfl, ite fun _ => (takeSilence s).served⟩
  | .trigEdge .., _, _ => ⟨_, rfl, ite fun _ => takeEdge s⟩
  | .settleExpiry, _, _ => ⟨_, rfl, ite fun _ => openIntake s _ _⟩
  | .stepWaitExpiry, _, _ => ⟨_, rfl, ite fun _ => (endOccupation s _ _ _).served⟩
  | .endPulseExpiry, _, _ => ⟨_, rfl, ite fun _ => setCtl s _⟩
  | .holdExpiry _, _, _ => ⟨_, rfl, ite fun _ => (engineEvent s _).served⟩
  | .burstStart, _, _ => ⟨_, rfl, ite fun _ => decideSlot s⟩
  | .recordSent, _, _ => ⟨_, rfl, by
      split
      · exact ite fun _ => setLink s _
      · exact refl s⟩
  | .burstEnd, _, _ => ⟨_, rfl, ite fun _ => setLink s _⟩
  | .receiverListen, _, _ => ⟨_, rfl, ite fun _ => setLink s _⟩
  | .headReceived bytes, _, _ => ⟨_, rfl, (peerBytes s bytes).served⟩
  | .peerRecordReceived bytes, _, _ => ⟨_, rfl, (peerBytes s bytes).served⟩
  | .loggerByteTimeout, _, _ => ⟨_, rfl, ite fun _ => replied (State.abandonFrame_replied s)⟩
  | .outputFrameSent, _, _ => ⟨_, rfl, ite fun _ => (setPort s _).served⟩

/-- A request is a frame dispatched by its kind (R175). -/
theorem exec_request {c : Instr} {k q : Byte} {p : List Byte} (h : Instr.request c = some (k, q, p)) (s : State) :
    exec c s = .next (s.dispatch k q p) := by
  cases c <;> cases h <;> rfl

/-- Every command keeps the blocks divided. -/
theorem State.Blocks.exec {s t : State} (hs : s.Blocks) (c : Instr) (h : Machine.exec c s = .next t) : BlockSplit t := by
  cases request : Instr.request c with
  | some x =>
    rw [exec_request request] at h
    cases h
    exact hs.dispatch _ _ _
  | none =>
    by_cases continues : continuing c = true
    · rcases hs.stands with idle | complete
      · exact Intake.divided_closed (idle.exec continues h).intake.closed _
      · obtain ⟨u, hu, divides⟩ := exec_divides s c continues request
        rw [hu] at h
        cases h
        exact hs.divides complete.node divides
    · cases c with
      | powerOn =>
        cases h
        exact Intake.divided_closed rfl _
      | badLoggerFrame bytes =>
        cases h
        exact hs.loggerBytes bytes
      | unknownRequest kind q p =>
        cases h
        exact hs.dispatch _ _ _
      | setup => cases request
      | run => cases request
      | restart => cases request
      | _ => exact absurd rfl continues

/-- Settles O54: every command keeps the blocks divided (`State.Blocks.exec`), and a millisecond of the oscillator leaves the
intake. -/
theorem blockSplitKept : Obligations.BlockSplitKept := by
  intro s t image idle complete split h
  have stands : s.Stands := (stands_iff s).mp ⟨idle, complete⟩
  rcases step_cases h with ht | ⟨c, rest, -, hc⟩
  · rw [ht, State.tick, blockSplit_iff]
    unfold State.raiseDue
    split <;> exact split
  · have blocks : ({ s with pending := rest } : State).Blocks :=
      ⟨stands.imp (fun idle => { idle with }) fun complete => { complete with }, image, split⟩
    exact blocks.exec c hc

end Sys2Proof.Machine
end

