-- ==== Sys2Proof/Proofs/Wires.lean ====
section
/-! PROOF. O48: peer records and sample frames as sent are read as they were, and any bytes that are no bad HEAD are one as sent.
Fields and bytes determine each other (R196); each layout is a run of fields with the check behind it (R198, R199). -/

namespace Sys2Proof.Machine

/-! ### Numbers and their bytes (R196) -/

@[simp] theorem leBytes_length (k v : Nat) : (leBytes k v).length = k := by
  induction k generalizing v with
  | zero => rfl
  | succ k ih => rw [leBytes, List.length_cons, ih]

@[simp] theorem intBytes_length (k : Nat) (v : Int) : (intBytes k v).length = k := leBytes_length ..

/-- The bytes of a number are read as its low bytes. -/
theorem leNat_leBytes (k v : Nat) : leNat (leBytes k v) = v % 256 ^ k := by
  induction k generalizing v with
  | zero => simp [leBytes, leNat, Nat.mod_one]
  | succ k ih =>
    have low : (BitVec.ofNat 8 v).toNat = v % 256 := BitVec.toNat_ofNat ..
    rw [leBytes, leNat, ih, low, Nat.pow_succ', Nat.mod_mul]

/-- The number in a field is sent as the field's bytes. -/
theorem leBytes_leNat (bs : List Byte) : leBytes bs.length (leNat bs) = bs := by
  induction bs with
  | nil => rfl
  | cons b bs ih =>
    have low : (b.toNat + 256 * leNat bs) / 256 = leNat bs := by have := b.isLt; omega
    rw [List.length_cons, leBytes, leNat, low, ih]
    exact congrArg (· :: bs) (BitVec.eq_of_toNat_eq (by rw [BitVec.toNat_ofNat]; have := b.isLt; omega))

/-- A signed number that fits `k` bytes is read as it was sent. -/
theorem leInt_intBytes {k : Nat} {v : Int} (low : -(256 ^ k : Nat) ≤ 2 * v) (high : 2 * v < (256 ^ k : Nat)) :
    leInt (intBytes k v) = v := by
  have wide : (0 : Int) < (256 ^ k : Nat) := by positivity
  have range := Int.emod_nonneg v (ne_of_gt wide)
  have read : (leNat (intBytes k v) : Int) = v % (256 ^ k : Nat) := by
    have lt := Int.emod_lt_of_pos v wide
    rw [intBytes, leNat_leBytes, Nat.mod_eq_of_lt (by omega)]
    omega
  unfold leInt
  rw [intBytes_length]
  rcases lt_or_ge v 0 with negative | natural
  · have : v % (256 ^ k : Nat) = v + (256 ^ k : Nat) := by
      rw [← Int.add_emod_right, Int.emod_eq_of_lt (by omega) (by omega)]
    rw [if_neg (by omega), read, this]
    omega
  · have : v % (256 ^ k : Nat) = v := Int.emod_eq_of_lt natural (by omega)
    rw [if_pos (by omega), read, this]

/-- The signed number in a field is sent as the field's bytes. -/
theorem intBytes_leInt (bs : List Byte) : intBytes bs.length (leInt bs) = bs := by
  have lt := leNat_lt bs
  have low : (leInt bs % (256 ^ bs.length : Nat)).toNat = leNat bs := by
    unfold leInt
    split
    · rw [Int.emod_eq_of_lt (by omega) (by omega), Int.toNat_natCast]
    · rw [Int.sub_emod_right, Int.emod_eq_of_lt (by omega) (by omega), Int.toNat_natCast]
  rw [intBytes, low, leBytes_leNat]

/-! ### Fields (R196) -/

theorem field_length {bs : List Byte} {off size : Nat} (within : off + size ≤ bs.length) : (field bs off size).length = size := by
  rw [field, List.length_take, List.length_drop]
  omega

/-- A field behind the first bytes. -/
@[simp] theorem field_skip {a b : List Byte} {off size : Nat} (past : a.length ≤ off) :
    field (a ++ b) off size = field b (off - a.length) size := by
  rw [field, field, List.drop_append, List.drop_eq_nil_of_le past, List.nil_append]

@[simp] theorem field_cons {m : Byte} {a : List Byte} {off size : Nat} (past : 1 ≤ off) :
    field (m :: a) off size = field a (off - 1) size :=
  field_skip (a := [m]) past

/-- The first bytes as a field. -/
@[simp] theorem field_here {a b : List Byte} {size : Nat} (len : a.length = size) : field (a ++ b) 0 size = a := by
  rw [field, List.drop_zero, ← len, List.take_left]

/-- The fields up to an offset and the one there are the fields up to its end. -/
theorem field_append (bs : List Byte) (a b : Nat) : field bs 0 a ++ field bs a b = field bs 0 (a + b) := by
  rw [field, field, field, List.drop_zero, List.take_add]

theorem leBytes_uAt {bs : List Byte} {off size : Nat} (within : off + size ≤ bs.length) :
    leBytes size (uAt bs off size) = field bs off size := by
  have := leBytes_leNat (field bs off size)
  rwa [field_length within] at this

theorem intBytes_sAt {bs : List Byte} {off size : Nat} (within : off + size ≤ bs.length) :
    intBytes size (sAt bs off size) = field bs off size := by
  have := intBytes_leInt (field bs off size)
  rwa [field_length within] at this

/-- An unsigned field as sent. -/
theorem uAt_of_field {bs : List Byte} {off size v : Nat} (sent : field bs off size = leBytes size v) (fits : v < 256 ^ size) :
    uAt bs off size = v := by
  rw [uAt, sent, leNat_leBytes, Nat.mod_eq_of_lt fits]

/-- A signed field as sent. -/
theorem sAt_of_field {bs : List Byte} {off size : Nat} {v : Int} (sent : field bs off size = intBytes size v)
    (low : -(256 ^ size : Nat) ≤ 2 * v) (high : 2 * v < (256 ^ size : Nat)) : sAt bs off size = v := by
  rw [sAt, sent, leInt_intBytes low high]

/-- A signed field of four bytes. -/
theorem sAt_four (bs : List Byte) (off : Nat) : -2147483648 ≤ sAt bs off 4 ∧ sAt bs off 4 ≤ 2147483647 := by
  have := sAt_bounds bs off 4
  omega

/-! ### The check (R196) -/

@[simp] theorem crcBytes_length (bs : List Byte) : (crcBytes bs).length = 2 := leBytes_length ..

/-- The check is good exactly when the last two bytes are that of the others. -/
theorem crcGood_iff {bs : List Byte} {n : Nat} (len : bs.length = n + 2) :
    crcGood bs = true ↔ bs.drop n = crcBytes (bs.take n) := by
  rw [crcGood, decide_eq_true_iff, len, Nat.add_sub_cancel]

theorem crcGood_append {bs c : List Byte} (len : c.length = 2) : crcGood (bs ++ c) = true ↔ c = crcBytes bs := by
  rw [crcGood_iff (n := bs.length) (by rw [List.length_append, len]), List.drop_left, List.take_left]

theorem crcGood_withCrc (bs : List Byte) : crcGood (withCrc bs) = true :=
  (crcGood_append (crcBytes_length bs)).mpr rfl

/-! ### The sample frame (R198) -/

/-- Where the fields of a sample frame stand. -/
theorem encodeFrame_fields (f : Frame) :
    field (encodeFrame f) 2 1 = leBytes 1 f.seq ∧ field (encodeFrame f) 3 4 = intBytes 4 f.counts
      ∧ field (encodeFrame f) 7 2 = intBytes 2 f.x ∧ field (encodeFrame f) 9 2 = intBytes 2 f.y
      ∧ field (encodeFrame f) 11 4 = intBytes 4 f.temp ∧ field (encodeFrame f) 15 1 = leBytes 1 f.status.toNat := by
  simp [encodeFrame, withCrc]

/-- A sample frame as sent is read as it was. -/
theorem parseFrame_encodeFrame {f : Frame} (fits : f.fits) : parseFrame (encodeFrame f) = some f := by
  obtain ⟨seq, ⟨c0, c1⟩, ⟨x0, x1⟩, ⟨y0, y1⟩, t0, t1⟩ := fits
  have good : crcGood ((encodeFrame f).drop 1) = true := crcGood_withCrc _
  have status := f.status.isLt
  obtain ⟨seqAt, countsAt, xAt, yAt, tempAt, statusAt⟩ := encodeFrame_fields f
  rw [parseFrame, if_pos good, uAt_of_field seqAt seq, sAt_of_field countsAt (by omega) (by omega),
    sAt_of_field xAt (by omega) (by omega), sAt_of_field yAt (by omega) (by omega),
    sAt_of_field tempAt (by omega) (by omega), uAt_of_field statusAt (by omega), BitVec.ofNat_toNat, BitVec.setWidth_eq]

/-! ### OBS and REV (R199) -/

/-- Where the fields of an OBS stand. -/
theorem encodeObs_fields (o : Obs) :
    field (encodeRecord (.obs o)) 0 1 = leBytes 1 0xB2 ∧ field (encodeRecord (.obs o)) 1 2 = leBytes 2 o.series
      ∧ field (encodeRecord (.obs o)) 3 4 = leBytes 4 o.seq ∧ field (encodeRecord (.obs o)) 7 5 = leBytes 5 o.mid
      ∧ field (encodeRecord (.obs o)) 12 4 = intBytes 4 o.residual
      ∧ field (encodeRecord (.obs o)) 16 1 = leBytes 1 o.epoch ∧ field (encodeRecord (.obs o)) 17 1 = [o.flags] := by
  have flags : ∀ c : List Byte, field (o.flags :: c) 0 1 = [o.flags] := fun _ => rfl
  simp [encodeRecord, withCrc, flags]

/-- Where the fields of a REV stand. -/
theorem encodeRev_fields (r : Rev) :
    field (encodeRecord (.rev r)) 0 1 = leBytes 1 0xB3 ∧ field (encodeRecord (.rev r)) 1 2 = leBytes 2 r.series
      ∧ field (encodeRecord (.rev r)) 3 1 = leBytes 1 r.epoch ∧ field (encodeRecord (.rev r)) 4 4 = leBytes 4 r.fromSeq
      ∧ field (encodeRecord (.rev r)) 8 4 = intBytes 4 r.step := by
  simp [encodeRecord, withCrc]

/-- An OBS or REV as sent is read as it was. -/
theorem parseRecord_encodeRecord {r : PeerRecord} (fits : r.fits) : parseRecord (encodeRecord r) = some r := by
  have good : crcGood (encodeRecord r) = true := by
    cases r <;> exact crcGood_withCrc _
  cases r with
  | obs o =>
    obtain ⟨series, seq, mid, ⟨r0, r1⟩, epoch⟩ := fits
    obtain ⟨kindAt, seriesAt, seqAt, midAt, residualAt, epochAt, flagsAt⟩ := encodeObs_fields o
    have flags : uAt (encodeRecord (.obs o)) 17 1 = o.flags.toNat := by
      rw [uAt, flagsAt]
      simp [leNat]
    rw [parseRecord, good, Bool.not_true, if_neg Bool.false_ne_true, if_pos (uAt_of_field kindAt (by decide)),
      uAt_of_field seriesAt series, uAt_of_field seqAt seq, uAt_of_field midAt mid,
      sAt_of_field residualAt (by omega) (by omega), uAt_of_field epochAt epoch, flags, BitVec.ofNat_toNat, BitVec.setWidth_eq]
  | rev r =>
    obtain ⟨series, epoch, fromSeq, s0, s1⟩ := fits
    obtain ⟨kindAt, seriesAt, epochAt, fromSeqAt, stepAt⟩ := encodeRev_fields r
    have kind : uAt (encodeRecord (.rev r)) 0 1 = 0xB3 := uAt_of_field kindAt (by decide)
    rw [parseRecord, good, Bool.not_true, if_neg Bool.false_ne_true, kind, if_neg (by decide), if_pos rfl,
      uAt_of_field seriesAt series, uAt_of_field epochAt epoch, uAt_of_field fromSeqAt fromSeq,
      sAt_of_field stepAt (by omega) (by omega)]

/-- Twenty bytes are read by their kind, and a bad record is not (R91). -/
theorem parseRecord_bytes {bs : List Byte} (len : bs.length = 20) :
    (RecordBad bs → parseRecord bs = none)
      ∧ (¬ RecordBad bs →
        (uAt bs 0 1 = 0xB2 → parseRecord bs = some (.obs
          { series := uAt bs 1 2, seq := uAt bs 3 4, mid := uAt bs 7 5, residual := sAt bs 12 4, epoch := uAt bs 16 1
            flags := BitVec.ofNat 8 (uAt bs 17 1) }))
        ∧ (uAt bs 0 1 = 0xB3 → parseRecord bs = some (.rev
          { series := uAt bs 1 2, epoch := uAt bs 3 1, fromSeq := uAt bs 4 4, step := sAt bs 8 4 }))) := by
  have check : crcGood bs = true ↔ bs.drop 18 = crcBytes (bs.take 18) := crcGood_iff len
  unfold RecordBad parseRecord
  rw [not_or, not_not, ← check]
  refine ⟨fun bad => ?_, fun ⟨good, _⟩ => ⟨fun kind => ?_, fun kind => ?_⟩⟩
  · rcases bad with fails | ⟨obs, rev⟩
    · rw [Bool.eq_false_iff.mpr (mt check.mp fails), Bool.not_false, if_pos rfl]
    · rw [if_neg obs, if_neg rev, ite_self]
  · simp [good, kind]
  · simp [good, kind]

/-! ### HEAD (R81, R90, R199) -/

theorem Role.ofCode_code (r : Role) : Role.ofCode r.code = some r := by cases r <;> rfl

theorem OccState.ofCode_code (o : OccState) : OccState.ofCode o.code = some o := by cases o <;> rfl

/-- The codes 0 and 1 are those of the roles. -/
theorem Role.exists_code {n : Nat} (h : n ≤ 1) : ∃ r : Role, r.code = n := by
  interval_cases n
  · exact ⟨.rover, rfl⟩
  · exact ⟨.base, rfl⟩

/-- The codes 0 to 3 are those of the occupation states. -/
theorem OccState.exists_code {n : Nat} (h : n ≤ 3) : ∃ o : OccState, o.code = n := by
  interval_cases n
  · exact ⟨.idle, rfl⟩
  · exact ⟨.settling, rfl⟩
  · exact ⟨.recording, rfl⟩
  · exact ⟨.waiting, rfl⟩

theorem headTbState_code {t : TbState} (h : t = .locked ∨ t = .holdover) : headTbState t.code = some t := by
  rcases h with rfl | rfl <;> rfl

/-- The codes 1 and 2 are those of the time-base states that a HEAD may carry. -/
theorem TbState.exists_headCode {n : Nat} (h : n = 1 ∨ n = 2) : ∃ t : TbState, (t = .locked ∨ t = .holdover) ∧ t.code = n := by
  rcases h with rfl | rfl
  · exact ⟨.locked, .inl rfl, rfl⟩
  · exact ⟨.holdover, .inr rfl, rfl⟩

theorem headTbState_some {n : Nat} {t : TbState} (h : headTbState n = some t) : n = 1 ∨ n = 2 := by
  unfold headTbState at h
  split at h
  · exact .inl rfl
  · exact .inr rfl
  · cases h

theorem OccState.ofCode_some {n : Nat} {o : OccState} (h : OccState.ofCode n = some o) : n ≤ 3 := by
  unfold OccState.ofCode at h
  split at h
  case h_5 => cases h
  all_goals decide

/-- Where the fields of a HEAD stand. -/
theorem encodeHead_fields (h : Head) :
    field (encodeHead h) 0 1 = leBytes 1 0xB1 ∧ field (encodeHead h) 1 1 = leBytes 1 h.sender
      ∧ field (encodeHead h) 2 1 = leBytes 1 h.role.code ∧ field (encodeHead h) 3 1 = leBytes 1 (h.tbState.code + 16)
      ∧ field (encodeHead h) 4 1 = leBytes 1 h.occState.code ∧ field (encodeHead h) 5 2 = leBytes 2 h.cycle
      ∧ field (encodeHead h) 7 1 = leBytes 1 h.epoch ∧ field (encodeHead h) 8 1 = leBytes 1 h.count
      ∧ field (encodeHead h) 9 3 = leBytes 3 h.homeId ∧ field (encodeHead h) 12 4 = intBytes 4 h.easting
      ∧ field (encodeHead h) 16 4 = intBytes 4 h.northing ∧ field (encodeHead h) 20 4 = intBytes 4 h.height
      ∧ field (encodeHead h) 24 4 = leBytes 4 h.latestObs := by
  simp [encodeHead, withCrc, NodeState.code]

/-- A HEAD as sent is read as it was. -/
theorem parseHead_encodeHead {h : Head} (fits : h.fits) : parseHead (encodeHead h) = some h := by
  obtain ⟨⟨s0, s1⟩, tb, cycle, epoch, count, home, ⟨e0, e1⟩, ⟨n0, n1⟩, ⟨h0, h1⟩, latest⟩ := fits
  obtain ⟨kindAt, senderAt, roleAt, stateAt, occAt, cycleAt, epochAt, countAt, homeAt, eastingAt, northingAt, heightAt,
    latestAt⟩ := encodeHead_fields h
  have good : crcGood (encodeHead h) = true := crcGood_withCrc _
  have small : h.tbState.code < 16 := by cases h.tbState <;> decide
  have kind : uAt (encodeHead h) 0 1 = 0xB1 := uAt_of_field kindAt (by decide)
  have sender : uAt (encodeHead h) 1 1 = h.sender := uAt_of_field senderAt (by omega)
  have role : uAt (encodeHead h) 2 1 = h.role.code := uAt_of_field roleAt (by cases h.role <;> decide)
  have state : uAt (encodeHead h) 3 1 = h.tbState.code + 16 := uAt_of_field stateAt (by omega)
  have occ : uAt (encodeHead h) 4 1 = h.occState.code := uAt_of_field occAt (by cases h.occState <;> decide)
  have records : uAt (encodeHead h) 8 1 = h.count := uAt_of_field countAt (by omega)
  have running : (h.tbState.code + 16) / 16 = 1 := by omega
  rw [parseHead, role, Role.ofCode_code, state, show (h.tbState.code + 16) % 16 = h.tbState.code by omega,
    headTbState_code tb, occ, OccState.ofCode_code]
  simp only
  rw [if_pos (by simp [good, kind, sender, records, running, s0, s1, count, NodeState.code]), sender, records,
    uAt_of_field cycleAt cycle, uAt_of_field epochAt epoch, uAt_of_field homeAt home,
    sAt_of_field eastingAt (by omega) (by omega), sAt_of_field northingAt (by omega) (by omega),
    sAt_of_field heightAt (by omega) (by omega), uAt_of_field latestAt latest]

/-- A bad HEAD is read as none (R90). -/
theorem parseHead_bad {bs : List Byte} (len : bs.length = 30) (bad : HeadBad bs) : parseHead bs = none := by
  have check : crcGood bs = true ↔ bs.drop 28 = crcBytes (bs.take 28) := crcGood_iff len
  cases read : parseHead bs with
  | none => rfl
  | some h =>
    exfalso
    unfold parseHead at read
    split at read
    · rename_i role tb occ roleRead tbRead occRead
      split at read
      · rename_i good
        simp only [Bool.and_eq_true, decide_eq_true_eq] at good
        obtain ⟨⟨⟨⟨⟨good, kind⟩, low⟩, high⟩, node⟩, count⟩ := good
        have node : uAt bs 3 1 / 16 = 1 := node
        have roleKnown : uAt bs 2 1 ≤ 1 := (Role.ofCode_isSome _).mp (by rw [roleRead]; rfl)
        have tbKnown : uAt bs 3 1 % 16 = 1 ∨ uAt bs 3 1 % 16 = 2 := headTbState_some tbRead
        have occKnown : uAt bs 4 1 ≤ 3 := OccState.ofCode_some occRead
        rcases bad with h | h | h | h | h | ⟨h, h'⟩ | h | h | h
        · exact h (check.mp good)
        all_goals omega
      · cases read
    · cases read

/-- The HEAD that thirty bytes hold, its coded fields given (R199). -/
def headFields (bs : List Byte) (role : Role) (tb : TbState) (occ : OccState) : Head :=
  { sender := uAt bs 1 1, role := role, tbState := tb, occState := occ, cycle := uAt bs 5 2, epoch := uAt bs 7 1
    count := uAt bs 8 1, homeId := uAt bs 9 3, easting := sAt bs 12 4, northing := sAt bs 16 4, height := sAt bs 20 4
    latestObs := uAt bs 24 4 }

/-- Thirty bytes that are no bad HEAD are one as sent (R81, R90). -/
theorem exists_encodeHead {bs : List Byte} (len : bs.length = 30) (good : ¬ HeadBad bs) :
    ∃ h : Head, h.fits ∧ bs = encodeHead h := by
  unfold HeadBad at good
  simp only [not_or, not_and_or, not_not, not_lt] at good
  obtain ⟨check, kind, low, high, role, tb, node, occ, count⟩ := good
  obtain ⟨role, roleCode⟩ := Role.exists_code role
  obtain ⟨occ, occCode⟩ := OccState.exists_code occ
  obtain ⟨tb, tbKnown, tbCode⟩ := TbState.exists_headCode tb
  have u : ∀ off size, off + size ≤ 30 → leBytes size (uAt bs off size) = field bs off size := fun _ _ within =>
    leBytes_uAt (by omega)
  have i : ∀ off size, off + size ≤ 30 → intBytes size (sAt bs off size) = field bs off size := fun _ _ within =>
    intBytes_sAt (by omega)
  have sent : encodeHead (headFields bs role tb occ) = withCrc (bs.take 28) := by
    have state : tb.code + 16 * NodeState.running.code = uAt bs 3 1 := by
      rw [tbCode, NodeState.code]
      omega
    unfold encodeHead headFields
    simp only
    rw [state, ← kind, roleCode, occCode,
      u 0 1 (by decide), u 1 1 (by decide), u 2 1 (by decide), u 3 1 (by decide), u 4 1 (by decide), u 5 2 (by decide),
      u 7 1 (by decide), u 8 1 (by decide), u 9 3 (by decide), i 12 4 (by decide), i 16 4 (by decide), i 20 4 (by decide),
      u 24 4 (by decide)]
    simp only [field_append, Nat.reduceAdd]
    rfl
  refine ⟨headFields bs role tb occ, ?_, ?_⟩
  · exact ⟨⟨Nat.pos_of_ne_zero low, high⟩, tbKnown, uAt_lt bs 5 2, uAt_lt bs 7 1, count, uAt_lt bs 9 3, sAt_four bs 12,
      sAt_four bs 16, sAt_four bs 20, uAt_lt bs 24 4⟩
  · rw [sent, withCrc, ← check, List.take_append_drop]

/-- Settles O48: HEADs, records and frames as sent are read as they were, and of any bytes the good ones are. -/
theorem peerAndSensorRoundTrip : Obligations.PeerAndSensorRoundTrip := by
  refine ⟨fun h fits => ⟨parseHead_encodeHead fits, ?_⟩, fun r fits => ⟨parseRecord_encodeRecord fits, ?_⟩,
    fun f fits => ⟨parseFrame_encodeFrame fits, ?_⟩, fun bs len => ⟨parseHead_bad len, exists_encodeHead len⟩,
    fun bs len => parseRecord_bytes len⟩
  · simp [encodeHead, withCrc]
  · cases r <;> simp [encodeRecord, withCrc]
  · simp [encodeFrame, withCrc]

end Sys2Proof.Machine
end

