-- ==== Sys2Proof/Proofs/SampleFrames.lean ====
section
/-! PROOF. O14, O15 and O19: what a frame does to the intake and which reports it brings, from the bytes at the sensor port to the
controller (R16 to R18, R21 to R28, R31, R198), and the tilt gate (R22). -/

namespace Sys2Proof.Machine

variable {smp : Sampling} {ins : Instrument} {osc stamp : Nat} {i : Intake} {f : Frame}

/-! ### Runs of missing arrivals (R17, R27) -/

/-- An open intake after `n` missing arrivals within its block. -/
def Intake.missed (i : Intake) (n : Nat) : Intake :=
  { i with counter := i.counter - n, rejects := { i.rejects with missing := i.rejects.missing + n } }

theorem Intake.missed_missed (i : Intake) (a b : Nat) : (i.missed a).missed b = i.missed (a + b) := by
  simp only [Intake.missed, Nat.sub_sub, Nat.add_assoc]

/-- Missing arrivals that do not end the block. -/
theorem missing_within (opened : i.isOpen = true) {n : Nat} (more : n < i.counter) :
    (List.replicate n .missing).foldl (arrive smp ins stamp) (i, []) = (i.missed n, []) := by
  induction n with
  | zero => rfl
  | succ n ih =>
    rw [List.replicate_succ', List.foldl_append, ih (by omega), List.foldl_cons, List.foldl_nil,
      arrive_within (by exact opened), Intake.accumulate_missing]
    · exact congrArg (·, _) (i.missed_missed n 1)
    · show i.counter - n - 1 ≠ 0
      omega

/-- Missing arrivals up to the block's end (R25, R27). -/
theorem missing_last (opened : i.isOpen = true) (some_ : 0 < i.counter) :
    (List.replicate i.counter .missing).foldl (arrive smp ins stamp) (i, [])
      = ((i.missed i.counter).afterBlock smp, [(i.missed i.counter).report smp stamp]) := by
  obtain ⟨n, hn⟩ : ∃ n, i.counter = n + 1 := ⟨i.counter - 1, by omega⟩
  have last : (i.missed n).accumulate ins stamp .missing = i.missed (n + 1) := i.missed_missed n 1
  rw [hn, List.replicate_succ', List.foldl_append, missing_within opened (by omega), List.foldl_cons, List.foldl_nil,
    arrive_last (by exact opened), last]
  · rfl
  · rw [last]
    show i.counter - (n + 1) = 0
    omega

/-! ### A frame's arrivals (R17, R28, R31) -/

/-- The intake as a valid frame is heard: the expectation set, the sensor PRESENT, the silence expiry rearmed (R17, R28, R31). -/
def Intake.heard (i : Intake) (osc : Nat) (f : Frame) : Intake :=
  { i with expect := some ((f.seq + 1) % 256), sensor := .present, silenceAt := some (osc + 5000) }

/-- A frame taken: its gap, then its own arrival. -/
theorem Intake.takeFrame_eq (smp : Sampling) (ins : Instrument) (osc stamp : Nat) (i : Intake) (f : Frame) :
    i.takeFrame smp ins osc stamp f
      = (List.replicate (gapOf i.expect f.seq) Arrival.missing ++ [Arrival.own f]).foldl (arrive smp ins stamp) (i.heard osc f, []) := rfl

theorem Intake.takeFrame_closed (closed : i.isOpen = false) : i.takeFrame smp ins osc stamp f = (i.heard osc f, []) :=
  arrivals_closed (by exact closed) _

/-- The sequence expectation does not bear on an arrival. -/
theorem Intake.accumulate_expect (ins : Instrument) (stamp : Nat) (i : Intake) (a : Arrival) (e : Option Nat) :
    ({ i with expect := e } : Intake).accumulate ins stamp a = { i.accumulate ins stamp a with expect := e } := by
  unfold Intake.accumulate
  simp only
  split <;> rfl

/-- A frame's own arrival gated and accumulated, whatever the expectation (R21 to R24). -/
theorem Intake.accumulate_frame (ins : Instrument) (stamp : Nat) (i : Intake) (f : Frame) :
    i.accumulate ins stamp (.own f) =
      { i with
        counter := i.counter - 1, sums := f.summed ins stamp i, rejects := f.rejected ins { i with expect := none }
        shockRef := f.reference ins i } := by
  have own := Intake.accumulate_own ins stamp { i with expect := none } f rfl
  calc i.accumulate ins stamp (.own f)
      = { ({ i with expect := none } : Intake).accumulate ins stamp (.own f) with expect := i.expect } :=
        Intake.accumulate_expect ins stamp { i with expect := none } (.own f) i.expect
    _ = _ := by
      rw [own]
      rfl

/-- The block after a frame's arrivals that its gap does not end (R21 to R24). -/
def Intake.counted (i : Intake) (ins : Instrument) (osc stamp : Nat) (f : Frame) : Intake :=
  { i.heard osc f with
    counter := i.counter - gapOf i.expect f.seq - 1, sums := f.summed ins stamp i, rejects := f.rejected ins i
    shockRef := f.reference ins i }

theorem Intake.accumulate_counted (ins : Instrument) (osc stamp : Nat) (i : Intake) (f : Frame) :
    ((i.heard osc f).missed (gapOf i.expect f.seq)).accumulate ins stamp (.own f) = i.counted ins osc stamp f :=
  Intake.accumulate_frame ..

/-- On an open intake whose block the gap does not end, the gap counts as missing, and the own arrival follows. -/
theorem Intake.takeFrame_open (opened : i.isOpen = true) (more : gapOf i.expect f.seq < i.counter) :
    i.takeFrame smp ins osc stamp f
      = arrive smp ins stamp ((i.heard osc f).missed (gapOf i.expect f.seq), []) (.own f) := by
  rw [Intake.takeFrame_eq, List.foldl_append, missing_within (by exact opened) (by exact more), List.foldl_cons, List.foldl_nil]

/-- No block ends. -/
theorem Intake.takeFrame_within (opened : i.isOpen = true) (more : gapOf i.expect f.seq + 1 < i.counter) :
    i.takeFrame smp ins osc stamp f = (i.counted ins osc stamp f, []) := by
  have counted := i.accumulate_counted ins osc stamp f
  rw [Intake.takeFrame_open opened (by omega), arrive_within (by exact opened), counted]
  rw [counted]
  show i.counter - _ - 1 ≠ 0
  omega

/-- The own arrival ends the block (R25). -/
theorem Intake.takeFrame_last (opened : i.isOpen = true) (last : i.counter = gapOf i.expect f.seq + 1) :
    i.takeFrame smp ins osc stamp f
      = ((i.counted ins osc stamp f).afterBlock smp, [(i.counted ins osc stamp f).report smp stamp]) := by
  have counted := i.accumulate_counted ins osc stamp f
  rw [Intake.takeFrame_open opened (by omega), arrive_last (by exact opened), counted]
  · rfl
  · rw [counted]
    show i.counter - _ - 1 = 0
    omega

/-- The missing arrivals reach the block's end: its report, and the frame with the rest of its gap on the intake that the block's
end left (R27). -/
theorem Intake.takeFrame_gap {e : Nat} (seq : f.seq < 256) (expected : e < 256) (opened : i.isOpen = true)
    (expect : i.expect = some e) (some_ : 0 < i.counter) (ends : i.counter ≤ gapOf (some e) f.seq) {j : Intake}
    (left : j = { (i.missed i.counter).afterBlock smp with expect := some ((e + i.counter) % 256) }) :
    i.takeFrame smp ins osc stamp f =
      ((j.takeFrame smp ins osc stamp f).1, (i.missed i.counter).report smp stamp :: (j.takeFrame smp ins osc stamp f).2) := by
  have rest : gapOf i.expect f.seq = i.counter + gapOf j.expect f.seq := by
    rw [expect, left]
    unfold gapOf at ends ⊢
    simp only at ends ⊢
    omega
  have heard : ((i.heard osc f).missed i.counter).afterBlock smp = j.heard osc f := by
    rw [left, Intake.afterBlock_eq _ _ (by exact opened), Intake.afterBlock_eq _ _ (by exact opened)]
    rfl
  have ended : (List.replicate i.counter Arrival.missing).foldl (arrive smp ins stamp) (i.heard osc f, [])
      = (j.heard osc f, [(i.missed i.counter).report smp stamp]) := by
    rw [← heard]
    exact missing_last (i := i.heard osc f) opened some_
  rw [Intake.takeFrame_eq, rest, List.replicate_add, List.append_assoc, List.foldl_append, ended, arrivals_reports]
  rfl

/-! ### Bytes at the sensor port (R16, R198) -/

/-- A whole frame with its length right brings itself, if its check is. -/
theorem sensorFeed_frame (n : Nat) {bs : List Byte} (len : bs.length = 16) :
    sensorFeed (n + 2) (0xA7#8 :: 14#8 :: bs) = ((parseFrame (0xA7#8 :: 14#8 :: bs)).toList, []) := by
  have whole : bs.take 16 = bs := List.take_of_length_le (by omega)
  have none_left : bs.drop 16 = [] := List.drop_eq_nil_of_le (by omega)
  simp only [sensorFeed, ne_eq, not_true_eq_false, if_false, whole, none_left, if_neg (show ¬ bs.length < 16 by omega)]
  cases parseFrame (0xA7#8 :: 14#8 :: bs) <;> rfl

/-- Bytes at a receiver that holds none. -/
theorem exec_sampleFrame {s : State} {bytes rest : List Byte} {fs : List Frame} (rx : s.intake.rx = [])
    (feed : sensorFeed (bytes.length + 1) bytes = (fs, rest)) :
    exec (.sampleFrame bytes) s = .next (fs.foldl State.takeSensorFrame
      { s with intake := { s.intake with rx := rest, rxLast := s.osc } }).serve := by
  show Host.Outcome.next (s.sensorBytes bytes).serve = _
  simp only [State.sensorBytes, rx, List.nil_append, feed]
  rfl

/-- A garbled frame leaves the intake as it was but for the time of its last byte (R16). -/
theorem exec_garbled {s : State} {bytes : List Byte} (rx : s.intake.rx = [])
    (feed : sensorFeed (bytes.length + 1) bytes = ([], [])) :
    exec (.sampleFrame bytes) s = .next { s with intake := { s.intake with rxLast := s.osc } }.serve := by
  rw [exec_sampleFrame rx feed, ← rx]
  rfl

/-- A valid frame at a receiver that holds no bytes: the intake takes it, and the controller its reports (R16, R25, R27). -/
theorem exec_encodeFrame {s : State} (fits : f.fits) (rx : s.intake.rx = []) :
    exec (.sampleFrame (encodeFrame f)) s =
      .next ((({ s.intake with rxLast := s.osc } : Intake).takeFrame s.sampling s.instrument s.osc s.tb.nodeTime f).2.foldl
        State.takeReport
        { s with intake :=
          (({ s.intake with rxLast := s.osc } : Intake).takeFrame s.sampling s.instrument s.osc s.tb.nodeTime f).1 }).serve := by
  have feed : sensorFeed ((encodeFrame f).length + 1) (encodeFrame f) = ([f], []) := by
    have fed := sensorFeed_frame 17 (bs := (encodeFrame f).drop 2) rfl
    rw [show 0xA7#8 :: 14#8 :: (encodeFrame f).drop 2 = encodeFrame f from rfl, parseFrame_encodeFrame fits] at fed
    exact fed
  rw [exec_sampleFrame rx feed, ← rx]
  rfl

/-! ### The statements -/

/-- Settles O14: garbled frames by the receiver (`exec_garbled`), valid ones by their arrivals (`Intake.takeFrame_closed`,
`Intake.takeFrame_within`). -/
theorem sampleFrameTaken : Obligations.SampleFrameTaken := by
  refine ⟨fun s p c rx plen clen wrong => ?_, fun s n rx length => ?_, fun s f fits rx closed => ?_,
    fun s f fits rx opened more => ?_⟩
  · have fails : parseFrame (0xA7#8 :: 14#8 :: (p ++ c)) = none := if_neg (mt (crcGood_append clen).mp wrong)
    have fed := sensorFeed_frame 17 (bs := p ++ c) (by rw [List.length_append, plen, clen])
    rw [fails] at fed
    refine exec_garbled rx ?_
    rw [show (0xA7#8 :: 14#8 :: (p ++ c)).length + 1 = 17 + 2 by simp [plen, clen], fed]
    rfl
  · exact exec_garbled rx (by simp [sensorFeed, length])
  · rw [exec_encodeFrame fits rx, Intake.takeFrame_closed (by exact closed)]
    rfl
  · rw [exec_encodeFrame fits rx, Intake.takeFrame_within (by exact opened) (by exact more)]
    rfl

/-- Settles O15: the own arrival ends the block (`Intake.takeFrame_last`), the gap does (`Intake.takeFrame_gap`), no block ends
(`Intake.takeFrame_within`), the intake is closed; and the controller takes the reports after all arrivals
(`exec_encodeFrame`). -/
theorem blockEnds : Obligations.BlockEnds := by
  refine ⟨fun s f n fits rx opened last sums => ?_, fun smp ins osc stamp i j f e seq expected opened expect some_ ends left => ?_,
    fun smp ins osc stamp i heard f n heardEq sums => ⟨fun opened last => ?_, fun opened more => ?_, fun closed => ?_⟩,
    fun s f r fits rx taken => ?_⟩
  · rw [exec_encodeFrame fits rx, Intake.takeFrame_last (by exact opened) (by exact last),
      Intake.afterBlock_eq _ _ (by exact opened), sums]
    rfl
  · refine Intake.takeFrame_gap seq expected opened expect some_ ends ?_
    rw [left, Intake.afterBlock_eq _ _ (by exact opened)]
    rfl
  · rw [Intake.takeFrame_last opened last, Intake.afterBlock_eq _ _ (by exact opened), heardEq, sums]
    rfl
  · rw [Intake.takeFrame_within opened more, heardEq, sums]
    rfl
  · rw [Intake.takeFrame_closed closed, heardEq]
    rfl
  · rw [exec_encodeFrame fits rx, ← taken]

/-! ### The tilt gate (R22) -/

theorem tiltFails_iff (ins : Instrument) (f : Frame) :
    tiltFails ins f = true ↔ (ins.tiltGate : Int) < |f.x - ins.ox| ∨ (ins.tiltGate : Int) < |f.y - ins.oy| := by
  rw [tiltFails_eq, Frame.tilted, Bool.or_eq_true, decide_eq_true_iff, decide_eq_true_iff]

/-- A frame that passes the tilt gate lies within Gt of both offsets. -/
theorem tiltFails_eq_false_iff (ins : Instrument) (f : Frame) :
    tiltFails ins f = false ↔ |f.x - ins.ox| ≤ ins.tiltGate ∧ |f.y - ins.oy| ≤ ins.tiltGate := by
  rw [← Bool.not_eq_true, tiltFails_iff, not_or, not_lt, not_lt]

/-- An accepted arrival has passed the tilt gate (R21). -/
theorem tiltFails_of_gate {ins : Instrument} {ref : Option Int} {f : Frame} (accepted : gate ins ref (.own f) = none) :
    tiltFails ins f = false := by
  rw [gate_own] at accepted
  rw [tiltFails_eq]
  split at accepted
  · cases accepted
  · split at accepted
    · cases accepted
    · exact Bool.eq_false_iff.mpr ‹_›

/-- Settles O19, from the gate's two tests (`tiltFails_iff`). -/
theorem tiltGate : Obligations.TiltGate := by
  refine ⟨tiltFails_iff, fun ins f gate offset y => ?_, fun ins x x0 x1 o0 o1 => ?_, fun ins ref f accepted => ?_⟩
  · rw [tiltFails_eq_false_iff, gate, offset, abs_le]
    refine ⟨fun ⟨⟨low, high⟩, _⟩ => ⟨by omega, by omega⟩, fun ⟨low, high⟩ => ⟨⟨by omega, by omega⟩, y⟩⟩
  · rw [abs_le]
    omega
  · exact (tiltFails_eq_false_iff ins f).mp (tiltFails_of_gate accepted)

end Sys2Proof.Machine
end

