-- ==== Sys2Proof/Proofs/SensorLosses.lean ====
section
/-! PROOF. O18: the byte timeout and the silence of the sensor, and the ending that a lost sensor brings (R16, R28 to R30, R51,
R195). -/

namespace Sys2Proof.Machine

variable {s : State}

/-! ### What has come due -/

theorem State.sensorByteDue_iff (s : State) :
    s.sensorByteDue = true ↔ s.intake.rx ≠ [] ∧ s.intake.rxLast + byteLimit s.period < s.osc := by
  simp [State.sensorByteDue]

theorem exec_silenceExpiry_due {t : Nat} (armed : s.intake.silenceAt = some t) (due : t ≤ s.osc) :
    exec .silenceExpiry s = .next s.takeSilence.serve := by
  have fallen : s.silenceDue = true := by simp [State.silenceDue, armed, due]
  exact congrArg Host.Outcome.next (if_pos fallen)

/-! ### The intake after the silence expiry -/

theorem Intake.closed_of_closed {i : Intake} (closed : i.isOpen = false) : i.closed = i := by
  rw [← Intake.shut_eq_closed, Intake.shut, closed]
  rfl

/-- A sensor that was PRESENT is ABSENT, and SENSOR_LOST is told to the controller (R28, R29). -/
theorem State.takeSilence_present (present : s.intake.sensor = .present) :
    s.takeSilence
      = (s.setIntake { s.intake.closed with silenceAt := none, sensor := .absent, expect := none }).sensorLost := by
  unfold State.takeSilence
  simp only [present]
  exact congrArg (fun i => (s.setIntake i).sensorLost)
    (Intake.shut_eq_closed { s.intake with silenceAt := none, sensor := .absent, expect := none })

/-- An ABSENT sensor is told to be lost again for an open intake alone (R30). -/
theorem State.takeSilence_absent (absent : s.intake.sensor = .absent) :
    s.takeSilence = if s.intake.isOpen then (s.setIntake { s.intake.closed with silenceAt := none }).sensorLost
      else s.setIntake { s.intake.closed with silenceAt := none } := by
  unfold State.takeSilence
  simp only
  split
  · rename_i present
    simp [absent] at present
  · split
    · exact congrArg (fun i => (s.setIntake i).sensorLost) (Intake.shut_eq_closed { s.intake with silenceAt := none })
    · rename_i closed
      rw [Intake.closed_of_closed (by simpa using closed)]

/-! ### SENSOR_LOST at the controller (R51) -/

theorem State.sensorLost_idle (idle : s.ctl.state = .idle) : s.sensorLost = s := if_pos idle

theorem State.sensorLost_aborts (busy : s.ctl.state ≠ .idle) (kept : s.ctl.kept = 0) :
    s.sensorLost = s.abortedBy .sensorLost s.tb.nodeTime := by
  rw [State.sensorLost, if_neg busy, if_pos kept, State.endOccupation_aborted]

theorem State.sensorLost_reduces (busy : s.ctl.state ≠ .idle) (kept : s.ctl.kept ≠ 0) (sound : LogSound s) :
    ReducedEnding s s.sensorLost { s.ctl.flags with noisy := true } s.tb.nodeTime := by
  rw [State.sensorLost, if_neg busy, if_neg kept]
  exact reducedEnding_of sound busy flagNoisy s.tb.nodeTime

/-- Settles O18: what has come due is discarded or tells the controller that the sensor is lost (`State.takeSilence_present`,
`State.takeSilence_absent`), which ends an occupation in progress (`State.sensorLost_aborts`, `State.sensorLost_reduces`). -/
theorem sensorLoss : Obligations.SensorLoss := by
  refine ⟨⟨fun s bytes late => ?_, fun s t armed due => ⟨fun present idle => ?_, fun absent still => ?_⟩⟩,
    fun s s1 t armed due busy lost => ?_⟩
  · exact congrArg Host.Outcome.next (if_pos ((s.sensorByteDue_iff).mpr ⟨bytes, late⟩))
  · rw [exec_silenceExpiry_due armed due, State.takeSilence_present present, State.sensorLost_idle (by exact idle)]
    rfl
  · rw [exec_silenceExpiry_due armed due, State.takeSilence_absent absent]
    split
    · rename_i opened
      rw [State.sensorLost_idle (by exact still.resolve_right (by simp [opened]))]
      rfl
    · rfl
  · have taken : s.takeSilence = s1.sensorLost := by
      rcases lost with ⟨present, rfl⟩ | ⟨absent, opened, rfl⟩
      · exact State.takeSilence_present present
      · rw [State.takeSilence_absent absent, if_pos opened]
        rfl
    have same : s1.ctl = s.ctl ∧ s1.eng = s.eng ∧ s1.tb = s.tb := by
      rcases lost with ⟨-, rfl⟩ | ⟨-, -, rfl⟩ <;> exact ⟨rfl, rfl, rfl⟩
    obtain ⟨ctl, eng, tb⟩ := same
    rw [exec_silenceExpiry_due armed due, taken, ← ctl, ← tb]
    rw [← ctl] at busy
    refine ⟨fun kept => by rw [State.sensorLost_aborts busy kept], fun kept sound => ⟨_, rfl, ?_⟩⟩
    refine State.sensorLost_reduces busy kept ?_
    unfold LogSound at sound ⊢
    rwa [eng, ctl]

end Sys2Proof.Machine
end

