-- ==== Sys2Proof/Proofs/LoggerFormats.lean ====
section
/-! PROOF. O49: parts of the image and headers as the logger sends them are read as they were, and of any bytes the first field
out of range is named. Each payload is a run of fields (R200), whose checks are those of the statements (R35, R188). -/

namespace Sys2Proof.Machine

/-! ### Fields (R196) -/

/-- All the bytes as a field. -/
@[simp] theorem field_all {a : List Byte} {size : Nat} (len : a.length = size) : field a 0 size = a := by
  rw [field, List.drop_zero, ← len, List.take_length]

/-! ### Checks that all succeed (R35, R188) -/

theorem firstBad_of_all {l : List Bool} (good : l.all id = true) (k : Nat) : firstBad k l = none := by
  induction l generalizing k with
  | nil => rfl
  | cons ok l ih =>
    rw [List.all_cons, Bool.and_eq_true] at good
    rw [firstBad, if_pos (by exact good.1), ih good.2]

theorem zipWith_and_all {codes ranges : List Bool} (known : codes.all id = true) (within : ranges.all id = true) :
    (List.zipWith (· && ·) codes ranges).all id = true := by
  induction codes generalizing ranges with
  | nil => rfl
  | cons c codes ih =>
    cases ranges with
    | nil => rfl
    | cons r ranges =>
      rw [List.all_cons, Bool.and_eq_true] at known within
      rw [List.zipWith_cons_cons, List.all_cons, ih known.2 within.2]
      simpa using And.intro known.1 within.1

/-- A part whose codes are known and whose values are in range is read. -/
theorem checkFields_good {α : Type} {codes ranges : List Bool} (known : codes.all id = true) (within : ranges.all id = true)
    (a : α) : checkFields codes ranges a = .ok a := by
  rw [checkFields, firstBad_of_all (zipWith_and_all known within)]

/-! ### Codes (R197) -/

theorem TriggerSource.ofCode_code (x : TriggerSource) : TriggerSource.ofCode x.code = some x := by cases x <;> rfl

theorem TideMode.ofCode_code (x : TideMode) : TideMode.ofCode x.code = some x := by cases x <;> rfl

theorem TideRequest.ofCode_code (x : TideRequest) : TideRequest.ofCode x.code = some x := by cases x <;> rfl

theorem Mode.ofCode_code (x : Mode) : Mode.ofCode x.code = some x := by cases x <;> rfl

theorem markOf_markCode (x : Bool) : markOf (markCode x) = some x := by cases x <;> rfl

theorem Role.code_lt (x : Role) : x.code < 256 ^ 1 := by cases x <;> decide

theorem TriggerSource.code_lt (x : TriggerSource) : x.code < 256 ^ 1 := by cases x <;> decide

theorem TideMode.code_lt (x : TideMode) : x.code < 256 ^ 1 := by cases x <;> decide

theorem TideRequest.code_lt (x : TideRequest) : x.code < 256 ^ 1 := by cases x <;> decide

theorem Mode.code_lt (x : Mode) : x.code < 256 ^ 1 := by cases x <;> decide

theorem markCode_lt (x : Bool) : markCode x < 256 ^ 1 := by cases x <;> decide

/-! ### The parts of the image (R188, R189, R200) -/

theorem Identity.payload_fields (x : Identity) :
    field (x.payload.drop 1) 0 1 = leBytes 1 x.nodeId ∧ field (x.payload.drop 1) 1 1 = leBytes 1 x.role.code
      ∧ field (x.payload.drop 1) 2 1 = leBytes 1 x.trigger.code := by
  simp [Identity.payload]

theorem parseIdentity_payload {x : Identity} (within : x.ranges.all id = true) : parseIdentity (x.payload.drop 1) = .ok x := by
  obtain ⟨nodeIdAt, roleAt, triggerAt⟩ := x.payload_fields
  have bounds := within
  simp [Identity.ranges, inRange_iff] at bounds
  simp only [parseIdentity, uAt_of_field nodeIdAt (by omega), uAt_of_field roleAt x.role.code_lt,
    uAt_of_field triggerAt x.trigger.code_lt, Role.ofCode_code, TriggerSource.ofCode_code, Option.getD_some, Option.isSome_some]
  exact checkFields_good rfl within x

theorem Schedule.payload_fields (x : Schedule) :
    field (x.payload.drop 1) 0 4 = leBytes 4 x.epoch ∧ field (x.payload.drop 1) 4 1 = leBytes 1 x.slots
      ∧ field (x.payload.drop 1) 5 2 = leBytes 2 x.slotLength ∧ field (x.payload.drop 1) 7 4 = leBytes 4 x.txMask.toNat
      ∧ field (x.payload.drop 1) 11 4 = leBytes 4 x.rxMask.toNat := by
  simp [Schedule.payload]

theorem parseSchedule_payload {x : Schedule} (within : x.ranges.all id = true) : parseSchedule (x.payload.drop 1) = .ok x := by
  obtain ⟨epochAt, slotsAt, lengthAt, txAt, rxAt⟩ := x.payload_fields
  have bounds := within
  simp [Schedule.ranges, inRange_iff] at bounds
  simp only [parseSchedule, uAt_of_field epochAt (by omega), uAt_of_field slotsAt (by omega), uAt_of_field lengthAt (by omega),
    uAt_of_field txAt (by omega), uAt_of_field rxAt (by omega), BitVec.ofNat_toNat, BitVec.setWidth_eq]
  exact checkFields_good rfl within x

theorem Sampling.payload_fields (x : Sampling) :
    field (x.payload.drop 1) 0 2 = leBytes 2 x.period ∧ field (x.payload.drop 1) 2 2 = leBytes 2 x.blockLength
      ∧ field (x.payload.drop 1) 4 2 = leBytes 2 x.minAccepted ∧ field (x.payload.drop 1) 6 1 = leBytes 1 x.retakeLimit
      ∧ field (x.payload.drop 1) 7 1 = leBytes 1 x.blockCount ∧ field (x.payload.drop 1) 8 2 = leBytes 2 x.settle
      ∧ field (x.payload.drop 1) 10 2 = leBytes 2 x.stepWait := by
  simp [Sampling.payload]

theorem parseSampling_payload {x : Sampling} (within : x.ranges.all id = true) : parseSampling (x.payload.drop 1) = .ok x := by
  obtain ⟨periodAt, lengthAt, acceptedAt, retakeAt, countAt, settleAt, waitAt⟩ := x.payload_fields
  have bounds := within
  simp [Sampling.ranges, inRange_iff] at bounds
  simp only [parseSampling, uAt_of_field periodAt (by omega), uAt_of_field lengthAt (by omega),
    uAt_of_field acceptedAt (by omega), uAt_of_field retakeAt (by omega), uAt_of_field countAt (by omega),
    uAt_of_field settleAt (by omega), uAt_of_field waitAt (by omega)]
  exact checkFields_good rfl within x

theorem Instrument.payload_fields (x : Instrument) :
    field (x.payload.drop 1) 0 4 = leBytes 4 x.scale ∧ field (x.payload.drop 1) 4 4 = intBytes 4 x.offset
      ∧ field (x.payload.drop 1) 8 2 = intBytes 2 x.ox ∧ field (x.payload.drop 1) 10 2 = intBytes 2 x.oy
      ∧ field (x.payload.drop 1) 12 2 = leBytes 2 x.tiltGate ∧ field (x.payload.drop 1) 14 4 = leBytes 4 x.shockLimit
      ∧ field (x.payload.drop 1) 18 4 = intBytes 4 x.tempRef ∧ field (x.payload.drop 1) 22 4 = intBytes 4 x.tempCoeff
      ∧ field (x.payload.drop 1) 26 4 = leBytes 4 x.tempWindow := by
  simp [Instrument.payload]

theorem parseInstrument_payload {x : Instrument} (within : x.ranges.all id = true) :
    parseInstrument (x.payload.drop 1) = .ok x := by
  obtain ⟨scaleAt, offsetAt, oxAt, oyAt, gateAt, shockAt, refAt, coeffAt, windowAt⟩ := x.payload_fields
  have bounds := within
  simp [Instrument.ranges, inRange_iff] at bounds
  simp only [parseInstrument, uAt_of_field scaleAt (by omega), sAt_of_field offsetAt (by omega) (by omega),
    sAt_of_field oxAt (by omega) (by omega), sAt_of_field oyAt (by omega) (by omega), uAt_of_field gateAt (by omega),
    uAt_of_field shockAt (by omega), sAt_of_field refAt (by omega) (by omega), sAt_of_field coeffAt (by omega) (by omega),
    uAt_of_field windowAt (by omega)]
  exact checkFields_good rfl within x

theorem TideConfig.payload_fields (x : TideConfig) :
    field (x.payload.drop 1) 0 1 = leBytes 1 x.mode.code ∧ field (x.payload.drop 1) 1 4 = intBytes 4 x.offset
      ∧ field (x.payload.drop 1) 5 1 = leBytes 1 x.count := by
  simp [TideConfig.payload]

theorem parseTide_payload {x : TideConfig} (within : x.ranges.all id = true) : parseTide (x.payload.drop 1) = .ok x := by
  obtain ⟨modeAt, offsetAt, countAt⟩ := x.payload_fields
  have bounds := within
  simp [TideConfig.ranges, inRange_iff] at bounds
  simp only [parseTide, uAt_of_field modeAt x.mode.code_lt,
    sAt_of_field offsetAt (by omega) (by omega), uAt_of_field countAt (by omega), TideMode.ofCode_code, Option.getD_some,
    Option.isSome_some]
  exact checkFields_good rfl within x

theorem BaseConfig.payload_fields (x : BaseConfig) :
    field (x.payload.drop 1) 0 4 = leBytes 4 x.maxDistance ∧ field (x.payload.drop 1) 4 2 = leBytes 2 x.maxGap
      ∧ field (x.payload.drop 1) 6 2 = leBytes 2 x.holdLimit ∧ field (x.payload.drop 1) 8 1 = leBytes 1 x.silenceLimit := by
  simp [BaseConfig.payload]

theorem parseBaseTerm_payload {x : BaseConfig} (within : x.ranges.all id = true) :
    parseBaseTerm (x.payload.drop 1) = .ok x := by
  obtain ⟨distanceAt, gapAt, holdAt, silenceAt⟩ := x.payload_fields
  have bounds := within
  simp [BaseConfig.ranges, inRange_iff] at bounds
  simp only [parseBaseTerm, uAt_of_field distanceAt (by omega), uAt_of_field gapAt (by omega), uAt_of_field holdAt (by omega),
    uAt_of_field silenceAt (by omega)]
  exact checkFields_good rfl within x

theorem DriftConfig.payload_fields (x : DriftConfig) :
    field (x.payload.drop 1) 0 1 = leBytes 1 (markCode x.on) ∧ field (x.payload.drop 1) 1 4 = leBytes 4 x.rateLimit
      ∧ field (x.payload.drop 1) 5 4 = leBytes 4 x.minLoopTime := by
  simp [DriftConfig.payload]

theorem parseDrift_payload {x : DriftConfig} (within : x.ranges.all id = true) : parseDrift (x.payload.drop 1) = .ok x := by
  obtain ⟨onAt, rateAt, timeAt⟩ := x.payload_fields
  have bounds := within
  simp [DriftConfig.ranges, inRange_iff] at bounds
  simp only [parseDrift, uAt_of_field onAt (markCode_lt x.on), uAt_of_field rateAt (by omega), uAt_of_field timeAt (by omega),
    markOf_markCode, Option.getD_some, Option.isSome_some]
  exact checkFields_good rfl within x

theorem HomeConfig.payload_fields (x : HomeConfig) :
    field (x.payload.drop 1) 0 4 = leBytes 4 x.stepLimit ∧ field (x.payload.drop 1) 4 4 = leBytes 4 x.pointId
      ∧ field (x.payload.drop 1) 8 4 = intBytes 4 x.easting ∧ field (x.payload.drop 1) 12 4 = intBytes 4 x.northing
      ∧ field (x.payload.drop 1) 16 4 = intBytes 4 x.height := by
  simp [HomeConfig.payload]

theorem parseHome_payload {x : HomeConfig} (within : x.ranges.all id = true) : parseHome (x.payload.drop 1) = .ok x := by
  obtain ⟨stepAt, pointAt, eastingAt, northingAt, heightAt⟩ := x.payload_fields
  have bounds := within
  simp [HomeConfig.ranges, inRange_iff] at bounds
  simp only [parseHome, uAt_of_field stepAt (by omega), uAt_of_field pointAt (by omega),
    sAt_of_field eastingAt (by omega) (by omega), sAt_of_field northingAt (by omega) (by omega),
    sAt_of_field heightAt (by omega) (by omega)]
  exact checkFields_good rfl within x

theorem Constituent.payload_fields (x : Constituent) (k : Nat) :
    field ((x.payload k).drop 1) 0 4 = leBytes 4 x.speed ∧ field ((x.payload k).drop 1) 4 4 = leBytes 4 x.phase
      ∧ field ((x.payload k).drop 1) 8 4 = intBytes 4 x.amplitude := by
  simp [Constituent.payload]

theorem parseConstituent_payload {x : Constituent} (k : Nat) (within : x.ranges.all id = true) :
    parseConstituent ((x.payload k).drop 1) = .ok x := by
  obtain ⟨speedAt, phaseAt, amplitudeAt⟩ := x.payload_fields k
  have bounds := within
  simp [Constituent.ranges, inRange_iff] at bounds
  simp only [parseConstituent, uAt_of_field speedAt (by omega), uAt_of_field phaseAt (by omega),
    sAt_of_field amplitudeAt (by omega) (by omega)]
  exact checkFields_good rfl within x

/-- What is read is stored. -/
theorem Checked.store_of_ok {α : Type} (a : α) (put : α → Image) : (Checked.ok a).store put = .ok (put a) := rfl

/-- A constituent's part is stored in its place (R187). -/
theorem storePart_constituent {img : Image} {x : Constituent} {k : Nat} (low : 1 ≤ k) (within : x.ranges.all id = true) :
    storePart img (8 + k) ((x.payload k).drop 1)
      = .ok { img with constituents := img.constituents.set (k - 1) (some x) } := by
  obtain ⟨j, rfl⟩ := Nat.exists_eq_add_of_le low
  have place : 8 + (1 + j) = j + 9 := by omega
  rw [place, Nat.add_sub_cancel_left]
  rw [storePart, parseConstituent_payload (1 + j) within, Checked.store_of_ok, Nat.add_sub_cancel]
  all_goals omega

/-! ### Headers (R35, R200) -/

/-- The header that STAGE's bytes hold, whatever its fields' ranges (R35, R200). -/
def stagedHeader (p : List Byte) : Header :=
  { pointId := uAt p 0 4
    tie := (markOf (uAt p 4 1)).getD false
    easting := sAt p 5 4
    northing := sAt p 9 4
    height := sAt p 13 4
    tideRequest := (TideRequest.ofCode (uAt p 17 1)).getD default
    mode := (Mode.ofCode (uAt p 18 1)).getD default
    preferred := if uAt p 19 1 = 0 then none else some (uAt p 19 1)
    blockCount := if uAt p 20 1 = 0 then none else some (uAt p 21 1)
    settle := if uAt p 22 1 = 0 then none else some (heldSettle (uAt p 23 2))
    settleClamp := uAt p 22 1 = 1 && 600 < uAt p 23 2 }

/-- The checks of STAGE's ten fields, in their order (R35). -/
def stageChecks (p : List Byte) : List Bool :=
  [inRange 1 999999 (uAt p 0 4), (markOf (uAt p 4 1)).isSome, inRange (-10000000) 10000000 (sAt p 5 4),
    inRange (-10000000) 10000000 (sAt p 9 4), inRange (-10000000) 10000000 (sAt p 13 4),
    (TideRequest.ofCode (uAt p 17 1)).isSome, (Mode.ofCode (uAt p 18 1)).isSome, uAt p 19 1 ≤ 31,
    uAt p 20 1 ≤ 1, uAt p 22 1 ≤ 1]

theorem parseHeader_of_good {p : List Byte} (good : firstBad 1 (stageChecks p) = none) : parseHeader p = .ok (stagedHeader p) := by
  unfold stageChecks at good
  unfold parseHeader
  simp only [good]
  rfl

theorem parseHeader_of_bad {p : List Byte} {k : Nat} (bad : firstBad 1 (stageChecks p) = some k) : parseHeader p = .bad k := by
  unfold stageChecks at bad
  unfold parseHeader
  simp only [bad]

theorem TideRequest.ofCode_isSome (c : Nat) : (TideRequest.ofCode c).isSome = true ↔ c ≤ 1 := by
  rcases c with _ | _ | c <;> simp [TideRequest.ofCode]

theorem Mode.ofCode_isSome (c : Nat) : (Mode.ofCode c).isSome = true ↔ c ≤ 1 := by
  rcases c with _ | _ | c <;> simp [Mode.ofCode]

theorem stageChecks_decides (p : List Byte) : Decides (stageChecks p) ((List.range' 1 10).map (StageField p)) := by
  simp [Decides, stageChecks, List.range', StageField, markOf_isSome, TideRequest.ofCode_isSome, Mode.ofCode_isSome, inRange_iff]

theorem markOf_getD (c : Nat) : (markOf c).getD false = true ↔ c = 1 := by
  rcases c with _ | _ | c <;> simp [markOf]

theorem TideRequest.ofCode_getD (c : Nat) : (TideRequest.ofCode c).getD default = .auto ↔ c = 1 := by
  rcases c with _ | _ | c <;> simp [TideRequest.ofCode, show (default : TideRequest) = .model from rfl]

theorem Mode.ofCode_getD (c : Nat) : (Mode.ofCode c).getD default = .stepped ↔ c = 1 := by
  rcases c with _ | _ | c <;> simp [Mode.ofCode, show (default : Mode) = .spot from rfl]

theorem heldSettle_eq (n : Nat) : heldSettle n = min 600 n := by
  unfold heldSettle
  split <;> omega

theorem staged_stagedHeader (p : List Byte) : Staged p (stagedHeader p) := by
  refine ⟨rfl, markOf_getD _, rfl, rfl, rfl, TideRequest.ofCode_getD _, Mode.ofCode_getD _, rfl, rfl, ?_, ?_⟩
  · simp only [stagedHeader, heldSettle_eq]
  · simp [stagedHeader]

/-- STAGE's first bad field is named (R35). -/
theorem parseHeader_out {p : List Byte} {k : Nat} (out : FirstOut (StageField p) 10 k) : parseHeader p = .bad k :=
  parseHeader_of_bad ((firstBad_of_decides (stageChecks_decides p)).1 k out)

/-- Bytes whose ten fields are in range are read as the header they carry (R35, R200). -/
theorem parseHeader_staged {p : List Byte} (good : ∀ k, 1 ≤ k → k ≤ 10 → StageField p k) :
    ∃ h, parseHeader p = .ok h ∧ Staged p h :=
  ⟨stagedHeader p, parseHeader_of_good ((firstBad_of_decides (stageChecks_decides p)).2 good), staged_stagedHeader p⟩

/-! ### Headers as sent (R200, R201) -/

/-- The value of an optional field stands behind its presence, zero when absent. -/
theorem optBytes_eq (k : Nat) (o : Option Nat) : optBytes k o = leBytes 1 (markCode o.isSome) ++ leBytes k (o.getD 0) := by
  cases o <;> rfl

/-- Where the fields of a STAGE payload stand. -/
theorem stagePayload_fields (h : Header) (settle : Option Nat) :
    field (stagePayload h settle) 0 4 = leBytes 4 h.pointId ∧ field (stagePayload h settle) 4 1 = leBytes 1 (markCode h.tie)
      ∧ field (stagePayload h settle) 5 4 = intBytes 4 h.easting ∧ field (stagePayload h settle) 9 4 = intBytes 4 h.northing
      ∧ field (stagePayload h settle) 13 4 = intBytes 4 h.height
      ∧ field (stagePayload h settle) 17 1 = leBytes 1 h.tideRequest.code
      ∧ field (stagePayload h settle) 18 1 = leBytes 1 h.mode.code
      ∧ field (stagePayload h settle) 19 1 = leBytes 1 (h.preferred.getD 0)
      ∧ field (stagePayload h settle) 20 1 = leBytes 1 (markCode h.blockCount.isSome)
      ∧ field (stagePayload h settle) 21 1 = leBytes 1 (h.blockCount.getD 0)
      ∧ field (stagePayload h settle) 22 1 = leBytes 1 (markCode settle.isSome)
      ∧ field (stagePayload h settle) 23 2 = leBytes 2 (settle.getD 0) := by
  simp [stagePayload, optBytes_eq]

/-- A header whose fields are in range and that was sent with this settle time in s: held at 600 s at most, with the clamp mark set
beyond that (R35). -/
structure Header.SentWith (h : Header) (settle : Option Nat) : Prop where
  point : 1 ≤ h.pointId ∧ h.pointId ≤ 999999
  easting : h.easting.natAbs ≤ 10000000
  northing : h.northing.natAbs ≤ 10000000
  height : h.height.natAbs ≤ 10000000
  preferred : ∀ n, h.preferred = some n → 1 ≤ n ∧ n ≤ 31
  count : ∀ n, h.blockCount = some n → n < 256
  sent : ∀ n, settle = some n → n < 65536
  held : h.settle = settle.map (fun n => min n 600)
  clamp : h.settleClamp = settle.any (fun n => 600 < n)

namespace Header.SentWith

variable {h : Header} {settle : Option Nat}

theorem preferred_le (w : h.SentWith settle) : h.preferred.getD 0 ≤ 31 := by
  cases known : h.preferred with
  | none => decide
  | some n => exact (w.preferred n known).2

theorem count_lt (w : h.SentWith settle) : h.blockCount.getD 0 < 256 := by
  cases known : h.blockCount with
  | none => decide
  | some n => exact w.count n known

theorem settle_lt (w : h.SentWith settle) : settle.getD 0 < 65536 := by
  cases known : settle with
  | none => decide
  | some n => exact w.sent n known

/-- The preferred base behind its code 0 for none. -/
theorem preferred_read (w : h.SentWith settle) :
    (if h.preferred.getD 0 = 0 then none else some (h.preferred.getD 0)) = h.preferred := by
  cases known : h.preferred with
  | none => rfl
  | some n =>
    have := w.preferred n known
    exact if_neg (by rw [Option.getD_some]; omega)

/-- The settle time as held, behind its presence. -/
theorem settle_read (w : h.SentWith settle) :
    (if markCode settle.isSome = 0 then none else some (heldSettle (settle.getD 0))) = h.settle := by
  rw [w.held]
  cases settle with
  | none => rfl
  | some n => exact congrArg some ((heldSettle_eq n).trans (Nat.min_comm 600 n))

theorem clamp_read (w : h.SentWith settle) :
    (decide (markCode settle.isSome = 1) && decide (600 < settle.getD 0)) = h.settleClamp := by
  rw [w.clamp]
  cases settle with
  | none => rfl
  | some n => exact Bool.true_and _

/-- A header as sent is read as it was (R35, R200). -/
theorem parseHeader_stagePayload (w : h.SentWith settle) : parseHeader (stagePayload h settle) = .ok h := by
  obtain ⟨pointAt, tieAt, eastingAt, northingAt, heightAt, tideAt, modeAt, preferredAt, hasCountAt, countAt, hasSettleAt,
    settleAt⟩ := stagePayload_fields h settle
  have ⟨⟨p0, p1⟩, e, n, z, _, _, _, _, _⟩ := w
  have preferred := w.preferred_le
  have count := w.count_lt
  have sent := w.settle_lt
  have countRead : (if markCode h.blockCount.isSome = 0 then none else some (h.blockCount.getD 0)) = h.blockCount := by
    cases h.blockCount <;> rfl
  have point := uAt_of_field pointAt (by omega)
  have easting := sAt_of_field eastingAt (by omega) (by omega)
  have northing := sAt_of_field northingAt (by omega) (by omega)
  have height := sAt_of_field heightAt (by omega) (by omega)
  have tie := uAt_of_field tieAt (markCode_lt _)
  have tide := uAt_of_field tideAt (TideRequest.code_lt _)
  have mode := uAt_of_field modeAt (Mode.code_lt _)
  have base := uAt_of_field preferredAt (by omega)
  have hasCount := uAt_of_field hasCountAt (markCode_lt _)
  have hasSettle := uAt_of_field hasSettleAt (markCode_lt _)
  have good : (stageChecks (stagePayload h settle)).all id = true := by
    have present : ∀ b, markCode b ≤ 1 := by decide
    simp only [stageChecks, point, tie, easting, northing, height, tide, mode, base, hasCount, hasSettle, markOf_markCode,
      TideRequest.ofCode_code, Mode.ofCode_code]
    simp [inRange_iff, present]
    omega
  rw [parseHeader_of_good (firstBad_of_all good 1)]
  simp only [stagedHeader, point, tie, easting, northing, height, tide, mode, base, hasCount, hasSettle,
    uAt_of_field countAt (by omega), uAt_of_field settleAt (by omega), markOf_markCode, TideRequest.ofCode_code,
    Mode.ofCode_code, Option.getD_some, w.preferred_read, countRead, w.settle_read, w.clamp_read]

end Header.SentWith

theorem stagePayload_length (h : Header) (settle : Option Nat) : (stagePayload h settle).length = 25 := by
  simp [stagePayload, optBytes_eq]

/-- Settles O49: parts and headers as sent (`Header.SentWith.parseHeader_stagePayload`), and any bytes by their checks
(`partChecked`, `parseHeader_out`, `parseHeader_staged`). -/
theorem loggerRoundTrip : Obligations.LoggerRoundTrip := by
  refine ⟨fun img x within => by rw [storePart, parseIdentity_payload within, Checked.store_of_ok],
    fun img x within => by rw [storePart, parseSchedule_payload within, Checked.store_of_ok],
    fun img x within => by rw [storePart, parseSampling_payload within, Checked.store_of_ok],
    fun img x within => by rw [storePart, parseInstrument_payload within, Checked.store_of_ok],
    fun img x within => by rw [storePart, parseTide_payload within, Checked.store_of_ok],
    fun img x within => by rw [storePart, parseBaseTerm_payload within, Checked.store_of_ok],
    fun img x within => by rw [storePart, parseDrift_payload within, Checked.store_of_ok],
    fun img x within => by rw [storePart, parseHome_payload within, Checked.store_of_ok],
    fun img x k low _ within => storePart_constituent low within,
    fun img n p low _ => partChecked img p n low,
    fun p => ⟨fun k => parseHeader_out, parseHeader_staged⟩,
    fun h settle p0 p1 easting northing height preferred count sent held clamp => ⟨?_, stagePayload_length h settle⟩⟩
  exact Header.SentWith.parseHeader_stagePayload ⟨⟨p0, p1⟩, easting, northing, height, preferred, count, sent, held, clamp⟩

end Sys2Proof.Machine
end

