-- ==== Sys2Proof/Proofs/OccupationStarts.lean ====
section
/-! PROOF. O22 to O24 and O27: how an occupation comes to record (R36, R39 to R42, R46, R53). The requests to the controller past
R175's checks; COMMIT; the intake opened and an occupation begun, one equation a case; and the edges, the expiry and the requests
that lead there. -/

namespace Sys2Proof.Machine

variable {s t : State}

/-! ### Requests (R175) -/

/-- A request to the controller that passes R175's checks: its handler's effect and its answer. -/
theorem State.request_running {kind : Nat} {handler : State → State × Reply} {q : Byte} {p : List Byte} {r : Reply}
    (node : s.node = .running) (owed : s.port.owed = false) (length : payloadLengthOk kind p = true)
    (effect : handler s.hunting = (t.hunting, r)) :
    (s.request kind runningOnly handler q p).serve = t.replied (BitVec.ofNat 8 kind) q r := by
  rw [← State.hunting_replied]
  exact State.request_taken owed length (by simp [runningOnly, node]) effect rfl

theorem exec_stage {q : Byte} {p : List Byte} {r : Reply} (node : s.node = .running) (owed : s.port.owed = false)
    (length : p.length = 25) (effect : s.hunting.takeStage p = (t.hunting, r)) :
    exec (.stage q p) s = .next (t.replied 0x05#8 q r) :=
  congrArg Host.Outcome.next (State.request_running (kind := 0x05) node owed (decide_eq_true length) effect)

theorem exec_commit {q : Byte} {r : Reply} (node : s.node = .running) (owed : s.port.owed = false)
    (effect : s.hunting.takeCommit = (t.hunting, r)) : exec (.commit q []) s = .next (t.replied 0x06#8 q r) :=
  congrArg Host.Outcome.next (State.request_running (kind := 0x06) node owed rfl effect)

theorem exec_amend {q : Byte} {r : Reply} (node : s.node = .running) (owed : s.port.owed = false)
    (effect : s.hunting.takeAmend = (t.hunting, r)) : exec (.amend q []) s = .next (t.replied 0x07#8 q r) :=
  congrArg Host.Outcome.next (State.request_running (kind := 0x07) node owed rfl effect)

theorem exec_start {q : Byte} {r : Reply} (node : s.node = .running) (owed : s.port.owed = false)
    (effect : s.hunting.takeStart = (t.hunting, r)) : exec (.start q []) s = .next (t.replied 0x08#8 q r) :=
  congrArg Host.Outcome.next (State.request_running (kind := 0x08) node owed rfl effect)

theorem exec_step {q : Byte} {r : Reply} (node : s.node = .running) (owed : s.port.owed = false)
    (effect : s.hunting.takeStep = (t.hunting, r)) : exec (.step q []) s = .next (t.replied 0x09#8 q r) :=
  congrArg Host.Outcome.next (State.request_running (kind := 0x09) node owed rfl effect)

theorem exec_stop {q : Byte} {r : Reply} (node : s.node = .running) (owed : s.port.owed = false)
    (effect : s.hunting.takeStop = (t.hunting, r)) : exec (.stop q []) s = .next (t.replied 0x0A#8 q r) :=
  congrArg Host.Outcome.next (State.request_running (kind := 0x0A) node owed rfl effect)

/-! ### COMMIT (R36) -/

theorem State.takeCommit_noHeader (rover : s.isBase = false) (missing : s.ctl.staged = none) : s.takeCommit = (s, .noHeader) := by
  rw [State.takeCommit, if_neg (by simp [rover]), missing]

theorem State.takeCommit_staged {h : Header} (rover : s.isBase = false) (staged : s.ctl.staged = some h) :
    s.takeCommit = ({ s with ctl := { s.ctl with nextHeader := some h, pendingMark := true } }, .ok []) := by
  rw [State.takeCommit, if_neg (by simp [rover])]
  split
  · rename_i missing
    rw [staged] at missing
    cases missing
  · rename_i held
    rw [staged] at held
    cases held
    rfl

/-- Settles O27, by COMMIT's cases (R34, R36). -/
theorem commitTaken : Obligations.CommitTaken :=
  fun _ _ node owed => ⟨fun base => exec_commit node owed (if_pos base),
    fun rover missing => exec_commit node owed (State.takeCommit_noHeader rover missing),
    fun rover _ staged => exec_commit node owed (State.takeCommit_staged rover staged)⟩

/-! ### Opening the intake (R42, R46) -/

theorem contModeOf_eq (h : Header) : contModeOf h = h.mode.continuation := by
  unfold contModeOf Mode.continuation
  cases h.mode <;> rfl

/-- The intake opened, as the statements write it. -/
theorem State.openIntake_eq (s : State) (mode : ContMode) (first : Bool) : s.openIntake mode first = s.opened mode first := rfl

/-- The settle expiry of the occupation in progress opens the intake in its continuation mode. -/
theorem State.settle_eq {h : Header} (active : s.ctl.active = some h) : s.settle = s.opened h.mode.continuation true := by
  rw [State.settle, State.openIntake_eq, contModeOf_eq, active, Option.getD_some]

theorem State.settleIfDue_due {x : Nat} {h : Header} (settling : s.ctl.state = .settling) (armed : s.ctl.settleAt = some x)
    (due : x ≤ s.tb.nodeTime) (active : s.ctl.active = some h) : s.settleIfDue = s.opened h.mode.continuation true := by
  rw [State.settleIfDue, if_pos (by simp [settling, armed, due]), State.settle_eq active]

theorem State.settleIfDue_later {x : Nat} (armed : s.ctl.settleAt = some x) (later : s.tb.nodeTime < x) : s.settleIfDue = s := by
  rw [State.settleIfDue, if_neg (by simp [armed, later])]

/-! ### Edges (R39, R40, R46) -/

theorem TriggerSource.takes_iff (x : TriggerSource) (e : Edge) :
    x.takes e = true ↔ (x = .lineRise ∧ e = .rising) ∨ (x = .lineFall ∧ e = .falling) := by
  cases x <;> simp [TriggerSource.takes]

/-- A configured edge that was held long enough. -/
theorem exec_trigEdge_taken {e : Edge} {held : Nat} (node : s.node = .running) (long : 10 ≤ held)
    (configured : (s.identity.trigger = .lineRise ∧ e = .rising) ∨ (s.identity.trigger = .lineFall ∧ e = .falling)) :
    exec (.trigEdge e held) s = .next s.takeEdge :=
  congrArg Host.Outcome.next (if_pos (by simp [node, long, (TriggerSource.takes_iff _ e).mpr configured]))

/-- Any other edge has no effect. -/
theorem exec_trigEdge_ignored {e : Edge} {held : Nat}
    (h : held < 10 ∨ s.node = .startup ∨ s.identity.trigger = .command ∨ (s.identity.trigger = .lineRise ∧ e = .falling)
      ∨ (s.identity.trigger = .lineFall ∧ e = .rising)) : exec (.trigEdge e held) s = .next s := by
  refine congrArg Host.Outcome.next (if_neg ?_)
  rcases h with short | startup | command | ⟨rise, falling⟩ | ⟨fall, rising⟩
  · simp [short]
  · simp [startup]
  · simp [command, TriggerSource.takes]
  · simp [rise, falling, TriggerSource.takes]
  · simp [fall, rising, TriggerSource.takes]

theorem State.takeEdge_idle (idle : s.ctl.state = .idle) :
    s.takeEdge = s.startTrigger.getD (s.latch latchTriggerIgnored) := by
  simp only [State.takeEdge, idle]

theorem State.takeEdge_waiting (waiting : s.ctl.state = .waiting) : s.takeEdge = s.opened .singleKept false := by
  simp only [State.takeEdge, waiting]
  rfl

theorem State.takeEdge_nothing (h : s.ctl.state = .settling ∨ s.ctl.state = .recording) : s.takeEdge = s := by
  rcases h with h | h <;> simp only [State.takeEdge, h]

/-! ### Step triggers and the settle expiry (R42, R46) -/

/-- Settles O24: openings by the settle expiry (`State.settle_eq`), by the edge (`State.takeEdge_waiting`) and by STEP. -/
theorem intakeOpens : Obligations.IntakeOpens := by
  refine fun s => ⟨fun t h settling active armed due => ?_, fun e held node long waiting configured => ?_,
    fun q node owed => ⟨fun base => ?_, fun rover other => ?_, fun rover waiting => ?_⟩⟩
  · have fallen : s.settleDue = true := by simp [State.settleDue, settling, armed, due]
    exact congrArg Host.Outcome.next ((if_pos fallen).trans (State.settle_eq active))
  · rw [exec_trigEdge_taken node long configured, State.takeEdge_waiting waiting]
  · exact exec_step node owed (if_pos base)
  · exact exec_step node owed ((if_neg (by simp [rover])).trans (if_neg other))
  · exact exec_step node owed ((if_neg (by simp [rover])).trans (if_pos waiting))

/-! ### Starting (R40, R41, R53) -/

/-- A start under a header with a settle time arms the settle expiry (R41). -/
theorem State.beginOccupation_settles {h : Header} {k : Option Nat} (some_ : 0 < h.settle.getD s.sampling.settle) :
    s.beginOccupation h k = s.started h k :=
  State.settleIfDue_later (s := s.started h k) rfl (Nat.lt_add_of_pos_right (Nat.mul_pos some_ (by decide)))

/-- A settle time of 0 passes to RECORDING at once (R41). -/
theorem State.beginOccupation_opens {h : Header} {k : Option Nat} (none_ : h.settle.getD s.sampling.settle = 0) :
    s.beginOccupation h k = (s.started h k).opened h.mode.continuation true :=
  State.settleIfDue_due (s := s.started h k) rfl rfl (by rw [none_]; exact Nat.le_refl _) rfl

theorem State.beginOccupation_occNumber (s : State) (h : Header) (k : Option Nat) :
    (s.beginOccupation h k).ctl.occNumber = s.ctl.occNumber + 1 := by
  unfold State.beginOccupation State.settleIfDue
  split <;> rfl

/-- A start does not bear on the receiver's bytes. -/
theorem State.hunting_beginOccupation (s : State) (h : Header) (k : Option Nat) :
    s.hunting.beginOccupation h k = (s.beginOccupation h k).hunting := by
  unfold State.beginOccupation State.settleIfDue
  rw [apply_ite State.hunting]
  rfl

/-- The occupation that a start trigger begins on a rover with a pending next header (R40, R45). -/
def State.roverStarted (s : State) (h : Header) : State :=
  ({ s with ctl := { s.ctl with nextHeader := none, pendingMark := false } } : State).beginOccupation h
    (some (roverK s.sampling h))

theorem State.hunting_roverStarted (s : State) (h : Header) : s.hunting.roverStarted h = (s.roverStarted h).hunting :=
  State.hunting_beginOccupation { s with ctl := { s.ctl with nextHeader := none, pendingMark := false } } h _

theorem State.hunting_startBase (s : State) : s.hunting.startBase = s.startBase.hunting :=
  State.hunting_beginOccupation (s.setEng s.eng.startCycle) _ _

theorem State.startTrigger_rover {h : Header} (rover : s.isBase = false) (pending : s.ctl.pendingMark = true)
    (next : s.ctl.nextHeader = some h) : s.startTrigger = some (s.roverStarted h) := by
  rw [State.startTrigger, if_neg (by simp [rover]), State.startRover, pending, next]
  rfl

theorem State.startTrigger_none (rover : s.isBase = false) (h : s.ctl.pendingMark = false ∨ s.ctl.nextHeader = none) :
    s.startTrigger = none := by
  rw [State.startTrigger, if_neg (by simp [rover]), State.startRover]
  rcases h with h | h
  · rw [h]
  · rw [h]
    cases s.ctl.pendingMark <;> rfl

theorem State.startTrigger_base (base : s.isBase = true) : s.startTrigger = some s.startBase := if_pos base

/-- START in IDLE under COMMAND answers with the number of the occupation it started (R40). -/
theorem exec_start_started {u : State} {q : Byte} (node : s.node = .running) (owed : s.port.owed = false)
    (idle : s.ctl.state = .idle) (trigger : s.identity.trigger = .command) (starts : s.hunting.startTrigger = some u.hunting)
    (number : u.ctl.occNumber = s.ctl.occNumber + 1) :
    exec (.start q []) s = .next (u.replied 0x08#8 q (.ok (leBytes 4 (s.ctl.occNumber + 1)))) := by
  refine exec_start node owed ?_
  rw [State.takeStart, if_neg (by simp [trigger, idle]), starts, ← number]
  rfl

theorem exec_start_refused {q : Byte} (node : s.node = .running) (owed : s.port.owed = false)
    (refused : s.identity.trigger ≠ .command ∨ s.ctl.state ≠ .idle) :
    exec (.start q []) s = .next (s.replied 0x08#8 q .state) :=
  exec_start node owed (if_pos (by
    rcases refused with trigger | busy
    · simp [trigger]
    · simp [busy]))

/-- A configured edge in IDLE starts an occupation as START does (R40). -/
theorem exec_trigEdge_started {u : State} {e : Edge} {held : Nat} (node : s.node = .running) (long : 10 ≤ held)
    (configured : (s.identity.trigger = .lineRise ∧ e = .rising) ∨ (s.identity.trigger = .lineFall ∧ e = .falling))
    (idle : s.ctl.state = .idle) (starts : s.startTrigger = some u) : exec (.trigEdge e held) s = .next u := by
  rw [exec_trigEdge_taken node long configured, State.takeEdge_idle idle, starts, Option.getD_some]

/-- The three ways in which a node in IDLE is made to start an occupation (R39, R40). -/
theorem exec_starts {u : State} (node : s.node = .running) (idle : s.ctl.state = .idle) (starts : s.startTrigger = some u)
    (hunts : s.hunting.startTrigger = some u.hunting) (number : u.ctl.occNumber = s.ctl.occNumber + 1) :
    (∀ q, s.identity.trigger = .command → s.port.owed = false →
        exec (.start q []) s = .next (u.replied 0x08#8 q (.ok (leBytes 4 (s.ctl.occNumber + 1)))))
      ∧ (∀ held, s.identity.trigger = .lineRise → 10 ≤ held → exec (.trigEdge .rising held) s = .next u)
      ∧ ∀ held, s.identity.trigger = .lineFall → 10 ≤ held → exec (.trigEdge .falling held) s = .next u :=
  ⟨fun _ trigger owed => exec_start_started node owed idle trigger hunts number,
    fun _ trigger long => exec_trigEdge_started node long (.inl ⟨trigger, rfl⟩) idle starts,
    fun _ trigger long => exec_trigEdge_started node long (.inr ⟨trigger, rfl⟩) idle starts⟩

/-- Settles O22: what a start trigger begins (`State.beginOccupation_settles`, `State.beginOccupation_opens`), and by what
(`exec_starts`). -/
theorem occupationStarts : Obligations.OccupationStarts := by
  constructor
  · rintro s s1 h node rover idle pending next rfl
    have hunts : s.hunting.startTrigger = some (s.roverStarted h).hunting := by
      rw [State.startTrigger_rover (s := s.hunting) rover pending next, State.hunting_roverStarted]
    exact ⟨s.roverStarted h, fun some_ => State.beginOccupation_settles some_, fun none_ => State.beginOccupation_opens none_,
      exec_starts node idle (State.startTrigger_rover rover pending next) hunts (State.beginOccupation_occNumber ..)⟩
  · rintro s s1 h node base idle rfl rfl
    have hunts : s.hunting.startTrigger = some s.startBase.hunting := by
      rw [State.startTrigger_base (s := s.hunting) base, State.hunting_startBase]
    exact ⟨s.startBase, fun some_ => State.beginOccupation_settles some_, fun none_ => State.beginOccupation_opens none_,
      exec_starts node idle (State.startTrigger_base base) hunts (State.beginOccupation_occNumber ..)⟩

/-- Settles O23: edges (`exec_trigEdge_ignored`, `State.takeEdge_nothing`) and START (`exec_start_refused`,
`State.startTrigger_none`). -/
theorem triggersRefused : Obligations.TriggersRefused := by
  refine fun s => ⟨fun e held h => ?_, fun e held node long configured rover idle missing => ?_,
    fun q node owed refused => exec_start_refused node owed refused, fun q node owed trigger rover idle missing => ?_⟩
  · by_cases busy : s.ctl.state = .settling ∨ s.ctl.state = .recording
    · refine congrArg Host.Outcome.next ?_
      rw [State.takeEdge_nothing busy, ite_self]
    · exact exec_trigEdge_ignored (by tauto)
  · rw [exec_trigEdge_taken node long configured, State.takeEdge_idle idle, State.startTrigger_none rover missing]
    rfl
  · refine exec_start node owed ?_
    rw [State.takeStart, if_neg (by simp [trigger, idle]), State.startTrigger_none (by exact rover) (by exact missing)]

end Sys2Proof.Machine
end

