-- ==== Sys2Proof/Proofs/OccupationEndings.lean ====
section
/-! PROOF. O16, O25 and O26: how an occupation goes on and ends (R34 to R37, R43 to R48, R50, R52 to R54). The endings by STOP and by
the expiries, STAGE and AMEND, and block reports, each as one equation a case; what a reduced ending leaves is
`reducedEnding_of`. -/

namespace Sys2Proof.Machine

variable {s t : State}

/-! ### What the statements' premises leave in force -/

/-- The log's standing fact of a state with the same log and pending list, the same controller state, opening in force and counter. -/
theorem LogSound.of_same (sound : LogSound s) (log : t.eng.log = s.eng.log) (waiting : t.eng.waiting = s.eng.waiting)
    (state : t.ctl.state = s.ctl.state) (inForce : t.ctl.inForce = s.ctl.inForce) (occNumber : t.ctl.occNumber = s.ctl.occNumber) :
    LogSound t := by
  unfold LogSound
  rw [log, waiting, state, inForce, occNumber]
  exact sound

/-- An opening in force stands for an occupation in progress (R43). -/
theorem LogSound.busy_of_inForce (sound : LogSound s) {n : Nat} (inForce : s.ctl.inForce = some n) : s.ctl.state ≠ .idle := by
  obtain ⟨-, none_idle, -⟩ := sound
  intro idle
  rw [none_idle idle] at inForce
  cases inForce

/-! ### Endings (R47, R50, R52, R54) -/

/-- A reduced ending leaves the receiver's bytes alone. -/
theorem State.hunting_endOccupation (s : State) (flag : RecordFlags → RecordFlags) (endTime : Nat) :
    (s.hunting.endOccupation none flag endTime).hunting = s.hunting.endOccupation none flag endTime := by
  rw [State.endOccupation_reduced]
  simp only [State.hunting, State.setPort, Port.offer_rx, Port.offers_rx]

/-- Settles O25: STOP's cases, the step-wait expiry (`reducedEnding_of`) and the END pulse. -/
theorem endings : Obligations.Endings := by
  refine ⟨⟨fun s q node owed => ⟨fun idle => ?_, fun busy kept => ?_, fun busy kept sound => ?_⟩,
    fun s x waiting armed due sound => ?_⟩, fun s x armed due => ?_⟩
  · exact exec_stop node owed (if_pos idle)
  · refine exec_stop node owed ((if_neg busy).trans ?_)
    rw [State.endStopped, if_pos (by exact kept), State.endOccupation_aborted, ← State.hunting_abortedBy]
    rfl
  · refine ⟨s.hunting.endOccupation none flagStopped s.tb.nodeTime, exec_stop node owed ((if_neg busy).trans ?_),
      reducedEnding_of (s := s.hunting) sound busy flagStopped s.tb.nodeTime⟩
    rw [State.endStopped, if_neg (by exact kept), State.hunting_endOccupation]
    rfl
  · have fallen : s.stepWaitDue = true := by simp [State.stepWaitDue, waiting, armed, due]
    exact ⟨s.stepTimeout, congrArg Host.Outcome.next (if_pos fallen),
      reducedEnding_of sound (by simp [waiting]) flagStepTimeout s.tb.nodeTime⟩
  · have fallen : s.endPulseDue = true := by simp [State.endPulseDue, armed, due]
    exact congrArg Host.Outcome.next (if_pos fallen)

/-! ### STAGE (R34, R35) -/

theorem State.takeStage_bad {p : List Byte} {k : Nat} (rover : s.isBase = false) (bad : parseHeader p = .bad k) :
    s.takeStage p = (s, .range 0 k) := by
  rw [State.takeStage, if_neg (by simp [rover]), bad]
  rfl

theorem State.takeStage_ok {p : List Byte} {h : Header} (rover : s.isBase = false) (read : parseHeader p = .ok h) :
    s.takeStage p = ({ s with ctl := { s.ctl with staged := some h } }, .ok []) := by
  rw [State.takeStage, if_neg (by simp [rover]), read]
  rfl

/-! ### AMEND (R37) -/

/-- The occupation in progress under an amended header: every field of `g` but the mode, K recomputed, HEADER_AMENDED and the clamp
mark's flag gained (R37). -/
def State.reheaded (s : State) (g h : Header) : State :=
  { s with ctl := { s.ctl with
      active := some (amended h g), k := some (roverK s.sampling (amended h g))
      flags := { s.ctl.flags with
        headerAmended := true, settleClamped := s.ctl.flags.settleClamped || g.settleClamp } } }

/-- The settle expiry that an amended settle time gives (R37). -/
def State.amendedSettleAt (s : State) (g : Header) : Nat := s.ctl.startTime + g.settle.getD s.sampling.settle * 1000

theorem State.takeAmend_noHeader (rover : s.isBase = false) (busy : s.ctl.state ≠ .idle) (missing : s.ctl.staged = none) :
    s.takeAmend = (s, .noHeader) := by
  rw [State.takeAmend, if_neg (by simp [rover]), if_neg busy, missing]

theorem State.takeAmend_staged {g : Header} (rover : s.isBase = false) (busy : s.ctl.state ≠ .idle)
    (staged : s.ctl.staged = some g) : s.takeAmend = (s.amendWith g, .ok []) := by
  rw [State.takeAmend, if_neg (by simp [rover]), if_neg busy, staged]
  rfl

theorem State.amendWith_settling {g h : Header} (active : s.ctl.active = some h) (settling : s.ctl.state = .settling) :
    s.amendWith g = ((s.reheaded g h).setCtl
      { (s.reheaded g h).ctl with settleAt := some (s.amendedSettleAt g) }).settleIfDue := by
  have header : s.ctl.active.getD default = h := by rw [active, Option.getD_some]
  unfold State.amendWith
  simp only [header]
  split
  · rfl
  · contradiction

theorem State.amendWith_later {g h : Header} (active : s.ctl.active = some h) (settling : s.ctl.state = .settling)
    (later : s.tb.nodeTime < s.amendedSettleAt g) :
    s.amendWith g = (s.reheaded g h).setCtl { (s.reheaded g h).ctl with settleAt := some (s.amendedSettleAt g) } := by
  rw [State.amendWith_settling active settling, State.settleIfDue_later rfl (by exact later)]

theorem State.amendWith_due {g h : Header} (active : s.ctl.active = some h) (settling : s.ctl.state = .settling)
    (due : s.amendedSettleAt g ≤ s.tb.nodeTime) : s.amendWith g = (s.reheaded g h).opened h.mode.continuation true := by
  rw [State.amendWith_settling active settling, State.settleIfDue_due (by exact settling) rfl (by exact due) rfl]
  rfl

theorem State.amendWith_settled {g h : Header} (active : s.ctl.active = some h) (settled : s.ctl.state ≠ .settling) :
    s.amendWith g = if (s.reheaded g h).ctl.complete then (s.reheaded g h).endOccupation none id s.tb.nodeTime
      else s.reheaded g h := by
  have header : s.ctl.active.getD default = h := by rw [active, Option.getD_some]
  unfold State.amendWith
  simp only [header]
  rfl

/-- K kept blocks are reached (R44). -/
theorem Controller.complete_of_le {c : Controller} {k : Nat} (k_eq : c.k = some k) (reached : k ≤ c.kept) : c.complete = true := by
  simp [Controller.complete, k_eq, reached]

theorem Controller.complete_eq_false {c : Controller} (short : ∀ k, c.k = some k → c.kept < k) : c.complete = false := by
  cases bound : c.k with
  | none => simp [Controller.complete, bound]
  | some k => simpa [Controller.complete, bound] using short k bound

/-- Settles O26: STAGE by its fields (`parseHeader_out`, `parseHeader_staged`), AMEND by the state it meets
(`State.amendWith_settling`, `State.amendWith_settled`). -/
theorem stageAndAmend : Obligations.StageAndAmend := by
  refine ⟨fun s q p node owed length => ⟨fun base => exec_stage node owed length (if_pos base),
    fun rover k bad => exec_stage node owed length (State.takeStage_bad rover bad),
    fun rover h read => exec_stage node owed length (State.takeStage_ok rover read),
    fun rover k out => exec_stage node owed length (State.takeStage_bad rover (parseHeader_out out)), fun rover good => ?_⟩,
    fun s q node owed => ⟨fun base => exec_amend node owed (if_pos base),
      fun rover idle => exec_amend node owed ((if_neg (by simp [rover])).trans (if_pos idle)),
      fun rover busy missing => exec_amend node owed (State.takeAmend_noHeader rover busy missing), ?_⟩⟩
  · obtain ⟨h, read, staged⟩ := parseHeader_staged good
    exact ⟨h, staged, exec_stage node owed length (State.takeStage_ok rover read)⟩
  · rintro g h k due s1 rover busy staged active rfl rfl rfl
    have taken : s.hunting.takeAmend = (s.hunting.amendWith g, .ok []) := State.takeAmend_staged rover busy staged
    refine ⟨fun settling later => ?_, fun settling fallen => ?_, fun settled short => ?_, fun settled reached sound => ?_⟩
    · rw [State.amendWith_later (s := s.hunting) active settling later] at taken
      exact exec_amend node owed taken
    · rw [State.amendWith_due (s := s.hunting) active settling fallen] at taken
      exact exec_amend node owed taken
    · have incomplete : (s.hunting.reheaded g h).ctl.complete = false :=
        Controller.complete_eq_false (by rintro _ ⟨⟩; exact short)
      rw [State.amendWith_settled (s := s.hunting) active settled, if_neg (by simp [incomplete])] at taken
      exact exec_amend node owed taken
    · have complete : (s.hunting.reheaded g h).ctl.complete = true := Controller.complete_of_le rfl reached
      rw [State.amendWith_settled (s := s.hunting) active settled, if_pos complete] at taken
      exact ⟨(s.reheaded g h).hunting.endOccupation none id s.tb.nodeTime,
        exec_amend node owed (taken.trans (congrArg (·, _) (State.hunting_endOccupation (s.reheaded g h) id _).symm)),
        reducedEnding_of (s := (s.reheaded g h).hunting) sound busy id s.tb.nodeTime⟩

/-! ### Block reports (R43 to R48, R53) -/

/-- OBS production leaves the controller's items but its flags, and the log and the pending list. -/
theorem State.produceObs_kept (s : State) (sums : Sums) :
    (∃ f, (s.produceObs sums).ctl = { s.ctl with flags := f }) ∧ (s.produceObs sums).eng.log = s.eng.log
      ∧ (s.produceObs sums).eng.waiting = s.eng.waiting := by
  refine ⟨(s.produceObs_frame sums).1, ?_⟩
  unfold State.produceObs
  simp only
  split
  · exact ⟨rfl, rfl⟩
  · unfold State.queueObs
    simp only
    split <;> exact ⟨rfl, rfl⟩

theorem LogSound.produceObs (sound : LogSound s) (sums : Sums) : LogSound (s.produceObs sums) := by
  obtain ⟨⟨f, ctl⟩, log, waiting⟩ := s.produceObs_kept sums
  exact sound.of_same log waiting (by rw [ctl]) (by rw [ctl]) (by rw [ctl])

theorem State.takeReport_other {b : BlockReport} (other : s.ctl.inForce ≠ some b.opening) : s.takeReport b = s := if_pos other

theorem State.takeReport_kept {b : BlockReport} (inForce : s.ctl.inForce = some b.opening) (kept : b.kept = true) :
    s.takeReport b = (s.countKept b).afterKept b.endTime := by
  rw [State.takeReport, if_neg (by simp [inForce]), if_pos kept]

theorem State.takeReport_discarded {b : BlockReport} (inForce : s.ctl.inForce = some b.opening) (discarded : b.kept = false) :
    s.takeReport b = s.countDiscarded b := by
  rw [State.takeReport, if_neg (by simp [inForce]), if_neg (by simp [discarded])]

/-- A rover's controller after a kept block (R43). -/
def State.roverKept (s : State) (b : BlockReport) : State :=
  { s with ctl := { s.ctl with
      kept := s.ctl.kept + 1, sums := s.ctl.sums.plus b.sums, rejects := s.ctl.rejects.plus b.rejects } }

/-- A base's controller after a kept block, before OBS production (R53). -/
def State.baseKept (s : State) (b : BlockReport) : State :=
  { s with ctl := { s.ctl with
      kept := s.ctl.kept + 1, rejects := s.ctl.rejects.plus b.rejects
      sums := { s.ctl.sums with n := s.ctl.sums.n + b.sums.n } } }

/-- The controller after a discarded block (R48). -/
def State.retaken (s : State) (b : BlockReport) : State :=
  { s with ctl := { s.ctl with retakes := s.ctl.retakes + 1, rejects := s.ctl.rejects.plus b.rejects } }

theorem State.countKept_rover {b : BlockReport} (rover : s.isBase = false) : s.countKept b = s.roverKept b :=
  if_neg (by simp [rover])

theorem State.countKept_base {b : BlockReport} (base : s.isBase = true) : s.countKept b = (s.baseKept b).produceObs b.sums :=
  if_pos base

/-- A discarded block that ends nothing: within the retake limit, or on a base (R48, R53). -/
theorem State.countDiscarded_goesOn {b : BlockReport}
    (h : s.isBase = true ∨ (s.retaken b).ctl.retakes ≤ s.sampling.retakeLimit) : s.countDiscarded b = s.retaken b := by
  refine if_neg ?_
  rcases h with base | within
  · simp [base]
  · simpa [State.retaken] using fun _ => within

theorem State.countDiscarded_ends {b : BlockReport} (rover : s.isBase = false)
    (beyond : s.sampling.retakeLimit < (s.retaken b).ctl.retakes) : s.countDiscarded b = (s.retaken b).endNoisy b.endTime :=
  if_pos (by simpa [rover, State.retaken] using beyond)

theorem State.afterKept_ends {k endTime : Nat} (bound : s.ctl.k = some k) (reached : k ≤ s.ctl.kept) :
    s.afterKept endTime = s.endOccupation none id endTime :=
  if_pos (Controller.complete_of_le bound reached)

theorem State.afterKept_records {endTime : Nat} (short : ∀ k, s.ctl.k = some k → s.ctl.kept < k)
    (spot : (s.ctl.active.getD default).mode = .spot) : s.afterKept endTime = s := by
  rw [State.afterKept, if_neg (by simp [Controller.complete_eq_false short]), if_neg (by simp [spot])]

theorem State.afterKept_waits {endTime : Nat} (short : ∀ k, s.ctl.k = some k → s.ctl.kept < k)
    (stepped : (s.ctl.active.getD default).mode = .stepped) :
    s.afterKept endTime = { s with ctl := { s.ctl with
      state := .waiting, inForce := none, stepWaitAt := some (endTime + s.sampling.stepWait * 1000) } } := by
  rw [State.afterKept, if_neg (by simp [Controller.complete_eq_false short]), if_pos stepped]
  rfl

/-- Settles O16: a report counted (`State.countKept_rover`, `State.countKept_base`, `State.countDiscarded_goesOn`), and the ending
that it leads to (`reducedEnding_of`). -/
theorem reportTaken : Obligations.ReportTaken := by
  intro s b
  refine ⟨State.takeReport_other, fun k inForce rover bound => ⟨?_, ?_⟩, ?_, fun inForce base discarded => ?_⟩
  · rintro s1 kept rfl
    rw [State.takeReport_kept inForce kept, State.countKept_rover rover]
    have short_ : s.ctl.kept + 1 < k → ∀ j, s.ctl.k = some j → s.ctl.kept + 1 < j := fun short j bound' =>
      Option.some.inj (bound.symm.trans bound') ▸ short
    refine ⟨fun short spot => State.afterKept_records (short_ short) spot,
      fun short stepped => State.afterKept_waits (short_ short) stepped, fun reached sound => ?_⟩
    rw [State.afterKept_ends (by exact bound) (by exact reached)]
    exact reducedEnding_of (s := s.roverKept b) sound (sound.busy_of_inForce inForce) id b.endTime
  · rintro s1 discarded rfl
    rw [State.takeReport_discarded inForce discarded]
    refine ⟨fun within => State.countDiscarded_goesOn (.inr within), fun beyond none_kept => ?_, fun beyond kept sound => ?_⟩
    · rw [State.countDiscarded_ends rover beyond, State.endNoisy, if_pos (by exact none_kept), State.endOccupation_aborted]
      rfl
    · rw [State.countDiscarded_ends rover beyond, State.endNoisy, if_neg (by exact kept)]
      exact reducedEnding_of (s := s.retaken b) sound (sound.busy_of_inForce inForce) flagNoisy b.endTime
  · rintro s1 inForce base kept rfl
    obtain ⟨⟨f, ctl⟩, -⟩ := (s.baseKept b).produceObs_kept b.sums
    rw [State.takeReport_kept inForce kept, State.countKept_base base]
    refine ⟨fun short spot => State.afterKept_records (by rw [ctl]; exact short) (by rw [ctl]; exact spot),
      fun k bound reached sound => ?_⟩
    rw [State.afterKept_ends (by rw [ctl]; exact bound) (by rw [ctl]; exact reached)]
    have sound : LogSound (s.baseKept b) := sound
    exact reducedEnding_of (sound.produceObs b.sums) (by rw [ctl]; exact sound.busy_of_inForce inForce) id b.endTime
  · rw [State.takeReport_discarded inForce discarded]
    exact State.countDiscarded_goesOn (.inl base)

end Sys2Proof.Machine
end

