-- ==== Sys2Proof/Proofs/EngineMoves.lean ====
section
/-! PROOF. What a step can do to the reduction engine, said once: it leaves the log, the pending list, the loops and the occupation
in progress (`State.Still`), starts an occupation, makes one of the engine's events, or hands an occupation off (`State.Moves`). A
command is a run of such moves, a clearing, or SETUP or RUN (`State.Evolution`). -/

namespace Sys2Proof.Machine

/-! ### The moves -/

/-- No opening is in force in IDLE (R43). -/
def Controller.Parked (c : Controller) : Prop := c.state = .idle → c.inForce = none

/-- What leaves the log, the pending list and the loop table, and the occupation in progress or its absence. -/
structure State.Still (s t : State) : Prop where
  log : t.eng.log = s.eng.log
  waiting : t.eng.waiting = s.eng.waiting
  loops : t.eng.loops = s.eng.loops
  number : t.ctl.occNumber = s.ctl.occNumber
  idle : s.ctl.Parked → (t.ctl.state = .idle ↔ s.ctl.state = .idle) ∧ t.ctl.Parked

/-- One move of the reduction engine. -/
inductive State.Moves (s : State) : State → Prop
  | still {t : State} (image : t.image = s.image) (h : s.Still t) : s.Moves t
  | starts {t : State} (image : t.image = s.image) (log : t.eng.log = s.eng.log) (waiting : t.eng.waiting = s.eng.waiting)
      (loops : t.eng.loops = s.eng.loops) (idle : s.ctl.state = .idle) (busy : t.ctl.state ≠ .idle)
      (number : t.ctl.occNumber = s.ctl.occNumber + 1) : s.Moves t
  | reports (r : List FoldChange) : s.Moves (s.foldEvent r)
  | reselects : s.Moves s.reselectEvent
  | expires (occs : List Nat) : s.Moves (s.expireEvent occs)
  | finishes (idle : s.ctl.state = .idle) : s.Moves s.finishEvent
  | ends (busy : s.ctl.Parked → s.ctl.state ≠ .idle) (reason : Option AbortReason) (flag : RecordFlags → RecordFlags)
      (endTime : Nat) : s.Moves (s.endOccupation reason flag endTime)

/-- A run of moves. -/
def State.Evolves : State → State → Prop := Relation.ReflTransGen State.Moves

namespace State.Still

variable {s t u : State}

theorem of_same (eng : t.eng = s.eng) (ctl : t.ctl = s.ctl) : s.Still t := by
  refine ⟨by rw [eng], by rw [eng], by rw [eng], by rw [ctl], fun parked => ?_⟩
  rw [ctl]
  exact ⟨.rfl, parked⟩

theorem refl (s : State) : s.Still s := of_same rfl rfl

theorem trans (h : s.Still t) (h' : t.Still u) : s.Still u := by
  refine ⟨h'.log.trans h.log, h'.waiting.trans h.waiting, h'.loops.trans h.loops, h'.number.trans h.number, fun parked => ?_⟩
  obtain ⟨idle, parked⟩ := h.idle parked
  obtain ⟨idle', parked'⟩ := h'.idle parked
  exact ⟨idle'.trans idle, parked'⟩

/-- A controller that differs in nothing the engine's soundness reads. -/
theorem of_ctl (eng : t.eng = s.eng) (state : t.ctl.state = s.ctl.state) (inForce : t.ctl.inForce = s.ctl.inForce)
    (number : t.ctl.occNumber = s.ctl.occNumber) : s.Still t := by
  refine ⟨by rw [eng], by rw [eng], by rw [eng], number, fun parked => ?_⟩
  unfold Controller.Parked
  rw [state, inForce]
  exact ⟨.rfl, parked⟩

/-- An engine that differs in nothing its soundness reads. -/
theorem setEng (s : State) {e : Engine} (log : e.log = s.eng.log) (waiting : e.waiting = s.eng.waiting)
    (loops : e.loops = s.eng.loops) : s.Still (s.setEng e) := ⟨log, waiting, loops, rfl, (refl s).idle⟩

/-- An occupation in progress goes on. -/
theorem of_busy (eng : t.eng = s.eng) (number : t.ctl.occNumber = s.ctl.occNumber)
    (before : s.ctl.Parked → s.ctl.state ≠ .idle) (after : t.ctl.state ≠ .idle) : s.Still t :=
  ⟨by rw [eng], by rw [eng], by rw [eng], number, fun parked =>
    ⟨iff_of_false after (before parked), fun idle => absurd idle after⟩⟩

theorem suspect (c : Controller) :
    c.suspect.state = c.state ∧ c.suspect.inForce = c.inForce ∧ c.suspect.occNumber = c.occNumber := by
  unfold Controller.suspect
  split <;> exact ⟨rfl, rfl, rfl⟩

theorem changeTb (s : State) (after : TbState) (step : Int) : s.Still (s.changeTb after step) := by
  rw [State.changeTb_eq]
  obtain ⟨state, inForce, number⟩ := suspect s.ctl
  split
  · exact of_ctl rfl state inForce number
  · exact of_same rfl rfl

end State.Still

namespace State.Evolves

variable {s t u : State}

theorem refl (s : State) : s.Evolves s := Relation.ReflTransGen.refl

theorem trans (h : s.Evolves t) (h' : t.Evolves u) : s.Evolves u := Relation.ReflTransGen.trans h h'

theorem of_moves (h : s.Moves t) : s.Evolves t := .single h

theorem of_still (image : t.image = s.image) (h : s.Still t) : s.Evolves t := of_moves (.still image h)

/-- Blocks other than the controller and the engine. -/
theorem of_same (image : t.image = s.image) (eng : t.eng = s.eng) (ctl : t.ctl = s.ctl) : s.Evolves t :=
  of_still image (.of_same eng ctl)

theorem setCtl (s : State) (c : Controller) (state : c.state = s.ctl.state := by rfl)
    (inForce : c.inForce = s.ctl.inForce := by rfl) (number : c.occNumber = s.ctl.occNumber := by rfl) :
    s.Evolves (s.setCtl c) := of_still rfl (.of_ctl rfl state inForce number)

theorem setEng (s : State) (e : Engine) (log : e.log = s.eng.log := by rfl) (waiting : e.waiting = s.eng.waiting := by rfl)
    (loops : e.loops = s.eng.loops := by rfl) : s.Evolves (s.setEng e) := of_still rfl (.setEng s log waiting loops)

theorem foldl {α : Type} {f : State → α → State} (hf : ∀ (s : State) a, s.Evolves (f s a)) (l : List α) (s : State) :
    s.Evolves (l.foldl f s) := by
  induction l generalizing s with
  | nil => exact refl s
  | cons a l ih => exact (hf s a).trans (ih _)

theorem ite {c : Prop} [Decidable c] (h : c → s.Evolves t) : s.Evolves (if c then t else s) := by
  split
  · exact h ‹_›
  · exact refl s

theorem setTb (s : State) (x : TimeBase) : s.Evolves (s.setTb x) := of_same rfl rfl rfl

theorem setIntake (s : State) (x : Intake) : s.Evolves (s.setIntake x) := of_same rfl rfl rfl

theorem setLink (s : State) (x : PeerLink) : s.Evolves (s.setLink x) := of_same rfl rfl rfl

theorem setPeers (s : State) (x : PeerTable) : s.Evolves (s.setPeers x) := of_same rfl rfl rfl

theorem setPort (s : State) (x : Port) : s.Evolves (s.setPort x) := of_same rfl rfl rfl

theorem served (h : s.Evolves t) : s.Evolves t.serve := h.trans (setPort t _)

/-! ### The peer table and the peer link -/

theorem queueRev (s : State) (r : Rev) : s.Evolves (s.queueRev r) := by
  obtain ⟨p, h⟩ := s.queueRev_frame r
  rw [h]
  exact of_same rfl rfl rfl

theorem reref (s : State) (fromSeq : Nat) (step : Int) : s.Evolves (s.reref fromSeq step) := by
  exact ((setEng s _).trans (setLink _ _)).trans (queueRev _ _)

theorem cycleEnd (s : State) : s.Evolves s.cycleEnd := by
  unfold State.cycleEnd
  obtain ⟨t, p, h⟩ := (s.setLink { s.link with inq := [] }).foldAll_frame s.link.inq
  refine trans (of_same ?_ ?_ ?_) (of_moves (.reports _)) <;> rw [h] <;> rfl

theorem cycleStart (s : State) : s.Evolves s.cycleStart := (cycleEnd s).trans (setLink _ _)

theorem takeBoundary (s : State) (x : Nat) : s.Evolves (s.takeBoundary x) := by
  unfold State.takeBoundary
  simp only
  split
  · exact (cycleStart s).trans (setLink _ _)
  · exact setLink s _

theorem stepAtLink (s : State) : s.Evolves s.stepAtLink := by
  unfold State.stepAtLink
  split
  · simp only
    split
    · exact (setLink s _).trans (setLink _ _)
    · exact (setLink s _).trans ((cycleStart _).trans (setLink _ _))
  · exact refl s

theorem decideSlot (s : State) : s.Evolves s.decideSlot := by
  unfold State.decideSlot
  simp only
  split
  · exact setLink s _
  · split
    · exact setLink s _
    · split <;> exact of_same rfl rfl rfl

theorem receiveHead (s : State) (bytes : List Byte) : s.Evolves (s.receiveHead bytes) := by
  unfold State.receiveHead
  split
  · exact setLink s _
  · simp only
    rw [State.judgeHead_frame]
    exact of_same rfl rfl rfl

theorem enqueueInbound (s : State) (sender : Nat) (r : PeerRecord) : s.Evolves (s.enqueueInbound sender r) := by
  unfold State.enqueueInbound
  split
  · exact setLink s _
  · exact setPort s _

theorem receiveRecord (s : State) (sender : Nat) (take : Bool) (toCome : Nat) (bytes : List Byte) :
    s.Evolves (s.receiveRecord sender take toCome bytes) := by
  unfold State.receiveRecord
  simp only
  split
  · split
    · exact (setLink s _).trans (enqueueInbound ..)
    · exact setLink s _
  · exact setLink s _

theorem receive (n : Nat) (s : State) : s.Evolves (State.receive n s) := by
  induction n generalizing s with
  | zero => exact refl s
  | succ n ih =>
    unfold State.receive
    simp only
    split
    · exact setLink s _
    · exact setLink s _
    · split
      · exact refl s
      · exact (setLink s _).trans ((receiveHead ..).trans (ih _))
    · split
      · exact refl s
      · exact (setLink s _).trans ((receiveRecord ..).trans (ih _))

theorem hear (s : State) (bytes : List Byte) : s.Evolves (s.hear bytes) := (setLink s _).trans (receive _ _)

theorem peerBytes (s : State) (bytes : List Byte) : s.Evolves (s.peerBytes bytes) := by
  unfold State.peerBytes
  split
  · exact hear ..
  · split
    · exact ((setLink s _).trans (hear _ bytes)).trans (setLink _ _)
    · exact hear ..

theorem peerChanged (s : State) (before : Option PeerState) (e : PeerEntry) : s.Evolves (s.peerChanged before e) :=
  of_same rfl rfl rfl

theorem reselectEvent (s : State) : s.Evolves s.reselectEvent := of_moves .reselects

theorem dropEntry (s : State) (e : PeerEntry) : s.Evolves (s.dropEntry e) :=
  (setPeers s _).trans ((peerChanged _ _ _).trans (reselectEvent _))

theorem restoreEntry (s : State) (e : PeerEntry) : s.Evolves (s.restoreEntry e) :=
  (setPeers s _).trans ((peerChanged _ _ _).trans (reselectEvent _))

/-! ### The occupation controller -/

theorem endOccupation (busy : s.ctl.Parked → s.ctl.state ≠ .idle) (reason : Option AbortReason) (flag : RecordFlags → RecordFlags)
    (endTime : Nat) : s.Evolves (s.endOccupation reason flag endTime) := of_moves (.ends busy reason flag endTime)

theorem openIntake (busy : s.ctl.state ≠ .idle) (mode : ContMode) (first : Bool) : s.Evolves (s.openIntake mode first) :=
  of_still rfl (.of_busy rfl rfl (fun _ => busy) (by simp [State.openIntake, State.setCtl]))

theorem settleIfDue (s : State) : s.Evolves s.settleIfDue := by
  unfold State.settleIfDue
  refine ite fun due => openIntake ?_ _ _
  obtain ⟨settling, -⟩ : s.ctl.state = .settling ∧ _ := by simpa using due
  simp [settling]

theorem settleIfDue_kept (s : State) : s.settleIfDue.image = s.image ∧ s.settleIfDue.eng = s.eng
    ∧ s.settleIfDue.ctl.occNumber = s.ctl.occNumber ∧ (s.ctl.state ≠ .idle → s.settleIfDue.ctl.state ≠ .idle) := by
  unfold State.settleIfDue
  split
  · exact ⟨rfl, rfl, rfl, fun _ => by simp [State.settle, State.openIntake, State.setCtl]⟩
  · exact ⟨rfl, rfl, rfl, id⟩

theorem beginOccupation (idle : s.ctl.state = .idle) (h : Header) (k : Option Nat) : s.Evolves (s.beginOccupation h k) := by
  obtain ⟨image, eng, number, busy⟩ := settleIfDue_kept (s.setCtl { s.ctl with
    state := .settling, active := some h, occNumber := s.ctl.occNumber + 1, startTime := s.tb.nodeTime, k := k, kept := 0
    retakes := 0, sums := {}, rejects := {}
    flags := { settleClamped := h.settleClamp, timeSuspect := s.tb.state = .lost }
    settleAt := some (s.tb.nodeTime + settleMs s.sampling h), stepWaitAt := none, inForce := none })
  exact of_moves (.starts image (congrArg Engine.log eng) (congrArg Engine.waiting eng) (congrArg Engine.loops eng) idle
    (busy (by simp)) number)

theorem startTrigger (idle : s.ctl.state = .idle) (h : s.startTrigger = some t) : s.Evolves t := by
  unfold State.startTrigger State.startRover at h
  split at h
  · cases h
    exact (setEng _ _).trans (beginOccupation (by exact idle) _ _)
  · split at h
    · cases h
      exact (setCtl _ _).trans (beginOccupation (by exact idle) _ _)
    · cases h

theorem endStopped (busy : s.ctl.state ≠ .idle) : s.Evolves s.endStopped := by
  unfold State.endStopped
  split <;> exact endOccupation (fun _ => busy) ..

theorem sensorLost (s : State) : s.Evolves s.sensorLost := by
  unfold State.sensorLost
  split
  · exact refl s
  · split <;> exact endOccupation (fun _ => ‹_›) ..

theorem afterKept (busy : s.ctl.Parked → s.ctl.state ≠ .idle) (endTime : Nat) : s.Evolves (s.afterKept endTime) := by
  unfold State.afterKept
  split
  · exact endOccupation busy ..
  · exact ite fun _ => of_still rfl (.of_busy rfl rfl busy (by simp [State.setCtl]))

theorem endNoisy (busy : s.ctl.Parked → s.ctl.state ≠ .idle) (endTime : Nat) : s.Evolves (s.endNoisy endTime) := by
  unfold State.endNoisy
  split <;> exact endOccupation busy ..

theorem produceObs_still (s : State) (sums : Sums) : s.Still (s.produceObs sums) := by
  obtain ⟨⟨f, ctl⟩, log, waiting⟩ := s.produceObs_kept sums
  have loops : (s.produceObs sums).eng.loops = s.eng.loops := by
    unfold State.produceObs
    simp only
    split
    · rfl
    · unfold State.queueObs
      simp only
      split <;> rfl
  refine ⟨log, waiting, loops, by rw [ctl], fun parked => ?_⟩
  rw [ctl]
  exact ⟨.rfl, parked⟩

/-- A report counted leaves the occupation in progress and the opening in force. -/
theorem countKept_kept (s : State) (b : BlockReport) : (s.countKept b).image = s.image ∧ s.Still (s.countKept b)
    ∧ (s.countKept b).ctl.state = s.ctl.state ∧ (s.countKept b).ctl.inForce = s.ctl.inForce := by
  cases base : s.isBase with
  | true =>
    rw [State.countKept_base base]
    have counted : s.Still (s.baseKept b) := .of_ctl rfl rfl rfl rfl
    obtain ⟨⟨f, ctl⟩, -⟩ := (s.baseKept b).produceObs_frame b.sums
    refine ⟨(State.Within.produceObs _ _).image, counted.trans (produceObs_still _ _), ?_⟩
    rw [ctl]
    exact ⟨rfl, rfl⟩
  | false =>
    rw [State.countKept_rover base]
    exact ⟨rfl, .of_ctl rfl rfl rfl rfl, rfl, rfl⟩

theorem takeReport (s : State) (b : BlockReport) : s.Evolves (s.takeReport b) := by
  unfold State.takeReport
  split
  · exact refl s
  · rename_i taken
    have inForce : s.ctl.inForce = some b.opening := not_not.mp taken
    have busy : ∀ c : Controller, c.inForce = s.ctl.inForce → c.Parked → c.state ≠ .idle := by
      intro c same parked idle
      simp [← same, parked idle] at inForce
    split
    · obtain ⟨image, still, -, same⟩ := countKept_kept s b
      exact (of_still image still).trans (afterKept (busy _ same) _)
    · have counted : s.Evolves (s.retaken b) := setCtl _ _
      unfold State.countDiscarded
      exact counted.trans (ite fun _ => endNoisy (busy (s.retaken b).ctl rfl) b.endTime)

theorem amendWith (busy : s.ctl.state ≠ .idle) (staged : Header) : s.Evolves (s.amendWith staged) := by
  have ends : ∀ (c : Controller) (endTime : Nat), c.state = s.ctl.state →
      (s.setCtl c).Evolves ((s.setCtl c).endOccupation none id endTime) := fun c endTime state =>
    endOccupation (fun _ => by rw [State.setCtl_ctl, state]; exact busy) none id endTime
  unfold State.amendWith
  simp only
  split
  · exact (setCtl _ _).trans (settleIfDue _)
  · split
    · exact (setCtl _ _).trans (ends _ _ rfl)
    · exact setCtl _ _

theorem takeEdge (s : State) : s.Evolves s.takeEdge := by
  unfold State.takeEdge
  split
  · cases h : s.startTrigger with
    | none => exact setPort s _
    | some t => exact startTrigger ‹_› h
  · rename_i waiting
    exact openIntake (by simp [waiting]) ..
  · exact refl s
  · exact refl s

/-! ### The sensor port -/

theorem takeSensorFrame (s : State) (f : Frame) : s.Evolves (s.takeSensorFrame f) :=
  (setIntake s _).trans (foldl takeReport _ _)

theorem sensorBytes (s : State) (bytes : List Byte) : s.Evolves (s.sensorBytes bytes) :=
  (setIntake s _).trans (foldl takeSensorFrame _ _)

theorem takeSilence (s : State) : s.Evolves s.takeSilence := by
  unfold State.takeSilence
  simp only
  split
  · exact (setIntake s _).trans (sensorLost _)
  · split
    · exact (setIntake s _).trans (sensorLost _)
    · exact setIntake s _

/-! ### The time base and a time step's deliveries -/

theorem stepWait (waiting : s.ctl.state = .waiting) : s.Evolves s.stepTimeout := endOccupation (fun _ => by simp [waiting]) ..

theorem stepAtController (s : State) : s.Evolves s.stepAtController := by
  obtain ⟨state, inForce, number⟩ := Still.suspect s.ctl
  have suspected : s.Evolves s.suspected := setCtl s _ state inForce number
  rw [State.stepAtController_eq]
  refine suspected.trans ?_
  split
  · rename_i reached
    simp only [State.stepReached, Bool.and_eq_true, decide_eq_true_eq] at reached
    obtain ⟨waiting, -⟩ := reached
    exact stepWait (state.trans waiting)
  · refine ite fun reached => openIntake ?_ _ _
    simp only [State.settleReached, Bool.and_eq_true, decide_eq_true_eq] at reached
    obtain ⟨settling, -⟩ := reached
    rw [State.suspected, State.setCtl_ctl, state, settling]
    simp

theorem stepAtEngine (s : State) : s.Evolves s.stepAtEngine := by
  unfold State.stepAtEngine
  split
  · exact refl s
  · exact of_moves (.expires _)

theorem deliverStep (s : State) : s.Evolves s.deliverStep := by
  have each : ∀ f ∈ s.inFreeOrder [State.stepAtController, State.stepAtEngine, State.stepAtLink],
      ∀ u : State, u.Evolves (f u) := by
    intro f hf
    rcases (by simpa using (s.inFreeOrder_perm _).mem_iff.mp hf) with rfl | rfl | rfl
    · exact stepAtController
    · exact stepAtEngine
    · exact stepAtLink
  have fold : ∀ fs : List (State → State), (∀ f ∈ fs, ∀ u : State, u.Evolves (f u)) → ∀ u : State,
      u.Evolves (fs.foldl (fun u f => f u) u) := by
    intro fs
    induction fs with
    | nil => exact fun _ u => refl u
    | cons f fs ih => exact fun h u => (h f (by simp) u).trans (ih (fun g hg => h g (by simp [hg])) _)
  exact trans (t := s.drawn) (of_same rfl rfl rfl) (fold _ each _)

theorem changeTb (s : State) (after : TbState) (step : Int) : s.Evolves (s.changeTb after step) :=
  of_still (State.Within.changeTb s after step).image (Still.changeTb s after step)

theorem relock (s : State) (a : ArmedRecord) : s.Evolves (s.relock a) := by
  unfold State.relock
  simp only
  split
  · exact (setTb s _).trans (changeTb ..)
  · exact (setTb s _).trans ((setTb _ _).trans ((changeTb ..).trans (deliverStep _)))

theorem takePulse (s : State) : s.Evolves s.takePulse := by
  have pulse : ∀ (u : State) a, u.Evolves (u.pulseWith a) := by
    intro u a
    unfold State.pulseWith
    split
    · exact ite fun _ => (setTb u _).trans (changeTb ..)
    · exact ite fun _ => setTb u _
    · split
      · exact relock u a
      · exact changeTb ..
    · exact ite fun _ => relock u a
  unfold State.takePulse
  simp only
  split
  · exact setTb s _
  · split
    · exact setTb s _
    · exact (setTb s _).trans (pulse _ _)

theorem takeTimeRecord (s : State) (second : Nat) (valid : Bool) : s.Evolves (s.takeTimeRecord second valid) := by
  unfold State.takeTimeRecord
  split
  · exact setTb s _
  · split
    · exact refl s
    · exact setTb s _

theorem takeRangeEnd (s : State) : s.Evolves s.takeRangeEnd := by
  unfold State.takeRangeEnd
  simp only
  split
  · exact setTb s _
  · exact (setTb s _).trans (changeTb ..)

theorem deliverBoundary (s : State) : s.Evolves s.deliverBoundary := by
  unfold State.deliverBoundary
  split
  · exact refl s
  · exact (setTb s _).trans (takeBoundary _ _)

theorem tick (s : State) : s.Evolves s.tick := by
  unfold State.tick State.raiseDue
  split <;> exact of_same rfl rfl rfl

/-! ### Requests -/

theorem takeAmend (s : State) : s.Evolves s.takeAmend.1 := by
  unfold State.takeAmend
  split
  · exact refl s
  · split
    · exact refl s
    · split
      · exact refl s
      · exact amendWith ‹_› _

theorem takeStage (payload : List Byte) (s : State) : s.Evolves (s.takeStage payload).1 := by
  unfold State.takeStage
  split
  · exact refl s
  · split
    · exact refl s
    · exact setCtl _ _

theorem takeCommit (s : State) : s.Evolves s.takeCommit.1 := by
  unfold State.takeCommit
  split
  · exact refl s
  · split
    · exact refl s
    · exact setCtl _ _

theorem takeStart (s : State) : s.Evolves s.takeStart.1 := by
  unfold State.takeStart
  split
  · exact refl s
  · rename_i admitted
    split
    · exact refl s
    · obtain ⟨-, idle⟩ : s.identity.trigger = .command ∧ s.ctl.state = .idle := by simpa using admitted
      exact startTrigger idle ‹_›

theorem takeStep (s : State) : s.Evolves s.takeStep.1 := by
  unfold State.takeStep
  split
  · exact refl s
  · split
    · rename_i waiting
      exact openIntake (by simp [waiting]) ..
    · exact refl s

theorem takeStop (s : State) : s.Evolves s.takeStop.1 := by
  unfold State.takeStop
  split
  · exact refl s
  · exact endStopped ‹_›

theorem takeQuiet (payload : List Byte) (s : State) : s.Evolves (s.takeQuiet payload).1 := by
  unfold State.takeQuiet
  simp only
  split
  · exact refl s
  · exact setLink s _

theorem takeRxmask (payload : List Byte) (s : State) : s.Evolves (s.takeRxmask payload).1 := by
  unfold State.takeRxmask
  simp only
  split
  · exact setLink s _
  · exact refl s

theorem takeDrop (payload : List Byte) (s : State) : s.Evolves (s.takeDrop payload).1 := by
  unfold State.takeDrop
  simp only
  split
  · exact refl s
  · split
    · exact refl s
    · split
      · exact refl s
      · simp only
        exact dropEntry s _

theorem takeRestore (payload : List Byte) (s : State) : s.Evolves (s.takeRestore payload).1 := by
  unfold State.takeRestore
  simp only
  split
  · exact refl s
  · split
    · exact refl s
    · split
      · simp only
        exact restoreEntry s _
      · exact refl s

theorem takeReref (payload : List Byte) (s : State) : s.Evolves (s.takeReref payload).1 := by
  unfold State.takeReref
  simp only
  split
  · exact refl s
  · exact reref s _ _

theorem takeFinish (s : State) : s.Evolves s.takeFinish.1 := by
  unfold State.takeFinish
  split
  · simp only
    exact of_moves (.finishes ‹_›)
  · exact refl s

end State.Evolves

/-! ### Endings at the engine -/

/-- An ending hands the occupation off (R52), from a state with the same image and engine. -/
theorem State.endOccupation_eng (s : State) (reason : Option AbortReason) (flag : RecordFlags → RecordFlags) (endTime : Nat) :
    ∃ (u : State) (h : HandOff), u.image = s.image ∧ u.eng = s.eng ∧ s.Still u ∧ h.occ = s.ctl.occNumber
      ∧ (s.endOccupation reason flag endTime).eng = (u.handOff h).eng.endCycle := by
  refine ⟨_, _, ?_, ?_, .of_ctl ?_ ?_ ?_ ?_, ?_, rfl⟩ <;> rfl

/-- The controller in IDLE, its occupation number kept (R52). -/
structure State.Idles (s t : State) : Prop where
  idle : t.ctl.state = .idle
  inForce : t.ctl.inForce = none
  number : t.ctl.occNumber = s.ctl.occNumber

theorem State.endOccupation_idles (s : State) (reason : Option AbortReason) (flag : RecordFlags → RecordFlags) (endTime : Nat) :
    s.Idles (s.endOccupation reason flag endTime) := by
  obtain ⟨e, p, frame⟩ := s.endOccupation_frame reason flag endTime
  rw [frame]
  exact ⟨rfl, rfl, rfl⟩

/-! ### Every command -/

open State.Evolves in
/-- The commands that are neither POWER_ON nor a frame or bytes at the logger port are runs of moves. -/
theorem exec_evolves (s : State) : ∀ c : Instr, continuing c = true → Instr.request c = none →
    ∃ t, exec c s = .next t ∧ s.Evolves t
  | .timeRecord _ second valid, _, _ => ⟨_, rfl, ite fun _ => takeTimeRecord s second valid⟩
  | .armedRecordExpiry, _, _ => ⟨_, rfl, ite fun _ => setTb s _⟩
  | .ppsPulse _, _, _ => ⟨_, rfl, by split; exact refl s; exact (takePulse s).served⟩
  | .holdoverExpiry, _, _ => ⟨_, rfl, ite fun _ => (changeTb s _ _).served⟩
  | .lossExpiry, _, _ => ⟨_, rfl, ite fun _ => (changeTb s _ _).served⟩
  | .rangeEnd, _, _ => ⟨_, rfl, ite fun _ => (takeRangeEnd s).served⟩
  | .slotBoundary, _, _ => ⟨_, rfl, ite fun _ => (deliverBoundary s).served⟩
  | .sampleFrame bytes, _, _ => ⟨_, rfl, (sensorBytes s bytes).served⟩
  | .sensorByteTimeout, _, _ => ⟨_, rfl, ite fun _ => setIntake s _⟩
  | .silenceExpiry, _, _ => ⟨_, rfl, ite fun _ => (takeSilence s).served⟩
  | .trigEdge .., _, _ => ⟨_, rfl, ite fun _ => takeEdge s⟩
  | .settleExpiry, _, _ => ⟨_, rfl, ite fun due => by
      obtain ⟨settling, -⟩ : s.ctl.state = .settling ∧ _ := by simpa [State.settleDue] using due
      exact openIntake (by simp [settling]) ..⟩
  | .stepWaitExpiry, _, _ => ⟨_, rfl, ite fun due => by
      obtain ⟨waiting, -⟩ : s.ctl.state = .waiting ∧ _ := by simpa [State.stepWaitDue] using due
      exact (stepWait waiting).served⟩
  | .endPulseExpiry, _, _ => ⟨_, rfl, ite fun _ => setCtl _ _⟩
  | .holdExpiry _, _, _ => ⟨_, rfl, ite fun _ => (of_moves (.expires _)).served⟩
  | .burstStart, _, _ => ⟨_, rfl, ite fun _ => decideSlot s⟩
  | .recordSent, _, _ => ⟨_, rfl, by
      split
      · exact ite fun _ => setLink s _
      · exact refl s⟩
  | .burstEnd, _, _ => ⟨_, rfl, ite fun _ => setLink s _⟩
  | .receiverListen, _, _ => ⟨_, rfl, ite fun _ => setLink s _⟩
  | .headReceived bytes, _, _ => ⟨_, rfl, (peerBytes s bytes).served⟩
  | .peerRecordReceived bytes, _, _ => ⟨_, rfl, (peerBytes s bytes).served⟩
  | .loggerByteTimeout, _, _ => ⟨_, rfl, ite fun _ => by
      obtain ⟨p, h, -⟩ := State.abandonFrame_replied s
      rw [h]
      exact setPort s p⟩
  | .outputFrameSent, _, _ => ⟨_, rfl, ite fun _ => (setPort s _).served⟩

/-- What a command does to the engine: a run of moves; everything cleared, at POWER_ON and RESTART; or, in STARTUP, at SETUP and
RUN, nothing, whatever the image becomes. -/
inductive State.Evolution (s t : State) : Prop
  | evolves (h : s.Evolves t)
  | cleared (eng : t.eng = {}) (ctl : t.ctl = {})
  | loaded (node : s.node = .startup) (h : s.Still t)

namespace State.Evolution

variable {s t u : State}

/-- The port does not bear on the engine. -/
theorem setPort (h : s.Evolution t) (p : Port) : s.Evolution (t.setPort p) := by
  cases h with
  | evolves h => exact .evolves (h.trans (.setPort t p))
  | cleared eng ctl => exact .cleared eng ctl
  | loaded node h => exact .loaded node (h.trans (.of_same rfl rfl))

theorem from_same (eng : u.eng = s.eng) (ctl : u.ctl = s.ctl) (node : u.node = s.node) (image : u.image = s.image)
    (h : u.Evolution t) : s.Evolution t := by
  cases h with
  | evolves h => exact .evolves (.trans (.of_same image eng ctl) h)
  | cleared eng ctl => exact .cleared eng ctl
  | loaded startup h => exact .loaded (node.symm.trans startup) (.trans (.of_same eng ctl) h)

theorem replied (h : s.Replied t) : s.Evolution t := by
  obtain ⟨p, rfl, -⟩ := h
  exact .evolves (.setPort s p)

/-- A request: refused, or its handler's effect on a node that admits it. -/
theorem request {kind : Nat} {allowed : NodeState → Bool} {handler : State → State × Reply} {seq : Byte} {payload : List Byte}
    (h : ∀ u : State, allowed u.node = true → u.Evolution (handler u).1) :
    s.Evolution (s.request kind allowed handler seq payload).serve := by
  rcases s.request_cases kind allowed handler seq payload with
    ⟨-, heq⟩ | ⟨-, -, heq⟩ | ⟨-, -, -, heq⟩ | ⟨-, -, node, heq⟩ <;> rw [heq]
  · exact .evolves (.served (.setPort s _))
  · exact .evolves (.served (.setPort s _))
  · exact .evolves (.served (.setPort s _))
  · exact from_same (u := s.hunting) rfl rfl rfl rfl (((h s.hunting node).setPort _).setPort _)

/-- A request whose handler makes moves, in whatever node state it is admitted. -/
theorem request_evolves {kind : Nat} {allowed : NodeState → Bool} {handler : State → State × Reply} {seq : Byte}
    {payload : List Byte} (h : ∀ u : State, u.Evolves (handler u).1) :
    s.Evolution (s.request kind allowed handler seq payload).serve :=
  request fun u _ => .evolves (h u)

theorem takeSetup_still (payload : List Byte) (s : State) : s.Still (s.takeSetup payload).1 := by
  unfold State.takeSetup State.loadPart State.epochLoaded State.unsetTb
  simp only
  split
  · split
    · exact .refl s
    · split
      · split
        · exact .of_same rfl rfl
        · split
          · exact .of_same rfl rfl
          · refine Still.trans ?_ (Still.changeTb _ _ _)
            exact .of_same rfl rfl
      · exact .of_same rfl rfl
  · exact .refl s

theorem takeRun_same (s : State) : s.takeRun.1.eng = s.eng ∧ s.takeRun.1.ctl = s.ctl := by
  unfold State.takeRun
  split <;> exact ⟨rfl, rfl⟩

theorem dispatch (s : State) (kind q : Byte) (p : List Byte) : s.Evolution (s.dispatch kind q p) := by
  unfold State.dispatch
  split
  case h_1 => exact request_evolves fun u => .setPort u _
  case h_2 => exact request fun u node => .loaded (by simpa [startupOnly] using node) (takeSetup_still p u)
  case h_3 =>
    refine request fun u node => ?_
    obtain ⟨eng, ctl⟩ := takeRun_same u
    exact .loaded (by simpa [startupOnly] using node) (.of_same eng ctl)
  case h_4 => exact request fun _ _ => .cleared rfl rfl
  case h_5 => exact request_evolves (.takeStage p)
  case h_6 => exact request_evolves .takeCommit
  case h_7 => exact request_evolves .takeAmend
  case h_8 => exact request_evolves .takeStart
  case h_9 => exact request_evolves .takeStep
  case h_10 => exact request_evolves .takeStop
  case h_11 => exact request_evolves (.takeQuiet p)
  case h_12 => exact request_evolves (.takeRxmask p)
  case h_13 => exact request_evolves (.takeDrop p)
  case h_14 => exact request_evolves (.takeRestore p)
  case h_15 => exact request_evolves (.takeReref p)
  case h_16 => exact request_evolves .takeFinish
  case h_17 => exact request_evolves .refl
  case h_18 => exact request_evolves .refl
  case h_19 => exact request_evolves .refl
  case h_20 => exact request_evolves .refl
  case h_21 => exact replied (doUnknown_replied ..)

theorem takeItem (s : State) (i : LoggerItem) : s.Evolution (s.takeItem i) := by
  unfold State.takeItem
  split
  · exact replied (answerOrBusy_replied ..)
  · split
    · exact dispatch s _ _ _
    · exact replied (answerOrBusy_replied ..)

theorem loggerBytes (s : State) (bytes : List Byte) : s.Evolution (s.loggerBytes bytes) := by
  rcases s.loggerBytes_cases bytes with h | ⟨i, p, h, -⟩
  · exact replied h
  · rw [h]
    exact (takeItem s i).setPort p

theorem exec {c : Instr} (h : Machine.exec c s = .next t) : s.Evolution t := by
  cases request : Instr.request c with
  | some x =>
    rw [exec_request request] at h
    cases h
    exact dispatch s _ _ _
  | none =>
    by_cases continues : continuing c = true
    · obtain ⟨u, hu, evolves⟩ := exec_evolves s c continues request
      rw [hu] at h
      cases h
      exact .evolves evolves
    · cases c with
      | powerOn =>
        cases h
        exact .cleared rfl rfl
      | badLoggerFrame bytes =>
        cases h
        exact loggerBytes s bytes
      | unknownRequest kind q p =>
        cases h
        exact dispatch s _ _ _
      | setup => cases request
      | run => cases request
      | restart => cases request
      | _ => exact absurd rfl continues

/-- Every step. -/
theorem step (h : Machine.step s = .next t) : s.Evolution t := by
  rcases step_cases h with ht | ⟨c, rest, -, hc⟩
  · rw [ht]
    exact .evolves (State.Evolves.tick s)
  · exact from_same (u := { s with pending := rest }) rfl rfl rfl rfl (exec hc)

end State.Evolution

end Sys2Proof.Machine
end

