-- ==== Sys2Proof/Proofs/LoopTables.lean ====
section
/-! PROOF. O58: the loop table stays sound. Each operation of chapter 8 keeps a table's rates within the limit, its numbers
increasing below its counter, and its slots of their states (`LoopTable.Sound`); base-term work leaves the table. -/

namespace Sys2Proof.Machine

/-! ### The loop table's soundness -/

/-- The loops that a table holds, in the order of their numbers (R137). -/
def LoopTable.holding (t : LoopTable) : List Loop := t.lastFrozen.toList ++ t.closing ++ t.openLoop.toList

theorem LoopTable.mem_holding {t : LoopTable} {l : Loop} :
    l ∈ t.holding ↔ l ∈ t.lastFrozen ∨ l ∈ t.closing ∨ l ∈ t.openLoop := by
  simp only [LoopTable.holding, List.mem_append, Option.mem_toList, Option.mem_def, or_assoc]

/-- `LoopsSound` as a fact of the loop table under a drift rate limit. -/
structure LoopTable.Sound (limit : Nat) (t : LoopTable) : Prop where
  rates : ∀ l ∈ t.holding, l.rate.natAbs ≤ limit
  counted : ∀ n ∈ t.holding.map Loop.number, n ≤ t.counter
  order : (t.holding.map Loop.number).Pairwise (· < ·)
  carry : ∀ c ∈ t.carry, c.rate.natAbs ≤ limit
  opened : ∀ l ∈ t.openLoop, l.state = .opened ∧ l.closingTie = none
  closing : ∀ l ∈ t.closing, l.state = .closing ∧ l.closingTie.isSome = true
  frozen : ∀ l ∈ t.lastFrozen, l.state = .frozen

theorem loopsSound_iff (s : State) : LoopsSound s ↔ s.eng.loops.Sound s.driftCfg.rateLimit := by
  constructor
  · rintro ⟨held, carry, opened, closing, frozen, order⟩
    exact ⟨fun l hl => (held l hl).1, List.forall_mem_map.mpr fun l hl => (held l hl).2, List.pairwise_map.mpr order, carry,
      opened, closing, frozen⟩
  · intro h
    exact ⟨fun l hl => ⟨h.rates l hl, h.counted _ (List.mem_map_of_mem hl)⟩, h.carry, h.opened, h.closing, h.frozen,
      List.pairwise_map.mp h.order⟩

theorem LoopTable.sound_empty (limit : Nat) : ({} : LoopTable).Sound limit := by
  constructor <;> simp [LoopTable.holding]

namespace LoopTable.Sound

variable {limit : Nat} {t t' : LoopTable} {cfg : DriftConfig}

theorem rate_closing (h : t.Sound limit) : ∀ l ∈ t.closing, l.rate.natAbs ≤ limit :=
  fun l hl => h.rates l (LoopTable.mem_holding.mpr (.inr (.inl hl)))

theorem rate_open (h : t.Sound limit) : ∀ l ∈ t.openLoop, l.rate.natAbs ≤ limit :=
  fun l hl => h.rates l (LoopTable.mem_holding.mpr (.inr (.inr hl)))

theorem rate_frozen (h : t.Sound limit) : ∀ l ∈ t.lastFrozen, l.rate.natAbs ≤ limit :=
  fun l hl => h.rates l (LoopTable.mem_holding.mpr (.inl hl))

/-- The rate before a loop is one that the table holds, or 0. -/
theorem rateBefore (h : t.Sound limit) (k : Nat) : (t.rateBefore k).natAbs ≤ limit := by
  unfold LoopTable.rateBefore
  split
  · rename_i l last
    exact h.rate_closing l (List.mem_filter.mp (List.mem_of_getLast? last)).1
  · split
    · split
      · exact h.rate_frozen _ ‹_›
      · exact Nat.zero_le _
    · exact Nat.zero_le _

/-- Fewer loops, each within the limit. -/
theorem of_sublist (h : t.Sound limit) (numbers : (t'.holding.map Loop.number).Sublist (t.holding.map Loop.number))
    (counter : t'.counter = t.counter) (rates : ∀ l ∈ t'.holding, l.rate.natAbs ≤ limit)
    (carry : ∀ c ∈ t'.carry, c.rate.natAbs ≤ limit) (opened : ∀ l ∈ t'.openLoop, l.state = .opened ∧ l.closingTie = none)
    (closing : ∀ l ∈ t'.closing, l.state = .closing ∧ l.closingTie.isSome = true)
    (frozen : ∀ l ∈ t'.lastFrozen, l.state = .frozen) : t'.Sound limit where
  rates := rates
  counted := fun n hn => counter ▸ h.counted n (numbers.subset hn)
  order := h.order.sublist numbers
  carry := carry
  opened := opened
  closing := closing
  frozen := frozen

/-! ### When tie values move -/

/-- A rate formed from two ties is clamped, or the rate before (R73). -/
theorem withRate_rate (l : Loop) (c : Tie) {before : Int} (hb : before.natAbs ≤ cfg.rateLimit) :
    (l.withRate cfg before c).rate.natAbs ≤ cfg.rateLimit := by
  unfold Loop.withRate
  split
  · exact hb
  · simp only [clampRate_eq]
    omega

theorem withRate_kept (cfg : DriftConfig) (before : Int) (l : Loop) (c : Tie) :
    (l.withRate cfg before c).number = l.number ∧ (l.withRate cfg before c).state = l.state
      ∧ (l.withRate cfg before c).closingTie = l.closingTie := by
  unfold Loop.withRate
  split <;> exact ⟨rfl, rfl, rfl⟩

theorem recompute_numbers (older : Option Loop) (before : Int) (q : List Loop) :
    (recompute cfg older before q).map Loop.number = q.map Loop.number := by
  induction q generalizing older before with
  | nil => rfl
  | cons l q ih =>
    unfold recompute
    simp only [List.map_cons, ih]
    split
    · rw [(withRate_kept ..).1]
    · rfl

theorem recompute_rates (older : Option Loop) {before : Int} (hb : before.natAbs ≤ cfg.rateLimit) {q : List Loop}
    (hq : ∀ l ∈ q, l.rate.natAbs ≤ cfg.rateLimit) : ∀ l ∈ recompute cfg older before q, l.rate.natAbs ≤ cfg.rateLimit := by
  induction q generalizing older before with
  | nil => exact fun l hl => nomatch hl
  | cons l q ih =>
    obtain ⟨hl, hq⟩ := List.forall_mem_cons.mp hq
    unfold recompute
    have first : (match l.closingTie with
        | some c => ({ l with dO := l.anchorOn older } : Loop).withRate cfg before c
        | none => { l with dO := l.anchorOn older }).rate.natAbs ≤ cfg.rateLimit := by
      split
      · exact withRate_rate _ _ hb
      · exact hl
    exact List.forall_mem_cons.mpr ⟨first, ih _ first hq⟩

theorem recompute_closing (older : Option Loop) (before : Int) {q : List Loop}
    (hq : ∀ l ∈ q, l.state = .closing ∧ l.closingTie.isSome = true) :
    ∀ l ∈ recompute cfg older before q, l.state = .closing ∧ l.closingTie.isSome = true := by
  induction q generalizing older before with
  | nil => exact fun l hl => nomatch hl
  | cons l q ih =>
    obtain ⟨hl, hq⟩ := List.forall_mem_cons.mp hq
    unfold recompute
    refine List.forall_mem_cons.mpr ⟨?_, ih _ _ hq⟩
    split
    · obtain ⟨-, state, tie⟩ := withRate_kept cfg before { l with dO := l.anchorOn older } ‹Tie›
      rw [state, tie]
      exact hl
    · exact hl

/-- The tie copies brought up to their records. -/
theorem follow (h : t.Sound limit) (log : List Record) : (t.follow log).Sound limit := by
  have numbers : (t.follow log).holding.map Loop.number = t.holding.map Loop.number := by
    simp [LoopTable.holding, LoopTable.follow, Loop.follow, Option.toList_map, Function.comp_def]
  refine h.of_sublist (numbers ▸ List.Sublist.refl _) rfl ?_ h.carry ?_ ?_ h.frozen
  · intro l hl
    rcases LoopTable.mem_holding.mp hl with hl | hl | hl
    · exact h.rate_frozen l hl
    · obtain ⟨o, ho, rfl⟩ := List.mem_map.mp hl
      exact h.rate_closing o ho
    · obtain ⟨o, ho, rfl⟩ := Option.mem_map.mp hl
      exact h.rate_open o ho
  · intro l hl
    obtain ⟨o, ho, rfl⟩ := Option.mem_map.mp hl
    obtain ⟨state, tie⟩ := h.opened o ho
    exact ⟨state, by simp [Loop.follow, tie]⟩
  · intro l hl
    obtain ⟨o, ho, rfl⟩ := List.mem_map.mp hl
    obtain ⟨state, tie⟩ := h.closing o ho
    exact ⟨state, by simpa [Loop.follow] using tie⟩

/-- The OPEN loop replaced by one of its number, state and closing tie, its rate within the limit. -/
theorem reopen (h : t.Sound limit) (f : Loop → Loop) (number : ∀ l, (f l).number = l.number) (state : ∀ l, (f l).state = l.state)
    (tie : ∀ l, (f l).closingTie = l.closingTie) (rate : ∀ l ∈ t.openLoop, (f l).rate.natAbs ≤ limit) :
    ({ t with openLoop := t.openLoop.map f } : LoopTable).Sound limit := by
  have numbers : ({ t with openLoop := t.openLoop.map f } : LoopTable).holding.map Loop.number = t.holding.map Loop.number := by
    simp [LoopTable.holding, Option.toList_map, Function.comp_def, number]
  refine h.of_sublist (numbers ▸ List.Sublist.refl _) rfl (fun l hl => ?_) h.carry (fun l hl => ?_) h.closing h.frozen
  · rcases List.mem_append.mp hl with hl | hl
    · exact h.rates l (List.mem_append_left _ hl)
    · obtain ⟨o, ho, rfl⟩ := Option.mem_map.mp (Option.mem_toList.mp hl)
      exact rate o ho
  · obtain ⟨o, ho, rfl⟩ := Option.mem_map.mp hl
    rw [state, tie]
    exact h.opened o ho

/-- The CLOSING loops recomputed from a rate within the limit. -/
theorem recomputed (h : t.Sound cfg.rateLimit) {before : Int} (hb : before.natAbs ≤ cfg.rateLimit) :
    ({ t with closing := recompute cfg none before t.closing } : LoopTable).Sound cfg.rateLimit := by
  refine h.of_sublist ?_ rfl (fun l hl => ?_) h.carry h.opened (recompute_closing none before h.closing) h.frozen
  · simp [LoopTable.holding, recompute_numbers]
  · rcases LoopTable.mem_holding.mp hl with hl | hl | hl
    · exact h.rate_frozen l hl
    · exact recompute_rates none hb h.rate_closing l hl
    · exact h.rate_open l hl

/-- The table carried forward after a tie value has moved (R147). -/
theorem cascade (h : t.Sound cfg.rateLimit) : (t.cascade cfg).Sound cfg.rateLimit := by
  unfold LoopTable.cascade
  simp only
  have closed := h.recomputed (before := match t.lastFrozen with
    | some l => l.rate
    | none => 0) (by
      split
      · exact h.rate_frozen _ ‹_›
      · exact Nat.zero_le _)
  refine closed.reopen _ ?_ ?_ ?_ fun o _ => ?_
  · exact fun _ => rfl
  · exact fun _ => rfl
  · exact fun _ => rfl
  · exact closed.rateBefore o.number

theorem passTies {w : Work} (h : w.loops.Sound cfg.rateLimit) : (w.passTies cfg).loops.Sound cfg.rateLimit := by
  unfold Work.passTies
  simp only
  split
  · exact h.follow w.log
  · exact (h.follow w.log).cascade

/-! ### Freezing and abandonment -/

/-- The oldest CLOSING loop frozen in the place of the last frozen one (R148). -/
theorem freezeOldest {w : Work} (h : w.loops.Sound limit) (forced : Bool) : (w.freezeOldest forced).loops.Sound limit := by
  unfold Work.freezeOldest
  split
  · exact h
  · rename_i l rest closing
    have moved : ∀ flags, ({ w.loops with closing := rest, lastFrozen := some { l with state := .frozen, flags := flags } } :
        LoopTable).Sound limit := by
      intro flags
      refine h.of_sublist ?_ rfl (fun m hm => ?_) h.carry h.opened (fun m hm => h.closing m (by simp [closing, hm])) ?_
      · simp only [LoopTable.holding, closing, Option.toList_some, List.map_append, List.map_cons,
          List.append_assoc, List.cons_append, List.nil_append]
        exact List.sublist_append_right _ _
      · rcases LoopTable.mem_holding.mp hm with ⟨⟨⟩⟩ | hm | hm
        · exact h.rate_closing l (by simp [closing])
        · exact h.rate_closing m (by simp [closing, hm])
        · exact h.rate_open m hm
      · rintro m ⟨⟩
        rfl
    exact (moved _).reopen _ (fun _ => rfl) (fun _ => rfl) (fun _ => rfl) fun o _ => (moved _).rateBefore o.number

theorem freezeReady (n : Nat) {w : Work} (h : w.loops.Sound limit) : (Machine.freezeReady n w).loops.Sound limit := by
  induction n generalizing w with
  | zero => exact h
  | succ n ih =>
    unfold Machine.freezeReady
    split
    · exact h
    · split
      · exact ih (h.freezeOldest false)
      · exact h

theorem settleLoops {w : Work} (h : w.loops.Sound cfg.rateLimit) : (w.settleLoops cfg).loops.Sound cfg.rateLimit :=
  h.passTies.freezeReady _

/-- A table without its OPEN loop. -/
theorem unopened (h : t.Sound limit) {carry : Option CarryLine} (hc : ∀ c ∈ carry, c.rate.natAbs ≤ limit) :
    ({ t with openLoop := none, carry := carry } : LoopTable).Sound limit := by
  refine h.of_sublist ?_ rfl (fun l hl => ?_) hc (fun _ hl => nomatch hl) h.closing h.frozen
  · simp [LoopTable.holding]
  · rcases LoopTable.mem_holding.mp hl with hl | hl | hl
    · exact h.rate_frozen l hl
    · exact h.rate_closing l hl
    · exact nomatch hl

theorem abandon {w : Work} (h : w.loops.Sound limit) {l : Loop} (openLoop : w.loops.openLoop = some l) :
    (w.abandon l).loops.Sound limit :=
  h.unopened fun c hc => by cases hc; exact h.rate_open l openLoop

theorem finishLoops {w : Work} (h : w.loops.Sound limit) : w.finishLoops.loops.Sound limit := by
  unfold Work.finishLoops
  simp only
  split
  · exact (h.abandon ‹_›).freezeReady _
  · exact h.freezeReady _

/-! ### Placing an occupation -/

/-- A loop opened at a tie takes the next number (R142, R143). -/
theorem openAt (h : t.Sound limit) (empty : t.openLoop = none) (tie : Tie) (dO : Int) (joined unmatched : Bool) :
    (t.openAt tie dO joined unmatched).Sound limit := by
  have holding : (t.openAt tie dO joined unmatched).holding
      = t.holding ++ (t.openAt tie dO joined unmatched).openLoop.toList := by
    simp [LoopTable.holding, LoopTable.openAt, empty]
  refine ⟨fun l hl => ?_, fun n hn => ?_, ?_, h.carry, ?_, h.closing, h.frozen⟩
  · rw [holding] at hl
    rcases List.mem_append.mp hl with hl | hl
    · exact h.rates l hl
    · obtain rfl := List.mem_singleton.mp hl
      exact h.rateBefore _
  · rw [holding, List.map_append] at hn
    rcases List.mem_append.mp hn with hn | hn
    · exact Nat.le_succ_of_le (h.counted n hn)
    · obtain rfl := List.mem_singleton.mp hn
      exact Nat.le_refl _
  · rw [holding, List.map_append]
    refine List.pairwise_append.mpr ⟨h.order, List.pairwise_singleton _ _, fun n hn m hm => ?_⟩
    obtain rfl := List.mem_singleton.mp hm
    exact Nat.lt_succ_of_le (h.counted n hn)
  · rintro l ⟨⟩
    exact ⟨rfl, rfl⟩

/-- The OPEN loop moved to the CLOSING slots (R143). -/
theorem closed (h : t.Sound limit) {l l' : Loop} (openLoop : t.openLoop = some l) (number : l'.number = l.number)
    (state : l'.state = .closing) (tie : l'.closingTie.isSome = true) (rate : l'.rate.natAbs ≤ limit) :
    ({ t with openLoop := none, closing := t.closing ++ [l'] } : LoopTable).Sound limit := by
  refine h.of_sublist ?_ rfl (fun m hm => ?_) h.carry (fun _ hm => nomatch hm) (fun m hm => ?_) h.frozen
  · simp [LoopTable.holding, openLoop, number]
  · rcases LoopTable.mem_holding.mp hm with hm | hm | hm
    · exact h.rate_frozen m hm
    · rcases List.mem_append.mp hm with hm | hm
      · exact h.rate_closing m hm
      · obtain rfl := List.mem_singleton.mp hm
        exact rate
    · exact nomatch hm
  · rcases List.mem_append.mp hm with hm | hm
    · exact h.closing m hm
    · obtain rfl := List.mem_singleton.mp hm
      exact ⟨state, tie⟩

theorem close {w : Work} (h : w.loops.Sound cfg.rateLimit) {l : Loop} (openLoop : w.loops.openLoop = some l) (tie : Tie) :
    (w.close cfg l tie).loops.Sound cfg.rateLimit := by
  have slot : ∀ u : Work, u.loops.Sound cfg.rateLimit → u.loops.openLoop.map Loop.number = some l.number →
      ({ u.loops with
        openLoop := none
        closing := u.loops.closing ++ [Loop.withRate cfg (u.loops.rateBefore l.number)
          { l with state := .closing, closingTie := some tie } tie] } : LoopTable).Sound cfg.rateLimit := by
    intro u hu opened
    obtain ⟨o, openLoop, number⟩ := Option.map_eq_some_iff.mp opened
    obtain ⟨same, state, closingTie⟩ := withRate_kept cfg (u.loops.rateBefore l.number)
      { l with state := .closing, closingTie := some tie } tie
    exact hu.closed openLoop (same.trans number.symm) state (by rw [closingTie]; rfl) (withRate_rate _ _ (hu.rateBefore _))
  unfold Work.close
  simp only
  refine freezeReady _ ?_
  split
  · refine (slot _ (h.freezeOldest true) ?_).openAt rfl _ _ _ _
    unfold Work.freezeOldest
    split
    · rw [openLoop]
      rfl
    · simp [openLoop]
  · exact (slot w h (by rw [openLoop]; rfl)).openAt rfl _ _ _ _

theorem openFresh {w : Work} (h : w.loops.Sound limit) (empty : w.loops.openLoop = none) (tie : Tie) (unmatched : Bool) :
    (w.openFresh tie unmatched).loops.Sound limit := h.openAt empty ..

theorem placeNonTie {w : Work} (h : w.loops.Sound limit) (n mid : Nat) : (w.placeNonTie n mid).loops.Sound limit := by
  unfold Work.placeNonTie
  split
  · exact h
  · rename_i l openLoop
    split
    · have member := h.reopen (fun o => { o with members := l.members ++ [n] }) (fun _ => rfl) (fun _ => rfl) (fun _ => rfl)
        h.rate_open
      rw [openLoop] at member
      exact member
    · exact h.abandon openLoop

theorem placeTie {w : Work} (h : w.loops.Sound cfg.rateLimit) (tie : Tie) : (w.placeTie cfg tie).loops.Sound cfg.rateLimit := by
  unfold Work.placeTie
  split
  · exact h.openFresh ‹_› _ _
  · rename_i l openLoop
    split
    · exact h.close openLoop tie
    · exact (h.abandon openLoop).openFresh rfl _ _

theorem placeDrift {w : Work} (h : w.loops.Sound cfg.rateLimit) (n : Nat) : (w.placeDrift cfg n).loops.Sound cfg.rateLimit := by
  unfold Work.placeDrift
  split
  · exact h
  · split
    · exact h
    · split
      · exact h
      · split
        · exact h.placeTie _
        · exact h.placeNonTie _ _

end LoopTable.Sound

/-! ### Base-term work leaves the loop table (R135) -/

theorem foldl_loops {α : Type} {f : Work → α → Work} (hf : ∀ w a, (f w a).loops = w.loops) (l : List α) (w : Work) :
    (l.foldl f w).loops = w.loops := by
  induction l generalizing w with
  | nil => rfl
  | cons a l ih => exact (ih _).trans (hf w a)

theorem Work.enter_loops (w : Work) (e : PendingEntry) : (w.enter e).loops = w.loops := by
  unfold Work.enter
  split
  · rfl
  · split
    · rfl
    · split <;> rfl

theorem reevaluate_loops (s : State) (w : Work) (n : Nat) : (reevaluate s w n).loops = w.loops := by
  unfold reevaluate
  split
  · rfl
  · split
    · rfl
    · simp only
      split <;> rfl

theorem reevaluateAll_loops (s : State) (w : Work) : (reevaluateAll s w).loops = w.loops := foldl_loops (reevaluate_loops s) _ w

theorem expireOne_loops (s : State) (w : Work) (n : Nat) : (expireOne s w n).loops = w.loops := by
  unfold expireOne
  split
  · simp only
    split <;> exact reevaluate_loops s w n
  · rfl

theorem settleEntry_loops (w : Work) (n : Nat) : (settleEntry w n).loops = w.loops := by
  unfold settleEntry
  split
  · rfl
  · split
    · rfl
    · split
      · rfl
      · split
        · rfl
        · exact w.enter_loops _

theorem leaveWhenFinal_loops (w : Work) (n : Nat) : (leaveWhenFinal w n).loops = w.loops := by
  unfold leaveWhenFinal
  split
  · rfl
  · split <;> rfl

theorem coherenceLoss_loops (s : State) (w : Work) (peer series : Nat) : (coherenceLoss s w peer series).loops = w.loops :=
  (foldl_loops settleEntry_loops _ _).trans (foldl_loops leaveWhenFinal_loops _ _)

theorem applyChange_loops (s : State) (wf : Work × List Nat) (c : FoldChange) : (applyChange s wf c).1.loops = wf.1.loops := by
  unfold applyChange
  split
  · rfl
  · exact coherenceLoss_loops ..
  · rfl

theorem takeReport_loops (s : State) (report : List FoldChange) (w : Work) : (takeReport s report w).loops = w.loops := by
  have changes : ∀ (l : List FoldChange) (wf : Work × List Nat), (l.foldl (applyChange s) wf).1.loops = wf.1.loops := by
    intro l
    induction l with
    | nil => exact fun _ => rfl
    | cons c l ih => exact fun wf => (ih _).trans (applyChange_loops s wf c)
  unfold takeReport
  simp only
  split
  · exact changes _ _
  · exact (reevaluateAll_loops s _).trans (changes _ _)

/-! ### Every move -/

theorem State.engineEvent_loops (s : State) (f : Work → Work) : (s.engineEvent f).eng.loops = (f s.eng.work).loops := by
  rw [State.engineEvent_eq]
  rfl

theorem LoopsSound.of_loops {s t : State} (h : LoopsSound s) (image : t.image = s.image) (loops : t.eng.loops = s.eng.loops) :
    LoopsSound t := by
  rw [loopsSound_iff] at h ⊢
  rw [loops, State.driftCfg, image]
  exact h

/-- An event whose work settles the loops after base-term work. -/
theorem LoopsSound.engineEvent {s : State} (h : LoopsSound s) {f : Work → Work}
    (sound : s.eng.loops.Sound s.driftCfg.rateLimit → (f s.eng.work).loops.Sound s.driftCfg.rateLimit) :
    LoopsSound (s.engineEvent f) := by
  rw [loopsSound_iff] at h ⊢
  rw [State.engineEvent_loops, State.driftCfg, (State.Within.engineEvent s f).image]
  exact sound h

/-- The first reduction of an occupation. -/
theorem LoopTable.Sound.firstReduction (s : State) (h : HandOff) {w : Work} (sound : w.loops.Sound s.driftCfg.rateLimit) :
    (Machine.firstReduction s h w).loops.Sound s.driftCfg.rateLimit := by
  unfold Machine.firstReduction
  refine LoopTable.Sound.placeDrift (LoopTable.Sound.settleLoops ?_) _
  rw [settleEntry_loops]
  exact sound

theorem LoopsSound.handOff {s : State} (h : LoopsSound s) (x : HandOff) : LoopsSound (s.handOff x) := by
  unfold State.handOff
  split
  · exact h.of_loops rfl rfl
  · split
    · exact h.of_loops rfl rfl
    · exact h.engineEvent fun sound => sound.firstReduction s x

/-- Every move keeps the loop table sound. -/
theorem LoopsSound.moves {s t : State} (h : LoopsSound s) (moves : s.Moves t) : LoopsSound t := by
  cases moves with
  | still image still => exact h.of_loops image still.loops
  | starts image _ _ loops => exact h.of_loops image loops
  | reports r => exact h.engineEvent fun sound => LoopTable.Sound.settleLoops (by rwa [takeReport_loops])
  | reselects => exact h.engineEvent fun sound => LoopTable.Sound.settleLoops (by rwa [reevaluateAll_loops])
  | expires occs =>
    exact h.engineEvent fun sound => LoopTable.Sound.settleLoops (by rwa [foldl_loops (expireOne_loops s)])
  | finishes =>
    refine h.engineEvent fun sound => LoopTable.Sound.finishLoops (LoopTable.Sound.passTies ?_)
    rwa [foldl_loops (f := fun w n => w.makeFinal flagFinished n) fun _ _ => rfl]
  | ends _ reason flag endTime =>
    obtain ⟨u, x, image, eng, -, -, ended⟩ := s.endOccupation_eng reason flag endTime
    have handed := (h.of_loops image (congrArg Engine.loops eng)).handOff x
    refine handed.of_loops ?_ (by rw [ended]; rfl)
    rw [(State.Within.endOccupation ..).image, (State.Within.handOff ..).image, image]

theorem LoopsSound.evolves {s t : State} (h : LoopsSound s) (evolves : s.Evolves t) : LoopsSound t := by
  induction evolves with
  | refl => exact h
  | tail _ moves ih => exact ih.moves moves

/-- Settles O58: each move of a step keeps the loop table sound (`LoopsSound.moves`); a cleared table is empty, as it is in
STARTUP. -/
theorem loopsKept : Obligations.LoopsKept := by
  intro s t idle sound h
  have empty : ∀ {u : State}, u.eng.loops = {} → LoopsSound u := fun loops => by
    rw [loopsSound_iff, loops]
    exact LoopTable.sound_empty _
  cases State.Evolution.step h with
  | evolves evolves => exact sound.evolves evolves
  | cleared eng => exact empty (by rw [eng])
  | loaded node still =>
    obtain ⟨-, -, -, eng, -⟩ := idle node
    exact empty (by rw [still.loops, eng])

end Sys2Proof.Machine
end

