-- ==== Sys2Proof/Proofs/PendingQueue.lean ====
section
/-! PROOF. The pending list through the work of one event (R128, R162 to R164): it stays in the order of its entries, each
occupation once, and each entry's occupation has a provisional base term (`Work.Queued`). -/

namespace Sys2Proof.Machine

/-! ### Whether an occupation's base term is final -/

/-- The finality of occupation `n`'s base term; none without a record that holds values. -/
def Work.finalOf (w : Work) (n : Nat) : Option Bool :=
  ((findRecord n w.log).bind Record.values).map fun x => x.term.final

/-- The pending list of a work: in order, each occupation once, each provisional (R162). -/
structure Work.Queued (w : Work) : Prop where
  sorted : w.waiting.Pairwise fun a b => a.older b = true
  nodup : (w.waiting.map PendingEntry.occ).Nodup
  provisional : ∀ e ∈ w.waiting, w.finalOf e.occ = some false

theorem Work.finalOf_found {w : Work} {n : Nat} {r : Record} {x : Values} (found : findRecord n w.log = some r)
    (values : r.values = some x) : w.finalOf n = some x.term.final := by
  simp [Work.finalOf, found, values]

theorem Work.exists_of_finalOf {w : Work} {n : Nat} {b : Bool} (h : w.finalOf n = some b) :
    ∃ r x, findRecord n w.log = some r ∧ r.values = some x ∧ x.term.final = b := by
  obtain ⟨x, hx, final⟩ := Option.map_eq_some_iff.mp h
  obtain ⟨r, found, values⟩ := Option.bind_eq_some_iff.mp hx
  exact ⟨r, x, found, values, final⟩

/-- The finality reads the numbers and the base terms alone. -/
theorem Work.finalOf_termKeys (w : Work) (n : Nat) :
    w.finalOf n = (((w.log.map Record.termKey).find? fun k => k.1 = n).bind Prod.snd).map BaseTerm.final := by
  have number : (fun k : Nat × Option BaseTerm => decide (k.1 = n)) ∘ Record.termKey = fun r => decide (r.number = n) := rfl
  rw [List.find?_map, number, Work.finalOf]
  unfold findRecord
  cases w.log.find? fun r => r.number = n with
  | none => rfl
  | some r => cases values : r.values <;> simp [Record.termKey, values]

/-- Records changed one by one, their numbers kept. -/
theorem Work.finalOf_map {w w' : Work} {f : Record → Record} (log : w'.log = w.log.map f) (number : ∀ r, (f r).number = r.number)
    (n : Nat) : w'.finalOf n = (((findRecord n w.log).map f).bind Record.values).map fun x => x.term.final := by
  rw [Work.finalOf, log, findRecord_map n fun r _ => number r]

/-- A record's change leaves the other occupations' finality. -/
theorem Work.finalOf_modify_other (w : Work) {n m : Nat} (other : m ≠ n) {f : Record → Record}
    (number : ∀ r, (f r).number = r.number := by exact fun _ => rfl) : (w.modify n f).finalOf m = w.finalOf m := by
  rw [Work.finalOf_map (w := w) (w' := w.modify n f) rfl fun r => by split; exact number r; rfl]
  unfold Work.finalOf
  cases found : findRecord m w.log with
  | none => rfl
  | some r =>
    obtain ⟨-, same⟩ := mem_of_findRecord found
    have unchanged : ¬r.number = n := fun eq => other (same.symm.trans eq)
    simp only [Option.map_some, if_neg unchanged]

/-- The finality of the changed record's own occupation. -/
theorem Work.finalOf_modify_own {w : Work} {n : Nat} {r : Record} (found : findRecord n w.log = some r) {f : Record → Record}
    (number : ∀ r, (f r).number = r.number := by exact fun _ => rfl) :
    (w.modify n f).finalOf n = (f r).values.map fun x => x.term.final := by
  rw [Work.finalOf_map (w := w) (w' := w.modify n f) rfl fun r => by split; exact number r; rfl, found]
  simp only [Option.map_some, if_pos (mem_of_findRecord found).2, Option.bind_some]

/-! ### Entries that leave and entries that join -/

namespace Work.Queued

variable {w w' : Work}

/-- Work that leaves the base terms and the pending list. -/
theorem congr (h : w.Queued) (terms : w'.log.map Record.termKey = w.log.map Record.termKey) (waiting : w'.waiting = w.waiting) :
    w'.Queued := by
  refine ⟨waiting ▸ h.sorted, waiting ▸ h.nodup, fun e he => ?_⟩
  rw [Work.finalOf_termKeys, terms, ← Work.finalOf_termKeys]
  exact h.provisional e (waiting ▸ he)

/-- Nothing is pending. -/
theorem of_idle (waiting : w.waiting = []) : w.Queued := by
  constructor <;> simp [waiting]

/-- Fewer entries, over a log where those that remain are provisional. -/
theorem filter (h : w.Queued) {p : PendingEntry → Bool} (waiting : w'.waiting = w.waiting.filter p)
    (stays : ∀ e ∈ w.waiting, p e = true → w'.finalOf e.occ = some false) : w'.Queued := by
  refine ⟨?_, ?_, fun e he => ?_⟩
  · rw [waiting]
    exact h.sorted.sublist List.filter_sublist
  · rw [waiting]
    exact h.nodup.sublist (List.filter_sublist.map _)
  · rw [waiting] at he
    obtain ⟨he, hp⟩ := List.mem_filter.mp he
    exact stays e he hp

theorem leave (h : w.Queued) (n : Nat) : (w.leave n).Queued := h.filter rfl fun e he _ => h.provisional e he

/-- A record changed whose entry leaves the list. -/
theorem modify_leave (h : w.Queued) (n : Nat) {f : Record → Record} (number : ∀ r, (f r).number = r.number) :
    ((w.modify n f).leave n).Queued := by
  refine h.filter rfl fun e he other => ?_
  have other : e.occ ≠ n := by simpa using other
  exact (w.finalOf_modify_other other number).trans (h.provisional e he)

theorem makeFinal (h : w.Queued) (flag : RecordFlags → RecordFlags) (n : Nat) : (w.makeFinal flag n).Queued :=
  h.modify_leave n fun _ => rfl

/-- An entry takes its place in a list that is in order (R162). -/
theorem insertBy_sorted {e : PendingEntry} {l : List PendingEntry} (sorted : l.Pairwise fun a b => a.older b = true)
    (fresh : ∀ y ∈ l, y.occ ≠ e.occ) : (insertBy PendingEntry.older e l).Pairwise fun a b => a.older b = true := by
  induction l with
  | nil => exact List.pairwise_singleton _ _
  | cons y l ih =>
    obtain ⟨before, sorted⟩ := List.pairwise_cons.mp sorted
    obtain ⟨other, fresh⟩ := List.forall_mem_cons.mp fresh
    unfold insertBy
    split
    · rename_i older
      refine List.pairwise_cons.mpr ⟨fun z hz => ?_, ih sorted fresh⟩
      rcases List.mem_cons.mp ((insertBy_perm ..).mem_iff.mp hz) with rfl | hz
      · exact older
      · exact before z hz
    · rename_i younger
      have first : e.older y = true := by
        rw [PendingEntry.older_iff] at younger ⊢
        omega
      refine List.pairwise_cons.mpr ⟨fun z hz => ?_, List.pairwise_cons.mpr ⟨before, sorted⟩⟩
      rcases List.mem_cons.mp hz with rfl | hz
      · exact first
      · exact PendingEntry.older_trans first (before z hz)

/-- A provisional occupation that is not in the list joins it. -/
theorem insert (h : w.Queued) {e : PendingEntry} (fresh : ∀ y ∈ w.waiting, y.occ ≠ e.occ)
    (provisional : w.finalOf e.occ = some false) :
    Work.Queued { w with waiting := insertBy PendingEntry.older e w.waiting } := by
  have perm := insertBy_perm PendingEntry.older e w.waiting
  refine ⟨insertBy_sorted h.sorted fresh, ?_, fun y hy => ?_⟩
  · rw [(perm.map _).nodup_iff, List.map_cons]
    refine List.nodup_cons.mpr ⟨fun mem => ?_, h.nodup⟩
    obtain ⟨y, hy, same⟩ := List.mem_map.mp mem
    exact fresh y hy same
  · rcases List.mem_cons.mp (perm.mem_iff.mp hy) with rfl | hy
    · exact provisional
    · exact h.provisional y hy

theorem enter (h : w.Queued) {e : PendingEntry} (fresh : ∀ y ∈ w.waiting, y.occ ≠ e.occ)
    (provisional : w.finalOf e.occ = some false) : (w.enter e).Queued := by
  unfold Work.enter
  split
  · exact h.insert fresh provisional
  · split
    · exact h
    · rename_i oldest rest waiting
      simp only
      split
      · exact h.makeFinal _ _
      · have other : e.occ ≠ oldest.occ := (fresh oldest (waiting ▸ List.mem_cons_self)).symm
        refine (h.makeFinal flagForced oldest.occ).insert (fun y hy => fresh y (List.mem_filter.mp hy).1) ?_
        exact (w.finalOf_modify_other other).trans provisional

theorem foldl {α : Type} {f : Work → α → Work} (step : ∀ (w : Work) a, w.Queued → (f w a).Queued) (l : List α) {w : Work}
    (h : w.Queued) : (l.foldl f w).Queued := by
  induction l generalizing w with
  | nil => exact h
  | cons a l ih => exact ih (step w a h)

/-! ### Selections run anew -/

theorem reevaluate (s : State) (h : w.Queued) (n : Nat) : (Machine.reevaluate s w n).Queued := by
  unfold Machine.reevaluate
  split
  · exact h
  · rename_i r found
    split
    · exact h
    · rename_i x values
      simp only
      split
      · exact h.modify_leave n fun _ => rfl
      · rename_i held
        refine ⟨h.sorted, h.nodup, fun e he => ?_⟩
        by_cases own : e.occ = n
        · rw [own, Work.finalOf_modify_own found]
          simp only [Record.mapTerm, values, Option.map_some, BaseTerm.take]
          simpa using held
        · exact (w.finalOf_modify_other own).trans (h.provisional e he)

theorem reevaluateAll (s : State) (h : w.Queued) : (Machine.reevaluateAll s w).Queued := foldl (fun _ n h => h.reevaluate s n) _ h

theorem expireOne (s : State) (h : w.Queued) (n : Nat) : (Machine.expireOne s w n).Queued := by
  unfold Machine.expireOne
  split
  · simp only
    split
    · exact (h.reevaluate s n).makeFinal _ _
    · exact h.reevaluate s n
  · exact h

theorem settleEntry (h : w.Queued) (n : Nat) : (Machine.settleEntry w n).Queued := by
  unfold Machine.settleEntry
  split
  · exact h
  · rename_i r found
    split
    · exact h
    · rename_i x values
      split
      · exact h.leave n
      · rename_i held
        split
        · exact h
        · rename_i absent
          refine h.enter (fun y hy same => absent ?_) ?_
          · exact List.any_eq_true.mpr ⟨y, hy, by simpa using same⟩
          · rw [Work.finalOf_found found values]
            simpa using held

/-! ### Revisions from the bases -/

/-- A REV leaves the finality of every term (R132). -/
theorem revise (h : w.Queued) (peer series fromSeq : Nat) (step : Int) (epoch : Nat) (fresh : List Nat) :
    Work.Queued { w with log := w.log.map fun r => r.revise peer series fromSeq step epoch fresh } := by
  have kept : ∀ r : Record, (r.revise peer series fromSeq step epoch fresh).number = r.number
      ∧ (r.revise peer series fromSeq step epoch fresh).values.map (fun x => x.term.final)
        = r.values.map fun x => x.term.final := by
    intro r
    unfold Record.revise
    split
    · exact ⟨rfl, rfl⟩
    · rename_i x values
      split
      · exact ⟨rfl, rfl⟩
      · split
        · exact ⟨rfl, rfl⟩
        · split
          · split <;> exact ⟨rfl, rfl⟩
          · split
            · exact ⟨rfl, rfl⟩
            · refine ⟨rfl, ?_⟩
              simp only [values, Option.map_some, BaseTerm.revise]
              split <;> rfl
  refine ⟨h.sorted, h.nodup, fun e he => ?_⟩
  rw [Work.finalOf_map (w := w) rfl fun r => (kept r).1]
  obtain ⟨r, x, found, values, final⟩ := Work.exists_of_finalOf (h.provisional e he)
  rw [found, Option.map_some, Option.bind_some, (kept r).2, values, Option.map_some, final]

/-- What a coherence loss leaves of a term's finality: of those not reached, what it was; of those reached, a value (R134). -/
theorem finalOf_lose (s : State) (w : Work) (peer series : Nat) {n : Nat} (h : w.finalOf n = some false) :
    Work.finalOf { w with log := w.log.map fun r => r.lose s peer series } n = some false
      ∨ (Work.finalOf { w with log := w.log.map fun r => r.lose s peer series } n = some true
        ∧ n ∈ reachedByLoss w peer series) := by
  obtain ⟨r, x, found, values, final⟩ := Work.exists_of_finalOf h
  obtain ⟨hr, number⟩ := mem_of_findRecord found
  have lost : Work.finalOf { w with log := w.log.map fun r => r.lose s peer series } n
      = (r.lose s peer series).values.map fun x => x.term.final := by
    rw [Work.finalOf_map (w := w) rfl fun r => (r.lose_sameCase s peer series).1, found, Option.map_some, Option.bind_some]
  rw [lost]
  cases on : r.bracketOn peer series with
  | false =>
    rw [Record.lose_off on, values, Option.map_some, final]
    exact .inl rfl
  | true =>
    by_cases sealed : r.state = .sealed
    · rw [Record.lose_sealed on sealed]
      exact .inl (by rw [values, Option.map_some, final])
    · rw [Record.lose_open on sealed values, Option.map_some]
      cases (lossTerm s r.header x.mid x.term).final with
      | false => exact .inl rfl
      | true =>
        refine .inr ⟨rfl, List.mem_map.mpr ⟨r, List.mem_filter.mpr ⟨hr, ?_⟩, number⟩⟩
        simp [sealed, on]

/-- The occupations whose terms are now final leave the list (R134). -/
theorem foldl_leaveWhenFinal (ns : List Nat) {w : Work} (sorted : w.waiting.Pairwise fun a b => a.older b = true)
    (nodup : (w.waiting.map PendingEntry.occ).Nodup)
    (held : ∀ e ∈ w.waiting, w.finalOf e.occ = some false ∨ (w.finalOf e.occ = some true ∧ e.occ ∈ ns)) :
    (ns.foldl Machine.leaveWhenFinal w).Queued := by
  induction ns generalizing w with
  | nil => exact ⟨sorted, nodup, fun e he => (held e he).resolve_right fun ⟨_, mem⟩ => List.not_mem_nil mem⟩
  | cons n ns ih =>
    have final : (findRecord n w.log).any (fun r => r.values.any fun x => x.term.final) = true ↔ w.finalOf n = some true := by
      unfold Work.finalOf
      cases findRecord n w.log with
      | none => simp
      | some r => cases values : r.values <;> simp [values]
    have left : Machine.leaveWhenFinal w n = if w.finalOf n = some true then w.leave n else w := by
      simp only [← final]
      unfold Machine.leaveWhenFinal
      cases findRecord n w.log with
      | none => rfl
      | some r => rfl
    rw [List.foldl_cons, left]
    split
    · refine ih (sorted.sublist List.filter_sublist) (nodup.sublist (List.filter_sublist.map _)) fun e he => ?_
      obtain ⟨he, other⟩ := List.mem_filter.mp he
      have other : e.occ ≠ n := by simpa using other
      exact (held e he).imp_right fun ⟨final, mem⟩ => ⟨final, (List.mem_cons.mp mem).resolve_left other⟩
    · rename_i provisional
      refine ih sorted nodup fun e he => (held e he).imp_right fun ⟨final, mem⟩ => ⟨final, ?_⟩
      exact (List.mem_cons.mp mem).resolve_left fun own => provisional (own ▸ final)

theorem coherenceLoss (s : State) (h : w.Queued) (peer series : Nat) : (Machine.coherenceLoss s w peer series).Queued :=
  foldl (fun _ n h => h.settleEntry n) _
    (foldl_leaveWhenFinal (reachedByLoss w peer series) (w := { w with log := w.log.map fun r => r.lose s peer series }) h.sorted
      h.nodup fun e he => finalOf_lose s w peer series (h.provisional e he))

theorem applyChange (s : State) (h : w.Queued) (fresh : List Nat) (c : FoldChange) :
    (Machine.applyChange s (w, fresh) c).1.Queued := by
  unfold Machine.applyChange
  split
  · exact h.revise ..
  · exact h.coherenceLoss ..
  · exact h

theorem takeReport (s : State) (h : w.Queued) (report : List FoldChange) : (Machine.takeReport s report w).Queued := by
  have changes : ∀ (l : List FoldChange) (w : Work) (fresh : List Nat), w.Queued →
      (l.foldl (Machine.applyChange s) (w, fresh)).1.Queued := by
    intro l
    induction l with
    | nil => exact fun _ _ h => h
    | cons c l ih => exact fun w fresh h => ih _ _ (h.applyChange s fresh c)
  have all := changes report w [] h
  unfold Machine.takeReport
  simp only
  split
  · exact all
  · exact all.reevaluateAll s

/-! ### The loop table -/

theorem settleLoops (h : w.Queued) (cfg : DriftConfig) : (w.settleLoops cfg).Queued :=
  h.congr (w.settleLoops_termKeys cfg).1 (w.settleLoops_termKeys cfg).2

/-- Every entry made final leaves nothing pending (R170). -/
theorem finished (w : Work) :
    ((w.waiting.map PendingEntry.occ).foldl (fun w n => w.makeFinal flagFinished n) w).waiting = [] := by
  have gone : ∀ (ns : List Nat) (w : Work),
      (ns.foldl (fun w n => w.makeFinal flagFinished n) w).waiting = w.waiting.filter fun e => e.occ ∉ ns := by
    intro ns
    induction ns with
    | nil => exact fun w => by simp
    | cons n ns ih =>
      intro w
      rw [List.foldl_cons, ih]
      simp only [Work.makeFinal, Work.leave, Work.modify, List.filter_filter]
      exact List.filter_congr fun e _ => by simp [Bool.and_comm]
  rw [gone]
  exact List.filter_eq_nil_iff.mpr fun e he => by simpa using ⟨e, he, rfl⟩

end Work.Queued

end Sys2Proof.Machine
end

