-- ==== Sys2Proof/Proofs/LogRecords.lean ====
section
/-! PROOF. O56: every step keeps the log and the pending list sound, and the values of its records formed. An event leaves each
record changed in what an event may change, and closed (`Work.Alters`, `Record.close`); an ending writes one record more. -/

namespace Sys2Proof.Machine

/-! ### Records at the end of an event -/

/-- `RecordsFormed` of one record (R75, R165). -/
def Record.Formed (r : Record) : Prop :=
  ∀ x ∈ r.values,
    x.v = x.g + x.cTilt + x.cTemp - x.tModel - x.term.r
      ∧ x.gRed = x.v - x.d
      ∧ (r.state = .reduced → ¬(x.term.final = true ∧ x.driftFrozen = true))

theorem recordsFormed_iff (s : State) : RecordsFormed s ↔ ∀ r ∈ s.eng.log, r.Formed := Iff.rfl

section

variable {o r : Record} {x : Values}

/-- A record after the sealing test is sound (R165). -/
theorem recordSound_of_stateAfter (values : r.values = some x) (state : r.state = x.stateAfter) : RecordSound r := by
  unfold RecordSound
  cases sealable : x.sealable with
  | true =>
    simp only [state, Values.stateAfter, sealable, if_true, values, Option.mem_some]
    rintro y rfl
    simpa [Values.sealable] using sealable
  | false => simp [state, Values.stateAfter, sealable, values]

/-- A record reformed and tested for sealing is formed (R75, R165). -/
theorem Record.formed_of_stateAfter (values : r.values = some x.reform) (state : r.state = x.stateAfter) : r.Formed := by
  intro y hy
  obtain rfl : x.reform = y := Option.some.inj (values.symm.trans hy)
  refine ⟨rfl, rfl, fun reduced sealed => ?_⟩
  have sealable : x.sealable = true := Bool.and_eq_true_iff.mpr sealed
  simp [state, Values.stateAfter, sealable] at reduced

/-- A record without values has nothing to form. -/
theorem Record.formed_bare (bare : r.values = none) : r.Formed := by
  intro x hx
  rw [bare] at hx
  cases hx

theorem RecordSound.isSome (sound : RecordSound r) (reduced : r.state = .reduced) : r.values.isSome = true := by
  simpa only [RecordSound, reduced] using sound

theorem RecordSound.close (sound : RecordSound r) (o : Option Record) : RecordSound (r.close o) := by
  by_cases reduced : r.state = .reduced
  · obtain ⟨x, values⟩ := Option.isSome_iff_exists.mp (sound.isSome reduced)
    rw [Record.close_reduced o reduced values]
    exact recordSound_of_stateAfter (x := x.reform) rfl rfl
  · rwa [Record.close_other o reduced]

theorem Record.Changed.sound (h : o.Changed r) (sound : RecordSound o) : RecordSound r := by
  by_cases reduced : o.state = .reduced
  · obtain ⟨x, values⟩ := Option.isSome_iff_exists.mp (sound.isSome reduced)
    obtain ⟨m, d, frozen, values', -⟩ := h.values x values
    simp [RecordSound, h.state.trans reduced, values']
  · rw [h.other sound reduced]
    exact sound

/-- An event forms a REDUCED record's values anew and leaves the others' (R75, R157). -/
theorem Record.Changed.formed (h : o.Changed r) (sound : RecordSound o) (formed : o.Formed) : (r.close (some o)).Formed := by
  by_cases reduced : o.state = .reduced
  · have reduced' := h.state.trans reduced
    obtain ⟨x, values⟩ := Option.isSome_iff_exists.mp ((h.sound sound).isSome reduced')
    rw [Record.close_reduced _ reduced' values]
    exact Record.formed_of_stateAfter (x := x) rfl rfl
  · rw [Record.close_other _ (h.state ▸ reduced), h.other sound reduced]
    exact formed

/-- A record that stands through an event: its number stays, it stays sound, and formed if it was. -/
structure Record.Stands (o o' : Record) : Prop where
  number : o'.number = o.number
  sound : RecordSound o'
  formed : o.Formed → o'.Formed

theorem Record.Stands.refl (sound : RecordSound o) : o.Stands o := ⟨rfl, sound, id⟩

theorem Record.Changed.stands (h : o.Changed r) (sound : RecordSound o) : o.Stands (r.close (some o)) :=
  ⟨(Record.close_number _ _).trans h.number, (h.sound sound).close _, h.formed sound⟩

/-- A provisional base term stands in a REDUCED record (R157, R165). -/
theorem RecordSound.reduced_of_provisional (sound : RecordSound r) (values : r.values = some x)
    (provisional : x.term.final = false) : r.state = .reduced := by
  cases state : r.state with
  | aborted => simp [RecordSound, state, values] at sound
  | reduced => rfl
  | sealed => simp [RecordSound, state, values, provisional] at sound

end

/-! ### The pending list against the log -/

/-- A pending entry whose occupation is provisional (R162). -/
theorem entryPending_of {w : Work} (sound : ∀ r ∈ w.log, RecordSound r) {e : PendingEntry} (h : w.finalOf e.occ = some false) :
    EntryPending w.log e := by
  obtain ⟨r, x, found, values, provisional⟩ := Work.exists_of_finalOf h
  obtain ⟨hr, number⟩ := mem_of_findRecord found
  exact ⟨r, hr, number, (sound r hr).reduced_of_provisional values provisional, x, values, provisional⟩

theorem finalOf_of_pending {w : Work} (nodup : (w.log.map Record.number).Nodup) {e : PendingEntry} (h : EntryPending w.log e) :
    w.finalOf e.occ = some false := by
  obtain ⟨r, hr, number, -, x, values, provisional⟩ := h
  rw [Work.finalOf_found (number ▸ findRecord_of_mem nodup hr) values, provisional]

theorem LogSound.queued {s : State} (sound : LogSound s) : s.eng.work.Queued := by
  have nodup := sound.nodup
  obtain ⟨-, -, -, -, sorted, distinct, pending⟩ := sound
  exact ⟨sorted, distinct, fun e he => finalOf_of_pending nodup (pending e he)⟩

/-! ### The changes of one event's work -/

/-- Work that has changed the records in what an event may change of them. -/
def Work.Alters (w w' : Work) : Prop := ∃ φ : Record → Record, w'.log = w.log.map φ ∧ ∀ r ∈ w.log, r.Changed (φ r)

namespace Work.Alters

variable {w w' w'' : Work} {cfg : DriftConfig}

theorem refl (w : Work) : w.Alters w := ⟨id, (List.map_id _).symm, fun r _ => .refl r⟩

theorem trans (h : w.Alters w') (h' : w'.Alters w'') : w.Alters w'' := by
  obtain ⟨φ, log, changed⟩ := h
  obtain ⟨φ', log', changed'⟩ := h'
  refine ⟨φ' ∘ φ, by rw [log', log, List.map_map], fun r hr => (changed r hr).trans (changed' _ ?_)⟩
  rw [log]
  exact List.mem_map_of_mem hr

theorem of_reterms (h : w.Reterms w') : w.Alters w' := by
  obtain ⟨φ, log, retermed⟩ := h.log
  exact ⟨φ, log, fun r hr => .of_retermed (retermed r hr)⟩

theorem settleLoops (w : Work) (cfg : DriftConfig) : w.Alters (w.settleLoops cfg) := by
  rw [Work.settleLoops_eq]
  exact ⟨_, rfl, fun r _ => w.settled_changed cfg r⟩

theorem passTies (w : Work) (cfg : DriftConfig) : w.Alters (w.passTies cfg) := by
  rw [Work.passTies_eq]
  exact ⟨_, rfl, fun r _ => .reformedBy ..⟩

theorem freezeReady (w : Work) : w.Alters (freezeReady w.loops.closing.length w) := by
  rw [freezeReady_eq _ _ (Nat.le_refl _)]
  exact ⟨_, rfl, fun r _ => .markedBy ..⟩

theorem abandon (w : Work) (l : Loop) : w.Alters (w.abandon l) := ⟨Record.leftBy l, rfl, fun r _ => r.leftBy_changed l⟩

theorem finishLoops (w : Work) : w.Alters w.finishLoops := by
  unfold Work.finishLoops
  simp only
  split
  · exact (abandon w _).trans (freezeReady _)
  · exact freezeReady w

end Work.Alters

theorem freezeReady_waiting (w : Work) : (freezeReady w.loops.closing.length w).waiting = w.waiting := by
  rw [freezeReady_eq _ _ (Nat.le_refl _)]

theorem Work.finishLoops_waiting (w : Work) : w.finishLoops.waiting = w.waiting := by
  unfold Work.finishLoops
  simp only
  split
  · exact freezeReady_waiting _
  · exact freezeReady_waiting w

/-- A chain of hold expiries, each of which acts on a pending occupation alone. -/
theorem Work.Reterms.expireAll (s : State) (occs : List Nat) {w : Work} (ready : w.Ready) :
    w.Reterms (occs.foldl (Machine.expireOne s) w) := by
  induction occs generalizing w with
  | nil => exact refl w
  | cons n occs ih =>
    have first : w.Reterms (Machine.expireOne s w n) := by
      by_cases pending : ∃ e ∈ w.waiting, e.occ = n
      · obtain ⟨e, he, rfl⟩ := pending
        exact expireOne s (ready.pending e he)
      · have absent : (w.waiting.any fun e => e.occ = n) = false :=
          List.any_eq_false.mpr fun e he => by simpa using fun same => pending ⟨e, he, same⟩
        rw [Machine.expireOne, absent]
        exact refl w
    exact first.trans (ih (first.ready ready))

theorem Work.Reterms.finishAll {w : Work} (ready : w.Ready) :
    w.Reterms ((w.waiting.map PendingEntry.occ).foldl (fun w n => w.makeFinal flagFinished n) w) := by
  refine foldl (fun w n _ open_ => makeFinal open_ _) _ ready fun n hn => ?_
  obtain ⟨e, he, rfl⟩ := List.mem_map.mp hn
  exact ready.pending e he

/-! ### Moves that write no record -/

section

variable {s t : State}

theorem LogSound.parked (sound : LogSound s) : s.ctl.Parked := sound.2.1

theorem LogSound.still (sound : LogSound s) (h : s.Still t) : LogSound t ∧ (RecordsFormed s → RecordsFormed t) := by
  obtain ⟨idle, parked'⟩ := h.idle sound.parked
  obtain ⟨increasing, -, below, records, sorted, distinct, pending⟩ := sound
  rw [recordsFormed_iff, recordsFormed_iff, h.log]
  refine ⟨?_, id⟩
  unfold LogSound
  rw [h.log, h.waiting, h.number]
  exact ⟨increasing, parked', by simpa only [idle] using below, records, sorted, distinct, pending⟩

/-- A start takes the next occupation number (R155). -/
theorem LogSound.starts (sound : LogSound s) (log : t.eng.log = s.eng.log) (waiting : t.eng.waiting = s.eng.waiting)
    (idle : s.ctl.state = .idle) (busy : t.ctl.state ≠ .idle) (number : t.ctl.occNumber = s.ctl.occNumber + 1) :
    LogSound t ∧ (RecordsFormed s → RecordsFormed t) := by
  obtain ⟨increasing, -, below, records, sorted, distinct, pending⟩ := sound
  rw [recordsFormed_iff, recordsFormed_iff, log]
  refine ⟨?_, id⟩
  unfold LogSound
  rw [log, waiting]
  refine ⟨increasing, fun idle => absurd idle busy, fun r hr => ?_, records, sorted, distinct, pending⟩
  have := below r hr
  rw [if_pos idle] at this
  rw [if_neg busy, number]
  omega

/-- An event of the reduction engine that writes no record. -/
theorem LogSound.engineEvent (sound : LogSound s) {f : Work → Work} (alters : s.eng.work.Alters (f s.eng.work))
    (queued : (f s.eng.work).Queued) : LogSound (s.engineEvent f) ∧ (RecordsFormed s → RecordsFormed (s.engineEvent f)) := by
  obtain ⟨φ, work, changed⟩ := alters
  have changed : ∀ r ∈ s.eng.log, r.Changed (φ r) := changed
  rw [State.engineEvent_eq]
  have queued : Work.Queued ⟨closeLog s.eng.log (f s.eng.work).log, (f s.eng.work).waiting, (f s.eng.work).loops, []⟩ :=
    queued.congr (closeLog_termKeys ..) rfl
  have log : closeLog s.eng.log (f s.eng.work).log = s.eng.log.map fun r => (φ r).close (some r) := by
    rw [work]
    exact closeLog_map sound.nodup _ (fun _ => id) fun r hr => (changed r hr).number
  have stands : ∀ r ∈ s.eng.log, r.Stands ((φ r).close (some r)) := fun r hr => (changed r hr).stands (sound.sound r hr)
  have records : ∀ r ∈ closeLog s.eng.log (f s.eng.work).log, RecordSound r := by
    rw [log]
    exact List.forall_mem_map.mpr fun r hr => (stands r hr).sound
  have pending : ∀ e ∈ (f s.eng.work).waiting, EntryPending (closeLog s.eng.log (f s.eng.work).log) e :=
    fun e he => entryPending_of records (queued.provisional e he)
  refine ⟨⟨?_, sound.parked, ?_, records, queued.sorted, queued.nodup, pending⟩, fun formed => ?_⟩
  · have numbers : (closeLog s.eng.log (f s.eng.work).log).map Record.number = s.eng.log.map Record.number := by
      rw [log, List.map_map]
      exact List.map_congr_left fun r hr => (stands r hr).number
    exact List.pairwise_map.mp (numbers ▸ List.pairwise_map.mpr sound.1)
  · obtain ⟨-, -, below, -⟩ := sound
    show ∀ r ∈ closeLog s.eng.log (f s.eng.work).log, _
    rw [log]
    refine List.forall_mem_map.mpr fun r hr => ?_
    rw [(stands r hr).number]
    exact below r hr
  · show ∀ r ∈ closeLog s.eng.log (f s.eng.work).log, r.Formed
    rw [log]
    exact List.forall_mem_map.mpr fun r hr => (stands r hr).formed (formed r hr)

/-! ### Endings write one record more -/

/-- A record of the occupation in progress joins the log (R155, R161). -/
theorem LogSound.joins (sound : LogSound s) (busy : s.ctl.state ≠ .idle) {own : Record} (number : own.number = s.ctl.occNumber)
    (ownSound : RecordSound own) (ownFormed : own.Formed) {χ : Record → Record} (stands : ∀ o ∈ evict s.eng.log, o.Stands (χ o))
    (log : t.eng.log = (evict s.eng.log).map χ ++ [own]) (ended : s.Idles t)
    (sorted : t.eng.waiting.Pairwise fun a b => a.older b = true) (distinct : (t.eng.waiting.map PendingEntry.occ).Nodup)
    (pending : (∀ r ∈ t.eng.log, RecordSound r) → ∀ e ∈ t.eng.waiting, EntryPending t.eng.log e) :
    LogSound t ∧ (RecordsFormed s → RecordsFormed t) := by
  have stood : ∀ o ∈ evict s.eng.log, o ∈ s.eng.log := fun o ho => (evict_sublist _).subset ho
  have fresh := sound.occupation_fresh busy
  have records : ∀ r ∈ t.eng.log, RecordSound r := by
    rw [log]
    exact List.forall_mem_append.mpr ⟨List.forall_mem_map.mpr fun o ho => (stands o ho).sound,
      List.forall_mem_singleton.mpr ownSound⟩
  refine ⟨⟨?_, fun _ => ended.inForce, ?_, records, sorted, distinct, pending records⟩, fun formed => ?_⟩
  · rw [log]
    refine List.pairwise_append.mpr ⟨?_, List.pairwise_singleton _ _, fun a ha b hb => ?_⟩
    · refine List.pairwise_map.mpr ((sound.1.sublist (evict_sublist _)).imp_of_mem fun ha hb less => ?_)
      rwa [(stands _ ha).number, (stands _ hb).number]
    · obtain ⟨o, ho, rfl⟩ := List.mem_map.mp ha
      rw [List.mem_singleton.mp hb, number, (stands o ho).number]
      exact fresh o (stood o ho)
  · rw [log]
    simp only [if_pos ended.idle, ended.number]
    refine List.forall_mem_append.mpr ⟨List.forall_mem_map.mpr fun o ho => ?_,
      List.forall_mem_singleton.mpr (Nat.le_of_eq number)⟩
    rw [(stands o ho).number]
    exact Nat.le_of_lt (fresh o (stood o ho))
  · rw [recordsFormed_iff, log]
    exact List.forall_mem_append.mpr ⟨List.forall_mem_map.mpr fun o ho => (stands o ho).formed (formed o (stood o ho)),
      List.forall_mem_singleton.mpr ownFormed⟩

/-- The record of a pending occupation is not evicted (R161). -/
theorem EntryPending.evicted {log : List Record} {e : PendingEntry} (h : EntryPending log e) (own : Record) :
    EntryPending (evict log ++ [own]) e := by
  obtain ⟨r, hr, number, reduced, provisional⟩ := h
  refine ⟨r, List.mem_append_left _ ?_, number, reduced, provisional⟩
  unfold evict
  split
  · exact hr
  · exact (List.mem_eraseP_of_neg (by simp [reduced])).mpr hr

theorem settleEntry_numbers (w : Work) (n : Nat) : (settleEntry w n).log.map Record.number = w.log.map Record.number := by
  have final : ∀ (w : Work) m, (w.makeFinal flagForced m).log.map Record.number = w.log.map Record.number := by
    intro w m
    rw [Work.makeFinal_eq, List.map_map]
    exact List.map_congr_left fun r _ => by simp only [Function.comp, Record.forcedIf_eq]
  unfold settleEntry
  split
  · rfl
  · split
    · rfl
    · split
      · rfl
      · split
        · rfl
        · unfold Work.enter
          split
          · rfl
          · split
            · rfl
            · simp only
              split <;> exact final ..

/-- The pending list after a first reduction (R128, R163). -/
theorem LogSound.firstQueued (sound : LogSound s) {h : HandOff} (fresh : ∀ r ∈ s.eng.log, r.number < h.occ) :
    (firstReduction s h s.eng.work).Queued := by
  have increasing : ((evict s.eng.log ++ [h.reducedRecord s]).map Record.number).Nodup := by
    rw [List.map_append, List.map_singleton, List.nodup_append]
    refine ⟨sound.nodup.sublist ((evict_sublist _).map _), List.nodup_singleton _, fun n hn m hm => ?_⟩
    obtain ⟨o, ho, rfl⟩ := List.mem_map.mp hn
    rw [List.mem_singleton.mp hm]
    exact Nat.ne_of_lt (fresh o ((evict_sublist _).subset ho))
  have written : Work.Queued { s.eng.work with log := evict s.eng.log ++ [h.reducedRecord s] } := by
    obtain ⟨-, -, -, -, sorted, distinct, pending⟩ := sound
    exact ⟨sorted, distinct, fun e he => finalOf_of_pending increasing ((pending e he).evicted _)⟩
  have settled := (written.settleEntry h.occ).settleLoops s.driftCfg
  have number : Record.number = Prod.fst ∘ Record.termKey := rfl
  obtain ⟨terms, waiting⟩ := Work.placeDrift_termKeys s.driftCfg
    (w := (settleEntry { s.eng.work with log := evict s.eng.log ++ [h.reducedRecord s] } h.occ).settleLoops s.driftCfg) (by
      rw [number, ← List.map_map, (Work.settleLoops_termKeys ..).1, List.map_map, ← number, settleEntry_numbers]
      exact increasing) h.occ
  exact settled.congr terms waiting

/-- A record without values joins the log (R158, R159). -/
theorem LogSound.joinsBare (sound : LogSound s) (busy : s.ctl.state ≠ .idle) {own : Record}
    (number : own.number = s.ctl.occNumber) (bare : own.values = none) (state : own.state ≠ .reduced)
    (log : t.eng.log = evict s.eng.log ++ [own]) (waiting : t.eng.waiting = s.eng.waiting) (ended : s.Idles t) :
    LogSound t ∧ (RecordsFormed s → RecordsFormed t) := by
  have ownSound : RecordSound own := by
    unfold RecordSound
    cases written : own.state with
    | aborted => exact bare
    | reduced => exact absurd written state
    | sealed => simp [bare]
  have stands : ∀ o ∈ evict s.eng.log, o.Stands (id o) := fun o ho => .refl (sound.sound o ((evict_sublist _).subset ho))
  have ⟨_, _, _, _, sorted, distinct, pending⟩ := sound
  refine sound.joins busy number ownSound (Record.formed_bare bare) stands (by rw [List.map_id]; exact log) ended
    (waiting ▸ sorted) (waiting ▸ distinct) fun _ e he => ?_
  rw [log]
  exact (pending e (waiting ▸ he)).evicted own

/-- The first reduction of the occupation in progress (R160). -/
theorem LogSound.joinsReduced (sound : LogSound s) (busy : s.ctl.state ≠ .idle) {h : HandOff} (occ : h.occ = s.ctl.occNumber)
    (log : t.eng.log = closeLog s.eng.log (firstReduction s h s.eng.work).log)
    (waiting : t.eng.waiting = (firstReduction s h s.eng.work).waiting) (ended : s.Idles t) :
    LogSound t ∧ (RecordsFormed s → RecordsFormed t) := by
  have fresh : ∀ r ∈ s.eng.log, r.number < h.occ := occ ▸ sound.occupation_fresh busy
  obtain ⟨forced, after, loopNo, d, frozen, unmatched, red⟩ := firstReduced sound fresh
  obtain ⟨ψ, closed, joins⟩ := red.log sound fresh
  have queued : t.eng.work.Queued :=
    (sound.firstQueued fresh).congr ((congrArg (List.map Record.termKey) log).trans (closeLog_termKeys ..)) waiting
  refine sound.joins busy (own := h.ownRecord s forced loopNo d frozen unmatched) occ
    (recordSound_of_stateAfter (x := h.ownValues s forced loopNo d frozen) rfl rfl)
    (Record.formed_of_stateAfter (x := h.ownValues s forced loopNo d frozen) rfl rfl)
    (fun o ho => (joins o ho).changed.stands (sound.sound o ((evict_sublist _).subset ho))) (log.trans closed) ended
    queued.sorted queued.nodup fun records e he => ?_
  exact entryPending_of (w := t.eng.work) records (queued.provisional e he)

/-- The hand-off of the occupation in progress (R155, R157 to R160). -/
theorem LogSound.handOff (sound : LogSound s) (busy : s.ctl.state ≠ .idle) {h : HandOff} (occ : h.occ = s.ctl.occNumber)
    (log : t.eng.log = (s.handOff h).eng.log) (waiting : t.eng.waiting = (s.handOff h).eng.waiting)
    (ended : s.Idles t) : LogSound t ∧ (RecordsFormed s → RecordsFormed t) := by
  cases reason : h.reason with
  | some _ =>
    simp only [State.handOff, reason] at log waiting
    exact sound.joinsBare busy (own := h.bareRecord .aborted none none) occ rfl (by simp [HandOff.bareRecord]) log waiting ended
  | none =>
    have eng : (s.handOff h).eng = s.handedOff h := by
      rw [State.handOff_none s reason]
      rfl
    rw [eng] at log waiting
    by_cases base : s.isBase = true
    · rw [State.handedOff, if_pos base] at log waiting
      exact sound.joinsBare busy (own := h.bareRecord .sealed s.eng.firstObs s.eng.lastObs) occ rfl (by simp [HandOff.bareRecord])
        log waiting ended
    · rw [State.handedOff, if_neg base] at log waiting
      dsimp only at log waiting
      exact sound.joinsReduced busy occ log waiting ended

/-! ### Every move -/

/-- Every move keeps the log sound, and its records formed. -/
theorem LogSound.moves (sound : LogSound s) (moves : s.Moves t) : LogSound t ∧ (RecordsFormed s → RecordsFormed t) := by
  have ready := sound.ready
  have queued := sound.queued
  cases moves with
  | still _ still => exact sound.still still
  | starts _ log waiting _ idle busy number => exact sound.starts log waiting idle busy number
  | reports r =>
    exact sound.engineEvent (.trans (.of_reterms (.takeReport s ready sound.nodup r)) (.settleLoops _ _))
      ((queued.takeReport s r).settleLoops _)
  | reselects =>
    exact sound.engineEvent (.trans (.of_reterms (.reevaluateAll s ready)) (.settleLoops _ _))
      ((queued.reevaluateAll s).settleLoops _)
  | expires occs =>
    exact sound.engineEvent (.trans (.of_reterms (.expireAll s occs ready)) (.settleLoops _ _))
      ((Work.Queued.foldl (fun _ n h => h.expireOne s n) occs queued).settleLoops _)
  | finishes =>
    refine sound.engineEvent (.trans (.of_reterms (.finishAll ready)) (.trans (.passTies _ _) (.finishLoops _))) ?_
    refine .of_idle ?_
    rw [Work.finishLoops_waiting, Work.passTies_eq]
    exact Work.Queued.finished s.eng.work
  | ends busy reason flag endTime =>
    obtain ⟨u, h, -, eng, still, occ, ended⟩ := s.endOccupation_eng reason flag endTime
    have idles := s.endOccupation_idles reason flag endTime
    obtain ⟨soundU, -⟩ := sound.still still
    have busyU : u.ctl.state ≠ .idle := fun idleU => busy sound.parked ((still.idle sound.parked).1.mp idleU)
    obtain ⟨soundT, formed⟩ := soundU.handOff busyU (occ.trans still.number.symm) (by rw [ended]; rfl) (by rw [ended]; rfl)
      ⟨idles.idle, idles.inForce, idles.number.trans still.number.symm⟩
    refine ⟨soundT, fun h => formed ?_⟩
    rw [recordsFormed_iff, eng]
    exact h

theorem LogSound.evolves (sound : LogSound s) (evolves : s.Evolves t) : LogSound t ∧ (RecordsFormed s → RecordsFormed t) := by
  induction evolves with
  | refl => exact ⟨sound, id⟩
  | tail _ moves ih =>
    obtain ⟨soundU, formedU⟩ := ih
    obtain ⟨soundT, formedT⟩ := soundU.moves moves
    exact ⟨soundT, formedT ∘ formedU⟩

end

/-- Settles O56: each move of a step keeps the log sound and its records formed (`LogSound.moves`); a cleared engine holds
none. -/
theorem logKept : Obligations.LogKept := by
  intro s t sound h
  cases State.Evolution.step h with
  | evolves evolves => exact sound.evolves evolves
  | cleared eng ctl =>
    unfold LogSound RecordsFormed
    rw [eng, ctl]
    simp
  | loaded _ still => exact sound.still still

end Sys2Proof.Machine
end

