-- ==== Sys2Proof/Proofs/Rounding.lean ====
section
/-! PROOF. O20, over the rules of rounded division (R56): it is within one half of the quotient, a tie goes away from zero, and it
keeps to whole bounds of the quotient. -/

namespace Sys2Proof.Machine

/-! ### Rounded division (R56) -/

/-- A magnitude divided: within one half, and upwards on a tie. -/
theorem roundNat_near (a : Nat) {b : Nat} (hb : 0 < b) :
    2 * (b * roundNat a b) ≤ 2 * a + b ∧ 2 * a < 2 * (b * roundNat a b) + b := by
  have floor := Nat.div_mul_le_self (2 * a + b) (2 * b)
  have next := Nat.lt_div_mul_add (a := 2 * a + b) (b := 2 * b) (by omega)
  have same : (2 * a + b) / (2 * b) * (2 * b) = 2 * (b * roundNat a b) := by
    rw [roundNat]
    ring
  omega

theorem roundDiv_neg (a : Int) (b : Nat) : roundDiv (-a) b = -roundDiv a b := by
  have zero : roundNat 0 b = 0 := by
    rcases Nat.eq_zero_or_pos b with rfl | hb
    · rfl
    · exact Nat.div_eq_of_lt (by omega)
  unfold roundDiv
  rw [Int.natAbs_neg]
  rcases lt_trichotomy a 0 with h | rfl | h
  · rw [if_neg (by omega), if_pos h, neg_neg]
  · simp [zero]
  · rw [if_pos (by omega), if_neg (by omega)]

section

variable {b : Nat}

/-- Rounded division is within one half of the quotient, and takes a tie away from zero. -/
theorem roundDiv_near (a : Int) (hb : 0 < b) :
    2 * |a - b * roundDiv a b| ≤ b ∧ (2 * |a - b * roundDiv a b| = b → |a| < |b * roundDiv a b|) := by
  have forward : ∀ n : Nat, 2 * |(n : Int) - b * roundDiv n b| ≤ b
      ∧ (2 * |(n : Int) - b * roundDiv n b| = b → |(n : Int)| < |b * roundDiv n b|) := by
    intro n
    obtain ⟨above, below⟩ := roundNat_near n hb
    rw [roundDiv_natCast, ← Nat.cast_mul, Nat.abs_cast, Nat.abs_cast]
    generalize b * roundNat n b = p at above below ⊢
    rcases abs_cases ((n : Int) - p) with ⟨h, -⟩ | ⟨h, -⟩ <;> omega
  rcases Int.eq_nat_or_neg a with ⟨n, rfl | rfl⟩
  · exact forward n
  · rw [roundDiv_neg, mul_neg, sub_neg_eq_add, neg_add_eq_sub, abs_sub_comm, abs_neg, abs_neg]
    exact forward n

/-- Rounded division keeps to a whole upper bound of the quotient. -/
theorem roundDiv_le {a q : Int} (hb : 0 < b) (h : a ≤ b * q) : roundDiv a b ≤ q := by
  by_contra beyond
  have near := (roundDiv_near a hb).1
  have step : (b : Int) * (q + 1) ≤ b * roundDiv a b := Int.mul_le_mul_of_nonneg_left (by omega) (by omega)
  have := neg_abs_le (a - b * roundDiv a b)
  rw [mul_add, mul_one] at step
  omega

/-- Rounded division keeps to a whole lower bound of the quotient. -/
theorem le_roundDiv {a q : Int} (hb : 0 < b) (h : b * q ≤ a) : q ≤ roundDiv a b := by
  have mirrored := roundDiv_le (a := -a) (q := -q) hb (by rw [mul_neg]; omega)
  rw [roundDiv_neg] at mirrored
  omega

/-- Rounded division is exact on exact quotients. -/
theorem roundDiv_mul (q : Int) (hb : 0 < b) : roundDiv (b * q) b = q :=
  le_antisymm (roundDiv_le hb le_rfl) (le_roundDiv hb le_rfl)

theorem roundDiv_nonneg {a : Int} (hb : 0 < b) (h : 0 ≤ a) : 0 ≤ roundDiv a b := le_roundDiv hb (by simpa using h)

/-- Rounded division is monotone over dividends that are not negative. -/
theorem roundDiv_mono {a c : Int} (h : 0 ≤ a) (le : a ≤ c) : roundDiv a b ≤ roundDiv c b := by
  obtain ⟨n, rfl⟩ := Int.eq_ofNat_of_zero_le h
  obtain ⟨m, rfl⟩ := Int.eq_ofNat_of_zero_le (h.trans le)
  rw [roundDiv_natCast, roundDiv_natCast]
  exact_mod_cast Nat.div_le_div_right (by omega)

end

/-! ### The tilt correction (R22, R62) -/

/-- The rounded mean of values within `g` of an offset is within `g` of it. -/
theorem mean_within {l : List Int} {o : Int} {g : Nat} (some_ : l ≠ []) (h : ∀ v ∈ l, |v - o| ≤ g) :
    |roundDiv l.sum l.length - o| ≤ g := by
  have length : 0 < l.length := List.length_pos_of_ne_nil some_
  have above : l.sum ≤ l.length * (o + g) := by
    have := List.sum_le_card_nsmul l (o + g) fun v hv => by have := abs_le.mp (h v hv); omega
    simpa using this
  have below : l.length * (o - g) ≤ l.sum := by
    have := List.card_nsmul_le_sum l (o - g) fun v hv => by have := abs_le.mp (h v hv); omega
    simpa using this
  have := roundDiv_le length above
  have := le_roundDiv length below
  exact abs_le.mpr ⟨by omega, by omega⟩

/-- A sample that passes the tilt gate lies within it (R22). -/
theorem tilt_within {ins : Instrument} {f : Frame} (h : tiltFails ins f = false) :
    |f.x - ins.ox| ≤ ins.tiltGate ∧ |f.y - ins.oy| ≤ ins.tiltGate := by
  simpa [tiltFails_eq, Frame.tilted] using h

/-- Settles O20: the means stay within the gate (`mean_within`), and the correction rises with both squares
(`roundDiv_mono`). -/
theorem tiltCorrectionBound : Obligations.TiltCorrectionBound := by
  intro ins fs x y some_ pass hx hy
  have xWithin : |x - ins.ox| ≤ ins.tiltGate := by
    rw [hx, ← List.length_map (f := Frame.x)]
    exact mean_within (by simpa using some_) (List.forall_mem_map.mpr fun f hf => (tilt_within (pass f hf)).1)
  have yWithin : |y - ins.oy| ≤ ins.tiltGate := by
    rw [hy, ← List.length_map (f := Frame.y)]
    exact mean_within (by simpa using some_) (List.forall_mem_map.mpr fun f hf => (tilt_within (pass f hf)).2)
  have formula : tiltCorrection ins x y = roundDiv (((x - ins.ox) ^ 2 + (y - ins.oy) ^ 2) * 49) 10000 := by
    rw [tiltCorrection, sq, sq]
  refine ⟨xWithin, yWithin, formula, ?_, ?_⟩ <;> rw [formula]
  · exact roundDiv_nonneg (by decide) (by positivity)
  · refine roundDiv_mono (by positivity) ?_
    have := sq_le_sq' (neg_le_of_abs_le xWithin) (le_of_abs_le xWithin)
    have := sq_le_sq' (neg_le_of_abs_le yWithin) (le_of_abs_le yWithin)
    omega

end Sys2Proof.Machine
end

