-- ==== Sys2Proof/Proofs/Tides.lean ====
section
/-! PROOF. O21: the arithmetic of chapter 4, part by part over the rules of rounded division. -/

namespace Sys2Proof.Machine

/-- Rounded division keeps to a whole bound of the quotient's magnitude. -/
theorem roundDiv_abs_le {a q : Int} {b : Nat} (hb : 0 < b) (h : |a| ≤ b * q) : |roundDiv a b| ≤ q := by
  obtain ⟨below, above⟩ := abs_le.mp h
  exact abs_le.mpr ⟨le_roundDiv hb (by rwa [mul_neg]), roundDiv_le hb above⟩

/-! ### The temperature correction (R63) -/

theorem tempDifference_eq (ins : Instrument) (x : Int) :
    tempDifference ins x = max (-(ins.tempWindow : Int)) (min ins.tempWindow (x - ins.tempRef)) := clampTo_eq (by omega) _

theorem tempClampActs_iff (ins : Instrument) (x : Int) :
    tempClampActs ins x = true ↔ (ins.tempWindow : Int) < |x - ins.tempRef| := by
  rw [tempClampActs, decide_eq_true_eq, tempDifference_eq, lt_abs]
  omega

/-! ### The cosine (R65 to R67) -/

theorem cosEntry_falls : ∀ i < 900, cosEntry (i + 1) < cosEntry i := by decide +kernel

theorem cosEntry_zero : cosEntry 0 = 2 ^ 30 := by decide +kernel

theorem cosEntry_last : cosEntry 900 = 0 := by decide +kernel

theorem cosEntry_nonneg (i : Nat) : 0 ≤ cosEntry i := Int.natCast_nonneg _

theorem cosEntry_le {i : Nat} (h : i ≤ 900) : cosEntry i ≤ 2 ^ 30 := by
  induction i with
  | zero => exact cosEntry_zero.le
  | succ i ih => exact (cosEntry_falls i h).le.trans (ih (by omega))

/-- An interpolated value lies between the two that it is interpolated between. -/
theorem interpolated_within {u v : Int} {n b : Nat} (h : n ≤ b) (hb : 0 < b) :
    min u v ≤ u + roundDiv ((v - u) * n) b ∧ u + roundDiv ((v - u) * n) b ≤ max u v := by
  have n_le : (n : Int) ≤ b := by exact_mod_cast h
  rcases le_total u v with rise | fall
  · rw [min_eq_left rise, max_eq_right rise]
    have below : 0 ≤ roundDiv ((v - u) * n) b := roundDiv_nonneg hb (mul_nonneg (by omega) (by omega))
    have above : roundDiv ((v - u) * n) b ≤ v - u := by
      refine roundDiv_le hb ?_
      rw [mul_comm (b : Int)]
      exact mul_le_mul_of_nonneg_left n_le (by omega)
    omega
  · rw [min_eq_right fall, max_eq_left fall]
    have above : roundDiv ((v - u) * n) b ≤ 0 := by
      refine roundDiv_le hb ?_
      rw [mul_zero]
      exact mul_nonpos_of_nonpos_of_nonneg (by omega) (by omega)
    have below : v - u ≤ roundDiv ((v - u) * n) b := by
      refine le_roundDiv hb ?_
      rw [mul_comm (b : Int)]
      exact mul_le_mul_of_nonpos_left n_le (by omega)
    omega

/-- The first-quadrant cosine lies from 0 to 2³⁰. -/
theorem quadrantCos_within {q : Nat} (h : q ≤ 90000000) : 0 ≤ quadrantCos q ∧ quadrantCos q ≤ 2 ^ 30 := by
  unfold quadrantCos
  rcases Nat.lt_or_ge (q / 100000) 900 with inside | last
  · obtain ⟨below, above⟩ := interpolated_within (u := cosEntry (q / 100000)) (v := cosEntry (q / 100000 + 1)) (n := q % 100000)
      (b := 100000) (by omega) (by decide)
    have falls := cosEntry_falls _ inside
    rw [min_eq_right falls.le] at below
    rw [max_eq_left falls.le] at above
    exact ⟨(cosEntry_nonneg _).trans below, above.trans (cosEntry_le inside.le)⟩
  · have end_ : q = 90000000 := by omega
    subst end_
    simp [cosEntry_last, roundDiv, roundNat]

theorem nodeCos_eq {θ : Nat} (h : θ < 360000000) :
    nodeCos θ = if θ ≤ 90000000 then quadrantCos θ else if θ ≤ 180000000 then -quadrantCos (180000000 - θ)
      else if θ < 270000000 then -quadrantCos (θ - 180000000) else quadrantCos (360000000 - θ) := by
  unfold nodeCos foldAngle
  by_cases first : θ ≤ 90000000
  · simp [first]
  · by_cases second : θ ≤ 180000000
    · simp [first, second]
    · by_cases third : θ ≤ 269999999
      · simp [first, second, third, show θ < 270000000 by omega]
      · simp [first, second, third, show ¬θ < 270000000 by omega]

theorem nodeCos_within {θ : Nat} (h : θ < 360000000) : |nodeCos θ| ≤ 2 ^ 30 := by
  have quadrant : ∀ q ≤ 90000000, |quadrantCos q| ≤ 2 ^ 30 := fun q hq => by
    obtain ⟨below, above⟩ := quadrantCos_within hq
    rwa [abs_of_nonneg below]
  rw [nodeCos_eq h]
  split
  · exact quadrant _ ‹_›
  · split
    · rw [abs_neg]
      exact quadrant _ (by omega)
    · split
      · rw [abs_neg]
        exact quadrant _ (by omega)
      · exact quadrant _ (by omega)

/-! ### The model tide (R64, R68) -/

/-- The term of one constituent place, 0 when it is empty (R64, R68). -/
def placeTerm (t : Nat) : Option Constituent → Int
  | none => 0
  | some k => roundDiv (k.amplitude * nodeCos (((roundDiv (k.speed * t : Nat) 3600000).toNat + k.phase) % 360000000)) (2 ^ 30)

theorem placeTerm_some (t : Nat) (k : Constituent) : placeTerm t (some k) = tideTerm k t := by
  rw [placeTerm, roundDiv_natCast, Int.toNat_natCast]
  rfl

/-- A term stays within its amplitude. -/
theorem tideTerm_within (k : Constituent) (t : Nat) : |tideTerm k t| ≤ |k.amplitude| := by
  refine roundDiv_abs_le (by decide) ?_
  rw [abs_mul, mul_comm]
  refine mul_le_mul_of_nonneg_right ?_ (abs_nonneg _)
  exact_mod_cast nodeCos_within (Nat.mod_lt _ (by decide))

theorem sum_inUse (t : Nat) (l : List (Option Constituent)) :
    ((l.filterMap id).map fun k => tideTerm k t).sum = (l.map (placeTerm t)).sum := by
  induction l with
  | nil => rfl
  | cons place l ih =>
    rw [List.map_cons, List.sum_cons, ← ih]
    cases place with
    | none => exact (Int.zero_add _).symm
    | some k => rw [placeTerm_some, List.filterMap_cons_some (f := id) (b := k) rfl, List.map_cons, List.sum_cons]

theorem modelTide_eq {img : Image} {c : TideConfig} (t : Nat) (held : img.tide = some c) :
    modelTide img t = c.offset + ((img.constituents.take c.count).map (placeTerm t)).sum := by
  rw [← sum_inUse, modelTide, Image.inUse, held]
  rfl

/-- The constituents in use are at most twelve, of amplitudes within ±500,000 nGal, and T0 lies within ±1,000,000 nGal
(R187, R189). -/
theorem Image.tide_ranges {img : Image} (valid : img.valid = true) :
    |(img.tide.getD default).offset| ≤ 1000000 ∧ img.inUse.length ≤ 12 ∧ ∀ k ∈ img.inUse, |k.amplitude| ≤ 500000 := by
  obtain ⟨-, -, -, -, tide, -, -, -, places, constituents⟩ := (Image.valid_iff img).mp valid
  refine ⟨?_, ?_, fun k hk => ?_⟩
  · cases held : img.tide with
    | none => decide
    | some c =>
      have ranges := tide c held
      simp [TideConfig.ranges, inRange] at ranges
      exact abs_le.mpr ⟨by simpa using ranges.1.1, by simpa using ranges.1.2⟩
  · refine (List.length_filterMap_le ..).trans ?_
    rw [List.length_take, places]
    exact Nat.min_le_right _ _
  · obtain ⟨o, ho, same⟩ := List.mem_filterMap.mp hk
    have ranges := constituents o (List.mem_of_mem_take ho) k same
    simp [Constituent.ranges, inRange] at ranges
    exact abs_le.mpr ranges.2.2

/-- A sum of terms each within a bound. -/
theorem sum_within {l : List Int} {m : Int} (h : ∀ v ∈ l, |v| ≤ m) : |l.sum| ≤ l.length * m := by
  induction l with
  | nil => simp
  | cons v l ih =>
    obtain ⟨first, rest⟩ := List.forall_mem_cons.mp h
    rw [List.sum_cons, List.length_cons]
    have := abs_add_le v l.sum
    have := ih rest
    push_cast
    linarith

theorem modelTide_within {img : Image} (t : Nat) (valid : img.valid = true) : |modelTide img t| ≤ 7000000 := by
  obtain ⟨offset, twelve, amplitudes⟩ := Image.tide_ranges valid
  have terms := sum_within (l := img.inUse.map fun k => tideTerm k t) (m := 500000)
    (List.forall_mem_map.mpr fun k hk => (tideTerm_within k t).trans (amplitudes k hk))
  rw [List.length_map] at terms
  have := abs_add_le (img.tide.getD default).offset (img.inUse.map fun k => tideTerm k t).sum
  unfold modelTide
  omega

/-! ### Base terms and drift (R71 to R74) -/

/-- A bracket's base term lies between its residuals (R71). -/
theorem Bracket.value_within {k : Bracket} {c : Stored} {t : Nat} (two : k.b = some c) (after : k.a.time ≤ t)
    (before : t < c.time) :
    k.value t = k.a.residual + roundDiv ((c.residual - k.a.residual) * ((t : Int) - k.a.time)) (c.time - k.a.time)
      ∧ min k.a.residual c.residual ≤ k.value t ∧ k.value t ≤ max k.a.residual c.residual := by
  have value : k.value t
      = k.a.residual + roundDiv ((c.residual - k.a.residual) * ((t : Int) - k.a.time)) (c.time - k.a.time) := by
    simp only [Bracket.value, two]
  have within := interpolated_within (u := k.a.residual) (v := c.residual) (n := t - k.a.time) (b := c.time - k.a.time)
    (by omega) (by omega)
  rw [value]
  rw [Nat.cast_sub after] at within
  exact ⟨rfl, within⟩

/-- A loop closed at its computed rate reduces its two ties to one value up to the rounding (R74). -/
theorem closure_within (vO vC dO : Int) {tO tC : Nat} (span : tO < tC) :
    2000000 * |(vC - driftLine tO dO (rawRate vO vC tO tC) tC) - (vO - dO)| ≤ ((tC - tO : Nat) : Int) + 1000000 := by
  have rate := (roundDiv_near ((vC - vO) * 1000000) (b := tC - tO) (by omega)).1
  have line := (roundDiv_near (rawRate vO vC tO tC * ((tC : Int) - tO)) (b := 1000000) (by decide)).1
  have split : 1000000 * ((vC - driftLine tO dO (rawRate vO vC tO tC) tC) - (vO - dO))
      = ((vC - vO) * 1000000 - ((tC - tO : Nat) : Int) * rawRate vO vC tO tC)
        + (rawRate vO vC tO tC * ((tC : Int) - tO) - 1000000 * roundDiv (rawRate vO vC tO tC * ((tC : Int) - tO)) 1000000) := by
    rw [driftLine, Nat.cast_sub span.le]
    ring
  have both := abs_add_le ((vC - vO) * 1000000 - ((tC - tO : Nat) : Int) * rawRate vO vC tO tC)
    (rawRate vO vC tO tC * ((tC : Int) - tO) - 1000000 * roundDiv (rawRate vO vC tO tC * ((tC : Int) - tO)) 1000000)
  rw [← split, abs_mul, abs_of_pos (by decide : (0 : Int) < 1000000)] at both
  have rate : 2 * |(vC - vO) * 1000000 - ((tC - tO : Nat) : Int) * rawRate vO vC tO tC| ≤ ((tC - tO : Nat) : Int) := rate
  push_cast at line
  linarith

/-- Settles O21, part by part. -/
theorem roundingAndTide : Obligations.RoundingAndTide := by
  refine ⟨fun a b hb => (roundDiv_near a hb).1, fun a b hb => (roundDiv_near a hb).2, fun q b hb => roundDiv_mul q hb,
    fun _ _ => rfl, fun ins x => ⟨by rw [tempCorrection, tempDifference_eq], tempClampActs_iff ins x⟩,
    ⟨cosEntry_zero, cosEntry_last, cosEntry_falls⟩, fun _ _ => rfl, fun θ h => ⟨nodeCos_eq h, nodeCos_within h⟩,
    fun img c t held => modelTide_eq t held, fun img t valid => modelTide_within t valid,
    fun k c t two after before => Bracket.value_within two after before, fun _ _ _ _ => rfl,
    fun cfg vO vC tO tC _ => ?_, fun vO vC dO tO tC span => closure_within vO vC dO span⟩
  rw [clampRate_eq]
  rfl

end Sys2Proof.Machine
end

