-- ==== Sys2Proof/Proofs/Selections.lean ====
section
/-! PROOF. O29: the selection of a base term against `SelectedFirst`: the candidates in their order, the bracket that a ring gives,
and the hold. -/

namespace Sys2Proof.Machine

/-! ### The candidates and their order (R125) -/

theorem isCandidate_iff (cfg : BaseConfig) (h : Header) (e : PeerEntry) : isCandidate cfg h e = true ↔ e.Candidate cfg h := by
  simp only [isCandidate, PeerEntry.Candidate, distance2, Bool.and_eq_true, Bool.or_eq_true, decide_eq_true_eq,
    Option.isSome_iff_ne_none, and_assoc, sq, Nat.cast_mul, ne_eq]

theorem triedBefore_iff (h : Header) (a b : PeerEntry) : triedBefore h a b = true ↔ a.TriedFirst h b := by
  unfold triedBefore PeerEntry.TriedFirst distance2
  simp only [sq]
  split
  · rename_i own
    simp [own]
  · rename_i other
    split
    · rename_i preferred
      refine iff_of_false Bool.false_ne_true ?_
      rintro (own | ⟨notB, -⟩)
      · exact other own
      · exact notB preferred
    · split <;> simp [*]

theorem triedBefore_trans {h : Header} {a b c : PeerEntry} (first : triedBefore h a b = true)
    (second : triedBefore h b c = true) : triedBefore h a c = true := by
  rw [triedBefore_iff] at *
  rcases first with preferred | ⟨other, nearer⟩
  · exact .inl preferred
  · rcases second with preferred | ⟨other', nearer'⟩
    · exact absurd preferred other
    · refine .inr ⟨other', ?_⟩
      omega

/-- Of two entries of distinct ids one is tried before the other. -/
theorem triedBefore_total (h : Header) {a b : PeerEntry} (other : a.id ≠ b.id) (after : ¬triedBefore h b a = true) :
    triedBefore h a b = true := by
  rw [triedBefore_iff] at *
  simp only [PeerEntry.TriedFirst, not_or, not_and] at *
  obtain ⟨notB, further⟩ := after
  by_cases preferred : h.preferred = some a.id
  · exact .inl preferred
  · have := further preferred
    exact .inr ⟨notB, by omega⟩

/-- Entries of distinct ids, sorted, stand in the order in which they are tried. -/
theorem sortBy_triedBefore (h : Header) {l : List PeerEntry} (distinct : (l.map PeerEntry.id).Nodup) :
    (sortBy (triedBefore h) l).Pairwise fun a b => triedBefore h a b = true := by
  have insert : ∀ (x : PeerEntry) (l : List PeerEntry), (∀ y ∈ l, y.id ≠ x.id) →
      l.Pairwise (fun a b => triedBefore h a b = true) →
      (insertBy (triedBefore h) x l).Pairwise fun a b => triedBefore h a b = true := by
    intro x l
    induction l with
    | nil => exact fun _ _ => List.pairwise_singleton _ _
    | cons y l ih =>
      intro fresh sorted
      obtain ⟨other, fresh⟩ := List.forall_mem_cons.mp fresh
      obtain ⟨before, sorted⟩ := List.pairwise_cons.mp sorted
      unfold insertBy
      split
      · rename_i earlier
        refine List.pairwise_cons.mpr ⟨fun z hz => ?_, ih fresh sorted⟩
        rcases List.mem_cons.mp ((insertBy_perm ..).mem_iff.mp hz) with rfl | hz
        · exact earlier
        · exact before z hz
      · rename_i later
        have first := triedBefore_total h other.symm later
        refine List.pairwise_cons.mpr ⟨fun z hz => ?_, List.pairwise_cons.mpr ⟨before, sorted⟩⟩
        rcases List.mem_cons.mp hz with rfl | hz
        · exact first
        · exact triedBefore_trans first (before z hz)
  induction l with
  | nil => exact List.Pairwise.nil
  | cons x l ih =>
    obtain ⟨fresh, distinct⟩ := List.nodup_cons.mp distinct
    refine insert x _ (fun y hy same => fresh ?_) (ih distinct)
    exact same ▸ List.mem_map_of_mem ((sortBy_perm _ l).mem_iff.mp hy)

theorem mem_candidates (s : State) (h : Header) (e : PeerEntry) :
    e ∈ candidates s h ↔ e ∈ s.peers.entries ∧ e.Candidate s.baseTerm h := by
  rw [candidates, (sortBy_perm _ _).mem_iff, List.mem_filter, isCandidate_iff]

theorem candidates_tried {s : State} (distinct : (s.peers.entries.map PeerEntry.id).Nodup) (h : Header) :
    (candidates s h).Pairwise (PeerEntry.TriedFirst h) :=
  (sortBy_triedBefore h (distinct.sublist (List.filter_sublist.map _))).imp fun first => (triedBefore_iff ..).mp first

/-! ### Brackets (R126) -/

theorem bracketOutcome_eq (e : PeerEntry) (t : Nat) (a b : Sample) : bracketOutcome e t a b = bracketed t e a b := by
  unfold bracketOutcome bracketed
  cases b.jump with
  | false => rfl
  | true =>
    simp only [Bool.not_true, Bool.false_eq_true, if_false]
    split <;> rfl

theorem findBracket_some {t gap : Nat} {l : List Sample} {a b : Sample} (h : findBracket t gap l = some (a, b)) :
    (∃ l₁ l₂, l = l₁ ++ a :: b :: l₂) ∧ a.mid ≤ t ∧ t < b.mid ∧ b.mid - a.mid ≤ gap := by
  induction l with
  | nil => cases h
  | cons x l ih =>
    cases l with
    | nil => cases h
    | cons y l =>
      unfold findBracket at h
      split at h
      · rename_i around
        obtain ⟨rfl, rfl⟩ := Prod.mk.inj (Option.some.inj h)
        simp only [Bool.and_eq_true, decide_eq_true_eq, and_assoc] at around
        exact ⟨⟨[], l, rfl⟩, around⟩
      · obtain ⟨⟨l₁, l₂, split⟩, around⟩ := ih h
        exact ⟨⟨x :: l₁, l₂, congrArg (x :: ·) split⟩, around⟩

/-- In increasing mid-times at most one adjacent pair brackets, and the search finds it. -/
theorem findBracket_of_around {t gap : Nat} {l l₁ l₂ : List Sample} {a b : Sample}
    (increasing : l.Pairwise fun a b => a.mid < b.mid) (split : l = l₁ ++ a :: b :: l₂)
    (before : a.mid ≤ t) (after : t < b.mid) (near : b.mid - a.mid ≤ gap) :
    findBracket t gap l = some (a, b) := by
  induction l₁ generalizing l with
  | nil =>
    subst split
    simp [findBracket, before, after, near]
  | cons x l₁ ih =>
    subst split
    have found : findBracket t gap (l₁ ++ a :: b :: l₂) = some (a, b) := ih (List.pairwise_cons.mp increasing).2 rfl
    cases rest : l₁ ++ a :: b :: l₂ with
    | nil => simp at rest
    | cons y rest' =>
      have past : y.mid ≤ t := by
        cases l₁ with
        | nil =>
          cases rest
          exact before
        | cons z l₁ =>
          cases rest
          have := (List.pairwise_cons.mp (List.pairwise_cons.mp increasing).2).1 a (by simp)
          omega
      rw [rest] at found
      rw [List.cons_append, rest, findBracket, if_neg (by simp [past]), found]

theorem PeerTable.samplesOf_increasing {p : PeerTable}
    (rings : ∀ n, (p.rings.get n).samples.Pairwise fun a b => a.seq < b.seq ∧ a.mid < b.mid) (e : PeerEntry) :
    (p.samplesOf e).Pairwise fun a b => a.mid < b.mid := by
  unfold PeerTable.samplesOf
  split
  · exact (rings _).imp fun ⟨_, mid⟩ => mid
  · exact List.Pairwise.nil

/-! ### Holds (R127) -/

/-- What candidate `e` gives when its latest sample `a` holds (R127). -/
def heldOn (e : PeerEntry) (a : Sample) : Selection :=
  { outcome := .held, final := false, r := a.residual
    bracket := some { peer := e.id, series := e.series.getD 0, a := ⟨a.seq, a.mid, a.residual⟩, b := none
                      epoch := e.epoch.getD 0 } }

section

variable {s : State} {t : Nat} {e : PeerEntry} {x : Selection}

theorem tryBracket_some (h : tryBracket s t e = some x) : ∃ a b, Brackets s t e a b ∧ x = bracketed t e a b := by
  obtain ⟨⟨a, b⟩, found, same⟩ := Option.map_eq_some_iff.mp h
  exact ⟨a, b, findBracket_some found, same.symm.trans (bracketOutcome_eq ..)⟩

theorem tryBracket_of_brackets {a b : Sample} (increasing : (s.peers.samplesOf e).Pairwise fun a b => a.mid < b.mid)
    (h : Brackets s t e a b) : tryBracket s t e = some (bracketed t e a b) := by
  obtain ⟨⟨l₁, l₂, split⟩, before, after, near⟩ := h
  rw [tryBracket, findBracket_of_around increasing split before after near, Option.map_some, bracketOutcome_eq]

theorem tryBracket_none (h : ∀ a b, ¬Brackets s t e a b) : tryBracket s t e = none := by
  cases tried : tryBracket s t e with
  | none => rfl
  | some x =>
    obtain ⟨a, b, brackets, -⟩ := tryBracket_some tried
    exact absurd brackets (h a b)

theorem tryHold_of_holds {a : Sample} (h : Holds s t e a) : tryHold s t e = some (heldOn e a) := by
  obtain ⟨last, before, near⟩ := h
  simp only [tryHold, last, before, near]
  rfl

theorem tryHold_some (h : tryHold s t e = some x) : ∃ a, Holds s t e a ∧ x = heldOn e a := by
  unfold tryHold at h
  split at h
  · cases h
  · rename_i a last
    split at h
    · rename_i near
      simp only [Bool.and_eq_true, decide_eq_true_eq] at near
      exact ⟨a, ⟨last, near⟩, (Option.some.inj h).symm⟩
    · cases h

theorem tryHold_none (h : ∀ a, ¬Holds s t e a) : tryHold s t e = none := by
  cases tried : tryHold s t e with
  | none => rfl
  | some x =>
    obtain ⟨a, holds, -⟩ := tryHold_some tried
    exact absurd holds (h a)

/-! ### The selection -/

/-- A candidate that gives something, those tried before it giving nothing, decides. -/
theorem findSome?_first {f : PeerEntry → Option Selection} {cs l₁ l₂ : List PeerEntry} (split : cs = l₁ ++ e :: l₂)
    (none_ : ∀ d ∈ l₁, f d = none) (some_ : f e = some x) : cs.findSome? f = some x :=
  List.findSome?_eq_some_iff.mpr ⟨l₁, e, l₂, split, some_, none_⟩

theorem select_bracketed {h : Header} (found : (candidates s h).findSome? (tryBracket s t) = some x) : select s h t = x := by
  simp only [select, found]

theorem select_held {h : Header} (noBracket : (candidates s h).findSome? (tryBracket s t) = none)
    (found : (candidates s h).findSome? (tryHold s t) = some x) : select s h t = x := by
  simp only [select, noBracket, found]

theorem select_neither {h : Header} (noBracket : (candidates s h).findSome? (tryBracket s t) = none)
    (noHold : (candidates s h).findSome? (tryHold s t) = none) :
    select s h t = if ∃ e ∈ candidates s h, e.state = .live then { outcome := .awaited, final := false, bracket := none, r := 0 }
      else { outcome := .modelFallback, final := true, bracket := none, r := 0 } := by
  simp only [select, noBracket, noHold, List.any_eq_true, decide_eq_true_eq]

/-- The selection takes the first candidate that decides (R125 to R127). -/
theorem select_first (s : State) (h : Header) (t : Nat) (distinct : (s.peers.entries.map PeerEntry.id).Nodup)
    (rings : ∀ n, (s.peers.rings.get n).samples.Pairwise fun a b => a.seq < b.seq ∧ a.mid < b.mid) :
    SelectedFirst s h t (select s h t) := by
  have increasing := PeerTable.samplesOf_increasing rings
  refine ⟨candidates s h, candidates_tried distinct h, mem_candidates s h, fun l₁ e l₂ a b split brackets before => ?_,
    fun noBrackets => ?_⟩
  · exact select_bracketed (findSome?_first split (fun d hd => tryBracket_none (before d hd))
      (tryBracket_of_brackets (increasing e) brackets))
  · have noBracket : (candidates s h).findSome? (tryBracket s t) = none :=
      List.findSome?_eq_none_iff.mpr fun e he => tryBracket_none (noBrackets e he)
    refine ⟨fun l₁ e l₂ a split holds before => ?_, fun noHolds => ?_⟩
    · exact select_held noBracket (findSome?_first split (fun d hd => tryHold_none (before d hd)) (tryHold_of_holds holds))
    · exact select_neither noBracket (List.findSome?_eq_none_iff.mpr fun e he => tryHold_none (noHolds e he))

/-- What a selection can be, in any state. -/
theorem select_cases (s : State) (h : Header) (t : Nat) :
    (∃ e ∈ candidates s h, ∃ a b, Brackets s t e a b ∧ select s h t = bracketed t e a b)
      ∨ (∃ e ∈ candidates s h, ∃ a, Holds s t e a ∧ select s h t = heldOn e a)
      ∨ select s h t = { outcome := .awaited, final := false, bracket := none, r := 0 }
      ∨ select s h t = { outcome := .modelFallback, final := true, bracket := none, r := 0 } := by
  cases bracket : (candidates s h).findSome? (tryBracket s t) with
  | some x =>
    obtain ⟨e, he, tried⟩ := List.exists_of_findSome?_eq_some bracket
    obtain ⟨a, b, brackets, rfl⟩ := tryBracket_some tried
    exact .inl ⟨e, he, a, b, brackets, select_bracketed bracket⟩
  | none =>
    cases hold : (candidates s h).findSome? (tryHold s t) with
    | some x =>
      obtain ⟨e, he, tried⟩ := List.exists_of_findSome?_eq_some hold
      obtain ⟨a, holds, rfl⟩ := tryHold_some tried
      exact .inr (.inl ⟨e, he, a, holds, select_held bracket hold⟩)
    | none =>
      rw [select_neither bracket hold]
      split
      · exact .inr (.inr (.inl rfl))
      · exact .inr (.inr (.inr rfl))

/-- What a bracket gives: BRACKETED between its residuals, or STEP_NEAR on one of its samples (R126, R71). -/
theorem bracketed_cases {a b : Sample} (before : a.mid ≤ t) (after : t < b.mid) :
    ((bracketed t e a b).outcome = .bracketed ∧ (bracketed t e a b).final = true
        ∧ min a.residual b.residual ≤ (bracketed t e a b).r ∧ (bracketed t e a b).r ≤ max a.residual b.residual)
      ∨ ((bracketed t e a b).outcome = .stepNear ∧ (bracketed t e a b).final = true
        ∧ ((bracketed t e a b).r = a.residual ∨ (bracketed t e a b).r = b.residual)) := by
  unfold bracketed
  split
  · obtain ⟨value, within⟩ := Bracket.value_within
      (k := ⟨e.id, 0, ⟨a.seq, a.mid, a.residual⟩, some ⟨b.seq, b.mid, b.residual⟩, 0⟩) rfl before after
    rw [value] at within
    exact .inl ⟨rfl, rfl, within⟩
  · split
    · exact .inr ⟨rfl, rfl, .inl rfl⟩
    · exact .inr ⟨rfl, rfl, .inr rfl⟩

end

/-- Settles O29: the first candidate that decides (`select_first`), and each outcome by what the selection can be
(`select_cases`). -/
theorem selectionSound : Obligations.SelectionSound := by
  rintro s h t x rfl
  refine ⟨select_first s h t, ?_⟩
  have candidate : ∀ e ∈ candidates s h, e ∈ s.peers.entries ∧ isCandidate s.baseTerm h e = true := fun e he => by
    rw [isCandidate_iff]
    exact (mem_candidates s h e).mp he
  rcases select_cases s h t with ⟨e, he, a, b, ⟨⟨l₁, l₂, split⟩, before, after, near⟩, same⟩ | ⟨e, he, a, ⟨last, hold⟩, same⟩
    | same | same <;> rw [same]
  · obtain ⟨entry, cand⟩ := candidate e he
    have ha : a ∈ s.peers.samplesOf e := by simp [split]
    have hb : b ∈ s.peers.samplesOf e := by simp [split]
    rcases bracketed_cases (e := e) before after with ⟨outcome, final, within⟩ | ⟨outcome, final, one⟩ <;> rw [outcome]
    · exact ⟨fun _ => ⟨final, e, entry, cand, a, ha, b, hb, before, after, near, within⟩, by simp⟩
    · refine ⟨by simp, fun _ => ⟨final, e, entry, cand, ?_⟩, by simp⟩
      rcases one with r | r
      · exact ⟨a, ha, r⟩
      · exact ⟨b, hb, r⟩
  · obtain ⟨entry, cand⟩ := candidate e he
    have held : (heldOn e a).outcome = .held := rfl
    rw [held]
    exact ⟨by simp, by simp, fun _ => ⟨rfl, e, entry, cand, a, last, hold.1, hold.2, rfl⟩, by simp⟩
  · simp
  · simp

end Sys2Proof.Machine
end

