-- ==== Sys2Proof/Proofs/BaseBlocks.lean ====
section
/-! PROOF. O17: a base's kept block, from its residual to its OBS in the home series and the transmit queue. -/

namespace Sys2Proof.Machine

/-! ### The residual (R69, R70) -/

theorem clampResidual_eq (r : Int) : clampResidual r = max (-2000000000) (min 2000000000 r) := clampTo_eq (by decide) r

/-- Whether the residual of a block is clamped: a later block's, beyond the bound (R70). -/
theorem residual_clamped (gRef : Option Int) (v : Int) :
    decide (clampResidual (rawResidual gRef v).1 ≠ (rawResidual gRef v).1)
      = decide (∃ g, gRef = some g ∧ 2000000000 < (v - g).natAbs) := by
  refine decide_eq_decide.mpr ?_
  cases gRef with
  | none => simp [rawResidual, clampResidual_eq]
  | some g =>
    simp only [rawResidual, clampResidual_eq, Option.some.injEq, exists_eq_left']
    omega

theorem rawResidual_gRef (gRef : Option Int) (v : Int) : (rawResidual gRef v).2 = gRef.getD v := by
  cases gRef <;> rfl

/-! ### The home series (R119, R120) -/

theorem HomeSeries.jumps_eq (h : HomeSeries) (series : Nat) (r : Int) (limit : Nat) :
    h.jumps series r limit
      = decide (h.series = some series ∧ ∃ y, h.samples.getLast? = some y ∧ limit < (r - y.residual).natAbs) := by
  rw [HomeSeries.jumps, Bool.decide_and]
  congr 1
  cases h.samples.getLast? <;> simp

/-- A mid-time not above that of the latest sample of the same series is refused (R120). -/
theorem HomeSeries.place_refused {h : HomeSeries} {series : Nat} {x : Sample} (same : h.series = some series)
    (late : ∃ y, h.samples.getLast? = some y ∧ x.mid ≤ y.mid) : h.place series x = none := by
  obtain ⟨y, latest, late⟩ := late
  simp [HomeSeries.place, same, latest, late]

/-- Any other joins the series, or begins it anew (R120). -/
theorem HomeSeries.place_taken {h : HomeSeries} {series : Nat} {x : Sample}
    (later : h.series = some series → ∀ y, h.samples.getLast? = some y → y.mid < x.mid) :
    h.place series x = some { series := some series, samples :=
      (if h.series = some series then if h.samples.length < 128 then h.samples else h.samples.tail else []) ++ [x] } := by
  unfold HomeSeries.place
  split
  · rename_i same
    have after : (h.samples.getLast?.all fun y => y.mid < x.mid) = true := by
      cases latest : h.samples.getLast? with
      | none => rfl
      | some y => exact decide_eq_true (later same y latest)
    rw [if_pos after, ← same]
  · rfl

/-! ### The transmit queue (R84) -/

theorem State.queueObs_eq (s : State) (o : Obs) :
    s.queueObs o = { s with
      link := { s.link with txq := appendObs s.link.txq o }
      port := { s.port with latched := { s.port.latched with
        txDropped := s.port.latched.txDropped || decide (16 ≤ s.link.txq.length) } } } := by
  unfold State.queueObs
  simp only
  split
  · rename_i full
    simp only [full, decide_true, Bool.or_true]
    rfl
  · rename_i room
    simp only [room, decide_false, Bool.or_false]
    rfl

/-! ### The block -/

/-- The node once a block of the value `v` has its residual: the cycle's flags gathered, G_ref set (R69, R70). -/
def State.valued (s : State) (f : Fixed) (v : Int) (clamped : Bool) : State :=
  { s with
    ctl := { s.ctl with flags := { s.ctl.flags with
      thermal := s.ctl.flags.thermal || f.thermal, clamped := s.ctl.flags.clamped || clamped } }
    eng := { s.eng with gRef := some (s.eng.gRef.getD v) } }

/-- The sample that a block of residual `r` places. -/
def State.blockSample (s : State) (f : Fixed) (r : Int) (jump clamped : Bool) : Sample :=
  { seq := s.eng.obsCounter + 1, mid := f.mid, residual := r, epoch := s.eng.epoch, jump := jump, clamped := clamped
    amended := false }

/-- What OBS production does with the home series' answer. -/
def State.placeObs (s : State) (answer : Option HomeSeries) (f : Fixed) (r : Int) (jump clamped : Bool) : State :=
  match answer with
  | none => s.latch latchSeriesMalformed
  | some h =>
    (s.setEng { s.eng with
      home := h, obsCounter := s.eng.obsCounter + 1, latestObs := s.eng.obsCounter + 1
      firstObs := s.eng.firstObs.or (some (s.eng.obsCounter + 1)), lastObs := some (s.eng.obsCounter + 1) }).queueObs
        { series := s.ctl.occNumber % 65536, seq := s.eng.obsCounter + 1, mid := f.mid, residual := r, epoch := s.eng.epoch
          flags := BitVec.ofNat 8 (obsFlagBits jump clamped) }

section

variable {s : State} {b : Sums} {f : Fixed} {r : Int} {jump clamped : Bool}

/-- OBS production, by what the home series answers. -/
theorem State.produceObs_eq (fixed : f = fixedTerms s.image b)
    (residual : clampResidual (rawResidual s.eng.gRef f.blockValue).1 = r)
    (clamp : decide (r ≠ (rawResidual s.eng.gRef f.blockValue).1) = clamped)
    (jumps : s.eng.home.jumps (s.ctl.occNumber % 65536) r s.homeCfg.stepLimit = jump) :
    s.produceObs b = (s.valued f f.blockValue clamped).placeObs
      (s.eng.home.place (s.ctl.occNumber % 65536) (s.blockSample f r jump clamped)) f r jump clamped := by
  subst fixed residual clamp jumps
  rw [State.valued, ← rawResidual_gRef]
  unfold State.produceObs
  rfl

end

/-- The residual of a kept block: 0 for the first of the cycle, the clamped difference from G_ref for a later one (R69, R70). -/
theorem residual_eq (gRef : Option Int) (v : Int) :
    clampResidual (rawResidual gRef v).1 = gRef.elim 0 fun g => max (-2000000000) (min 2000000000 (v - g)) := by
  cases gRef with
  | none => exact clampResidual_eq 0
  | some g => exact clampResidual_eq (v - g)

/-- The flags of an OBS, JUMP in bit 0 and CLAMPED in bit 1 (R197). -/
theorem obsFlagBits_eq (jump clamped : Bool) : obsFlagBits jump clamped = (if jump then 1 else 0) + if clamped then 2 else 0 := by
  cases jump <;> cases clamped <;> rfl

/-- Settles O17: OBS production turns on the home series' answer, which is a refusal exactly for a mid-time not above that of
the latest sample of the same series. -/
theorem baseBlockObs : Obligations.BaseBlockObs := by
  rintro s s1 b fx v r series jump clamped fixed rfl rfl residual rfl rfl rfl
  have residual : clampResidual (rawResidual s.eng.gRef fx.blockValue).1 = r := by
    rw [residual, residual_eq]
    cases s.eng.gRef <;> rfl
  have clamp := residual_clamped s.eng.gRef fx.blockValue
  rw [residual] at clamp
  have produced := State.produceObs_eq fixed residual clamp (HomeSeries.jumps_eq ..)
  refine ⟨fun same late => ?_, fun later => ?_⟩
  · rw [produced, HomeSeries.place_refused same late]
    rfl
  · rw [produced, HomeSeries.place_taken later, State.placeObs, State.queueObs_eq, obsFlagBits_eq]
    rfl

end Sys2Proof.Machine
end

