-- ==== Sys2Proof/Proofs/TransmitQueue.lean ====
section
/-! PROOF. The transmit queue keeps its shape (R80, R82, R84 to R86): the records in flight stand at its head, at most 5 of them;
it holds at most 16 records and at most one REV. One lemma per change of the queue. -/

namespace Sys2Proof.Machine

/-- A revision leaves whether an item is in flight and whether its record is an OBS (R86). -/
theorem TxItem.inFlight_revise (fromSeq : Nat) (step : Int) (epoch : Nat) (i : TxItem) :
    (i.revise fromSeq step epoch).inFlight = i.inFlight := by
  unfold TxItem.revise
  split
  · split <;> rfl
  · rfl

theorem TxItem.isObs_revise (fromSeq : Nat) (step : Int) (epoch : Nat) (i : TxItem) :
    (i.revise fromSeq step epoch).record.isObs = i.record.isObs := by
  unfold TxItem.revise
  split
  · rename_i o record
    split <;> simp [record, PeerRecord.isObs]
  · rfl

/-- How many REV records a queue holds. -/
def revCount (q : List TxItem) : Nat := q.countP fun i => !i.record.isObs

/-- A queue of a sound shape, by its part in flight and the rest. -/
structure QueueParts (q a b : List TxItem) : Prop where
  parts : q = a ++ b
  short : q.length ≤ 16
  flying : ∀ i ∈ a, i.inFlight = true
  few : a.length ≤ 5
  resting : ∀ i ∈ b, i.inFlight = false
  single : revCount q ≤ 1

namespace QueueParts

variable {q a b : List TxItem}

theorem takeWhile (h : QueueParts q a b) : q.takeWhile TxItem.inFlight = a := by
  rw [h.parts, List.takeWhile_append_of_pos h.flying, List.takeWhile_eq_nil_iff.mpr, List.append_nil]
  intro hb
  simp [h.resting _ (List.getElem_mem hb)]

theorem dropWhile (h : QueueParts q a b) : q.dropWhile TxItem.inFlight = b := by
  have whole := List.takeWhile_append_dropWhile (p := TxItem.inFlight) (l := q)
  rw [h.takeWhile] at whole
  exact List.append_cancel_left (whole.trans h.parts)

/-- The shape of the transmit queue as `TransmitQueueSound` has it. -/
theorem transmitQueueSound_iff (s : State) : TransmitQueueSound s ↔ ∃ a b, QueueParts s.link.txq a b := by
  constructor
  · rintro ⟨short, few, resting, single⟩
    refine ⟨s.link.txq.takeWhile TxItem.inFlight, s.link.txq.dropWhile TxItem.inFlight,
      List.takeWhile_append_dropWhile.symm, short, fun i hi => ?_, few, resting, ?_⟩
    · exact List.all_eq_true.mp List.all_takeWhile i hi
    · rw [revCount, List.countP_eq_length_filter]
      exact single
  · rintro ⟨a, b, h⟩
    refine ⟨h.short, ?_, ?_, ?_⟩
    · rw [h.takeWhile]
      exact h.few
    · rw [h.dropWhile]
      exact h.resting
    · rw [← List.countP_eq_length_filter]
      exact h.single

theorem revCount_append (q q' : List TxItem) : revCount (q ++ q') = revCount q + revCount q' := List.countP_append

/-- What leaves a queue leaves no more REV records in it. -/
theorem revCount_sublist {q q' : List TxItem} (h : q'.Sublist q) : revCount q' ≤ revCount q := h.countP_le

/-- A change of the items that leaves each record an OBS or a REV as it was. -/
theorem revCount_map {f : TxItem → TxItem} (kind : ∀ i, (f i).record.isObs = i.record.isObs) (q : List TxItem) :
    revCount (q.map f) = revCount q := by
  unfold revCount
  rw [List.countP_map]
  refine List.countP_congr fun i _ => ?_
  simp [kind]

/-- At a full queue an OBS that is not in flight gives way (R84, R85): at most 5 of 16 are in flight and at most one is a REV. -/
theorem dropOldestObs (h : QueueParts q a b) (full : 16 ≤ q.length) :
    ∃ b', Machine.dropOldestObs q = a ++ b' ∧ b'.Sublist b ∧ b'.length + 1 = b.length := by
  have long : 2 ≤ b.length := by
    have := h.few
    have := congrArg List.length h.parts
    simp only [List.length_append] at this
    omega
  have obs : ∃ i ∈ b, (i.record.isObs && !i.inFlight) = true := by
    by_contra none
    have revs : revCount b = b.length := List.countP_eq_length.mpr fun i hi => by
      have := not_exists.mp none i
      simpa [hi, h.resting i hi] using this
    have single := h.single
    rw [h.parts, revCount_append] at single
    omega
  obtain ⟨i, hi, isObs⟩ := obs
  refine ⟨b.eraseP fun i => i.record.isObs && !i.inFlight, ?_, List.eraseP_sublist, ?_⟩
  · rw [Machine.dropOldestObs, h.parts, List.eraseP_append_right]
    intro j hj
    simp [h.flying j hj]
  · rw [List.length_eraseP_of_mem hi isObs]
    omega

/-- Room is made at a full queue (R84, R85). -/
theorem roomMade (h : QueueParts q a b) : ∃ b', (if q.length < 16 then q else Machine.dropOldestObs q) = a ++ b'
    ∧ b'.Sublist b ∧ (a ++ b').length ≤ 15 := by
  split
  · exact ⟨b, h.parts, List.Sublist.refl b, by rw [← h.parts]; omega⟩
  · obtain ⟨b', dropped, sub, len⟩ := h.dropOldestObs (by omega)
    refine ⟨b', dropped, sub, ?_⟩
    have short := h.short
    rw [h.parts] at short
    simp only [List.length_append] at short ⊢
    omega

/-- An OBS joins the queue (R84). -/
theorem appendObs (h : QueueParts q a b) (o : Obs) : ∃ b', QueueParts (Machine.appendObs q o) a b' := by
  obtain ⟨b', made, sub, len⟩ := h.roomMade
  refine ⟨b' ++ [{ record := .obs o, inFlight := false }], ?_, ?_, h.flying, h.few, ?_, ?_⟩
  · rw [Machine.appendObs, made, List.append_assoc]
  · rw [Machine.appendObs, made, List.length_append, List.length_singleton]
    omega
  · intro i hi
    rcases List.mem_append.mp hi with hi | hi
    · exact h.resting i (sub.subset hi)
    · rw [List.mem_singleton.mp hi]
  · have single := h.single
    have fewer := revCount_sublist sub
    rw [h.parts, revCount_append] at single
    rw [Machine.appendObs, made, revCount_append, revCount_append]
    have : revCount [{ record := .obs o, inFlight := false }] = 0 := rfl
    omega

/-- A REV is placed behind the records in flight, in a queue that holds none (R85, R121). -/
theorem placeRev (h : QueueParts q a b) (none : revCount q = 0) (r : Rev) : ∃ b', QueueParts (Machine.placeRev q r) a b' := by
  obtain ⟨b', made, sub, len⟩ := h.roomMade
  have made' : QueueParts (a ++ b') a b' := by
    refine ⟨rfl, by omega, h.flying, h.few, fun i hi => h.resting i (sub.subset hi), ?_⟩
    have single := h.single
    have fewer := revCount_sublist sub
    rw [h.parts, revCount_append] at single
    rw [revCount_append]
    omega
  have placed : Machine.placeRev q r = a ++ { record := .rev r, inFlight := false } :: b' := by
    rw [Machine.placeRev]
    simp only [made]
    rw [made'.takeWhile, made'.dropWhile]
  refine ⟨{ record := .rev r, inFlight := false } :: b', placed, ?_, h.flying, h.few, ?_, ?_⟩
  · rw [placed]
    simp only [List.length_append, List.length_cons] at len ⊢
    omega
  · intro i hi
    rcases List.mem_cons.mp hi with rfl | hi
    · rfl
    · exact h.resting i (sub.subset hi)
  · have fewer := revCount_sublist sub
    rw [h.parts, revCount_append] at none
    rw [placed, revCount_append]
    have : revCount ({ record := .rev r, inFlight := false } :: b') = revCount b' + 1 := by simp [revCount, PeerRecord.isObs]
    omega

/-- The queued OBS are revised (R86, R122). -/
theorem revise (h : QueueParts q a b) (fromSeq : Nat) (step : Int) (epoch : Nat) :
    QueueParts (q.map (TxItem.revise fromSeq step epoch)) (a.map (TxItem.revise fromSeq step epoch))
      (b.map (TxItem.revise fromSeq step epoch)) := by
  refine ⟨by rw [h.parts, List.map_append], by simpa using h.short, ?_, by simpa using h.few, ?_, ?_⟩
  · intro i hi
    obtain ⟨j, hj, rfl⟩ := List.mem_map.mp hi
    rw [TxItem.inFlight_revise, h.flying j hj]
  · intro i hi
    obtain ⟨j, hj, rfl⟩ := List.mem_map.mp hi
    rw [TxItem.inFlight_revise, h.resting j hj]
  · rw [revCount_map (TxItem.isObs_revise _ _ _)]
    exact h.single

/-- The oldest record in flight leaves (R82). -/
theorem recordSent (h : QueueParts q a b) : ∃ a', QueueParts (q.eraseP TxItem.inFlight) a' b := by
  have short : (q.eraseP TxItem.inFlight).length ≤ 16 := List.eraseP_sublist.length_le.trans h.short
  have single : revCount (q.eraseP TxItem.inFlight) ≤ 1 := (revCount_sublist List.eraseP_sublist).trans h.single
  refine ⟨a.eraseP TxItem.inFlight, ?_, short, fun i hi => h.flying i (List.mem_of_mem_eraseP hi), ?_, h.resting, single⟩
  · rw [h.parts]
    cases a with
    | nil => exact List.eraseP_of_forall_not fun i hi => by simp [h.resting i hi]
    | cons x a => simp [h.flying x (by simp)]
  · exact List.eraseP_sublist.length_le.trans h.few

/-- What was in flight has left at the end of a burst (R82). -/
theorem burstEnd (h : QueueParts q a b) : QueueParts (q.filter fun i => !i.inFlight) [] b := by
  have rest : (q.filter fun i => !i.inFlight) = b := by
    rw [h.parts, List.filter_append, List.filter_eq_nil_iff.mpr fun i hi => by simp [h.flying i hi], List.nil_append,
      List.filter_eq_self.mpr fun i hi => by simp [h.resting i hi]]
  exact ⟨rest, (List.length_filter_le ..).trans h.short, by simp, by simp, h.resting,
    (revCount_sublist List.filter_sublist).trans h.single⟩

/-- An abandoned burst leaves nothing in flight (R94). -/
theorem abandonBurst (h : QueueParts q a b) :
    QueueParts (q.map fun i => { i with inFlight := false }) [] (q.map fun i => { i with inFlight := false }) := by
  refine ⟨rfl, by simpa using h.short, by simp, by simp, ?_, ?_⟩
  · intro i hi
    obtain ⟨j, -, rfl⟩ := List.mem_map.mp hi
    rfl
  · rw [revCount_map (f := fun i : TxItem => { i with inFlight := false }) fun _ => rfl]
    exact h.single

/-- A burst's records are marked in flight (R80). -/
theorem markInFlight (h : QueueParts q a b) {k : Nat} (few : k ≤ 5) : ∃ a' b', QueueParts (Machine.markInFlight k q) a' b' := by
  refine ⟨(q.take k).map (fun i => { i with inFlight := true }) ++ a.drop k, b.drop (k - a.length), ?_, ?_, ?_, ?_, ?_, ?_⟩
  · rw [Machine.markInFlight, List.append_assoc, ← List.drop_append, ← h.parts]
  · rw [Machine.markInFlight, List.length_append, List.length_map, ← List.length_append, List.take_append_drop]
    exact h.short
  · intro i hi
    rcases List.mem_append.mp hi with hi | hi
    · obtain ⟨j, -, rfl⟩ := List.mem_map.mp hi
      rfl
    · exact h.flying i (List.mem_of_mem_drop hi)
  · have := h.few
    simp only [List.length_append, List.length_map, List.length_take, List.length_drop]
    omega
  · exact fun i hi => h.resting i (List.mem_of_mem_drop hi)
  · rw [Machine.markInFlight, revCount_append,
      revCount_map (f := fun i : TxItem => { i with inFlight := true }) fun _ => rfl, ← revCount_append, List.take_append_drop]
    exact h.single

end QueueParts

end Sys2Proof.Machine
end

