-- ==== Sys2Proof/Proofs/StoreBounds.lean ====
section
/-! PROOF. The stores keep within their capacities: the peer table 8 entries, each ring and the home series 128 samples
(R97, R106, R120). One lemma per change of a store. -/

namespace Sys2Proof.Machine

/-! ### The home series (R120, R122) -/

theorem HomeSeries.place_length {h h' : HomeSeries} {series : Nat} {x : Sample} (short : h.samples.length ≤ 128)
    (placed : h.place series x = some h') : h'.samples.length ≤ 128 := by
  unfold HomeSeries.place at placed
  split at placed
  · split at placed
    · cases placed
      simp only [List.length_append, List.length_singleton]
      split
      · omega
      · simp only [List.length_tail]
        omega
    · cases placed
  · cases placed
    simp

/-! ### The rings (R105, R106) -/

/-- Every ring within its capacity (R106). -/
def Rings.Bounded (x : Rings) : Prop := ∀ n, (x.get n).samples.length ≤ 128

theorem Rings.bounded_iff (x : Rings) : x.Bounded ↔ x.r0.samples.length ≤ 128 ∧ x.r1.samples.length ≤ 128
    ∧ x.r2.samples.length ≤ 128 ∧ x.r3.samples.length ≤ 128 :=
  ⟨fun h => ⟨h .r0, h .r1, h .r2, h .r3⟩, fun ⟨h0, h1, h2, h3⟩ n => by cases n <;> assumption⟩

theorem Rings.get_put (x : Rings) (n : RingNo) (r : Ring) (m : RingNo) :
    (x.put n r).get m = if m = n then r else x.get m := by cases n <;> cases m <;> rfl

theorem Rings.Bounded.put {x : Rings} (h : x.Bounded) (n : RingNo) {r : Ring} (short : r.samples.length ≤ 128) :
    (x.put n r).Bounded := by
  intro m
  rw [get_put]
  split
  · exact short
  · exact h m

theorem Rings.Bounded.free {x : Rings} (h : x.Bounded) (ring : Option RingNo) : (x.free ring).Bounded := by
  cases ring with
  | none => exact h
  | some n => exact h.put n (Nat.zero_le _)

theorem allocate_bounded {x : Rings} (h : x.Bounded) (e : PeerEntry) : (allocate x e).1.Bounded := by
  unfold allocate
  split
  · split
    · exact h.put _ (Nat.zero_le _)
    · exact h
  · exact h

/-! ### A record folded into a ring (R109 to R113) -/

theorem placeSample_length (x : Sample) (l : List Sample) : (placeSample x l).length ≤ l.length + 1 := by
  have whole := List.length_eq_countP_add_countP (fun y : Sample => decide (y.seq < x.seq)) (l := l)
  have above : l.countP (fun y => x.seq < y.seq) ≤ l.countP fun y => decide ¬decide (y.seq < x.seq) = true :=
    List.countP_mono_left fun y _ hy => by
      simp only [decide_eq_true_eq] at hy ⊢
      omega
  rw [List.countP_eq_length_filter, List.countP_eq_length_filter] at above
  rw [List.countP_eq_length_filter, List.countP_eq_length_filter] at whole
  simp only [placeSample, List.length_append, List.length_cons]
  omega

theorem Folding.place_length {f : Folding} (short : f.samples.length ≤ 128) (x : Sample) : (f.place x).samples.length ≤ 128 := by
  have placed := placeSample_length x f.samples
  unfold Folding.place
  split
  · exact short
  · split
    · exact short
    · split
      · exact short
      · split
        · simp only
          omega
        · simp only [List.length_tail]
          omega

theorem Folding.seriesCheck_length {f : Folding} (short : f.samples.length ≤ 128) (series epoch : Nat) :
    (f.seriesCheck series epoch).1.samples.length ≤ 128 := by
  unfold Folding.seriesCheck
  split
  · exact short
  · split
    · exact short
    · split
      · exact short
      · exact Nat.zero_le _

theorem Folding.takeObs_length {f : Folding} (short : f.samples.length ≤ 128) (o : Obs) :
    (f.takeObs o).samples.length ≤ 128 := by
  unfold Folding.takeObs
  simp only
  split
  · exact place_length short _
  · split
    · exact place_length (Nat.zero_le _) _
    · split
      · split
        · split
          · exact short
          · split
            · exact place_length short _
            · exact place_length short _
        · exact short
      · exact short

theorem Folding.takeRev_length {f : Folding} (short : f.samples.length ≤ 128) (r : Rev) :
    (f.takeRev r).samples.length ≤ 128 := by
  unfold Folding.takeRev
  simp only
  split
  · exact short
  · split
    · simpa using short
    · exact Nat.zero_le _

theorem Folding.take_length {f : Folding} (short : f.samples.length ≤ 128) (r : PeerRecord) :
    (f.take r).samples.length ≤ 128 := by
  cases r with
  | obs o =>
    simp only [Folding.take]
    split
    · exact short
    · split
      · exact takeObs_length (seriesCheck_length short ..) o
      · exact seriesCheck_length short ..
  | rev r =>
    simp only [Folding.take]
    split
    · exact short
    · split
      · exact takeRev_length (seriesCheck_length short ..) r
      · exact seriesCheck_length short ..

/-! ### The peer table (R97) -/

/-- The peer table and its rings within their capacities (R97, R106). -/
structure PeerTable.Bounded (t : PeerTable) : Prop where
  entries : t.entries.length ≤ 8
  rings : t.rings.Bounded

namespace PeerTable.Bounded

variable {t : PeerTable}

theorem replace (h : t.Bounded) (e : PeerEntry) : (t.replace e).Bounded := ⟨by simpa [PeerTable.replace] using h.entries, h.rings⟩

theorem withRings (h : t.Bounded) {x : Rings} (short : x.Bounded) : PeerTable.Bounded { t with rings := x } :=
  ⟨h.entries, short⟩

theorem add (h : t.Bounded) (room : t.entries.length < 8) (e : PeerEntry) : (t.add e).Bounded :=
  ⟨by simpa [PeerTable.add] using room, h.rings⟩

end PeerTable.Bounded

/-- A HEAD taken: a new entry joins only where there is room (R98). -/
theorem State.takeHead_bounded {s : State} (hs : s.peers.Bounded) (e : PeerEntry) {before : Option PeerState} (h : Head)
    (room : before.isNone = true → s.peers.entries.length < 8) : (s.takeHead e before h).peers.Bounded := by
  have stored : ∀ a : Rings × PeerEntry, a.1.Bounded →
      (if before.isNone then PeerTable.add { s.peers with rings := a.1 } a.2
        else PeerTable.replace { s.peers with rings := a.1 } a.2).Bounded := by
    intro a short
    split
    · exact (hs.withRings short).add (room ‹_›) _
    · exact (hs.withRings short).replace _
  unfold State.takeHead
  simp only
  split <;> exact stored _ (allocate_bounded hs.rings _)

theorem State.judgeHead_bounded {s : State} (hs : s.peers.Bounded) (h : Head) : (s.judgeHead h).1.peers.Bounded := by
  unfold State.judgeHead
  split
  · exact hs
  · split
    · split
      · exact hs
      · exact takeHead_bounded hs _ h fun _ => by omega
    · have known : ∀ (e : PeerEntry) (x : PeerState), (s.takeHead e (some x) h).peers.Bounded := fun e x =>
        takeHead_bounded hs e h (by simp)
      split
      · exact hs
      · exact known ..
      · split
        · exact known ..
        · exact hs
      · split
        · exact known ..
        · exact hs

theorem countOne_bounded (w : State × List FoldChange) (e : PeerEntry) (hw : w.1.peers.Bounded) :
    (countOne w e).1.peers.Bounded := by
  unfold countOne
  simp only
  split <;> exact hw.replace _

theorem State.putFolding_bounded {s : State} (hs : s.peers.Bounded) (n : RingNo) {f : Folding} (short : f.samples.length ≤ 128) :
    (s.putFolding n f).peers.Bounded := by
  have put := (hs.replace f.entry).withRings (hs.rings.put n (r := { s.peers.rings.get n with samples := f.samples }) short)
  unfold State.putFolding
  simp only
  split <;> split <;> exact put

theorem foldRecord_bounded (w : State × List FoldChange) (x : Nat × PeerRecord) (hw : w.1.peers.Bounded) :
    (foldRecord w x).1.peers.Bounded := by
  unfold foldRecord
  split
  · exact hw
  · simp only
    split
    · exact hw.replace _
    · split
      · exact hw.replace _
      · exact State.putFolding_bounded hw _ (Folding.take_length (hw.rings _) _)

theorem foldl_bounded {α : Type} {f : State × List FoldChange → α → State × List FoldChange}
    (hf : ∀ w a, w.1.peers.Bounded → (f w a).1.peers.Bounded) (l : List α) (w : State × List FoldChange)
    (hw : w.1.peers.Bounded) : (l.foldl f w).1.peers.Bounded := by
  induction l generalizing w with
  | nil => exact hw
  | cons a l ih => exact ih _ (hf w a hw)

/-- The store's work at a cycle end (R100, R107). -/
theorem State.foldAll_bounded {s : State} (hs : s.peers.Bounded) (records : List (Nat × PeerRecord)) :
    (s.foldAll records).1.peers.Bounded :=
  foldl_bounded foldRecord_bounded records _ (foldl_bounded countOne_bounded s.peers.entries (s, []) hs)

end Sys2Proof.Machine
end

