-- ==== Sys2Proof/Proofs/LinkEvents.lean ====
section
/-! PROOF. What every event leaves of the peer link, the peer table and the home series, said once (`State.Carries`): KEY follows the
burst, the transmit queue keeps its shape, a burst start stays armed to an owned slot, no burst begins, and the stores keep within
their capacities. The burst start instant begins bursts and carries all else (`State.Confines`). -/

namespace Sys2Proof.Machine

/-! ### Changes of the link -/

/-- A burst start armed in node state `n` under schedule `c` is armed to an owned slot (R76, R78, R79, R94). -/
def PeerLink.Armed (c : Schedule) (n : NodeState) (l : PeerLink) : Prop :=
  ∀ x, l.burstAt = some x → n = .running ∧ ∃ a : Nat × Nat, l.inForce = some a ∧ c.txMask.getLsbD a.2 = true

theorem burstArmedOwned_iff (s : State) : BurstArmedOwned s ↔ s.link.Armed s.schedule s.node := Iff.rfl

/-- The QUIET count and the inbound queue within their capacities (R87, R92). -/
def PeerLink.Bounded (l : PeerLink) : Prop := l.quiet ≤ 255 ∧ l.inq.length ≤ 32

/-- A transmit queue of a sound shape. -/
def PeerLink.Queued (l : PeerLink) : Prop := ∃ a b, QueueParts l.txq a b

/-- A slot entered at its boundary arms a burst start where it is owned (R76). -/
theorem PeerLink.armed_enterSlot (l : PeerLink) (c : Schedule) (x : Nat) : (l.enterSlot c x).Armed c .running := by
  intro y hy
  refine ⟨rfl, c.slotOf x, rfl, ?_⟩
  by_contra unowned
  simp [PeerLink.enterSlot, Schedule.owns, inMask, unowned] at hy

/-- A slot joined at RUN or at a time step arms one where it is owned (R78, R94). -/
theorem PeerLink.armed_joinSlot (l : PeerLink) (c : Schedule) (t : Nat) : (l.joinSlot c t).Armed c .running := by
  intro y hy
  refine ⟨rfl, c.slotOf t, rfl, ?_⟩
  by_contra unowned
  simp [PeerLink.joinSlot, Schedule.owns, inMask, unowned] at hy

/-- A change of the link, in node state `n` under schedule `c`, that keeps what is kept of it and begins no burst. -/
structure PeerLink.Keeps (c : Schedule) (n : NodeState) (l l' : PeerLink) : Prop where
  key : l.key = l.burst.isSome → l'.key = l'.burst.isSome
  queue : l.Queued → l'.Queued
  armed : l.Armed c n → l'.Armed c n
  bounded : l.Bounded → l'.Bounded
  silent : l.burst = none → l'.burst = none

/-- The link but for the slot of the last burst, the receiver and its masks. -/
def PeerLink.sending (l : PeerLink) : PeerLink :=
  { l with lastBurst := none, rxMask := none, waitingMask := none, rx := .off, listenAt := none, rxBuf := [], closed := none }

namespace PeerLink.Keeps

variable {c : Schedule} {n : NodeState} {l l' l'' : PeerLink}

theorem of_sending (same : l'.sending = l.sending) : l.Keeps c n l' := by
  have key : l'.key = l.key := congrArg (·.key) same
  have burst : l'.burst = l.burst := congrArg (·.burst) same
  have burstAt : l'.burstAt = l.burstAt := congrArg (·.burstAt) same
  have inForce : l'.inForce = l.inForce := congrArg (·.inForce) same
  have txq : l'.txq = l.txq := congrArg (·.txq) same
  have quiet : l'.quiet = l.quiet := congrArg (·.quiet) same
  have inq : l'.inq = l.inq := congrArg (·.inq) same
  refine ⟨?_, ?_, ?_, ?_, ?_⟩
  · rw [key, burst]
    exact id
  · unfold Queued
    rw [txq]
    exact id
  · unfold Armed
    rw [burstAt, inForce]
    exact id
  · unfold Bounded
    rw [quiet, inq]
    exact id
  · rw [burst]
    exact id

theorem refl (l : PeerLink) : l.Keeps c n l := of_sending rfl

theorem trans (h : l.Keeps c n l') (h' : l'.Keeps c n l'') : l.Keeps c n l'' where
  key := h'.key ∘ h.key
  queue := h'.queue ∘ h.queue
  armed := h'.armed ∘ h.armed
  bounded := h'.bounded ∘ h.bounded
  silent := h'.silent ∘ h.silent

/-- A change of the transmit queue alone. -/
theorem setTxq {q : List TxItem} (h : l.Queued → ∃ a b, QueueParts q a b) : l.Keeps c n { l with txq := q } :=
  ⟨id, h, id, id, id⟩

theorem emptiesInbound (l : PeerLink) : l.Keeps c n { l with inq := [] } :=
  ⟨id, id, id, fun h => ⟨h.1, Nat.zero_le _⟩, id⟩

theorem takesInbound {x : Nat × PeerRecord} (room : l.inq.length < 32) : l.Keeps c n { l with inq := l.inq ++ [x] } :=
  ⟨id, id, id, fun h => ⟨h.1, by simpa using room⟩, id⟩

theorem quiets {m : Nat} (few : l.Bounded → m ≤ 255) : l.Keeps c n { l with quiet := m } :=
  ⟨id, id, id, fun h => ⟨few h, h.2⟩, id⟩

theorem disarms (l : PeerLink) : l.Keeps c n { l with burstAt := none } := ⟨id, id, fun _ _ h => (nomatch h), id, id⟩

theorem recordSent {b : Burst} (sending : l.burst = some b) : l.Keeps c n (l.recordSent b) where
  key h := by
    rw [sending] at h
    exact h
  queue := fun ⟨_, _, h⟩ => ⟨_, _, h.recordSent.choose_spec⟩
  armed := id
  bounded := id
  silent h := by simp [sending] at h

theorem burstEnd (l : PeerLink) : l.Keeps c n l.burstEnd :=
  ⟨fun _ => rfl, fun ⟨_, _, h⟩ => ⟨_, _, h.burstEnd⟩, id, id, fun _ => rfl⟩

theorem abandonBurst (l : PeerLink) : l.Keeps c n l.abandonBurst :=
  ⟨fun _ => rfl, fun ⟨_, _, h⟩ => ⟨_, _, h.abandonBurst⟩, id, id, fun _ => rfl⟩

theorem appendObs (l : PeerLink) (o : Obs) : l.Keeps c n { l with txq := appendObs l.txq o } :=
  setTxq fun ⟨_, _, h⟩ => ⟨_, _, (h.appendObs o).choose_spec⟩

theorem placeRev (none : revCount l.txq = 0) (r : Rev) : l.Keeps c n { l with txq := placeRev l.txq r } :=
  setTxq fun ⟨_, _, h⟩ => ⟨_, _, (h.placeRev none r).choose_spec⟩

theorem revise (l : PeerLink) (fromSeq : Nat) (step : Int) (epoch : Nat) :
    l.Keeps c n { l with txq := l.txq.map (TxItem.revise fromSeq step epoch) } :=
  setTxq fun ⟨_, _, h⟩ => ⟨_, _, h.revise ..⟩

theorem enterSlot (l : PeerLink) (x : Nat) : l.Keeps c .running (l.enterSlot c x) :=
  ⟨id, id, fun _ => armed_enterSlot l c x, id, id⟩

theorem joinSlot (l : PeerLink) (t : Nat) : l.Keeps c .running (l.joinSlot c t) :=
  ⟨id, id, fun _ => armed_joinSlot l c t, id, id⟩

theorem adoptMask (l : PeerLink) : l.Keeps c n l.adoptMask := by
  unfold PeerLink.adoptMask
  split
  · exact of_sending rfl
  · exact refl l

theorem setAside (l : PeerLink) (osc : Nat) : l.Keeps c n (l.setAside osc) := by
  unfold PeerLink.setAside
  split
  · exact of_sending rfl
  · exact refl l

theorem takeTbState (l : PeerLink) (after : TbState) : l.Keeps c n (l.takeTbState after) := by
  unfold PeerLink.takeTbState
  split
  · exact of_sending rfl
  · exact refl l

end PeerLink.Keeps

/-! ### Events -/

/-- An event that keeps what is kept of the link and the stores, and begins neither a burst nor an occupation. -/
structure State.Carries (s t : State) : Prop where
  image : t.image = s.image
  node : t.node = s.node
  number : t.ctl.occNumber = s.ctl.occNumber
  link : s.link.Keeps s.schedule s.node t.link
  peers : s.peers.Bounded → t.peers.Bounded
  home : s.eng.home.samples.length ≤ 128 → t.eng.home.samples.length ≤ 128

namespace State.Carries

variable {s t u : State}

theorem schedule (h : s.Carries t) : t.schedule = s.schedule := by
  unfold State.schedule
  rw [h.image]

theorem trans (h : s.Carries t) (h' : t.Carries u) : s.Carries u where
  image := h'.image.trans h.image
  node := h'.node.trans h.node
  number := h'.number.trans h.number
  link := h.link.trans (by
    have := h'.link
    rwa [h.schedule, h.node] at this)
  peers := h'.peers ∘ h.peers
  home := h'.home ∘ h.home

/-- Blocks other than the link, the peer table and the home series. -/
theorem of_same (image : t.image = s.image) (node : t.node = s.node) (link : t.link = s.link) (peers : t.peers = s.peers)
    (home : t.eng.home = s.eng.home) (number : t.ctl.occNumber = s.ctl.occNumber) : s.Carries t where
  image := image
  node := node
  number := number
  link := by
    rw [link]
    exact .refl _
  peers := by
    rw [peers]
    exact id
  home := by
    rw [home]
    exact id

theorem refl (s : State) : s.Carries s := of_same rfl rfl rfl rfl rfl rfl

theorem foldl {α : Type} {f : State → α → State} (hf : ∀ (s : State) a, s.Carries (f s a)) (l : List α) (s : State) :
    s.Carries (l.foldl f s) := by
  induction l generalizing s with
  | nil => exact refl s
  | cons a l ih => exact (hf s a).trans (ih _)

theorem ite {c : Prop} [Decidable c] (h : c → s.Carries t) : s.Carries (if c then t else s) := by
  split
  · exact h ‹_›
  · exact refl s

theorem setTb (s : State) (x : TimeBase) : s.Carries (s.setTb x) := of_same rfl rfl rfl rfl rfl rfl

theorem setIntake (s : State) (x : Intake) : s.Carries (s.setIntake x) := of_same rfl rfl rfl rfl rfl rfl

theorem setPort (s : State) (x : Port) : s.Carries (s.setPort x) := of_same rfl rfl rfl rfl rfl rfl

theorem setCtl (s : State) (x : Controller) (number : x.occNumber = s.ctl.occNumber := by rfl) : s.Carries (s.setCtl x) :=
  of_same rfl rfl rfl rfl rfl number

theorem setEng (s : State) (x : Engine) (home : x.home = s.eng.home := by rfl) : s.Carries (s.setEng x) :=
  of_same rfl rfl rfl rfl home rfl

theorem setLink {x : PeerLink} (h : s.link.Keeps s.schedule s.node x) : s.Carries (s.setLink x) :=
  ⟨rfl, rfl, rfl, h, id, id⟩

/-- The receiver and its masks alone. -/
theorem setReceiver {x : PeerLink} (same : x.sending = s.link.sending := by rfl) : s.Carries (s.setLink x) :=
  setLink (.of_sending same)

theorem setPeers {x : PeerTable} (h : s.peers.Bounded → x.Bounded) : s.Carries (s.setPeers x) :=
  ⟨rfl, rfl, rfl, .refl _, h, id⟩

/-- The home series replaced, with whatever else of the engine. -/
theorem setHome {x : Engine} (h : s.eng.home.samples.length ≤ 128 → x.home.samples.length ≤ 128) : s.Carries (s.setEng x) :=
  ⟨rfl, rfl, rfl, .refl _, id, h⟩

theorem served (h : s.Carries t) : s.Carries t.serve := h.trans (setPort t _)

theorem replied (h : s.Replied t) : s.Carries t := by
  obtain ⟨p, rfl, -⟩ := h
  exact setPort s p

/-! ### The reduction engine and the transmit queue -/

theorem engineEvent (s : State) (f : Work → Work) : s.Carries (s.engineEvent f) := by
  rw [State.engineEvent_eq]
  exact (setEng s _).trans (setPort _ _)

theorem foldEvent (s : State) (report : List FoldChange) : s.Carries (s.foldEvent report) := engineEvent s _

theorem reselectEvent (s : State) : s.Carries s.reselectEvent := engineEvent s _

theorem expireEvent (s : State) (occs : List Nat) : s.Carries (s.expireEvent occs) := engineEvent s _

theorem finishEvent (s : State) : s.Carries s.finishEvent := engineEvent s _

theorem queueRev (none : revCount s.link.txq = 0) (r : Rev) : s.Carries (s.queueRev r) := by
  obtain ⟨p, h⟩ := s.queueRev_frame r
  rw [h]
  exact (setLink (.placeRev none r)).trans (setPort _ p)

theorem queueObs (s : State) (o : Obs) : s.Carries (s.queueObs o) := by
  obtain ⟨p, h⟩ := s.queueObs_frame o
  rw [h]
  exact (setLink (.appendObs _ o)).trans (setPort _ p)

theorem placeObs (s : State) {answer : Option HomeSeries} (f : Fixed) (r : Int) (jump clamped : Bool)
    (short : ∀ h ∈ answer, s.eng.home.samples.length ≤ 128 → h.samples.length ≤ 128) :
    s.Carries (s.placeObs answer f r jump clamped) := by
  unfold State.placeObs
  split
  · exact setPort s _
  · exact (setHome (short _ rfl)).trans (queueObs ..)

theorem produceObs (s : State) (sums : Sums) : s.Carries (s.produceObs sums) := by
  rw [State.produceObs_eq rfl rfl rfl rfl]
  have valued : ∀ (f : Fixed) (v : Int) (clamped : Bool), s.Carries (s.valued f v clamped) := fun _ _ _ =>
    of_same rfl rfl rfl rfl rfl rfl
  exact (valued _ _ _).trans (placeObs _ _ _ _ _ fun h placed short => HomeSeries.place_length short placed)

/-- REREF, with no REV in the queue, as its refusals have it (R121). -/
theorem reref (none : revCount s.link.txq = 0) (fromSeq : Nat) (step : Int) : s.Carries (s.reref fromSeq step) := by
  unfold State.reref
  simp only
  refine trans (setHome ?_) (trans (setLink (.revise ..)) (queueRev ?_ _))
  · simp
  · rw [State.setLink_link, QueueParts.revCount_map (TxItem.isObs_revise _ _ _)]
    exact none

/-! ### Slots and cycles -/

theorem foldAll (s : State) (records : List (Nat × PeerRecord)) : s.Carries (s.foldAll records).1 := by
  obtain ⟨t, p, h⟩ := s.foldAll_frame records
  have bounded := State.foldAll_bounded (s := s) (records := records)
  rw [h] at bounded ⊢
  exact (setPeers bounded).trans (setPort _ p)

theorem cycleEnd (s : State) : s.Carries s.cycleEnd :=
  (setLink (.emptiesInbound _)).trans ((foldAll _ _).trans (foldEvent _ _))

theorem cycleStart (s : State) : s.Carries s.cycleStart :=
  (cycleEnd s).trans (setLink (.trans (.setAside ..) (.adoptMask _)))

theorem takeBoundary (running : s.node = .running) (x : Nat) : s.Carries (s.takeBoundary x) := by
  have entered : ∀ u : State, s.Carries u → s.Carries (u.setLink (u.link.enterSlot u.schedule x)) := by
    intro u h
    refine h.trans (setLink ?_)
    rw [h.node, running]
    exact .enterSlot ..
  unfold State.takeBoundary
  simp only
  split
  · exact entered _ (cycleStart s)
  · exact entered _ (refl s)

theorem stepAtLink (s : State) : s.Carries s.stepAtLink := by
  unfold State.stepAtLink
  split
  · rename_i running
    have joined : ∀ u : State, s.Carries u → s.Carries (u.setLink (u.link.joinSlot u.schedule u.tb.nodeTime)) := by
      intro u h
      refine h.trans (setLink ?_)
      rw [h.node, running]
      exact .joinSlot ..
    have abandoned : s.Carries (s.setLink s.link.abandonBurst) := setLink (.abandonBurst _)
    simp only
    split
    · exact joined _ abandoned
    · exact joined _ (abandoned.trans (cycleStart _))
  · exact refl s

/-! ### The receiver and the peer table -/

theorem judgeHead (s : State) (h : Head) : s.Carries (s.judgeHead h).1 := by
  have bounded := fun hs : s.peers.Bounded => State.judgeHead_bounded hs h
  rw [State.judgeHead_frame]
  exact (setPeers bounded).trans (setPort _ _)

theorem receiveHead (s : State) (bytes : List Byte) : s.Carries (s.receiveHead bytes) := by
  unfold State.receiveHead
  split
  · exact setReceiver
  · exact (judgeHead s _).trans setReceiver

theorem enqueueInbound (s : State) (sender : Nat) (r : PeerRecord) : s.Carries (s.enqueueInbound sender r) := by
  unfold State.enqueueInbound
  split
  · exact setLink (.takesInbound ‹_›)
  · exact setPort s _

theorem receiveRecord (s : State) (sender : Nat) (take : Bool) (toCome : Nat) (bytes : List Byte) :
    s.Carries (s.receiveRecord sender take toCome bytes) := by
  unfold State.receiveRecord
  simp only
  split
  · split
    · exact trans setReceiver (enqueueInbound ..)
    · exact setReceiver
  · exact setReceiver

theorem receive (n : Nat) (s : State) : s.Carries (State.receive n s) := by
  induction n generalizing s with
  | zero => exact refl s
  | succ n ih =>
    unfold State.receive
    simp only
    split
    · exact setReceiver
    · exact setReceiver
    · split
      · exact refl s
      · exact trans setReceiver ((receiveHead ..).trans (ih _))
    · split
      · exact refl s
      · exact trans setReceiver ((receiveRecord ..).trans (ih _))

theorem hear (s : State) (bytes : List Byte) : s.Carries (s.hear bytes) := trans setReceiver (receive _ _)

theorem peerBytes (s : State) (bytes : List Byte) : s.Carries (s.peerBytes bytes) := by
  unfold State.peerBytes
  split
  · exact hear ..
  · split
    · exact (trans setReceiver (hear _ bytes)).trans setReceiver
    · exact hear ..

theorem peerChanged (s : State) (before : Option PeerState) (e : PeerEntry) : s.Carries (s.peerChanged before e) :=
  setPort s _

theorem dropEntry (s : State) (e : PeerEntry) : s.Carries (s.dropEntry e) :=
  (setPeers fun hs => (hs.replace _).withRings (hs.rings.free _)).trans ((peerChanged _ _ _).trans (reselectEvent _))

theorem restoreEntry (s : State) (e : PeerEntry) : s.Carries (s.restoreEntry e) :=
  (setPeers fun hs => hs.replace _).trans ((peerChanged _ _ _).trans (reselectEvent _))

/-! ### The occupation controller -/

theorem handOff (s : State) (h : HandOff) : s.Carries (s.handOff h) := by
  unfold State.handOff
  split
  · exact setEng s _
  · split
    · exact setEng s _
    · exact engineEvent s _

theorem endOccupation (s : State) (reason : Option AbortReason) (flag : RecordFlags → RecordFlags) (endTime : Nat) :
    s.Carries (s.endOccupation reason flag endTime) := by
  unfold State.endOccupation
  simp only
  refine (setIntake s _).trans (trans (setCtl _ _) (trans (setPort _ _) (trans (handOff _ _) (trans (setEng _ _) (setCtl _ _)))))

theorem openIntake (s : State) (mode : ContMode) (first : Bool) : s.Carries (s.openIntake mode first) :=
  (setIntake s _).trans (setCtl _ _)

theorem settleIfDue (s : State) : s.Carries s.settleIfDue := by
  unfold State.settleIfDue
  exact ite fun _ => openIntake ..

theorem endStopped (s : State) : s.Carries s.endStopped := by
  unfold State.endStopped
  split <;> exact endOccupation ..

theorem sensorLost (s : State) : s.Carries s.sensorLost := by
  unfold State.sensorLost
  split
  · exact refl s
  · split <;> exact endOccupation ..

theorem afterKept (s : State) (endTime : Nat) : s.Carries (s.afterKept endTime) := by
  unfold State.afterKept
  split
  · exact endOccupation ..
  · exact ite fun _ => setCtl s _

theorem countKept (s : State) (b : BlockReport) : s.Carries (s.countKept b) := by
  unfold State.countKept
  simp only
  split
  · exact (setCtl s _).trans (produceObs _ _)
  · exact setCtl s _

theorem endNoisy (s : State) (endTime : Nat) : s.Carries (s.endNoisy endTime) := by
  unfold State.endNoisy
  split <;> exact endOccupation ..

theorem countDiscarded (s : State) (b : BlockReport) : s.Carries (s.countDiscarded b) := by
  unfold State.countDiscarded
  simp only
  split
  · exact (setCtl s _).trans (endNoisy _ _)
  · exact setCtl s _

theorem takeReport (s : State) (b : BlockReport) : s.Carries (s.takeReport b) := by
  unfold State.takeReport
  split
  · exact refl s
  · split
    · exact (countKept s b).trans (afterKept _ _)
    · exact countDiscarded s b

theorem amendWith (s : State) (staged : Header) : s.Carries (s.amendWith staged) := by
  unfold State.amendWith
  simp only
  split
  · exact (setCtl s _).trans (settleIfDue _)
  · split
    · exact (setCtl s _).trans (endOccupation ..)
    · exact setCtl s _

theorem takeSensorFrame (s : State) (f : Frame) : s.Carries (s.takeSensorFrame f) :=
  (setIntake s _).trans (foldl takeReport _ _)

theorem sensorBytes (s : State) (bytes : List Byte) : s.Carries (s.sensorBytes bytes) :=
  (setIntake s _).trans (foldl takeSensorFrame _ _)

theorem takeSilence (s : State) : s.Carries s.takeSilence := by
  unfold State.takeSilence
  simp only
  split
  · exact (setIntake s _).trans (sensorLost _)
  · split
    · exact (setIntake s _).trans (sensorLost _)
    · exact setIntake s _

/-! ### The time base and a time step's deliveries -/

theorem suspect (s : State) : s.Carries (s.setCtl s.ctl.suspect) := by
  obtain ⟨-, -, number⟩ := State.Still.suspect s.ctl
  exact setCtl s _ number

theorem stepAtController (s : State) : s.Carries s.stepAtController := by
  unfold State.stepAtController
  simp only
  split
  · exact (suspect s).trans (endOccupation ..)
  · exact (suspect s).trans (settleIfDue _)

theorem stepAtEngine (s : State) : s.Carries s.stepAtEngine := by
  unfold State.stepAtEngine
  split
  · exact refl s
  · exact expireEvent ..

theorem deliverStep (s : State) : s.Carries s.deliverStep := by
  have each : ∀ f ∈ s.inFreeOrder [State.stepAtController, State.stepAtEngine, State.stepAtLink],
      ∀ u : State, u.Carries (f u) := by
    intro f hf
    rcases (by simpa using (s.inFreeOrder_perm _).mem_iff.mp hf) with rfl | rfl | rfl
    · exact stepAtController
    · exact stepAtEngine
    · exact stepAtLink
  have fold : ∀ fs : List (State → State), (∀ f ∈ fs, ∀ u : State, u.Carries (f u)) → ∀ u : State,
      u.Carries (fs.foldl (fun u f => f u) u) := by
    intro fs
    induction fs with
    | nil => exact fun _ u => refl u
    | cons f fs ih => exact fun h u => (h f (by simp) u).trans (ih (fun g hg => h g (by simp [hg])) _)
  exact trans (t := s.drawn) (of_same rfl rfl rfl rfl rfl rfl) (fold _ each _)

theorem changeTb (s : State) (after : TbState) (step : Int) : s.Carries (s.changeTb after step) := by
  obtain ⟨-, -, number⟩ := State.Still.suspect s.ctl
  rw [State.changeTb_eq]
  refine (setTb s _).trans (trans (setLink (.takeTbState _ after)) (trans (setCtl _ _ ?_) (setPort _ _)))
  split
  · exact number
  · rfl

theorem relock (s : State) (a : ArmedRecord) : s.Carries (s.relock a) := by
  unfold State.relock
  simp only
  split
  · exact (setTb s _).trans (changeTb ..)
  · exact (setTb s _).trans ((setTb _ _).trans ((changeTb ..).trans (deliverStep _)))

theorem takePulse (s : State) : s.Carries s.takePulse := by
  have pulse : ∀ (u : State) a, u.Carries (u.pulseWith a) := by
    intro u a
    unfold State.pulseWith
    split
    · exact ite fun _ => (setTb u _).trans (changeTb ..)
    · exact ite fun _ => setTb u _
    · split
      · exact relock u a
      · exact changeTb ..
    · exact ite fun _ => relock u a
  unfold State.takePulse
  simp only
  split
  · exact setTb s _
  · split
    · exact setTb s _
    · exact (setTb s _).trans (pulse _ _)

theorem takeTimeRecord (s : State) (second : Nat) (valid : Bool) : s.Carries (s.takeTimeRecord second valid) := by
  unfold State.takeTimeRecord
  split
  · exact setTb s _
  · split
    · exact refl s
    · exact setTb s _

theorem takeRangeEnd (s : State) : s.Carries s.takeRangeEnd := by
  unfold State.takeRangeEnd
  simp only
  split
  · exact setTb s _
  · exact (setTb s _).trans (changeTb ..)

theorem deliverBoundary (running : s.node = .running) : s.Carries s.deliverBoundary := by
  unfold State.deliverBoundary
  split
  · exact refl s
  · exact (setTb s _).trans (takeBoundary (by exact running) _)

theorem tick (s : State) : s.Carries s.tick := by
  unfold State.tick State.raiseDue
  split <;> exact of_same rfl rfl rfl rfl rfl rfl

/-! ### Requests -/

theorem takeAmend (s : State) : s.Carries s.takeAmend.1 := by
  unfold State.takeAmend
  split
  · exact refl s
  · split
    · exact refl s
    · split
      · exact refl s
      · exact amendWith s _

theorem takeStage (payload : List Byte) (s : State) : s.Carries (s.takeStage payload).1 := by
  unfold State.takeStage
  split
  · exact refl s
  · split
    · exact refl s
    · exact setCtl s _

theorem takeCommit (s : State) : s.Carries s.takeCommit.1 := by
  unfold State.takeCommit
  split
  · exact refl s
  · split
    · exact refl s
    · exact setCtl s _

theorem takeStep (s : State) : s.Carries s.takeStep.1 := by
  unfold State.takeStep
  split
  · exact refl s
  · split
    · exact openIntake ..
    · exact refl s

theorem takeStop (s : State) : s.Carries s.takeStop.1 := by
  unfold State.takeStop
  split
  · exact refl s
  · exact endStopped s

theorem takeQuiet (payload : List Byte) (s : State) : s.Carries (s.takeQuiet payload).1 := by
  unfold State.takeQuiet
  simp only
  split
  · exact refl s
  · exact setLink (.quiets fun _ => Nat.min_le_right ..)

theorem takeRxmask (payload : List Byte) (s : State) : s.Carries (s.takeRxmask payload).1 := by
  unfold State.takeRxmask
  simp only
  split
  · exact setReceiver
  · exact refl s

theorem takeDrop (payload : List Byte) (s : State) : s.Carries (s.takeDrop payload).1 := by
  unfold State.takeDrop
  simp only
  split
  · exact refl s
  · split
    · exact refl s
    · split
      · exact refl s
      · simp only
        exact dropEntry s _

theorem takeRestore (payload : List Byte) (s : State) : s.Carries (s.takeRestore payload).1 := by
  unfold State.takeRestore
  simp only
  split
  · exact refl s
  · split
    · exact refl s
    · split
      · simp only
        exact restoreEntry s _
      · exact refl s

theorem takeReref (payload : List Byte) (s : State) : s.Carries (s.takeReref payload).1 := by
  unfold State.takeReref
  simp only
  split
  · exact refl s
  · rename_i accepted
    refine reref (List.countP_eq_zero.mpr ?_) _ _
    unfold State.rerefRefusal at accepted
    split at accepted
    · cases accepted
    · split at accepted
      · cases accepted
      · rename_i none
        simpa using none

theorem takeFinish (s : State) : s.Carries s.takeFinish.1 := by
  unfold State.takeFinish
  split
  · simp only
    exact finishEvent s
  · exact refl s

end State.Carries

end Sys2Proof.Machine
end

