-- ==== Sys2Proof/Proofs/Bursts.lean ====
section
/-! PROOF. O50 and O60: what every command does to the peer link. The burst start instant alone begins bursts (`exec_silent`), and
what it decides is said case by case. -/

namespace Sys2Proof.Machine

/-- An event that keeps what is kept of the link and the stores, and begins at most one occupation. -/
structure State.Confines (s t : State) : Prop where
  key : KeyFollowsBurst s → KeyFollowsBurst t
  queue : s.link.Queued → t.link.Queued
  armed : BurstArmedOwned s → BurstArmedOwned t
  link : s.link.Bounded → t.link.Bounded
  peers : s.peers.Bounded → t.peers.Bounded
  home : s.eng.home.samples.length ≤ 128 → t.eng.home.samples.length ≤ 128
  number : t.ctl.occNumber ≤ s.ctl.occNumber + 1

/-- One that begins no burst, besides. -/
structure State.Silent (s t : State) : Prop extends s.Confines t where
  silent : s.link.burst = none → t.link.burst = none

/-- An occupation started: nothing of the link and the stores changes. -/
structure State.Begins (s t : State) : Prop where
  image : t.image = s.image
  node : t.node = s.node
  link : t.link = s.link
  peers : t.peers = s.peers
  home : t.eng.home = s.eng.home
  number : t.ctl.occNumber = s.ctl.occNumber + 1

theorem State.beginOccupation_begins (s : State) (h : Header) (k : Option Nat) : s.Begins (s.beginOccupation h k) := by
  obtain ⟨i, c, frame⟩ := s.beginOccupation_frame h k
  have number : (s.beginOccupation h k).ctl.occNumber = s.ctl.occNumber + 1 :=
    (State.Carries.settleIfDue (s.setCtl _)).number
  rw [frame] at number ⊢
  exact ⟨rfl, rfl, rfl, rfl, rfl, number⟩

theorem State.startTrigger_begins {s t : State} (h : s.startTrigger = some t) : s.Begins t := by
  unfold State.startTrigger State.startRover at h
  split at h
  · cases h
    have begun := (s.setEng s.eng.startCycle).beginOccupation_begins (homeHeader s.homeCfg) (baseK s.sampling)
    exact ⟨begun.image, begun.node, begun.link, begun.peers, begun.home, begun.number⟩
  · split at h
    · cases h
      have begun := (s.setCtl { s.ctl with nextHeader := none, pendingMark := false }).beginOccupation_begins
      exact ⟨(begun ..).image, (begun ..).node, (begun ..).link, (begun ..).peers, (begun ..).home, (begun ..).number⟩
    · cases h

namespace State.Silent

variable {s t u : State}

theorem of_carries (h : s.Carries t) : s.Silent t where
  key := h.link.key
  queue := h.link.queue
  armed := by
    rw [burstArmedOwned_iff, burstArmedOwned_iff, h.schedule, h.node]
    exact h.link.armed
  link := h.link.bounded
  peers := h.peers
  home := h.home
  number := by
    rw [h.number]
    exact Nat.le_succ _
  silent := h.link.silent

theorem of_begins (h : s.Begins t) : s.Silent t := by
  have schedule : t.schedule = s.schedule := by
    unfold State.schedule
    rw [h.image]
  refine ⟨⟨?_, ?_, ?_, ?_, ?_, ?_, h.number.le⟩, ?_⟩
  · unfold KeyFollowsBurst
    rw [h.link]
    exact id
  · rw [h.link]
    exact id
  · rw [burstArmedOwned_iff, burstArmedOwned_iff, schedule, h.node, h.link]
    exact id
  · rw [h.link]
    exact id
  · rw [h.peers]
    exact id
  · rw [h.home]
    exact id
  · rw [h.link]
    exact id

/-- POWER_ON and RESTART clear the link but for the slot of the last burst, the peer table, the engine and the controller (R96,
R117). -/
theorem cleared {x : Option (Nat × Nat)} (link : t.link = { lastBurst := x }) (peers : t.peers = {}) (eng : t.eng = {})
    (ctl : t.ctl = {}) : s.Silent t := by
  refine ⟨⟨fun _ => ?_, fun _ => ?_, fun _ => ?_, fun _ => ?_, fun _ => ?_, fun _ => ?_, ?_⟩, fun _ => ?_⟩
  · rw [KeyFollowsBurst, link]
    rfl
  · rw [link]
    exact ⟨[], [], rfl, by simp, by simp, by simp, by simp, by simp [revCount]⟩
  · rw [burstArmedOwned_iff, link]
    exact fun _ h => nomatch h
  · rw [link]
    exact ⟨Nat.zero_le _, Nat.zero_le _⟩
  · rw [peers]
    exact ⟨Nat.zero_le _, fun n => by cases n <;> exact Nat.zero_le _⟩
  · rw [eng]
    exact Nat.zero_le _
  · rw [ctl]
    exact Nat.zero_le _
  · rw [link]

theorem replied (h : s.Replied t) : s.Silent t := of_carries (.replied h)

/-- The port bears on none of it. -/
theorem setPort (h : s.Silent t) (p : Port) : s.Silent (t.setPort p) :=
  ⟨⟨h.key, h.queue, h.armed, h.link, h.peers, h.home, h.number⟩, h.silent⟩

theorem from_setPort {p : Port} (h : (s.setPort p).Silent t) : s.Silent t :=
  ⟨⟨h.key, h.queue, h.armed, h.link, h.peers, h.home, h.number⟩, h.silent⟩

/-! ### Requests -/

theorem takeEdge (s : State) : s.Silent s.takeEdge := by
  unfold State.takeEdge
  split
  · cases h : s.startTrigger with
    | none => exact of_carries (.setPort s _)
    | some t => exact of_begins (State.startTrigger_begins h)
  · exact of_carries (.openIntake ..)
  · exact of_carries (.refl s)
  · exact of_carries (.refl s)

theorem takeStart (s : State) : s.Silent s.takeStart.1 := by
  unfold State.takeStart
  split
  · exact of_carries (.refl s)
  · split
    · exact of_carries (.refl s)
    · exact of_begins (State.startTrigger_begins ‹_›)

/-- In STARTUP no burst start is armed, and a change of the image arms none. -/
theorem loaded {i : Image} (startup : s.node = .startup) : s.Silent { s with image := i } := by
  refine ⟨⟨id, id, fun armed x hx => ?_, id, id, id, Nat.le_succ _⟩, id⟩
  obtain ⟨running, -⟩ := armed x hx
  simp [startup] at running

theorem trans_carries (h : s.Silent t) (h' : t.Carries u) : s.Silent u :=
  have after := of_carries h'
  ⟨⟨after.key ∘ h.key, after.queue ∘ h.queue, after.armed ∘ h.armed, after.link ∘ h.link, after.peers ∘ h.peers,
    after.home ∘ h.home, by
      rw [h'.number]
      exact h.number⟩, after.silent ∘ h.silent⟩

theorem takeSetup (startup : s.node = .startup) (payload : List Byte) : s.Silent (s.takeSetup payload).1 := by
  have unset : ∀ u : State, u.Carries u.unsetTb := fun u => (State.Carries.setTb u _).trans (.changeTb ..)
  have epoch : ∀ (u : State) old new, u.Carries (u.epochLoaded old new) := by
    intro u old new
    unfold State.epochLoaded
    split
    · exact .refl u
    · split
      · exact .refl u
      · exact unset u
  unfold State.takeSetup State.loadPart
  simp only
  split
  · split
    · exact of_carries (.refl s)
    · simp only
      split
      · exact (loaded startup).trans_carries (epoch ..)
      · exact loaded startup
  · exact of_carries (.refl s)

theorem takeRun (s : State) : s.Silent s.takeRun.1 := by
  unfold State.takeRun
  split
  · exact of_carries (.refl s)
  · refine ⟨⟨id, id, fun _ => ?_, id, id, id, Nat.le_succ _⟩, id⟩
    rw [burstArmedOwned_iff]
    exact PeerLink.armed_joinSlot _ _ _

/-- A request: refused, or its handler's effect on a node that admits it. -/
theorem request {kind : Nat} {allowed : NodeState → Bool} {handler : State → State × Reply} {seq : Byte} {payload : List Byte}
    (h : ∀ u : State, allowed u.node = true → u.Silent (handler u).1) :
    s.Silent (s.request kind allowed handler seq payload).serve := by
  rcases s.request_cases kind allowed handler seq payload with
    ⟨-, heq⟩ | ⟨-, -, heq⟩ | ⟨-, -, -, heq⟩ | ⟨-, -, node, heq⟩ <;> rw [heq]
  · exact of_carries (.served (.setPort s _))
  · exact of_carries (.served (.setPort s _))
  · exact of_carries (.served (.setPort s _))
  · exact from_setPort (((h s.hunting node).setPort _).setPort _)

theorem request_carries {kind : Nat} {allowed : NodeState → Bool} {handler : State → State × Reply} {seq : Byte}
    {payload : List Byte} (h : ∀ u : State, u.Carries (handler u).1) :
    s.Silent (s.request kind allowed handler seq payload).serve :=
  request fun u _ => of_carries (h u)

theorem dispatch (s : State) (kind q : Byte) (p : List Byte) : s.Silent (s.dispatch kind q p) := by
  unfold State.dispatch
  split
  case h_1 => exact request_carries fun u => .setPort u _
  case h_2 => exact request fun u node => takeSetup (by simpa [startupOnly] using node) p
  case h_3 => exact request fun u _ => takeRun u
  case h_4 => exact request fun _ _ => cleared rfl rfl rfl rfl
  case h_5 => exact request_carries (.takeStage p)
  case h_6 => exact request_carries .takeCommit
  case h_7 => exact request_carries .takeAmend
  case h_8 => exact request fun u _ => takeStart u
  case h_9 => exact request_carries .takeStep
  case h_10 => exact request_carries .takeStop
  case h_11 => exact request_carries (.takeQuiet p)
  case h_12 => exact request_carries (.takeRxmask p)
  case h_13 => exact request_carries (.takeDrop p)
  case h_14 => exact request_carries (.takeRestore p)
  case h_15 => exact request_carries (.takeReref p)
  case h_16 => exact request_carries .takeFinish
  case h_17 => exact request_carries .refl
  case h_18 => exact request_carries .refl
  case h_19 => exact request_carries .refl
  case h_20 => exact request_carries .refl
  case h_21 => exact replied (doUnknown_replied ..)

theorem takeItem (s : State) (i : LoggerItem) : s.Silent (s.takeItem i) := by
  unfold State.takeItem
  split
  · exact replied (answerOrBusy_replied ..)
  · split
    · exact dispatch s _ _ _
    · exact replied (answerOrBusy_replied ..)

theorem loggerBytes (s : State) (bytes : List Byte) : s.Silent (s.loggerBytes bytes) := by
  rcases s.loggerBytes_cases bytes with h | ⟨i, p, h, -⟩
  · exact replied h
  · rw [h]
    exact (takeItem s i).setPort p

end State.Silent

/-! ### Every command -/

open State.Carries in
/-- The commands that are none of POWER_ON, an edge of the trigger line, the burst start instant, a request, or bytes at the logger
port. -/
theorem exec_carries (s : State) : ∀ c : Instr, continuing c = true → Instr.request c = none → c ≠ .burstStart →
    (∃ e h, c = .trigEdge e h) ∨ ∃ t, exec c s = .next t ∧ s.Carries t
  | .timeRecord _ second valid, _, _, _ => .inr ⟨_, rfl, ite fun _ => takeTimeRecord s second valid⟩
  | .armedRecordExpiry, _, _, _ => .inr ⟨_, rfl, ite fun _ => setTb s _⟩
  | .ppsPulse _, _, _, _ => .inr ⟨_, rfl, by split; exact refl s; exact (takePulse s).served⟩
  | .holdoverExpiry, _, _, _ => .inr ⟨_, rfl, ite fun _ => (changeTb s _ _).served⟩
  | .lossExpiry, _, _, _ => .inr ⟨_, rfl, ite fun _ => (changeTb s _ _).served⟩
  | .rangeEnd, _, _, _ => .inr ⟨_, rfl, ite fun _ => (takeRangeEnd s).served⟩
  | .slotBoundary, _, _, _ => .inr ⟨_, rfl, ite fun due => by
      obtain ⟨running, -⟩ : s.node = .running ∧ _ := by simpa [State.boundaryDue] using due
      exact (deliverBoundary running).served⟩
  | .sampleFrame bytes, _, _, _ => .inr ⟨_, rfl, (sensorBytes s bytes).served⟩
  | .sensorByteTimeout, _, _, _ => .inr ⟨_, rfl, ite fun _ => setIntake s _⟩
  | .silenceExpiry, _, _, _ => .inr ⟨_, rfl, ite fun _ => (takeSilence s).served⟩
  | .trigEdge .., _, _, _ => .inl ⟨_, _, rfl⟩
  | .settleExpiry, _, _, _ => .inr ⟨_, rfl, ite fun _ => openIntake s _ _⟩
  | .stepWaitExpiry, _, _, _ => .inr ⟨_, rfl, ite fun _ => (endOccupation s _ _ _).served⟩
  | .endPulseExpiry, _, _, _ => .inr ⟨_, rfl, ite fun _ => setCtl s _⟩
  | .holdExpiry _, _, _, _ => .inr ⟨_, rfl, ite fun _ => (expireEvent s _).served⟩
  | .burstStart, _, _, ne => absurd rfl ne
  | .recordSent, _, _, _ => .inr ⟨_, rfl, by
      split
      · exact ite fun _ => setLink (.recordSent ‹_›)
      · exact refl s⟩
  | .burstEnd, _, _, _ => .inr ⟨_, rfl, ite fun _ => setLink (.burstEnd _)⟩
  | .receiverListen, _, _, _ => .inr ⟨_, rfl, ite fun _ => setReceiver⟩
  | .headReceived bytes, _, _, _ => .inr ⟨_, rfl, (peerBytes s bytes).served⟩
  | .peerRecordReceived bytes, _, _, _ => .inr ⟨_, rfl, (peerBytes s bytes).served⟩
  | .loggerByteTimeout, _, _, _ => .inr ⟨_, rfl, ite fun _ => replied (State.abandonFrame_replied s)⟩
  | .outputFrameSent, _, _, _ => .inr ⟨_, rfl, ite fun _ => (setPort s _).served⟩

/-- Every command but the burst start instant begins no burst. -/
theorem exec_silent {s t : State} {c : Instr} (ne : c ≠ .burstStart) (h : exec c s = .next t) : s.Silent t := by
  cases request : Instr.request c with
  | some x =>
    rw [exec_request request] at h
    cases h
    exact .dispatch s _ _ _
  | none =>
    by_cases continues : continuing c = true
    · rcases exec_carries s c continues request ne with ⟨e, held, rfl⟩ | ⟨u, hu, carries⟩
      · cases h
        split
        · exact .takeEdge s
        · exact .of_carries (.refl s)
      · rw [hu] at h
        cases h
        exact .of_carries carries
    · cases c with
      | powerOn =>
        cases h
        exact .cleared (x := none) rfl rfl rfl rfl
      | badLoggerFrame bytes =>
        cases h
        exact .loggerBytes s bytes
      | unknownRequest kind q p =>
        cases h
        exact .dispatch s _ _ _
      | setup => cases request
      | run => cases request
      | restart => cases request
      | _ => exact absurd rfl continues

/-! ### The burst start instant (R79 to R82) -/

/-- The burst start instant disarmed. -/
def State.passedSlot (s : State) : State := s.setLink { s.link with burstAt := none }

/-- The decision of the burst start instant, by the first row of R79's table that applies. -/
theorem State.decideSlot_eq (s : State) : s.decideSlot =
    if s.tb.state = .lost then s.passedSlot
    else if s.link.repeatsSlot then s.passedSlot
    else if 0 < s.link.quiet then s.setLink { s.link with burstAt := none, quiet := s.link.quiet - 1 }
    else s.passedSlot.startBurst := rfl

/-- The burst start instant leaves the slot silent, or composes a burst: outside LOST, with no QUIET count, in a slot not barred by
the last burst's (R79). -/
theorem State.decideSlot_cases (s : State) :
    s.Carries s.decideSlot
      ∨ (s.tb.state ≠ .lost ∧ s.link.repeatsSlot = false ∧ s.link.quiet = 0 ∧ s.decideSlot = s.passedSlot.startBurst) := by
  have disarms : s.Carries s.passedSlot := .setLink (.disarms _)
  have quiets : s.Carries (s.setLink { s.link with burstAt := none, quiet := s.link.quiet - 1 }) :=
    .setLink (.trans (.disarms _) (.quiets fun h => (Nat.sub_le ..).trans h.1))
  rw [decideSlot_eq]
  split
  · exact .inl disarms
  · split
    · exact .inl disarms
    · split
      · exact .inl quiets
      · rename_i locked fresh loud
        exact .inr ⟨locked, by simpa using fresh, by simpa using loud, rfl⟩

theorem burstCount_le (slotLength queued : Nat) : burstCount slotLength queued ≤ 5 := by
  unfold burstCount
  cases h : ((List.range 6).filter fun k => k ≤ queued && burstFits slotLength k).getLast? with
  | none => simp
  | some k =>
    have mem := List.mem_of_mem_filter (List.mem_of_getLast? h)
    rw [Option.getD_some]
    exact Nat.le_of_lt_succ (List.mem_range.mp mem)

theorem State.startBurst_confines (s : State) : s.Confines s.startBurst where
  key _ := rfl
  queue := fun ⟨_, _, h⟩ => by
    obtain ⟨a, b, marked⟩ := h.markInFlight (burstCount_le ..)
    exact ⟨a, b, marked⟩
  armed := id
  link := id
  peers := id
  home := id
  number := Nat.le_succ _

theorem State.decideSlot_confines (s : State) : s.Confines s.decideSlot := by
  rcases s.decideSlot_cases with h | ⟨-, -, -, h⟩
  · exact (Silent.of_carries h).toConfines
  · have disarmed := Silent.of_carries (s := s) (t := s.passedSlot) (.setLink (.disarms _))
    have started := s.passedSlot.startBurst_confines
    rw [h]
    exact ⟨started.key ∘ disarmed.key, started.queue ∘ disarmed.queue, started.armed ∘ disarmed.armed,
      started.link ∘ disarmed.link, started.peers ∘ disarmed.peers, started.home ∘ disarmed.home, Nat.le_succ _⟩

theorem exec_burstStart_due {s : State} (due : s.burstStartDue = true) : exec .burstStart s = .next s.decideSlot :=
  congrArg Host.Outcome.next (if_pos due)

theorem exec_burstStart_early {s : State} (early : s.burstStartDue = false) : exec .burstStart s = .next s :=
  congrArg Host.Outcome.next (if_neg (by simp [early]))

/-- Every step is silent, or the burst start instant of an armed burst start. -/
theorem step_silent {s t : State} (h : step s = .next t) :
    s.Silent t ∨ ∃ rest, s.pending = .burstStart :: rest ∧ s.burstStartDue = true
      ∧ t = ({ s with pending := rest } : State).decideSlot := by
  rcases step_cases h with ht | ⟨c, rest, pending, hc⟩
  · rw [ht]
    exact .inl (.of_carries (.tick s))
  · by_cases ne : c = .burstStart
    · subst ne
      cases due : s.burstStartDue with
      | true =>
        rw [exec_burstStart_due (s := { s with pending := rest }) due] at hc
        cases hc
        exact .inr ⟨rest, pending, rfl, rfl⟩
      | false =>
        rw [exec_burstStart_early (s := { s with pending := rest }) due] at hc
        cases hc
        exact .inl (.of_carries (.of_same rfl rfl rfl rfl rfl rfl))
    · have silent := exec_silent ne hc
      exact .inl ⟨⟨silent.key, silent.queue, silent.armed, silent.link, silent.peers, silent.home, silent.number⟩,
        silent.silent⟩

/-- Every step confines the link and the stores. -/
theorem step_confines {s t : State} (h : step s = .next t) : s.Confines t := by
  rcases step_silent h with silent | ⟨rest, -, -, rfl⟩
  · exact silent.toConfines
  · have decided := State.decideSlot_confines { s with pending := rest }
    exact ⟨decided.key, decided.queue, decided.armed, decided.link, decided.peers, decided.home, decided.number⟩

/-- Settles O50: each change of KEY goes with one of the burst, and each change of the transmit queue keeps its shape
(`PeerLink.Keeps`, `QueueParts`). -/
theorem linkKept : Obligations.LinkKept := by
  intro s t h
  have kept := step_confines h
  refine ⟨kept.key, ?_⟩
  rw [QueueParts.transmitQueueSound_iff, QueueParts.transmitQueueSound_iff]
  exact kept.queue

/-! ### Bursts begun (R76, R79, R94, R95) -/

/-- A slot that repeats none is later than that of the last burst (R79). -/
theorem PeerLink.repeatsSlot_eq_false {l : PeerLink} {a b : Nat × Nat} (inForce : l.inForce = some a)
    (last : l.lastBurst = some b) : l.repeatsSlot = false ↔ b.1 < a.1 ∨ (b.1 = a.1 ∧ b.2 < a.2) := by
  simp only [PeerLink.repeatsSlot, inForce, last, notLater]
  grind

/-- While RUNNING and complete, outside LOST, the time base is LOCKED or in HOLDOVER (R5, R191). -/
theorem State.steady {s : State} (sound : RunningSound s) (running : s.node = .running) (lost : s.tb.state ≠ .lost) :
    s.tb.state = .locked ∨ s.tb.state = .holdover := by
  obtain ⟨-, -, unset, -⟩ := sound running
  cases state : s.tb.state with
  | unset => exact absurd state unset
  | locked => exact .inl rfl
  | holdover => exact .inr rfl
  | lost => exact absurd state lost

/-- Settles O60: only the burst start instant begins a burst (`step_silent`), in the one case of its decision that composes one
(`State.decideSlot_cases`); the rest is what arms it. -/
theorem burstsConfined : Obligations.BurstsConfined := by
  refine ⟨fun s t armed h => (step_confines h).armed armed, fun s t h idle begun => ?_⟩
  rcases step_silent h with silent | ⟨rest, pending, due, rfl⟩
  · exact absurd (silent.silent idle) begun
  rcases State.decideSlot_cases { s with pending := rest } with carries | ⟨lost, fresh, loud, started⟩
  · exact absurd (carries.link.silent idle) begun
  refine ⟨by rw [pending]; rfl, lost, loud, by rw [started]; rfl, fun a b inForce last => ?_, fun armed => ?_⟩
  · exact (PeerLink.repeatsSlot_eq_false (l := s.link) inForce last).mp fresh
  · obtain ⟨x, hx, -⟩ := (Option.any_eq_true _ _).mp due
    obtain ⟨running, owned⟩ := armed x hx
    exact ⟨running, owned, fun sound => State.steady sound running lost⟩

end Sys2Proof.Machine
end

