-- ==== Sys2Proof/Proofs/BurstDecisions.lean ====
section
/-! PROOF. O31 and O32: the burst composed at the burst start instant, and the commands that follow it to its end and to the
receiver's listening. -/

namespace Sys2Proof.Machine

/-! ### The burst composed (R80, R81) -/

theorem burstFits_iff (slotLength k : Nat) : burstFits slotLength k = true ↔ (30 + 20 * k) * 25 ≤ (slotLength - 20) * 24 :=
  decide_eq_true_iff

/-- The record counts that the queue and the slot allow (R80). -/
theorem mem_burstCounts (slotLength queued j : Nat) :
    j ∈ ((List.range 6).filter fun k => k ≤ queued && burstFits slotLength k)
      ↔ j < 6 ∧ j ≤ queued ∧ (30 + 20 * j) * 25 ≤ (slotLength - 20) * 24 := by
  simp only [List.mem_filter, List.mem_range, Bool.and_eq_true, decide_eq_true_eq, burstFits_iff]

/-- The record count of a burst is the largest of those (R80). -/
theorem burstCount_eq {slotLength queued k : Nat} (few : k ≤ 5) (held : k ≤ queued)
    (fits : (30 + 20 * k) * 25 ≤ (slotLength - 20) * 24)
    (largest : ∀ j, j ≤ 5 → j ≤ queued → (30 + 20 * j) * 25 ≤ (slotLength - 20) * 24 → j ≤ k) :
    burstCount slotLength queued = k := by
  have mem_allowed := mem_burstCounts slotLength queued
  have rising : ((List.range 6).filter fun k => k ≤ queued && burstFits slotLength k).Pairwise (· ≤ ·) :=
    List.pairwise_le_range.filter _
  rw [burstCount]
  generalize (List.range 6).filter _ = allowed at mem_allowed rising ⊢
  have mem : k ∈ allowed := (mem_allowed k).mpr ⟨by omega, held, fits⟩
  have nonempty : allowed ≠ [] := List.ne_nil_of_mem mem
  have upper : k ≤ allowed.getLast nonempty := rising.rel_getLast mem
  obtain ⟨small, short, fit⟩ := (mem_allowed _).mp (List.getLast_mem nonempty)
  have lower := largest _ (by omega) short fit
  rw [List.getLast?_eq_some_getLast nonempty, Option.getD_some]
  omega

/-- The HEAD of a burst, field by field (R81): a rover's carries zeros for what a base reports. -/
theorem State.headOf_eq (s : State) (k : Nat) {a : Nat × Nat} (inForce : s.link.inForce = some a) : s.headOf k =
    { sender := s.identity.nodeId, role := s.identity.role, tbState := s.tb.state
      occState := s.ctl.state, cycle := a.1 % 65536, count := k
      epoch := if s.isBase then s.eng.epoch else 0
      homeId := if s.isBase then s.homeCfg.pointId else 0
      easting := if s.isBase then s.homeCfg.easting else 0
      northing := if s.isBase then s.homeCfg.northing else 0
      height := if s.isBase then s.homeCfg.height else 0
      latestObs := if s.isBase then s.eng.latestObs else 0 } := by
  unfold State.headOf
  rw [inForce]
  cases s.isBase <;> rfl

theorem State.burstStartDue_of_reached {s : State} {x : Nat} (armed : s.link.burstAt = some x) (reached : x ≤ s.tb.nodeTime) :
    s.burstStartDue = true := by
  rw [State.burstStartDue, armed]
  exact decide_eq_true reached

/-- A slot not later than that of the last burst repeats it (R79). -/
theorem PeerLink.repeatsSlot_eq_true {l : PeerLink} {a b : Nat × Nat} (inForce : l.inForce = some a)
    (last : l.lastBurst = some b) (early : a.1 < b.1 ∨ (a.1 = b.1 ∧ a.2 ≤ b.2)) : l.repeatsSlot = true := by
  simpa only [repeatsSlot, inForce, last, notLater, Bool.or_eq_true, Bool.and_eq_true, decide_eq_true_eq] using early

/-- A slot later than that of the last burst, if there was one, does not (R79). -/
theorem PeerLink.repeatsSlot_of_later {l : PeerLink} {a : Nat × Nat} (inForce : l.inForce = some a)
    (later : ∀ b, l.lastBurst = some b → b.1 < a.1 ∨ (b.1 = a.1 ∧ b.2 < a.2)) : l.repeatsSlot = false := by
  cases last : l.lastBurst with
  | none => simp only [repeatsSlot, inForce, last]
  | some b => exact (repeatsSlot_eq_false inForce last).mpr (later b last)

/-- Settles O31: each row of R79's table by the equation of the decision (`State.decideSlot_eq`), the last by the burst it
composes. -/
theorem burstStartDecides : Obligations.BurstStartDecides := by
  intro s x a armed reached inForce
  rw [exec_burstStart_due (State.burstStartDue_of_reached armed reached), State.decideSlot_eq]
  refine ⟨fun lost => ?_, fun b lost last early => ?_, fun later lost => ?_⟩
  · rw [if_pos lost]
    rfl
  · rw [if_neg lost, if_pos (PeerLink.repeatsSlot_eq_true inForce last early)]
    rfl
  · have fresh := PeerLink.repeatsSlot_of_later inForce later
    rw [if_neg lost, if_neg (by simp [fresh])]
    refine ⟨fun counted => by rw [if_pos counted]; rfl, fun k loud _ few held fits largest => ?_⟩
    have count := burstCount_eq few held fits largest
    have head := s.passedSlot.headOf_eq k inForce
    rw [if_neg (by omega), State.startBurst]
    simp only [State.burstBytes]
    rw [show burstCount s.passedSlot.schedule.slotLength s.passedSlot.link.txq.length = k from count, head]
    rw [show s.passedSlot.link = { s.link with burstAt := none, quiet := 0 } by rw [← loud]; rfl, inForce]
    rfl

/-! ### From the burst to its end (R82, R89) -/

/-- A record in flight leaves the queue when its last byte has gone. -/
theorem exec_recordSent_due {s : State} {b : Burst} (sending : s.link.burst = some b) (more : b.sent < b.records)
    (gone : b.startedAt + burstMs (30 + 20 * (b.sent + 1)) ≤ s.osc) :
    exec .recordSent s = .next (s.setLink (s.link.recordSent b)) := by
  have due : s.recordSentDue = true := by
    simp only [State.recordSentDue, sending, Option.any_some, Burst.nextRecordAt, if_pos more, decide_eq_true gone]
  show Host.Outcome.next _ = _
  rw [sending, due]
  rfl

theorem exec_burstEnd_due {s : State} {b : Burst} (sending : s.link.burst = some b) (gone : b.endAt ≤ s.osc) :
    exec .burstEnd s = .next (s.setLink s.link.burstEnd) :=
  congrArg Host.Outcome.next (if_pos (by rw [State.burstEndDue, sending]; exact decide_eq_true gone))

theorem exec_receiverListen_due {s : State} {x : Nat} (armed : s.link.listenAt = some x) (reached : x ≤ s.tb.nodeTime) :
    exec .receiverListen s
      = .next (s.setLink { s.link with rx := .listening, rxBuf := [], listenAt := none }) :=
  congrArg Host.Outcome.next (if_pos (by rw [State.listenDue, armed]; exact decide_eq_true reached))

/-- Settles O32: the three instants reached (log entry 5), and what each leaves of the link. -/
theorem linkProgress : Obligations.LinkProgress := by
  refine ⟨fun s b i q sending queue flying more gone => ?_, fun s b sending gone => ?_, fun s x armed reached => ?_⟩
  · rw [exec_recordSent_due sending more ((rounded_le_iff ..).mpr (by exact_mod_cast gone)), PeerLink.recordSent, queue,
      List.eraseP_cons_of_pos flying]
    rfl
  · rw [exec_burstEnd_due sending ((rounded_le_iff ..).mpr (by exact_mod_cast gone))]
    rfl
  · exact exec_receiverListen_due armed reached

end Sys2Proof.Machine
end

