-- ==== Sys2Proof/Proofs/RerefRequests.lean ====
section
/-! PROOF. O37 and O38: the requests QUIET and RXMASK, and REREF, accepted and refused in the order of R121. -/

namespace Sys2Proof.Machine

variable {s t : State}

/-! ### Requests to the link and the base past R175's checks -/

theorem exec_quiet {q : Byte} {p : List Byte} {r : Reply} (node : s.node = .running) (owed : s.port.owed = false)
    (length : p.length = 2) (effect : s.hunting.takeQuiet p = (t.hunting, r)) :
    exec (.quiet q p) s = .next (t.replied 0x0B#8 q r) :=
  congrArg Host.Outcome.next (State.request_running (kind := 0x0B) node owed (decide_eq_true length) effect)

theorem exec_rxmask {q : Byte} {p : List Byte} {r : Reply} (node : s.node = .running) (owed : s.port.owed = false)
    (length : p.length = 4) (effect : s.hunting.takeRxmask p = (t.hunting, r)) :
    exec (.rxmask q p) s = .next (t.replied 0x0C#8 q r) :=
  congrArg Host.Outcome.next (State.request_running (kind := 0x0C) node owed (decide_eq_true length) effect)

theorem exec_reref {q : Byte} {p : List Byte} {r : Reply} (node : s.node = .running) (owed : s.port.owed = false)
    (length : p.length = 8) (effect : s.hunting.takeReref p = (t.hunting, r)) :
    exec (.reref q p) s = .next (t.replied 0x0F#8 q r) :=
  congrArg Host.Outcome.next (State.request_running (kind := 0x0F) node owed (decide_eq_true length) effect)

/-! ### QUIET and RXMASK (R87, R88) -/

theorem State.takeQuiet_zero {p : List Byte} (zero : uAt p 0 2 = 0) : s.takeQuiet p = (s, .range 0 1) := if_pos zero

theorem State.takeQuiet_count {p : List Byte} (some : uAt p 0 2 ≠ 0) :
    s.takeQuiet p = ({ s with link := { s.link with quiet := min (uAt p 0 2) 255 } }, .ok (leBytes 1 (min (uAt p 0 2) 255))) :=
  if_neg some

/-- A mask of four bytes is read whole. -/
theorem toNat_mask (p : List Byte) : (BitVec.ofNat 32 (uAt p 0 4)).toNat = uAt p 0 4 := by
  rw [BitVec.toNat_ofNat]
  exact Nat.mod_eq_of_lt (uAt_lt p 0 4)

theorem State.takeRxmask_below {p : List Byte} (below : uAt p 0 4 < 2 ^ s.schedule.slots) :
    s.takeRxmask p
      = ({ s with link := { s.link with waitingMask := some (BitVec.ofNat 32 (uAt p 0 4)) } }, .ok []) := by
  rw [← toNat_mask p] at below
  exact if_pos (maskBelow_eq_true.mpr below)

theorem State.takeRxmask_above {p : List Byte} (above : 2 ^ s.schedule.slots ≤ uAt p 0 4) :
    s.takeRxmask p = (s, .range 0 1) := by
  rw [← toNat_mask p] at above
  exact if_neg (by simp [maskBelow_eq_false.mpr above])

/-- Settles O38, by the cases of the two requests. -/
theorem quietAndRxmask : Obligations.QuietAndRxmask :=
  fun _ _ _ node owed =>
    ⟨fun length zero => exec_quiet node owed length (State.takeQuiet_zero zero),
      fun length count => exec_quiet node owed length (State.takeQuiet_count count),
      fun length below => exec_rxmask node owed length (State.takeRxmask_below (by exact below)),
      fun length above => exec_rxmask node owed length (State.takeRxmask_above (by exact above))⟩

/-! ### REREF refused (R121) -/

section

variable {fromSeq : Nat} {step : Int}

/-- No REV in the transmit queue and every OBS there of the home series: what REREF asks of the queue (R121). -/
def State.QueueReady (s : State) : Prop := ∀ i ∈ s.link.txq, ∃ o, i.record = .obs o ∧ s.eng.home.series = some o.series

theorem State.rerefRefusal_rover (rover : s.isBase = false) : s.rerefRefusal fromSeq step = some .role := by
  rw [rerefRefusal, rover]
  rfl

/-- The refusals that do not look at the queue's contents beyond its readiness. -/
theorem State.rerefRefusal_ready (base : s.isBase = true) (ready : s.QueueReady) : s.rerefRefusal fromSeq step =
    if s.eng.epoch = 255 then some (.range 0 Config.epochFieldPosition.toNat)
    else if step = 0 || 2000000000 < step.natAbs then some (.range 0 2)
    else if !s.eng.home.samples.any (fun x => x.seq = fromSeq) then some (.range 0 1)
    else none := by
  have noRev : s.link.txq.any (fun i => !i.record.isObs) = false := by
    rw [List.any_eq_false]
    intro i hi
    obtain ⟨o, record, -⟩ := ready i hi
    simp [record, PeerRecord.isObs]
  unfold rerefRefusal
  rw [base, noRev]
  simp only [Bool.not_true, Bool.false_eq_true, if_false]
  refine if_neg fun foreign => ?_
  obtain ⟨i, hi, other⟩ := List.any_eq_true.mp foreign
  obtain ⟨o, record, series⟩ := ready i hi
  simp [record, series] at other

/-- A queue that is not ready is refused with STATE, by its REV or by an OBS of another series (R121). -/
theorem State.rerefRefusal_unready (base : s.isBase = true)
    (unready : ∃ i ∈ s.link.txq, ∀ o, i.record = .obs o → s.eng.home.series ≠ some o.series) :
    s.rerefRefusal fromSeq step = some .state := by
  obtain ⟨i, hi, other⟩ := unready
  unfold rerefRefusal
  rw [base, if_neg (by decide)]
  split
  · rfl
  · rename_i noRev
    refine if_pos (List.any_eq_true.mpr ⟨i, hi, ?_⟩)
    split
    · rename_i o record
      exact decide_eq_true (other o record)
    · rename_i r record
      exact absurd (List.any_eq_true.mpr ⟨i, hi, by simp [record, PeerRecord.isObs]⟩) noRev

end

theorem State.hunting_rerefRefusal (s : State) (fromSeq : Nat) (step : Int) :
    s.hunting.rerefRefusal fromSeq step = s.rerefRefusal fromSeq step := rfl

theorem State.takeReref_refused {p : List Byte} {r : Reply} (refusal : s.rerefRefusal (uAt p 0 4) (sAt p 4 4) = some r) :
    s.takeReref p = (s, r) := by
  unfold takeReref
  simp only [refusal]

theorem exec_reref_refused {q : Byte} {p : List Byte} {r : Reply} (node : s.node = .running) (owed : s.port.owed = false)
    (length : p.length = 8) (refusal : s.rerefRefusal (uAt p 0 4) (sAt p 4 4) = some r) :
    exec (.reref q p) s = .next (s.replied 0x0F#8 q r) :=
  exec_reref node owed length (State.takeReref_refused (s.hunting_rerefRefusal _ _ ▸ refusal))

/-! ### REREF accepted (R122) -/

theorem State.takeReref_accepted {p : List Byte} (refusal : s.rerefRefusal (uAt p 0 4) (sAt p 4 4) = none) :
    s.takeReref p = (s.reref (uAt p 0 4) (sAt p 4 4), .ok (leBytes 1 (s.eng.epoch + 1))) := by
  unfold takeReref
  simp only [refusal]

/-- In a queue of OBS alone the one to give way is the oldest not in flight (R85). -/
theorem dropOldestObs_of_obs {q : List TxItem} (obs : ∀ i ∈ q, i.record.isObs = true) :
    dropOldestObs q = q.eraseP fun i => !i.inFlight := by
  rw [dropOldestObs]
  induction q with
  | nil => rfl
  | cons i q ih =>
    have rest := ih fun j hj => obs j (List.mem_cons_of_mem i hj)
    rw [List.eraseP_cons, List.eraseP_cons, rest, obs i List.mem_cons_self, Bool.true_and]

theorem State.queueRev_eq (s : State) (r : Rev) : s.queueRev r = { s with
    link := { s.link with txq := placeRev s.link.txq r }
    port := { s.port with latched := { s.port.latched with
      txDropped := s.port.latched.txDropped || decide (16 ≤ s.link.txq.length) } } } := by
  unfold State.queueRev
  simp only
  split
  · rename_i full
    simp only [full, decide_true, Bool.or_true]
    rfl
  · rename_i room
    simp only [room, decide_false, Bool.or_false]
    rfl

/-- What an accepted REREF leaves (R86, R122), from the queue that makes room for the REV. -/
theorem State.reref_eq {series : Nat} {revised kept : List TxItem} (fromSeq : Nat) (step : Int)
    (home : s.eng.home.series = some series)
    (toRevise : revised = s.link.txq.map (TxItem.revise fromSeq step (s.eng.epoch + 1)))
    (toKeep : kept = if s.link.txq.length < 16 then revised else dropOldestObs revised) :
    s.reref fromSeq step = { s with
      eng := { s.eng with
        epoch := s.eng.epoch + 1, gRef := s.eng.gRef.map fun g => g + step
        home := { s.eng.home with samples := s.eng.home.samples.map (Sample.revise fromSeq step (s.eng.epoch + 1)) } }
      link := { s.link with
        txq := kept.takeWhile TxItem.inFlight ++
          TxItem.mk (.rev { series := series, epoch := s.eng.epoch + 1, fromSeq := fromSeq, step := step }) false ::
            kept.dropWhile TxItem.inFlight }
      port := { s.port with latched := { s.port.latched with
        txDropped := s.port.latched.txDropped || 16 ≤ s.link.txq.length } } } := by
  have length : revised.length = s.link.txq.length := by rw [toRevise, List.length_map]
  rw [← length] at toKeep ⊢
  subst toRevise toKeep
  unfold State.reref
  rw [State.queueRev_eq]
  simp only [State.setEng_eng, State.setLink_eng, home]
  rfl

/-- Settles O37: the refusals in the order of R121 (`State.rerefRefusal_ready`), and what an accepted REREF leaves
(`State.reref_eq`). -/
theorem rerefJudged : Obligations.RerefJudged := by
  refine ⟨?_, fun s q p node owed length => ⟨fun rover => ?_, fun base unready => ?_, fun base ready => ⟨fun last => ?_, ?_, ?_⟩⟩⟩
  · intro s q p fs series d revised kept node owed length hfs hd base obs home below nonzero within held toRevise toKeep
    have ready : s.QueueReady := fun i hi => by
      obtain ⟨o, record, rfl⟩ := obs i hi
      exact ⟨o, record, home⟩
    have accepted : s.rerefRefusal fs d = none := by
      rw [State.rerefRefusal_ready base ready, if_neg (by omega), if_neg (by simpa [nonzero] using within),
        if_neg (by simpa using held)]
    have revises : revised = s.link.txq.map (TxItem.revise fs d (s.eng.epoch + 1)) := by
      rw [toRevise]
      rfl
    have keeps : kept = if s.link.txq.length < 16 then revised else dropOldestObs revised := by
      rw [toKeep, dropOldestObs_of_obs]
      intro i hi
      rw [revises] at hi
      obtain ⟨j, hj, rfl⟩ := List.mem_map.mp hi
      obtain ⟨o, record, -⟩ := obs j hj
      rw [TxItem.isObs_revise, record]
      rfl
    have effect := s.hunting.reref_eq fs d home revises keeps
    rw [hfs, hd] at accepted effect
    refine exec_reref node owed length ?_
    rw [State.takeReref_accepted (s := s.hunting) accepted, effect, hfs, hd]
    rfl
  · exact exec_reref_refused node owed length (State.rerefRefusal_rover rover)
  · exact exec_reref_refused node owed length (State.rerefRefusal_unready base unready)
  · exact ⟨_, exec_reref_refused node owed length (by rw [State.rerefRefusal_ready base ready, if_pos last])⟩
  · intro below bad
    refine exec_reref_refused node owed length ?_
    rw [State.rerefRefusal_ready base ready, if_neg below, if_pos (by simpa using bad)]
  · intro below nonzero within missing
    refine exec_reref_refused node owed length ?_
    rw [State.rerefRefusal_ready base ready, if_neg below, if_neg (by simpa [nonzero] using within),
      if_pos (by simpa using missing)]

end Sys2Proof.Machine
end

