-- ==== Sys2Proof/Proofs/HeadVerdicts.lean ====
section
/-! PROOF. The verdict on a HEAD, one equation a case (R98), and the ring allocation of a taken one (R105). -/

namespace Sys2Proof.Machine

/-! ### The verdict (R98) -/

section

variable {s : State} {h : Head}

theorem State.judgeHead_own (own : h.sender = s.identity.nodeId) : s.judgeHead h = (s.latch latchIdClash, false) := if_pos own

theorem State.judgeHead_full (other : h.sender ≠ s.identity.nodeId) (unknown : s.peers.find h.sender = none)
    (full : 8 ≤ s.peers.entries.length) : s.judgeHead h = (s.latch latchPeerTableFull, false) := by
  rw [judgeHead, if_neg other, unknown]
  exact if_pos full

theorem State.judgeHead_new (other : h.sender ≠ s.identity.nodeId) (unknown : s.peers.find h.sender = none)
    (room : s.peers.entries.length < 8) :
    s.judgeHead h = (s.takeHead (PeerEntry.identify { id := h.sender } h) none h, true) := by
  rw [judgeHead, if_neg other, unknown]
  exact if_neg (Nat.not_le.mpr room)

variable {e : PeerEntry}

theorem State.judgeHead_dropped (other : h.sender ≠ s.identity.nodeId) (known : s.peers.find h.sender = some e)
    (dropped : e.state = .dropped) : s.judgeHead h = (s, false) := by
  rw [judgeHead, if_neg other, known]
  simp only [dropped]

theorem State.judgeHead_unheard (other : h.sender ≠ s.identity.nodeId) (known : s.peers.find h.sender = some e)
    (unheard : e.state = .unheard) : s.judgeHead h = (s.takeHead (e.identify h) (some .unheard) h, true) := by
  rw [judgeHead, if_neg other, known]
  simp only [unheard]

/-- An entry in LIVE or SILENT takes a HEAD that matches its identity, and reports a clash for another. -/
theorem State.judgeHead_heard (other : h.sender ≠ s.identity.nodeId) (known : s.peers.find h.sender = some e)
    (heard : e.state = .live ∨ e.state = .silent) : s.judgeHead h =
      if e.isMatch h then (s.takeHead e (some e.state) h, true) else (s.latch latchIdClash, false) := by
  rw [judgeHead, if_neg other, known]
  rcases heard with live | silent
  · simp only [live]
  · simp only [silent]

end

/-! ### The ring allocation (R105) -/

theorem RingNo.mem_all (n : RingNo) : n ∈ [RingNo.r0, .r1, .r2, .r3] := by cases n <;> decide

theorem RingNo.code_injective : Function.Injective RingNo.code := by
  intro a b same
  cases a <;> cases b <;> cases same <;> rfl

/-- The lowest-numbered free ring: free, and none below it is. -/
theorem Rings.firstFree_some {x : Rings} {n : RingNo} (first : x.firstFree = some n) :
    (x.get n).owner = none ∧ ∀ m : RingNo, m.code < n.code → (x.get m).owner ≠ none := by
  obtain ⟨free, before, after, all, taken⟩ := List.find?_eq_some_iff_append.mp first
  refine ⟨Option.isNone_iff_eq_none.mp free, fun m lower owner => ?_⟩
  have rising : (before ++ n :: after).Pairwise fun a b => a.code < b.code := by
    rw [← all]
    decide
  have mem := m.mem_all
  rw [all] at mem
  rcases List.mem_append.mp mem with earlier | later
  · simpa [owner] using taken m earlier
  · rcases List.mem_cons.mp later with rfl | later
    · omega
    · have := List.rel_of_pairwise_cons (List.pairwise_append.mp rising).2.1 later
      omega

theorem Rings.firstFree_none {x : Rings} (full : x.firstFree = none) (n : RingNo) : (x.get n).owner ≠ none := by
  simpa using List.find?_eq_none.mp full n n.mem_all

/-- The lowest free ring is the first found. -/
theorem Rings.firstFree_eq {x : Rings} {n : RingNo} (free : (x.get n).owner = none)
    (lowest : ∀ m : RingNo, m.code < n.code → (x.get m).owner ≠ none) : x.firstFree = some n := by
  cases first : x.firstFree with
  | none => exact absurd free (firstFree_none first n)
  | some m =>
    obtain ⟨owner, lower⟩ := firstFree_some first
    have same : m.code = n.code := by
      by_contra differ
      rcases Nat.lt_or_gt_of_ne differ with below | above
      · exact lowest m below owner
      · exact lower n above free
    rw [RingNo.code_injective same]

theorem Rings.firstFree_eq_none {x : Rings} (full : ∀ n, (x.get n).owner ≠ none) : x.firstFree = none := by
  cases first : x.firstFree with
  | none => rfl
  | some n => exact absurd (firstFree_some first).1 (full n)

section

variable {x : Rings} {e : PeerEntry}

theorem allocate_kept (kept : e.role ≠ some .base ∨ e.ring ≠ none) : allocate x e = (x, e) := by
  refine if_neg fun ringless => ?_
  obtain ⟨base, none⟩ : e.role = some .base ∧ e.ring = none := by simpa using ringless
  exact kept.elim (· base) (· none)

theorem allocate_some {n : RingNo} (base : e.role = some .base) (ringless : e.ring = none) (first : x.firstFree = some n) :
    allocate x e
      = (x.put n { owner := some e.id, samples := [] }, { e with ring := some n, noRing := false, series := none }) := by
  rw [allocate, if_pos (by simp [base, ringless]), first]

theorem allocate_none (base : e.role = some .base) (ringless : e.ring = none) (full : x.firstFree = none) :
    allocate x e = (x, { e with noRing := true }) := by
  rw [allocate, if_pos (by simp [base, ringless]), full]

/-- The allocation as the statements write it. -/
theorem allocated_allocate (x : Rings) (e : PeerEntry) : Allocated x e (allocate x e).1 (allocate x e).2 := by
  refine ⟨fun kept => ?_, fun base ringless => ⟨fun n free lowest => ?_, fun full => ?_⟩⟩
  · rw [allocate_kept kept]
    exact ⟨rfl, rfl⟩
  · rw [allocate_some base ringless (Rings.firstFree_eq free lowest)]
    exact ⟨rfl, rfl⟩
  · rw [allocate_none base ringless (Rings.firstFree_eq_none full)]
    exact ⟨rfl, rfl⟩

/-- The allocation changes neither the id nor the state of an entry. -/
theorem allocate_id_state (x : Rings) (e : PeerEntry) : (allocate x e).2.id = e.id ∧ (allocate x e).2.state = e.state := by
  unfold allocate
  split
  · split <;> exact ⟨rfl, rfl⟩
  · exact ⟨rfl, rfl⟩

end

end Sys2Proof.Machine
end

