-- ==== Sys2Proof/Proofs/Receptions.lean ====
section
/-! PROOF. O35: what bytes at the peer port do to the receiver, one equation a receiver state, and a record received. What the
reception set aside holds does not bear on the receiver's work (`State.hear_withClosed`). -/

namespace Sys2Proof.Machine

/-! ### The receiver with no bytes held, and with a whole HEAD or record (R89 to R91) -/

/-- The node with other bytes held by the receiver. -/
def State.buffered (s : State) (bytes : List Byte) : State := s.setLink { s.link with rxBuf := bytes }

@[simp] theorem State.buffered_rx (s : State) (bytes : List Byte) : (s.buffered bytes).link.rx = s.link.rx := rfl

@[simp] theorem State.buffered_rxBuf (s : State) (bytes : List Byte) : (s.buffered bytes).link.rxBuf = bytes := rfl

@[simp] theorem State.buffered_buffered (s : State) (bytes more : List Byte) :
    (s.buffered bytes).buffered more = s.buffered more := rfl

theorem State.buffered_self {s : State} {bytes : List Byte} (held : s.link.rxBuf = bytes) : s.buffered bytes = s := by
  rw [← held]
  rfl

/-- A receiver that holds no bytes has nothing to take. -/
theorem State.receive_empty {s : State} (empty : s.link.rxBuf = []) (n : Nat) : State.receive n s = s := by
  cases n with
  | zero => rfl
  | succ n =>
    unfold State.receive
    simp only [empty]
    split
    · exact buffered_self empty
    · exact buffered_self empty
    · exact if_pos (by simp)
    · exact if_pos (by simp)

theorem State.receiveHead_rxBuf (s : State) (bytes : List Byte) : (s.receiveHead bytes).link.rxBuf = s.link.rxBuf := by
  unfold State.receiveHead
  split
  · rfl
  · simp only
    rw [State.judgeHead_frame]
    rfl

/-- A record joins the inbound queue while there is room (R92). -/
theorem State.enqueueInbound_room {s : State} (room : s.link.inq.length < 32) (sender : Nat) (r : PeerRecord) :
    s.enqueueInbound sender r = s.setLink { s.link with inq := s.link.inq ++ [(sender, r)] } := if_pos room

theorem State.enqueueInbound_full {s : State} (full : 32 ≤ s.link.inq.length) (sender : Nat) (r : PeerRecord) :
    s.enqueueInbound sender r = s.latch latchRxOverflow := if_neg (Nat.not_lt.mpr full)

theorem State.enqueueInbound_rxBuf (s : State) (sender : Nat) (r : PeerRecord) :
    (s.enqueueInbound sender r).link.rxBuf = s.link.rxBuf := by
  unfold State.enqueueInbound
  split <;> rfl

/-- The receiver past one of the records to come: LISTENING after the last (R91). -/
def State.advanced (s : State) (sender : Nat) (take : Bool) (toCome : Nat) : State :=
  s.setLink { s.link with rx := if toCome ≤ 1 then .listening else .inBurst sender take (toCome - 1) }

/-- A record received: the receiver advances, and a good one under a take verdict is queued (R91, R92). -/
theorem State.receiveRecord_eq (s : State) (sender : Nat) (take : Bool) (toCome : Nat) (bytes : List Byte) :
    s.receiveRecord sender take toCome bytes = ((parseRecord bytes).filter fun _ => take).elim (s.advanced sender take toCome)
      fun r => (s.advanced sender take toCome).enqueueInbound sender r := by
  unfold State.receiveRecord
  cases parseRecord bytes with
  | none => rfl
  | some r => cases take <;> rfl

theorem State.receiveRecord_taken {s : State} {r : PeerRecord} {bytes : List Byte} (read : parseRecord bytes = some r)
    (sender toCome : Nat) : s.receiveRecord sender true toCome bytes = (s.advanced sender true toCome).enqueueInbound sender r := by
  rw [receiveRecord_eq, read]
  rfl

theorem State.receiveRecord_discarded {s : State} {take : Bool} {bytes : List Byte}
    (discarded : parseRecord bytes = none ∨ take = false) (sender toCome : Nat) :
    s.receiveRecord sender take toCome bytes = s.advanced sender take toCome := by
  rw [receiveRecord_eq]
  rcases discarded with bad | ignore
  · rw [bad]
    rfl
  · rw [ignore]
    cases parseRecord bytes <;> rfl

theorem State.receiveRecord_rxBuf (s : State) (sender : Nat) (take : Bool) (toCome : Nat) (bytes : List Byte) :
    (s.receiveRecord sender take toCome bytes).link.rxBuf = s.link.rxBuf := by
  rw [receiveRecord_eq]
  cases (parseRecord bytes).filter fun _ => take with
  | none => rfl
  | some r => exact enqueueInbound_rxBuf ..

section

variable {s : State} {bytes : List Byte}

theorem State.receive_head (n : Nat) (listening : s.link.rx = .listening) (whole : 30 ≤ s.link.rxBuf.length) :
    State.receive (n + 1) s
      = State.receive n ((s.buffered (s.link.rxBuf.drop 30)).receiveHead (s.link.rxBuf.take 30)) := by
  rw [State.receive]
  simp only [listening]
  rw [if_neg (by omega), ← listening]
  rfl

theorem State.receive_record (n : Nat) {sender toCome : Nat} {take : Bool} (inBurst : s.link.rx = .inBurst sender take toCome)
    (whole : 20 ≤ s.link.rxBuf.length) : State.receive (n + 1) s
      = State.receive n ((s.buffered (s.link.rxBuf.drop 20)).receiveRecord sender take toCome (s.link.rxBuf.take 20)) := by
  rw [State.receive]
  simp only [inBurst]
  rw [if_neg (by omega), ← inBurst]
  rfl

theorem State.receive_partHead (n : Nat) (listening : s.link.rx = .listening) (part : s.link.rxBuf.length < 30) :
    State.receive (n + 1) s = s := by
  rw [State.receive]
  simp only [listening]
  exact if_pos part

theorem State.receive_partRecord (n : Nat) {sender toCome : Nat} {take : Bool}
    (inBurst : s.link.rx = .inBurst sender take toCome) (part : s.link.rxBuf.length < 20) :
    State.receive (n + 1) s = s := by
  rw [State.receive]
  simp only [inBurst]
  exact if_pos part

/-- OFF and DISCARDING discard what comes (R89, R90). -/
theorem State.receive_deaf (n : Nat) (deaf : s.link.rx = .off ∨ s.link.rx = .discarding) :
    State.receive (n + 1) s = s.buffered [] := by
  rw [State.receive, State.buffered]
  rcases deaf with deaf | deaf <;> simp only [deaf]

theorem State.hear_empty (empty : s.link.rxBuf = []) : s.hear bytes = State.receive (bytes.length + 1) (s.buffered bytes) := by
  unfold State.hear
  simp only [empty, List.nil_append]
  rfl

/-- A HEAD's bytes in LISTENING (R90). -/
theorem State.hear_head (listening : s.link.rx = .listening) (empty : s.link.rxBuf = []) (length : bytes.length = 30) :
    s.hear bytes = s.receiveHead bytes := by
  rw [hear_empty empty, receive_head _ (by exact listening) (by exact length.ge)]
  simp only [buffered_rxBuf, buffered_buffered]
  rw [List.take_of_length_le length.le, List.drop_of_length_le length.le, buffered_self empty,
    receive_empty (by rw [receiveHead_rxBuf, empty])]

/-- A record's bytes in IN_BURST (R91). -/
theorem State.hear_record {sender toCome : Nat} {take : Bool} (inBurst : s.link.rx = .inBurst sender take toCome)
    (empty : s.link.rxBuf = []) (length : bytes.length = 20) :
    s.hear bytes = s.receiveRecord sender take toCome bytes := by
  rw [hear_empty empty, receive_record _ (by exact inBurst) (by exact length.ge)]
  simp only [buffered_rxBuf, buffered_buffered]
  rw [List.take_of_length_le length.le, List.drop_of_length_le length.le, buffered_self empty,
    receive_empty (by rw [receiveRecord_rxBuf, empty])]

theorem State.hear_deaf (deaf : s.link.rx = .off ∨ s.link.rx = .discarding) : s.hear bytes = s.buffered [] :=
  State.receive_deaf _ deaf

/-- Without a reception set aside at this instant the bytes meet the receiver (log entry 29). -/
theorem State.peerBytes_hear (open_ : ∀ c, s.link.closed = some c → c.closedAt ≠ s.osc) : s.peerBytes bytes = s.hear bytes := by
  unfold State.peerBytes
  split
  · rfl
  · exact if_neg (open_ _ ‹_›)

end

/-! ### The reception set aside (R93, R100; log entry 29) -/

/-- The node with another reception set aside. -/
def State.withClosed (s : State) (x : Option ClosedReception) : State := s.setLink { s.link with closed := x }

section

variable (s : State) (x : Option ClosedReception)

theorem State.takeHead_withClosed (e : PeerEntry) (before : Option PeerState) (h : Head) :
    (s.withClosed x).takeHead e before h = (s.takeHead e before h).withClosed x := by
  by_cases live : before = some .live
  · simp only [State.takeHead, if_pos live]
    rfl
  · simp only [State.takeHead, if_neg live]
    rfl

/-- The verdict on a HEAD does not turn on it. -/
theorem State.judgeHead_withClosed (h : Head) :
    (s.withClosed x).judgeHead h = ((s.judgeHead h).1.withClosed x, (s.judgeHead h).2) := by
  by_cases own : h.sender = s.identity.nodeId
  · rw [judgeHead_own own, judgeHead_own (by exact own)]
    rfl
  cases known : s.peers.find h.sender with
  | none =>
    by_cases room : s.peers.entries.length < 8
    · rw [judgeHead_new own known room, judgeHead_new (by exact own) (by exact known) (by exact room), takeHead_withClosed]
    · have full := Nat.not_lt.mp room
      rw [judgeHead_full own known full, judgeHead_full (by exact own) (by exact known) (by exact full)]
      rfl
  | some e =>
    have heard (either : e.state = .live ∨ e.state = .silent) :
        (s.withClosed x).judgeHead h = ((s.judgeHead h).1.withClosed x, (s.judgeHead h).2) := by
      rw [judgeHead_heard own known either, judgeHead_heard (by exact own) (by exact known) either, takeHead_withClosed]
      split <;> rfl
    cases state : e.state with
    | dropped =>
      rw [judgeHead_dropped own known state, judgeHead_dropped (by exact own) (by exact known) state]
    | unheard =>
      rw [judgeHead_unheard own known state, judgeHead_unheard (by exact own) (by exact known) state, takeHead_withClosed]
    | live => exact heard (.inl state)
    | silent => exact heard (.inr state)

theorem State.receiveHead_withClosed (bytes : List Byte) :
    (s.withClosed x).receiveHead bytes = (s.receiveHead bytes).withClosed x := by
  unfold State.receiveHead
  split
  · rfl
  · simp only [State.judgeHead_withClosed]
    rfl

theorem State.enqueueInbound_withClosed (sender : Nat) (r : PeerRecord) :
    (s.withClosed x).enqueueInbound sender r = (s.enqueueInbound sender r).withClosed x := by
  by_cases room : s.link.inq.length < 32
  · rw [enqueueInbound_room room, enqueueInbound_room (by exact room)]
    rfl
  · have full := Nat.not_lt.mp room
    rw [enqueueInbound_full full, enqueueInbound_full (by exact full)]
    rfl

theorem State.receiveRecord_withClosed (sender : Nat) (take : Bool) (toCome : Nat) (bytes : List Byte) :
    (s.withClosed x).receiveRecord sender take toCome bytes = (s.receiveRecord sender take toCome bytes).withClosed x := by
  rw [receiveRecord_eq, receiveRecord_eq]
  cases (parseRecord bytes).filter fun _ => take with
  | none => rfl
  | some r => exact enqueueInbound_withClosed (s.advanced sender take toCome) x sender r

end

/-- The receiver's work does not turn on it. -/
theorem State.receive_withClosed (x : Option ClosedReception) (n : Nat) (s : State) :
    State.receive n (s.withClosed x) = (State.receive n s).withClosed x := by
  induction n generalizing s with
  | zero => rfl
  | succ n ih =>
    have deaf (h : s.link.rx = .off ∨ s.link.rx = .discarding) :
        State.receive (n + 1) (s.withClosed x) = (State.receive (n + 1) s).withClosed x := by
      rw [receive_deaf n h, receive_deaf n (by exact h)]
      rfl
    cases rx : s.link.rx with
    | off => exact deaf (.inl rx)
    | discarding => exact deaf (.inr rx)
    | listening =>
      by_cases part : s.link.rxBuf.length < 30
      · rw [receive_partHead n rx part, receive_partHead n (by exact rx) (by exact part)]
      · rw [receive_head n rx (by omega), receive_head n (by exact rx) (by exact Nat.not_lt.mp part), ← ih,
          ← receiveHead_withClosed]
        rfl
    | inBurst sender take toCome =>
      by_cases part : s.link.rxBuf.length < 20
      · rw [receive_partRecord n rx part, receive_partRecord n (by exact rx) (by exact part)]
      · rw [receive_record n rx (by omega), receive_record n (by exact rx) (by exact Nat.not_lt.mp part), ← ih,
          ← receiveRecord_withClosed]
        rfl

theorem State.hear_withClosed (s : State) (x : Option ClosedReception) (bytes : List Byte) :
    (s.withClosed x).hear bytes = (s.hear bytes).withClosed x :=
  State.receive_withClosed x _ (s.buffered (s.link.rxBuf ++ bytes))

/-- The node with the reception set aside in place of the receiver. -/
def State.reopened (s : State) (c : ClosedReception) : State :=
  s.setLink { s.link with rx := c.rx, rxBuf := c.buf, closed := none }

/-- With a reception set aside at this instant the bytes meet it, and the receiver of the new slot stays (log entry 29). -/
theorem State.peerBytes_aside {s : State} {c : ClosedReception} {bytes : List Byte} (aside : s.link.closed = some c)
    (now : c.closedAt = s.osc) : s.peerBytes bytes =
      ((s.reopened c).hear bytes).setLink { ((s.reopened c).hear bytes).link with
        rx := s.link.rx, rxBuf := s.link.rxBuf
        closed := some
          { c with rx := ((s.reopened c).hear bytes).link.rx, buf := ((s.reopened c).hear bytes).link.rxBuf } } := by
  have placed : s.setLink { s.link with rx := c.rx, rxBuf := c.buf } = (s.reopened c).withClosed (some c) := by
    rw [← aside]
    rfl
  have meets : s.peerBytes bytes = s.hearClosed c bytes := by
    unfold State.peerBytes
    rw [aside]
    exact if_pos now
  rw [meets, State.hearClosed]
  simp only [placed, State.hear_withClosed]
  rfl

/-! ### The two commands -/

theorem exec_peerBytes (s : State) {bytes : List Byte} {i : Instr} (either : i = .headReceived bytes ∨ i = .peerRecordReceived bytes) :
    exec i s = .next (s.peerBytes bytes).serve := by
  rcases either with rfl | rfl <;> rfl

/-- Settles O35: the reception set aside is worked on as the receiver is (`State.hear_withClosed`); a deaf receiver; a record. -/
theorem peerRecordTaken : Obligations.PeerRecordTaken := by
  refine ⟨fun s c bytes i either aside now => ?_, fun s bytes i either deaf opened => ?_, ?_⟩
  · refine ⟨_, exec_peerBytes _ either, ?_⟩
    rw [exec_peerBytes s either, State.peerBytes_aside aside now, State.peerBytes_hear (by simp)]
    rfl
  · rw [exec_peerBytes s either, State.peerBytes_hear opened, State.hear_deaf deaf]
    rfl
  · intro s id n take bytes l inBurst more empty opened length hl
    have taken : exec (.peerRecordReceived bytes) s = .next (s.receiveRecord id take n bytes).serve := by
      rw [exec_peerBytes s (.inr rfl), State.peerBytes_hear opened, State.hear_record inBurst empty length]
    have advanced : s.advanced id take n = { s with link := l } := by
      have last : n ≤ 1 ↔ n = 1 := by omega
      simp only [hl, State.advanced, last]
      rfl
    have queue : l.inq = s.link.inq := by rw [hl]
    rw [taken]
    refine ⟨fun r read takes room => ?_, fun r read takes full => ?_, fun discarded => ?_⟩
    · subst takes
      rw [State.receiveRecord_taken read, advanced, State.enqueueInbound_room (by exact queue ▸ room)]
      simp only [queue]
      rfl
    · subst takes
      rw [State.receiveRecord_taken read, advanced, State.enqueueInbound_full (by exact queue ▸ full)]
      rfl
    · have discarded : parseRecord bytes = none ∨ take = false :=
        discarded.elim (fun bad => .inl ((parseRecord_bytes length).1 bad)) fun other => other
      rw [State.receiveRecord_discarded discarded, advanced]

end Sys2Proof.Machine
end

