-- ==== Sys2Proof/Proofs/HeadsTaken.lean ====
section
/-! PROOF. O33 and O34: a HEAD as sent, from its bytes to the entry that it creates or is taken into, or to the flag that its
refusal latches. -/

namespace Sys2Proof.Machine

/-! ### From the bytes to the verdict (R90) -/

section

variable {s : State} {h : Head}

/-- The receiver after a good HEAD: with its records, if any, to come under the verdict (R90). -/
def Head.follows (h : Head) (take : Bool) : Receiver := if h.count = 0 then .listening else .inBurst h.sender take h.count

/-- A HEAD as sent, in LISTENING: the verdict's effect, and the receiver goes on to the records. -/
theorem exec_headReceived {t : State} {take : Bool} (fits : h.fits) (listening : s.link.rx = .listening)
    (empty : s.link.rxBuf = []) (opened : ∀ c, s.link.closed = some c → c.closedAt ≠ s.osc)
    (verdict : s.judgeHead h = (t, take)) :
    exec (.headReceived (encodeHead h)) s = .next (t.setLink { t.link with rx := h.follows take }).serve := by
  have length : (encodeHead h).length = 30 := by simp [encodeHead, withCrc]
  rw [exec_peerBytes s (.inl rfl), State.peerBytes_hear opened, State.hear_head listening empty length, State.receiveHead,
    parseHead_encodeHead fits]
  simp only [verdict]
  rfl

/-- Thirty bytes that are no good HEAD: DISCARDING (R90). -/
theorem exec_headReceived_bad {bytes : List Byte} (listening : s.link.rx = .listening) (empty : s.link.rxBuf = [])
    (opened : ∀ c, s.link.closed = some c → c.closedAt ≠ s.osc) (length : bytes.length = 30) (bad : parseHead bytes = none) :
    exec (.headReceived bytes) s = .next (s.setLink { s.link with rx := .discarding }).serve := by
  rw [exec_peerBytes s (.inl rfl), State.peerBytes_hear opened, State.hear_head listening empty length, State.receiveHead, bad]

end

/-! ### A HEAD taken (R99, R101) -/

theorem addToSet_eq (m : BitVec 32) {n : Nat} (small : n < 32) : addToSet m n = m ||| BitVec.ofNat 32 (2 ^ n) := by
  rw [addToSet, if_pos small]

/-- What a taken HEAD leaves of its entry, as the statements write it: a known entry has the HEAD's role. -/
theorem PeerEntry.hear_eq {e : PeerEntry} {h : Head} {a : Nat × Nat} (small : a.2 < 32) (role : e.role = some h.role) :
    e.hear h a = e.heardFrom h a := by
  simp only [PeerEntry.hear, PeerEntry.heardFrom, role, addToSet_eq _ small, Option.some.injEq, decide_eq_true_eq]

/-- The entry of a node id bears it. -/
theorem PeerTable.id_of_find {t : PeerTable} {id : Nat} {e : PeerEntry} (known : t.find id = some e) : e.id = id := by
  simpa using List.find?_some known

theorem PeerTable.find_eq_none {t : PeerTable} {id : Nat} (unknown : ∀ e ∈ t.entries, e.id ≠ id) : t.find id = none := by
  rw [PeerTable.find, List.find?_eq_none]
  intro e he
  simpa using unknown e he

/-- The port once an entry's change of state is reported (R101, R105). -/
def Port.reported (p : Port) (before : Option PeerState) (e : PeerEntry) (time : Nat) : Port :=
  { p with changed := p.changed ||| BitVec.ofNat 32 (2 ^ e.id) }.offer
    (.peerState e.id before e.state time e.ring e.noRing)

theorem State.peerChanged_eq (s : State) (before : Option PeerState) {e : PeerEntry} (small : e.id < 32) :
    s.peerChanged before e = s.setPort (s.port.reported before e s.tb.nodeTime) := by
  rw [State.peerChanged, addToSet_eq _ small]
  rfl

section

variable {s : State} {h : Head} {a : Nat × Nat} {e e' : PeerEntry} {x' : Rings} {before : Option PeerState}

/-- A HEAD taken: the entry as the allocation leaves it joins the table or replaces itself there, and a change of state is
reported. -/
theorem State.takeHead_eq (inForce : s.link.inForce = some a) (allocated : allocate s.peers.rings (e.hear h a) = (x', e'))
    (small : e'.id < 32) : s.takeHead e before h =
      (s.setPeers (if before.isNone then PeerTable.add { s.peers with rings := x' } e'
        else PeerTable.replace { s.peers with rings := x' } e')).setPort
          (if before = some .live then s.port else s.port.reported before e' s.tb.nodeTime) := by
  have reported : ∀ t : State, t.peerChanged before e' = _ := fun t => t.peerChanged_eq before small
  unfold State.takeHead
  simp only [inForce, Option.getD_some, allocated, reported]
  split <;> rfl

end

/-! ### A new entry (R98, R99, R105) -/

/-- The entry of a HEAD that arrives in slot `a` from a sender with none, before the ring allocation (R99). -/
def Head.entry (h : Head) (a : Nat × Nat) : PeerEntry :=
  { id := h.sender, role := some h.role, state := .live, slotsHeard := BitVec.ofNat 32 (2 ^ a.2), lastHeard := a, heard := true
    missed := 0, repTb := h.tbState, repOcc := h.occState, repCycle := h.cycle, repEpoch := h.epoch, repLatest := h.latestObs
    homeId := if h.role = Role.base then h.homeId else 0
    easting := if h.role = Role.base then h.easting else 0
    northing := if h.role = Role.base then h.northing else 0
    height := if h.role = Role.base then h.height else 0
    epoch := some h.epoch }

theorem Head.entry_eq (h : Head) {a : Nat × Nat} (small : a.2 < 32) :
    (PeerEntry.identify { id := h.sender } h).hear h a = h.entry a := by
  rw [PeerEntry.identify_eq, PeerEntry.hear_eq small rfl, PeerEntry.heardFrom, PeerEntry.named, Head.entry]
  by_cases base : h.role = .base <;> simp [base]

/-- What the ring allocation makes of a new entry (R105): a BASE takes the lowest free ring, emptied, or is marked NO_RING. -/
structure Head.Enters (h : Head) (a : Nat × Nat) (x x' : Rings) (e' : PeerEntry) : Prop where
  rings : x' = e'.ring.elim x fun n => x.put n { owner := some h.sender, samples := [] }
  entry : e' = { h.entry a with ring := e'.ring, noRing := e'.noRing }
  rover : h.role = .rover → e'.ring = none ∧ e'.noRing = false
  free : h.role = .base → (∃ n, (x.get n).owner = none) → e'.noRing = false
    ∧ ∃ n, e'.ring = some n ∧ (x.get n).owner = none ∧ ∀ m, m.code < n.code → (x.get m).owner ≠ none
  full : h.role = .base → (∀ n, (x.get n).owner ≠ none) → e'.ring = none ∧ e'.noRing = true

theorem Head.enters (h : Head) (a : Nat × Nat) (x : Rings) :
    h.Enters a x (allocate x (h.entry a)).1 (allocate x (h.entry a)).2 := by
  cases role : h.role with
  | rover =>
    have rover : (h.entry a).role ≠ some .base := by simp [Head.entry, role]
    rw [allocate_kept (.inl rover)]
    exact ⟨rfl, rfl, fun _ => ⟨rfl, rfl⟩, fun base => by simp [role] at base, fun base => by simp [role] at base⟩
  | base =>
    have base : (h.entry a).role = some .base := congrArg some role
    have notRover : h.role ≠ .rover := by simp [role]
    cases first : x.firstFree with
    | none =>
      rw [allocate_none base rfl first]
      have owned := Rings.firstFree_none first
      exact ⟨rfl, rfl, fun rover => absurd rover notRover, fun _ ⟨n, free⟩ => absurd free (owned n), fun _ _ => ⟨rfl, rfl⟩⟩
    | some n =>
      rw [allocate_some base rfl first]
      obtain ⟨free, lowest⟩ := Rings.firstFree_some first
      exact ⟨rfl, rfl, fun rover => absurd rover notRover, fun _ _ => ⟨rfl, n, rfl, free, lowest⟩,
        fun _ full => absurd free (full n)⟩

/-- Settles O33: the entry is new (`State.judgeHead_new`), and its ring is the allocation's (`Head.enters`). -/
theorem headCreatesEntry : Obligations.HeadCreatesEntry := by
  intro s h a fits listening empty opened inForce slot other unknown room
  obtain ⟨⟨-, sender⟩, -⟩ := id fits
  cases allocated : allocate s.peers.rings (h.entry a) with
  | mk x' e' =>
    have enters : h.Enters a s.peers.rings x' e' := by
      have := h.enters a s.peers.rings
      rwa [allocated] at this
    have id' : e'.id = h.sender := by rw [enters.entry]; rfl
    have live : e'.state = .live := by rw [enters.entry]; rfl
    have verdict := State.judgeHead_new other (PeerTable.find_eq_none unknown) room
    rw [State.takeHead_eq inForce ((h.entry_eq slot).symm ▸ allocated) (by omega)] at verdict
    refine ⟨e', ?_, enters.entry, enters.rover, enters.free, enters.full⟩
    rw [exec_headReceived fits listening empty opened verdict, Port.reported, id', live, enters.rings]
    cases e'.ring <;> rfl

/-! ### A known entry (R98) -/

section

variable {s : State} {h : Head} {e : PeerEntry}

theorem PeerEntry.isMatch_iff : e.isMatch h = true ↔ e.role = some h.role ∧ (h.role = .base → e.homeId = h.homeId) := by
  unfold PeerEntry.isMatch
  cases role : h.role <;> simp

/-- The entry that a known sender's HEAD is taken into: in UNHEARD its identity is set afresh (R98, R99). -/
def PeerEntry.addressed (e : PeerEntry) (h : Head) : PeerEntry := if e.state = .unheard then e.named h else e

theorem PeerEntry.addressed_id (e : PeerEntry) (h : Head) : (e.addressed h).id = e.id := by
  unfold PeerEntry.addressed
  split <;> rfl

theorem PeerEntry.addressed_role
    (takes : e.state = .unheard ∨ ((e.state = .live ∨ e.state = .silent) ∧ e.isMatch h = true)) :
    (e.addressed h).role = some h.role := by
  unfold PeerEntry.addressed
  split
  · rfl
  · rename_i heard
    obtain ⟨-, matched⟩ := takes.resolve_left heard
    exact (PeerEntry.isMatch_iff.mp matched).1

/-- A known entry, in UNHEARD or matched, takes the HEAD. -/
theorem State.judgeHead_known (other : h.sender ≠ s.identity.nodeId) (known : s.peers.find h.sender = some e)
    (takes : e.state = .unheard ∨ ((e.state = .live ∨ e.state = .silent) ∧ e.isMatch h = true)) :
    s.judgeHead h = (s.takeHead (e.addressed h) (some e.state) h, true) := by
  rcases takes with unheard | ⟨heard, matched⟩
  · rw [judgeHead_unheard other known unheard, PeerEntry.addressed, if_pos unheard, PeerEntry.identify_eq, unheard]
  · have named : e.state ≠ .unheard := by rcases heard with state | state <;> simp [state]
    rw [judgeHead_heard other known heard, if_pos matched, PeerEntry.addressed, if_neg named]

/-- A known entry in LIVE or SILENT that is not matched takes none. -/
theorem State.judgeHead_clash (other : h.sender ≠ s.identity.nodeId) (known : s.peers.find h.sender = some e)
    (heard : e.state = .live ∨ e.state = .silent)
    (clash : e.role ≠ some h.role ∨ (h.role = .base ∧ e.homeId ≠ h.homeId)) :
    s.judgeHead h = (s.latch latchIdClash, false) := by
  rw [judgeHead_heard other known heard, if_neg]
  rw [PeerEntry.isMatch_iff]
  rintro ⟨role, home⟩
  exact clash.elim (· role) fun ⟨base, differs⟩ => differs (home base)

end

/-- Settles O34: a known entry takes the HEAD (`State.judgeHead_known`) with its ring allocated (`allocated_allocate`); the
refusals, one a case of the verdict. -/
theorem headJudged : Obligations.HeadJudged := by
  refine ⟨fun s h a e fits listening empty opened inForce slot other known takes => ?_, fun s listening empty opened =>
    ⟨fun h l fits hl => ?_, fun bytes length bad => ?_⟩⟩
  · obtain ⟨⟨-, sender⟩, -⟩ := id fits
    have takes : e.state = .unheard ∨ ((e.state = .live ∨ e.state = .silent) ∧ e.isMatch h = true) :=
      takes.imp id fun ⟨heard, identity⟩ => ⟨heard, PeerEntry.isMatch_iff.mpr identity⟩
    have heard := PeerEntry.hear_eq slot (PeerEntry.addressed_role takes)
    have allocation := allocated_allocate s.peers.rings ((e.addressed h).heardFrom h a)
    cases allocated : allocate s.peers.rings ((e.addressed h).heardFrom h a) with
    | mk x' e' =>
      obtain ⟨kept, lives⟩ := allocate_id_state s.peers.rings ((e.addressed h).heardFrom h a)
      rw [allocated] at allocation kept lives
      have id' : e'.id = h.sender := kept.trans ((e.addressed_id h).trans (PeerTable.id_of_find known))
      have live : e'.state = .live := lives
      have verdict := State.judgeHead_known other known takes
      rw [State.takeHead_eq inForce (heard.symm ▸ allocated) (by omega)] at verdict
      refine ⟨x', e', allocation, ?_⟩
      rw [exec_headReceived fits listening empty opened verdict, Port.reported, PeerTable.replace, id', live]
      simp only [Option.some.injEq]
      rfl
  · subst hl
    refine ⟨fun own => ?_, fun other unknown full => ?_, fun e other known => ⟨fun dropped => ?_, fun heard clash => ?_⟩⟩
    · exact exec_headReceived fits listening empty opened (State.judgeHead_own own)
    · exact exec_headReceived fits listening empty opened
        (State.judgeHead_full other (PeerTable.find_eq_none unknown) full)
    · exact exec_headReceived fits listening empty opened (State.judgeHead_dropped other known dropped)
    · exact exec_headReceived fits listening empty opened (State.judgeHead_clash other known heard clash)
  · exact exec_headReceived_bad listening empty opened length (bad.elim (parseHead_bad length) id)

end Sys2Proof.Machine
end

