-- ==== Sys2Proof/Proofs/EngineBounds.lean ====
section
/-! PROOF. The engine's lists keep within their capacities: the CLOSING slots 2 loops and each loop of the slots 64 members
(R137, R140), the pending list 32 entries (R162). One lemma per piece of an event's work, then every move, then every step. -/

namespace Sys2Proof.Machine

/-! ### The loop table (R137, R140) -/

/-- The CLOSING slots and the members of the loops in the slots, within their capacities. -/
structure LoopTable.Fits (t : LoopTable) : Prop where
  count : t.closing.length ≤ 2
  closed : ∀ l ∈ t.closing, l.members.length ≤ 64
  opened : ∀ l ∈ t.openLoop, l.members.length ≤ 64

theorem LoopTable.fits_iff (t : LoopTable) : t.Fits ↔ t.closing.length ≤ 2 ∧ ∀ l ∈ t.slots, l.members.length ≤ 64 := by
  constructor
  · rintro ⟨count, closed, opened⟩
    exact ⟨count, List.forall_mem_append.mpr ⟨closed, fun l hl => opened l (Option.mem_toList.mp hl)⟩⟩
  · rintro ⟨count, slots⟩
    obtain ⟨closed, opened⟩ := List.forall_mem_append.mp slots
    exact ⟨count, closed, fun l hl => opened l (Option.mem_toList.mpr hl)⟩

namespace Loop

theorem withRate_members (cfg : DriftConfig) (before : Int) (l : Loop) (c : Tie) :
    (l.withRate cfg before c).members = l.members := by
  unfold withRate
  split <;> rfl

end Loop

theorem recompute_members (cfg : DriftConfig) (older : Option Loop) (before : Int) (q : List Loop) :
    (recompute cfg older before q).map Loop.members = q.map Loop.members := by
  induction q generalizing older before with
  | nil => rfl
  | cons l q ih =>
    unfold recompute
    simp only [List.map_cons, ih]
    split
    · rw [Loop.withRate_members]
    · rfl

namespace LoopTable.Fits

variable {t t' : LoopTable} {w : Work} {cfg : DriftConfig}

/-- Fewer CLOSING loops, with the members that they had. -/
theorem fewer (h : t.Fits) (members : (t'.closing.map Loop.members).Sublist (t.closing.map Loop.members))
    (opened : ∀ l ∈ t'.openLoop, l.members.length ≤ 64) : t'.Fits where
  count := by simpa using members.length_le.trans (by simpa using h.count)
  closed := fun l hl => by
    obtain ⟨o, ho, same⟩ := List.mem_map.mp (members.subset (List.mem_map_of_mem hl))
    exact same ▸ h.closed o ho
  opened := opened

/-- The OPEN loop changed in what is not its members. -/
theorem opened_map (h : t.Fits) {f : Loop → Loop} (members : ∀ l, (f l).members = l.members) :
    ∀ l ∈ t.openLoop.map f, l.members.length ≤ 64 := by
  intro l hl
  obtain ⟨o, ho, rfl⟩ := Option.mem_map.mp hl
  exact members o ▸ h.opened o ho

theorem follow (h : t.Fits) (log : List Record) : (t.follow log).Fits := by
  refine h.fewer ?_ (h.opened_map fun _ => rfl)
  simp [LoopTable.follow, Loop.follow, Function.comp_def]

theorem cascade (h : t.Fits) : (t.cascade cfg).Fits := by
  refine h.fewer ?_ (h.opened_map fun _ => rfl)
  simp [LoopTable.cascade, recompute_members]

theorem passTies (h : w.loops.Fits) : (w.passTies cfg).loops.Fits := by
  unfold Work.passTies
  simp only
  split
  · exact h.follow w.log
  · exact (h.follow w.log).cascade

theorem freezeOldest (h : w.loops.Fits) (forced : Bool) : (w.freezeOldest forced).loops.Fits := by
  unfold Work.freezeOldest
  split
  · exact h
  · rename_i l rest closing
    refine h.fewer ?_ (h.opened_map fun _ => rfl)
    simp [closing]

theorem freezeReady (n : Nat) {w : Work} (h : w.loops.Fits) : (Machine.freezeReady n w).loops.Fits := by
  induction n generalizing w with
  | zero => exact h
  | succ n ih =>
    unfold Machine.freezeReady
    split
    · exact h
    · split
      · exact ih (h.freezeOldest false)
      · exact h

theorem settleLoops (h : w.loops.Fits) : (w.settleLoops cfg).loops.Fits := h.passTies.freezeReady _

theorem abandon (h : w.loops.Fits) (l : Loop) : (w.abandon l).loops.Fits :=
  h.fewer (.refl _) fun _ hl => nomatch hl

theorem finishLoops (h : w.loops.Fits) : w.finishLoops.loops.Fits := by
  unfold Work.finishLoops
  simp only
  split
  · exact (h.abandon _).freezeReady _
  · exact h.freezeReady _

/-- A loop opened has no members. -/
theorem openAt (h : t.Fits) (tie : Tie) (dO : Int) (joined unmatched : Bool) : (t.openAt tie dO joined unmatched).Fits := by
  refine h.fewer (.refl _) fun l hl => ?_
  obtain rfl := Option.mem_some.mp hl
  exact Nat.zero_le _

theorem openFresh (h : w.loops.Fits) (tie : Tie) (unmatched : Bool) : (w.openFresh tie unmatched).loops.Fits := h.openAt ..

/-- Before a loop closes the oldest CLOSING loop is frozen from full slots, so that one is free (R144). -/
theorem freezeOldest_room (h : w.loops.Fits) :
    (if 2 ≤ w.loops.closing.length then w.freezeOldest true else w).loops.closing.length ≤ 1 := by
  split
  · have := h.count
    unfold Work.freezeOldest
    split
    · rename_i closing
      simp [closing]
    · rename_i closing
      simp only [closing, List.length_cons] at this ⊢
      omega
  · omega

theorem close (h : w.loops.Fits) {l : Loop} (openLoop : w.loops.openLoop = some l) (tie : Tie) :
    (w.close cfg l tie).loops.Fits := by
  have room := h.freezeOldest_room
  have kept : (if 2 ≤ w.loops.closing.length then w.freezeOldest true else w).loops.Fits := by
    split
    · exact h.freezeOldest true
    · exact h
  unfold Work.close
  simp only
  refine freezeReady _ (openAt ⟨?_, List.forall_mem_append.mpr ⟨kept.closed, List.forall_mem_singleton.mpr ?_⟩, ?_⟩ _ _ _ _)
  · rw [List.length_append, List.length_singleton]
    omega
  · rw [Loop.withRate_members]
    exact h.opened l openLoop
  · exact fun _ hl => nomatch hl

theorem placeNonTie (h : w.loops.Fits) (n mid : Nat) : (w.placeNonTie n mid).loops.Fits := by
  unfold Work.placeNonTie
  split
  · exact h
  · split
    · rename_i short
      refine h.fewer (.refl _) fun l hl => ?_
      obtain rfl := Option.mem_some.mp hl
      simpa using short
    · exact h.abandon _

theorem placeTie (h : w.loops.Fits) (tie : Tie) : (w.placeTie cfg tie).loops.Fits := by
  unfold Work.placeTie
  split
  · exact h.openFresh ..
  · rename_i l openLoop
    split
    · exact h.close openLoop tie
    · exact (h.abandon l).openFresh ..

theorem placeDrift (h : w.loops.Fits) (n : Nat) : (w.placeDrift cfg n).loops.Fits := by
  unfold Work.placeDrift
  split
  · exact h
  · split
    · exact h
    · split
      · exact h
      · split
        · exact h.placeTie _
        · exact h.placeNonTie ..

theorem firstReduction (s : State) (x : HandOff) (h : w.loops.Fits) : (Machine.firstReduction s x w).loops.Fits := by
  unfold Machine.firstReduction
  refine placeDrift (settleLoops ?_) _
  rw [settleEntry_loops]
  exact h

end LoopTable.Fits

/-! ### The loops' work leaves the pending list -/

namespace Work

theorem settleLoops_waiting (w : Work) (cfg : DriftConfig) : (w.settleLoops cfg).waiting = w.waiting :=
  (w.settleLoops_termKeys cfg).2

theorem freezeOldest_waiting (w : Work) (forced : Bool) : (w.freezeOldest forced).waiting = w.waiting := by
  unfold freezeOldest
  split <;> rfl

theorem close_waiting (w : Work) (cfg : DriftConfig) (l : Loop) (tie : Tie) : (w.close cfg l tie).waiting = w.waiting := by
  unfold close
  refine (freezeReady_waiting _).trans ?_
  simp only [reformAll, modify]
  split
  · exact w.freezeOldest_waiting true
  · rfl

theorem placeTie_waiting (w : Work) (cfg : DriftConfig) (tie : Tie) : (w.placeTie cfg tie).waiting = w.waiting := by
  unfold placeTie
  split
  · rfl
  · split
    · exact w.close_waiting ..
    · rfl

theorem placeNonTie_waiting (w : Work) (n mid : Nat) : (w.placeNonTie n mid).waiting = w.waiting := by
  unfold placeNonTie
  split
  · rfl
  · split <;> rfl

theorem placeDrift_waiting (w : Work) (cfg : DriftConfig) (n : Nat) : (w.placeDrift cfg n).waiting = w.waiting := by
  unfold placeDrift
  split
  · rfl
  · split
    · rfl
    · split
      · rfl
      · split
        · exact w.placeTie_waiting ..
        · exact w.placeNonTie_waiting ..

end Work

/-! ### The pending list (R162, R163) -/

/-- The pending list within its capacity (R162). -/
def Work.Holds (w : Work) : Prop := w.waiting.length ≤ 32

namespace Work.Holds

variable {w w' : Work}

/-- Fewer entries. -/
theorem fewer (h : w.Holds) (waiting : w'.waiting.Sublist w.waiting) : w'.Holds := waiting.length_le.trans h

theorem leave (h : w.Holds) (n : Nat) : (w.leave n).Holds := h.fewer List.filter_sublist

theorem makeFinal (h : w.Holds) (flag : RecordFlags → RecordFlags) (n : Nat) : (w.makeFinal flag n).Holds :=
  h.fewer List.filter_sublist

/-- An entry joins a list that is not full, or takes the place of one that is forced (R163). -/
theorem enter (h : w.Holds) (e : PendingEntry) : (w.enter e).Holds := by
  have grows : ∀ l : List PendingEntry, (insertBy PendingEntry.older e l).length = l.length + 1 :=
    fun l => (insertBy_perm _ _ l).length_eq
  unfold Work.enter
  split
  · rename_i room
    exact (grows _).trans_le room
  · split
    · exact h
    · rename_i oldest rest waiting
      simp only
      split
      · exact h.makeFinal ..
      · have left : (w.makeFinal flagForced oldest.occ).waiting = rest.filter fun e => e.occ ≠ oldest.occ := by
          simp [Work.makeFinal, Work.leave, Work.modify, waiting]
        have full : rest.length + 1 ≤ 32 := by simpa [Work.Holds, waiting] using h
        have := List.length_filter_le (fun e : PendingEntry => e.occ ≠ oldest.occ) rest
        show (insertBy PendingEntry.older e _).length ≤ 32
        rw [grows, left]
        omega

theorem foldl {α : Type} {f : Work → α → Work} (step : ∀ (w : Work) a, w.Holds → (f w a).Holds) (l : List α) {w : Work}
    (h : w.Holds) : (l.foldl f w).Holds := by
  induction l generalizing w with
  | nil => exact h
  | cons a l ih => exact ih (step w a h)

theorem reevaluate (s : State) (h : w.Holds) (n : Nat) : (Machine.reevaluate s w n).Holds := by
  unfold Machine.reevaluate
  split
  · exact h
  · split
    · exact h
    · simp only
      split
      · exact h.fewer List.filter_sublist
      · exact h

theorem reevaluateAll (s : State) (h : w.Holds) : (Machine.reevaluateAll s w).Holds := foldl (fun _ n h => h.reevaluate s n) _ h

theorem expireOne (s : State) (h : w.Holds) (n : Nat) : (Machine.expireOne s w n).Holds := by
  unfold Machine.expireOne
  split
  · simp only
    split
    · exact (h.reevaluate s n).makeFinal _ _
    · exact h.reevaluate s n
  · exact h

theorem settleEntry (h : w.Holds) (n : Nat) : (Machine.settleEntry w n).Holds := by
  unfold Machine.settleEntry
  split
  · exact h
  · split
    · exact h
    · split
      · exact h.leave n
      · split
        · exact h
        · exact h.enter _

theorem leaveWhenFinal (h : w.Holds) (n : Nat) : (Machine.leaveWhenFinal w n).Holds := by
  unfold Machine.leaveWhenFinal
  split
  · exact h
  · split
    · exact h.leave n
    · exact h

theorem coherenceLoss (s : State) (h : w.Holds) (peer series : Nat) : (Machine.coherenceLoss s w peer series).Holds :=
  foldl (fun _ n h => h.settleEntry n) _ (foldl (fun _ n h => h.leaveWhenFinal n) _ (h.fewer (.refl _)))

theorem applyChange (s : State) (wf : Work × List Nat) (c : FoldChange) (h : wf.1.Holds) : (Machine.applyChange s wf c).1.Holds := by
  unfold Machine.applyChange
  split
  · exact h
  · exact h.coherenceLoss ..
  · exact h

theorem takeReport (s : State) (h : w.Holds) (report : List FoldChange) : (Machine.takeReport s report w).Holds := by
  have changes : ∀ (l : List FoldChange) (wf : Work × List Nat), wf.1.Holds → (l.foldl (Machine.applyChange s) wf).1.Holds := by
    intro l
    induction l with
    | nil => exact fun _ h => h
    | cons c l ih => exact fun wf h => ih _ (applyChange s wf c h)
  unfold Machine.takeReport
  simp only
  split
  · exact changes _ _ h
  · exact (changes _ _ h).reevaluateAll s

theorem settleLoops (h : w.Holds) (cfg : DriftConfig) : (w.settleLoops cfg).Holds := h.fewer (by rw [w.settleLoops_waiting])

theorem firstReduction (s : State) (x : HandOff) (h : w.Holds) : (Machine.firstReduction s x w).Holds := by
  unfold Machine.firstReduction
  refine fewer ((settleEntry (h.fewer ?_) _).settleLoops s.driftCfg) (by rw [Work.placeDrift_waiting])
  exact .refl _

end Work.Holds

/-! ### Every move and every step -/

/-- The engine's lists within their capacities. -/
structure Engine.Fits (e : Engine) : Prop where
  loops : e.loops.Fits
  waiting : e.waiting.length ≤ 32

theorem Engine.Fits.of_same {e e' : Engine} (h : e.Fits) (loops : e'.loops = e.loops) (waiting : e'.waiting = e.waiting) : e'.Fits :=
  ⟨loops ▸ h.loops, waiting ▸ h.waiting⟩

theorem State.engineEvent_fits {s : State} {f : Work → Work} (loops : (f s.eng.work).loops.Fits) (waiting : (f s.eng.work).Holds) :
    (s.engineEvent f).eng.Fits := by
  rw [State.engineEvent_eq]
  exact ⟨loops, waiting⟩

theorem State.handOff_fits {s : State} (h : s.eng.Fits) (x : HandOff) : (s.handOff x).eng.Fits := by
  unfold State.handOff
  split
  · exact h.of_same rfl rfl
  · split
    · exact h.of_same rfl rfl
    · exact State.engineEvent_fits (.firstReduction s x h.loops) (.firstReduction s x h.waiting)

theorem State.Moves.fits {s t : State} (moves : s.Moves t) (h : s.eng.Fits) : t.eng.Fits := by
  obtain ⟨loops, waiting⟩ := h
  have holds : s.eng.work.Holds := waiting
  cases moves with
  | still _ still => exact Engine.Fits.of_same ⟨loops, waiting⟩ still.loops still.waiting
  | starts _ _ waiting' loops' => exact Engine.Fits.of_same ⟨loops, waiting⟩ loops' waiting'
  | reports r =>
    exact State.engineEvent_fits (.settleLoops (by rwa [takeReport_loops])) ((holds.takeReport s r).settleLoops _)
  | reselects =>
    exact State.engineEvent_fits (.settleLoops (by rwa [reevaluateAll_loops])) ((holds.reevaluateAll s).settleLoops _)
  | expires occs =>
    exact State.engineEvent_fits (.settleLoops (by rwa [foldl_loops (expireOne_loops s)]))
      ((Work.Holds.foldl (fun _ n h => h.expireOne s n) occs holds).settleLoops _)
  | finishes =>
    refine State.engineEvent_fits (.finishLoops (.passTies ?_)) ?_
    · rwa [foldl_loops (f := fun w n => w.makeFinal flagFinished n) fun _ _ => rfl]
    · unfold Work.Holds
      rw [Work.finishLoops_waiting, Work.passTies_eq]
      exact (congrArg List.length (Work.Queued.finished s.eng.work)).trans_le (Nat.zero_le _)
  | ends _ reason flag endTime =>
    obtain ⟨u, x, -, eng, -, -, ended⟩ := s.endOccupation_eng reason flag endTime
    rw [ended]
    exact (State.handOff_fits (s := u) (eng ▸ ⟨loops, waiting⟩) x).of_same rfl rfl

theorem State.Evolves.fits {s t : State} (evolves : s.Evolves t) (h : s.eng.Fits) : t.eng.Fits := by
  induction evolves with
  | refl => exact h
  | tail _ moves ih => exact moves.fits ih

/-- Every step keeps the engine's lists within their capacities; a cleared engine holds none. -/
theorem State.Evolution.fits {s t : State} (evolution : s.Evolution t) (h : s.eng.Fits) : t.eng.Fits := by
  cases evolution with
  | evolves evolves => exact evolves.fits h
  | cleared eng =>
    rw [eng]
    constructor
    · constructor <;> simp
    · simp
  | loaded _ still => exact h.of_same still.loops still.waiting

end Sys2Proof.Machine
end

