-- ==== Sys2Proof/Proofs/LogBound.lean ====
section
/-! PROOF. O51, over the capacities of the link, the stores and the engine: the log keeps to 512 records. Those that are REDUCED
are pending or hang on a loop of the slots, so they are few (R155, R161), and a step adds at most two to them; so an eviction at a
full log always finds a record that is not. -/

namespace Sys2Proof.Machine

/-! ### The REDUCED records of a log -/

/-- How many records of a log are REDUCED. -/
def reducedCount (log : List Record) : Nat := log.countP fun r => r.state = .reduced

theorem reducedCount_append (log : List Record) (own : Record) : reducedCount (log ++ [own]) ≤ reducedCount log + 1 := by
  unfold reducedCount
  rw [List.countP_append]
  exact Nat.add_le_add_left List.countP_le_length _

/-- Changes that make no record REDUCED. -/
theorem reducedCount_map_le {log : List Record} {f : Record → Record}
    (kept : ∀ r ∈ log, (f r).state = .reduced → r.state = .reduced) : reducedCount (log.map f) ≤ reducedCount log := by
  unfold reducedCount
  rw [List.countP_map]
  exact List.countP_mono_left fun r hr => by simpa using kept r hr

/-- The end of an event makes no record REDUCED (R165). -/
theorem Record.reduced_of_close {r : Record} {o : Option Record} (h : (r.close o).state = .reduced) : r.state = .reduced := by
  by_contra other
  rw [Record.close_other o other] at h
  exact other h

theorem reducedCount_closeLog (before log : List Record) : reducedCount (closeLog before log) ≤ reducedCount log :=
  reducedCount_map_le fun _ _ h => Record.reduced_of_close h

theorem Work.Alters.reducedCount_le {w w' : Work} (alters : w.Alters w') : reducedCount w'.log ≤ reducedCount w.log := by
  obtain ⟨φ, log, changed⟩ := alters
  rw [log]
  exact reducedCount_map_le fun r hr h => (changed r hr).state ▸ h

theorem Work.Alters.length_eq {w w' : Work} (alters : w.Alters w') : w'.log.length = w.log.length := by
  obtain ⟨φ, log, -⟩ := alters
  rw [log, List.length_map]

/-! ### Eviction (R161) -/

theorem reducedCount_evict (log : List Record) : reducedCount (evict log) ≤ reducedCount log :=
  (evict_sublist log).countP_le

/-- A full log of which not every record is REDUCED makes room for one more. -/
theorem evict_room {log : List Record} (few : reducedCount log < 512) (short : log.length ≤ 512) :
    (evict log).length < 512 := by
  unfold evict
  split
  · assumption
  · rename_i full
    have some_ : ∃ r ∈ log, r.state ≠ .reduced := by
      by_contra none_
      push Not at none_
      have all : reducedCount log = log.length := List.countP_eq_length.mpr fun r hr => by simpa using none_ r hr
      omega
    obtain ⟨r, hr, other⟩ := some_
    rw [List.length_eraseP_of_mem hr (by simpa using other)]
    omega

/-- A record joins the log: those that stand are evicted from a full one and changed, none made REDUCED. -/
def LogTakes (log log' : List Record) : Prop :=
  ∃ (χ : Record → Record) (own : Record), log' = (evict log).map χ ++ [own]
    ∧ ∀ o ∈ evict log, (χ o).state = .reduced → o.state = .reduced

namespace LogTakes

variable {log log' : List Record}

theorem bare (log : List Record) (own : Record) : LogTakes log (evict log ++ [own]) :=
  ⟨id, own, by rw [List.map_id], fun _ _ => id⟩

theorem reducedCount_le (h : LogTakes log log') : reducedCount log' ≤ reducedCount log + 1 := by
  obtain ⟨χ, own, rfl, kept⟩ := h
  exact (reducedCount_append _ _).trans
    (Nat.add_le_add_right ((reducedCount_map_le kept).trans (reducedCount_evict log)) 1)

theorem length_le (h : LogTakes log log') (few : reducedCount log < 512) (short : log.length ≤ 512) : log'.length ≤ 512 := by
  obtain ⟨χ, own, rfl, -⟩ := h
  have := evict_room few short
  simpa using this

end LogTakes

/-- A hand-off writes one record (R155, R157 to R160). -/
theorem LogSound.handOff_takes {s : State} (sound : LogSound s) (busy : s.ctl.state ≠ .idle) {h : HandOff}
    (occ : h.occ = s.ctl.occNumber) : LogTakes s.eng.log (s.handOff h).eng.log := by
  cases reason : h.reason with
  | some _ =>
    simp only [State.handOff, reason]
    exact .bare ..
  | none =>
    rw [State.handOff_none s reason]
    show LogTakes _ (s.handedOff h).log
    unfold State.handedOff
    split
    · exact .bare ..
    · have fresh : ∀ r ∈ s.eng.log, r.number < h.occ := occ ▸ sound.occupation_fresh busy
      obtain ⟨forced, after, loopNo, d, frozen, unmatched, first⟩ := firstReduced sound fresh
      obtain ⟨ψ, closed, joins⟩ := first.log sound fresh
      exact ⟨_, _, closed, fun o ho h => (joins o ho).changed.state ▸ Record.reduced_of_close h⟩

/-! ### What a run of moves adds -/

/-- One while an occupation is in progress: the record that it is to write. -/
def State.toCome (s : State) : Nat := if s.ctl.state = .idle then 0 else 1

theorem State.toCome_le (s : State) : s.toCome ≤ 1 := by
  unfold toCome
  split <;> omega

/-- A run adds to the REDUCED records, and to those to come, at most one for each occupation that it starts; and the log keeps to
512 records while these stay below that. -/
structure State.Logs (s t : State) : Prop where
  number : s.ctl.occNumber ≤ t.ctl.occNumber
  reduced : reducedCount t.eng.log + t.toCome + s.ctl.occNumber ≤ reducedCount s.eng.log + s.toCome + t.ctl.occNumber
  short : reducedCount s.eng.log + s.toCome + t.ctl.occNumber < 512 + s.ctl.occNumber → s.eng.log.length ≤ 512 →
    t.eng.log.length ≤ 512

namespace State.Logs

variable {s t u : State}

theorem trans (h : s.Logs t) (h' : t.Logs u) : s.Logs u where
  number := h.number.trans h'.number
  reduced := by
    have := h.reduced
    have := h'.reduced
    omega
  short := fun few short => by
    have := h.reduced
    have := h'.number
    exact h'.short (by omega) (h.short (by omega) short)

/-- A move that keeps the log's length and adds no REDUCED record. -/
theorem of_length_eq (number : s.ctl.occNumber ≤ t.ctl.occNumber) (toCome : t.toCome + s.ctl.occNumber ≤ s.toCome + t.ctl.occNumber)
    (reduced : reducedCount t.eng.log ≤ reducedCount s.eng.log) (length : t.eng.log.length = s.eng.log.length) : s.Logs t :=
  ⟨number, by omega, fun _ short => length.trans_le short⟩

theorem refl (s : State) : s.Logs s := of_length_eq le_rfl le_rfl le_rfl rfl

theorem still (sound : LogSound s) (h : s.Still t) : s.Logs t := by
  obtain ⟨idle, -⟩ := h.idle sound.parked
  have toCome : t.toCome = s.toCome := by simp only [State.toCome, idle]
  exact of_length_eq h.number.ge (by rw [toCome, h.number]) (by rw [h.log]) (by rw [h.log])

theorem starts (log : t.eng.log = s.eng.log) (idle : s.ctl.state = .idle) (number : t.ctl.occNumber = s.ctl.occNumber + 1) :
    s.Logs t := by
  have none_ : s.toCome = 0 := if_pos idle
  have := t.toCome_le
  exact of_length_eq (by omega) (by omega) (by rw [log]) (by rw [log])

theorem engineEvent {f : Work → Work} (alters : s.eng.work.Alters (f s.eng.work)) : s.Logs (s.engineEvent f) := by
  rw [State.engineEvent_eq]
  refine of_length_eq le_rfl le_rfl ((reducedCount_closeLog ..).trans alters.reducedCount_le) ?_
  exact (List.length_map _).trans alters.length_eq

theorem ends (sound : LogSound s) (busy : s.ctl.state ≠ .idle) (reason : Option AbortReason) (flag : RecordFlags → RecordFlags)
    (endTime : Nat) : s.Logs (s.endOccupation reason flag endTime) := by
  obtain ⟨idle, -, number⟩ := s.endOccupation_idles reason flag endTime
  obtain ⟨u, h, -, eng, still, occ, ended⟩ := s.endOccupation_eng reason flag endTime
  obtain ⟨soundU, -⟩ := sound.still still
  have busyU : u.ctl.state ≠ .idle := fun idleU => busy ((still.idle sound.parked).1.mp idleU)
  have takes : LogTakes s.eng.log (s.endOccupation reason flag endTime).eng.log := by
    rw [ended, ← eng]
    exact soundU.handOff_takes busyU (occ.trans still.number.symm)
  have one : s.toCome = 1 := if_neg busy
  have none_ : (s.endOccupation reason flag endTime).toCome = 0 := if_pos idle
  refine ⟨number.ge, ?_, fun few short => takes.length_le (by omega) short⟩
  have := takes.reducedCount_le
  omega

theorem moves (sound : LogSound s) (moves : s.Moves t) : s.Logs t := by
  have ready := sound.ready
  cases moves with
  | still _ h => exact still sound h
  | starts _ log _ _ idle _ number => exact starts log idle number
  | reports r => exact engineEvent (.trans (.of_reterms (.takeReport s ready sound.nodup r)) (.settleLoops _ _))
  | reselects => exact engineEvent (.trans (.of_reterms (.reevaluateAll s ready)) (.settleLoops _ _))
  | expires occs => exact engineEvent (.trans (.of_reterms (.expireAll s occs ready)) (.settleLoops _ _))
  | finishes => exact engineEvent (.trans (.of_reterms (.finishAll ready)) (.trans (.passTies _ _) (.finishLoops _)))
  | ends busy reason flag endTime => exact ends sound (busy sound.parked) reason flag endTime

theorem evolves (sound : LogSound s) (evolves : s.Evolves t) : s.Logs t := by
  induction evolves with
  | refl => exact refl s
  | tail run last ih => exact ih.trans (moves (sound.evolves run).1 last)

/-- What a command adds; a cleared log is empty. -/
theorem evolution (sound : LogSound s) (evolution : s.Evolution t) : t.eng.log = [] ∨ s.Logs t := by
  cases evolution with
  | evolves run => exact .inr (evolves sound run)
  | cleared eng => exact .inl (by rw [eng])
  | loaded _ h => exact .inr (still sound h)

end State.Logs

/-! ### How many records are REDUCED (R162, R165) -/

/-- The occupations that hang on a loop: its members and its closing tie (R139). -/
def Loop.hanging (l : Loop) : List Nat := l.members ++ (l.closingTie.map Tie.occ).toList

theorem Loop.hanging_length (l : Loop) : l.hanging.length ≤ l.members.length + 1 := by
  unfold hanging
  cases l.closingTie <;> simp

/-- The occupations that are pending or hang on a loop of the slots. -/
def Engine.unsettled (e : Engine) : List Nat := e.waiting.map PendingEntry.occ ++ e.loops.slots.flatMap Loop.hanging

theorem Engine.Fits.unsettled_length {e : Engine} (h : e.Fits) : e.unsettled.length ≤ 227 := by
  obtain ⟨fits, waiting⟩ := h
  obtain ⟨count, members⟩ := e.loops.fits_iff.mp fits
  have slots : e.loops.slots.length ≤ 3 := by
    unfold LoopTable.slots
    rw [List.length_append]
    cases e.loops.openLoop <;> simp <;> omega
  have hanging : (e.loops.slots.flatMap Loop.hanging).length ≤ e.loops.slots.length * 65 := by
    rw [List.length_flatMap]
    refine (List.sum_le_card_nsmul _ 65 (List.forall_mem_map.mpr fun l hl => ?_)).trans_eq (by simp)
    exact l.hanging_length.trans (Nat.succ_le_succ (members l hl))
  unfold unsettled
  rw [List.length_append, List.length_map]
  omega

/-- A REDUCED record is pending or hangs on a loop of the slots, or it would be sealed. -/
theorem reduced_unsettled {s : State} (sound : LogSound s) (formed : RecordsFormed s) (drift : DriftSound s) {r : Record}
    (hr : r ∈ s.eng.log) (reduced : r.state = .reduced) : r.number ∈ s.eng.unsettled := by
  obtain ⟨open_, -⟩ := drift
  obtain ⟨x, hx⟩ := Option.isSome_iff_exists.mp ((sound.sound r hr).isSome reduced)
  obtain ⟨-, -, unsealed⟩ := formed r hr x hx
  obtain ⟨pending, placed⟩ := open_ r hr reduced x hx
  cases final : x.term.final with
  | false =>
    obtain ⟨e, he, same⟩ := pending final
    exact List.mem_append_left _ (same ▸ List.mem_map_of_mem he)
  | true =>
    have unfrozen : x.driftFrozen = false := by simpa [final] using unsealed reduced
    obtain ⟨l, hl, hangs⟩ := placed unfrozen
    refine List.mem_append_right _ (List.mem_flatMap.mpr ⟨l, hl, List.mem_append.mpr (hangs.imp_right ?_)⟩)
    rintro ⟨c, hc, same⟩
    exact Option.mem_toList.mpr (Option.mem_map.mpr ⟨c, hc, same⟩)

theorem reducedCount_le {s : State} (fits : s.eng.Fits) (sound : LogSound s) (formed : RecordsFormed s) (drift : DriftSound s) :
    reducedCount s.eng.log ≤ 227 := by
  have nodup : ((s.eng.log.filter fun r => r.state = .reduced).map Record.number).Nodup :=
    sound.nodup.sublist (List.filter_sublist.map _)
  have sub : (s.eng.log.filter fun r => r.state = .reduced).map Record.number ⊆ s.eng.unsettled := by
    refine List.forall_mem_map.mpr fun r hr => ?_
    obtain ⟨hr, reduced⟩ := List.mem_filter.mp hr
    exact reduced_unsettled sound formed drift hr (by simpa using reduced)
  have few := (nodup.subperm sub).length_le
  rw [List.length_map, ← List.countP_eq_length_filter] at few
  exact few.trans fits.unsettled_length

/-! ### Every step -/

/-- `Bounded` in its parts. -/
theorem bounded_iff (s : State) :
    Bounded s ↔ s.link.Bounded ∧ s.peers.Bounded ∧ s.eng.home.samples.length ≤ 128 ∧ s.eng.Fits := by
  constructor
  · rintro ⟨quiet, inq, entries, r0, r1, r2, r3, home, closing, members, waiting⟩
    exact ⟨⟨quiet, inq⟩, ⟨entries, (Rings.bounded_iff _).mpr ⟨r0, r1, r2, r3⟩⟩, home,
      (LoopTable.fits_iff _).mpr ⟨closing, members⟩, waiting⟩
  · rintro ⟨⟨quiet, inq⟩, ⟨entries, rings⟩, home, loops, waiting⟩
    obtain ⟨r0, r1, r2, r3⟩ := (Rings.bounded_iff _).mp rings
    obtain ⟨closing, members⟩ := (LoopTable.fits_iff _).mp loops
    exact ⟨quiet, inq, entries, r0, r1, r2, r3, home, closing, members, waiting⟩

/-- Settles O51: the link and the stores by what a step changes of them (`step_confines`), the engine's lists move by move
(`State.Evolution.fits`); and the log, since a step that starts at most one occupation leaves at most 229 records REDUCED
(`reducedCount_le`, `State.Logs`). -/
theorem capacitiesKept : Obligations.CapacitiesKept := by
  intro s t bounded h
  have kept := step_confines h
  have evolution := State.Evolution.step h
  obtain ⟨link, peers, home, fits⟩ := (bounded_iff s).mp bounded
  refine ⟨(bounded_iff t).mpr ⟨kept.link link, kept.peers peers, kept.home home, evolution.fits fits⟩,
    fun sound formed _ drift short => ?_⟩
  obtain empty | logs := State.Logs.evolution sound evolution
  · rw [empty]
    exact Nat.zero_le _
  · have few := reducedCount_le fits sound formed drift
    have one := s.toCome_le
    have started := kept.number
    exact logs.short (by omega) short

end Sys2Proof.Machine
end
